-- ==== Sys2Proof/Word.lean ====
section
/-! DEFINITION. The widths in which the block's values are held (R8, R9): everything is unsigned. -/

namespace Sys2Proof

/-- 8 bits: the unit of every transfer and of host memory (R8, R42). -/
abbrev Byte := BitVec 8

/-- 16 bits: a descriptor's LEN or PTR field (R62). -/
abbrev Half := BitVec 16

/-- 32 bits: a register of the register block, the Timeout Clock (R27, R36). -/
abbrev Word := BitVec 32

/-- 64 bits: a command descriptor (R62). -/
abbrev Descriptor := BitVec 64

/-- A one-bit value as a bit: 1 when set (R8). -/
def bit (b : Bool) : BitVec 1 := BitVec.ofBool b

end Sys2Proof
end

