-- ==== Sys2Proof/Config.lean ====
section
/-! DEFINITION. The constants of R6, the parameters of R7, the choices of the environment and of the
scheduler, and the free values. A constant declared `opaque` here has no body: nothing about it can be
proved but what its type says. -/

namespace Sys2Proof

namespace Config

/-! ### Constants of R6 -/

/-- `RXCAP`, the receive buffer's capacity in bytes (R6). -/
abbrev rxCap : Nat := 256
/-- `T_OP`, the budget of every wait inside a transaction, in ticks (R6, R94). -/
abbrev tOp : Nat := 1000
/-- `T_SCAN`, the budget of every wait inside one scan probe, in ticks (R6, R94). -/
abbrev tScan : Nat := 100
/-- `T_PACE`, the delay after each scan probe, in ms (R6). -/
abbrev tPace : BitVec 16 := 1
/-- `SCAN_LO`, the first address a scan probes (R6). -/
abbrev scanLo : Nat := 1
/-- `SCAN_HI`: a scan probes the addresses below it (R6). -/
abbrev scanHi : Nat := 127
/-- `SA_BITS`, the width of a slave address (R6): see `SlaveAddr`. -/
abbrev saBits : Nat := 7
/-- `RA_BITS`, the width of a register address (R6): see `RegAddr`. -/
abbrev raBits : Nat := 8
/-- `F_BUS`, the two-wire clock in Hz: timing only, no rule reads it (R6, R143). -/
abbrev busClockHz : Nat := 400000
/-- The serial frame's data bits, parity bits and stop bits: timing only (R6, R143). -/
abbrev serialFrame : Nat × Nat × Nat := (8, 0, 1)

/-! ### Parameters of R7 that fix a width or a place -/

/-- `TICK_BITS`, the width of the Timeout Clock (R7, R36). -/
abbrev tickBits : Nat := 32
/-- `HM_BITS`, the width of a host-memory address (R7, R43). -/
abbrev hmBits : Nat := 16
/-- `LEN_BITS`, the width of the LEN field (R7, R62). -/
abbrev lenBits : Nat := 16
/-- How many bytes host memory has (R42): `2 ^ HM_BITS`. -/
abbrev hmSize : Nat := 2 ^ hmBits

/-- `BAUD` is OPEN (R7, D17). No rule reads it. -/
opaque baud : Nat
/-- `BLK_BASE` is OPEN (R7, D4). A host access is modelled by its offset from it (R52, R55). -/
opaque blkBase : Nat
/-- The address the host uses for the register at an offset (R27, R55). -/
def registerAddress (offset : Nat) : Nat := blkBase + offset

/-- How far the OPEN settling delay lies above its lower bound of 10 us (R7: `10 <= T_SETTLE_US <= 99`). -/
opaque settleAbove10 : Fin 90

/-! ### Free values: `draw T` of R11 -/

/-- The bits a `draw Bit` gives, picked by the state's draw counter (R11; `rorder`, `rbound` of R84, R88). -/
opaque drawBit : Nat → Bool
/-- The bytes a `draw Byte` gives, picked by the state's draw counter (R11; VALUE of a failed RDB, R96). -/
opaque drawByte : Nat → Byte

end Config

/-- A slave address: `SA_BITS` wide (R6, R62, R63). -/
abbrev SlaveAddr := BitVec Config.saBits

/-- A register address of a slave: `RA_BITS` wide (R6, R62, R63). -/
abbrev RegAddr := BitVec Config.raBits

/-- The parameters of R7 that a model keeps as named arguments, fixed for a whole run (R41). -/
structure Params where
  /-- `DIR_TX_LEVEL`: the DIR pin's level while the direction is Transmit. -/
  dirTxLevel : Bool
  /-- `T_SETTLE_US`: the settling delay, as the payload of its `DelayUs` event. -/
  settleUs : BitVec 16
  /-- `DISPLAY_ADDR`: the slave address of the display wrappers (R74). -/
  displayAddr : SlaveAddr
  /-- `P_BUSFREE_WAIT`: wait for BUS_FREE before the first START. -/
  busFreeWait : Bool
  /-- `P_STOPDONE_WAIT`: wait for STOP_DONE after the STOP of a write transaction or probe. -/
  stopDoneWait : Bool
  /-- `P_STOP_ON_ABORT`: issue a STOP after a timeout abort. -/
  stopOnAbort : Bool
  /-- `DRAIN_ATOMIC`: hold RXC back while RECV or CLRRX runs (R85, R114). -/
  drainAtomic : Bool
  deriving DecidableEq, Repr

/-- The values of R7: its defaults, and for the OPEN settling delay an unconstrained value of 10..99. -/
def Params.default : Params where
  dirTxLevel := true
  settleUs := BitVec.ofNat 16 (10 + Config.settleAbove10.val)
  displayAddr := 0x3C
  busFreeWait := true
  stopDoneWait := true
  stopOnAbort := false
  drainAtomic := false

/-- What R7 says of every choice of parameters: the settling delay is tens of microseconds. -/
def Params.wf (p : Params) : Bool := decide (10 ≤ p.settleUs.toNat) && decide (p.settleUs.toNat ≤ 99)

/-- ENV's answers to one numbered step of SEQ (R11, R15): at most one of the two is read by a step. -/
structure Answer where
  /-- The answer to `Sample(c)` of that step's condition. -/
  sample : Bool
  /-- The byte `BusRecv()` returns. -/
  byte : Byte
  deriving DecidableEq, Repr, Inhabited

/-- One step of one agent (R15), with what ENV contributes to it. -/
inductive Action where
  /-- SEQ runs its next numbered step; ENV answers as given. -/
  | seq (answer : Answer)
  /-- RXC runs its append; `UartRead()` returns the byte (R89). -/
  | rxc (byte : Byte)
  /-- TICK steps (R121). -/
  | tick
  /-- ENV raises the receive interrupt (R113). -/
  | raise
  /-- The host writes the register block: offset, access width in bytes, value (R52, R129). -/
  | hostWrite (offset width : Nat) (value : Word)
  /-- The host reads the register block: offset, access width in bytes (R52, R129). -/
  | hostRead (offset width : Nat)
  /-- The host writes one byte of HM (R129). -/
  | hmWrite (address : Half) (value : Byte)
  /-- The host reads one byte of HM (R129). -/
  | hmRead (address : Half)
  /-- ENV drives Reset (R131). -/
  | reset
  deriving DecidableEq, Repr, Inhabited

/-- The steps that happen once the agenda of a state is used up, picked by the draw counter: which agent
moves and what ENV answers is unconstrained (R15, R16). -/
opaque Config.envAction : Nat → Action

end Sys2Proof
end

