-- ==== Sys2Proof/Syntax.lean ====
section
/-! DEFINITION. The thirteen commands of the block (R65), one constructor per row of the opcode table, with the
operands R62 and R66 give each, and the four pseudo-instructions of R74. -/

namespace Sys2Proof

/-- `LinkDirection` (R18). -/
inductive Direction where
  | receive
  | transmit
  deriving DecidableEq, Repr, Inhabited

/-- A command: one decoded descriptor. Operands keep the widths of their fields (R62, R63). -/
inductive Instr where
  /-- SETDIR: set the line direction (R79). -/
  | setdir (dir : Direction)
  /-- SENDB: send one byte (R80). -/
  | sendb (b : Byte)
  /-- SENDS: send a zero-terminated string (R81). -/
  | sends (ptr : Half)
  /-- SENDBUF: send a buffer (R82). -/
  | sendbuf (ptr len : Half)
  /-- RECV: drain the receive buffer (R84). -/
  | recv (ptr len : Half)
  /-- AVAIL: test for pending data (R86). -/
  | avail
  /-- RXLEN: read the stored-byte count (R87). -/
  | rxlen
  /-- CLRRX: discard the receive buffer (R88). -/
  | clrrx
  /-- WRB: write one register of a slave (R99). -/
  | wrb (sa : SlaveAddr) (ra : RegAddr) (v : Byte)
  /-- RDB: read one register of a slave (R100). -/
  | rdb (sa : SlaveAddr) (ra : RegAddr)
  /-- WRBUF: write a buffer to consecutive registers (R101). -/
  | wrbuf (sa : SlaveAddr) (ra : RegAddr) (ptr len : Half)
  /-- RDBUF: read consecutive registers into a buffer (R102). -/
  | rdbuf (sa : SlaveAddr) (ra : RegAddr) (ptr len : Half)
  /-- SCAN: discover responsive addresses (R104). -/
  | scan
  deriving DecidableEq, Repr, Inhabited

/-- The display wrappers (R74). -/
inductive Pseudo where
  | dwrb (ra : RegAddr) (v : Byte)
  | drdb (ra : RegAddr)
  | dwrbuf (ra : RegAddr) (ptr len : Half)
  | drdbuf (ra : RegAddr) (ptr len : Half)
  deriving DecidableEq, Repr

/-- The command a pseudo-instruction expands to: the same operation at `DISPLAY_ADDR` (R74). -/
def Pseudo.expand (p : Params) : Pseudo → Instr
  | .dwrb ra v => .wrb p.displayAddr ra v
  | .drdb ra => .rdb p.displayAddr ra
  | .dwrbuf ra ptr len => .wrbuf p.displayAddr ra ptr len
  | .drdbuf ra ptr len => .rdbuf p.displayAddr ra ptr len

end Sys2Proof
end

