-- ==== Sys2Proof/WellFormed.lean ====
section
/-! DEFINITION. Which command terms some descriptor encodes (R66, R67). The operand types already hold every field
to its width, so the one check left is RDBUF's LEN. -/

namespace Sys2Proof

/-- R66, R67: RDBUF needs LEN >= 1; every other term has a descriptor that encodes it. -/
def Instr.wf : Instr → Bool
  | .setdir _ => true
  | .sendb _ => true
  | .sends _ => true
  | .sendbuf _ _ => true
  | .recv _ _ => true
  | .avail => true
  | .rxlen => true
  | .clrrx => true
  | .wrb _ _ _ => true
  | .rdb _ _ => true
  | .wrbuf _ _ _ _ => true
  | .rdbuf _ _ _ len => decide (len ≠ 0)
  | .scan => true

/-- The opcode of a command (R65). -/
def Instr.opcode : Instr → BitVec 4
  | .setdir _ => 0x1
  | .sendb _ => 0x2
  | .sends _ => 0x3
  | .sendbuf _ _ => 0x4
  | .recv _ _ => 0x5
  | .avail => 0x6
  | .rxlen => 0x7
  | .clrrx => 0x8
  | .wrb _ _ _ => 0x9
  | .rdb _ _ => 0xA
  | .wrbuf _ _ _ _ => 0xB
  | .rdbuf _ _ _ _ => 0xC
  | .scan => 0xD

end Sys2Proof
end

