-- ==== Sys2Proof/Decode.lean ====
section
/-! DEFINITION. Decoding a 64-bit descriptor to a command or to the reason it is illegal (R62 to R69), and encoding a
command. Total on every descriptor. -/

namespace Sys2Proof

/-- The fields of format D64, each taken out once (R62). -/
structure Fields where
  rsv0 : BitVec 4
  op : BitVec 4
  rsv1 : BitVec 1
  sa : SlaveAddr
  ra : RegAddr
  imm8 : Byte
  len : Half
  ptr : Half
  deriving DecidableEq, Repr

/-- R62: where each field lies in the descriptor. -/
def fieldsOf (d : Descriptor) : Fields where
  rsv0 := d.extractLsb' 60 4
  op := d.extractLsb' 56 4
  rsv1 := d.extractLsb' 55 1
  sa := d.extractLsb' 48 Config.saBits
  ra := d.extractLsb' 40 Config.raBits
  imm8 := d.extractLsb' 32 8
  len := d.extractLsb' 16 16
  ptr := d.extractLsb' 0 16

/-- Why a descriptor encodes no command (R67). -/
inductive DecodeError where
  /-- RSV0 or RSV1 is not zero. -/
  | reservedBit
  /-- OP is 0x0, 0xE or 0xF. -/
  | reservedOpcode (op : BitVec 4)
  /-- A field marked 0 for its opcode is not zero. -/
  | unusedField (op : BitVec 4)
  /-- RDBUF with LEN = 0. -/
  | emptyRead
  deriving DecidableEq, Repr

/-- R67: a command is taken only when the fields it does not use are zero. -/
def decodeUnused (f : Fields) (unusedZero : Bool) (i : Instr) : Except DecodeError Instr :=
  if unusedZero then .ok i else .error (.unusedField f.op)

/-- R65, R66: what the fields of a descriptor encode. -/
def decodeFields (f : Fields) : Except DecodeError Instr :=
  if f.rsv0 ≠ 0 ∨ f.rsv1 ≠ 0 then .error .reservedBit
  else if f.op = 0x1 then
    decodeUnused f (f.imm8.extractLsb' 1 7 == 0 && f.sa == 0 && f.ra == 0 && f.len == 0 && f.ptr == 0)
      (.setdir (if f.imm8.getLsbD 0 then .transmit else .receive))
  else if f.op = 0x2 then
    decodeUnused f (f.sa == 0 && f.ra == 0 && f.len == 0 && f.ptr == 0) (.sendb f.imm8)
  else if f.op = 0x3 then
    decodeUnused f (f.sa == 0 && f.ra == 0 && f.imm8 == 0 && f.len == 0) (.sends f.ptr)
  else if f.op = 0x4 then
    decodeUnused f (f.sa == 0 && f.ra == 0 && f.imm8 == 0) (.sendbuf f.ptr f.len)
  else if f.op = 0x5 then
    decodeUnused f (f.sa == 0 && f.ra == 0 && f.imm8 == 0) (.recv f.ptr f.len)
  else if f.op = 0x6 then
    decodeUnused f (f.sa == 0 && f.ra == 0 && f.imm8 == 0 && f.len == 0 && f.ptr == 0) .avail
  else if f.op = 0x7 then
    decodeUnused f (f.sa == 0 && f.ra == 0 && f.imm8 == 0 && f.len == 0 && f.ptr == 0) .rxlen
  else if f.op = 0x8 then
    decodeUnused f (f.sa == 0 && f.ra == 0 && f.imm8 == 0 && f.len == 0 && f.ptr == 0) .clrrx
  else if f.op = 0x9 then
    decodeUnused f (f.len == 0 && f.ptr == 0) (.wrb f.sa f.ra f.imm8)
  else if f.op = 0xA then
    decodeUnused f (f.imm8 == 0 && f.len == 0 && f.ptr == 0) (.rdb f.sa f.ra)
  else if f.op = 0xB then
    decodeUnused f (f.imm8 == 0) (.wrbuf f.sa f.ra f.ptr f.len)
  else if f.op = 0xC then
    if f.len = 0 then .error .emptyRead
    else decodeUnused f (f.imm8 == 0) (.rdbuf f.sa f.ra f.ptr f.len)
  else if f.op = 0xD then
    decodeUnused f (f.sa == 0 && f.ra == 0 && f.imm8 == 0 && f.len == 0 && f.ptr == 0) .scan
  else .error (.reservedOpcode f.op)

/-- The command a descriptor encodes, or why it encodes none. `WF(d)` of R67 is `(decode d).isOk`. -/
def decode (d : Descriptor) : Except DecodeError Instr := decodeFields (fieldsOf d)

/-- The descriptor the host has written as two words: `{CMD_HI, CMD_LO}` (R28, R48). -/
def descriptorOf (lo hi : Word) : Descriptor := hi ++ lo

/-- The command the decoder reads from a word numbered as the opcode table numbers it, bits above `nbits` zero.
A descriptor has 64 bits (R69): a longer word is no descriptor. -/
def decodeTableWord (nbits w : Nat) : Option Instr :=
  if nbits ≤ 64 then
    let d : Descriptor := BitVec.ofNat 64 (w % 2 ^ nbits)
    match decode (descriptorOf (d.extractLsb' 0 32) (d.extractLsb' 32 32)) with
    | .ok i => some i
    | .error _ => none
  else none

/-- R62: a descriptor with these fields and reserved bits zero. -/
def packFields (op : BitVec 4) (sa : SlaveAddr) (ra : RegAddr) (imm8 : Byte) (len ptr : Half) : Descriptor :=
  (0#4 ++ op) ++ ((0#1 ++ sa) ++ (ra ++ (imm8 ++ (len ++ ptr))))

/-- R63: the direction's bit in IMM8, 0 = Receive and 1 = Transmit. -/
def directionField : Direction → Byte
  | .receive => 0
  | .transmit => 1

/-- R66, R73: the descriptor of a command. -/
def encode : Instr → Descriptor
  | .setdir d => packFields 0x1 0 0 (directionField d) 0 0
  | .sendb b => packFields 0x2 0 0 b 0 0
  | .sends ptr => packFields 0x3 0 0 0 0 ptr
  | .sendbuf ptr len => packFields 0x4 0 0 0 len ptr
  | .recv ptr len => packFields 0x5 0 0 0 len ptr
  | .avail => packFields 0x6 0 0 0 0 0
  | .rxlen => packFields 0x7 0 0 0 0 0
  | .clrrx => packFields 0x8 0 0 0 0 0
  | .wrb sa ra v => packFields 0x9 sa ra v 0 0
  | .rdb sa ra => packFields 0xA sa ra 0 0 0
  | .wrbuf sa ra ptr len => packFields 0xB sa ra 0 len ptr
  | .rdbuf sa ra ptr len => packFields 0xC sa ra 0 len ptr
  | .scan => packFields 0xD 0 0 0 0 0

/-- R66: the mask of a command's row in the opcode table. -/
def Instr.rowMask : Instr → Descriptor
  | .setdir _ => 0xFFFFFFFEFFFFFFFF
  | .sendb _ => 0xFFFFFF00FFFFFFFF
  | .sends _ => 0xFFFFFFFFFFFF0000
  | .sendbuf _ _ => 0xFFFFFFFF00000000
  | .recv _ _ => 0xFFFFFFFF00000000
  | .avail => 0xFFFFFFFFFFFFFFFF
  | .rxlen => 0xFFFFFFFFFFFFFFFF
  | .clrrx => 0xFFFFFFFFFFFFFFFF
  | .wrb _ _ _ => 0xFF800000FFFFFFFF
  | .rdb _ _ => 0xFF8000FFFFFFFFFF
  | .wrbuf _ _ _ _ => 0xFF8000FF00000000
  | .rdbuf _ _ _ _ => 0xFF8000FF00000000
  | .scan => 0xFFFFFFFFFFFFFFFF

/-- R66: the match value of a command's row in the opcode table. -/
def Instr.rowMatch : Instr → Descriptor
  | .setdir _ => 0x0100000000000000
  | .sendb _ => 0x0200000000000000
  | .sends _ => 0x0300000000000000
  | .sendbuf _ _ => 0x0400000000000000
  | .recv _ _ => 0x0500000000000000
  | .avail => 0x0600000000000000
  | .rxlen => 0x0700000000000000
  | .clrrx => 0x0800000000000000
  | .wrb _ _ _ => 0x0900000000000000
  | .rdb _ _ => 0x0A00000000000000
  | .wrbuf _ _ _ _ => 0x0B00000000000000
  | .rdbuf _ _ _ _ => 0x0C00000000000000
  | .scan => 0x0D00000000000000

end Sys2Proof
end

