-- ==== Sys2Proof/Machine/State.lean ====
section
/-! DEFINITION. The machine's state as plain data (10_state.md), the reasons a step can stop, and the state after
reset (R131). -/

namespace Sys2Proof.Machine

/-- The conditions of the lower interface that only ENV can answer (R37). -/
inductive Cond where
  | busFree
  | startDone
  | addrWAck
  | addrRAck
  | byteTxDone
  | byteRxReady
  | stopDone
  | txe
  | tc
  deriving DecidableEq, Repr, Inhabited

/-- The lower interface's actions, as the trace records them (R38). -/
inductive Event where
  | dir (level : Bool)
  | delayUs (n : BitVec 16)
  | delayMs (n : BitVec 16)
  | uTx (b : Byte)
  | uRx (b : Byte)
  | start
  | stop
  | tx (b : Byte)
  | rx (b : Byte)
  | ack (on : Bool)
  | waitOk (c : Cond)
  | waitTimeout (c : Cond)
  deriving DecidableEq, Repr, Inhabited

/-- The bus-master sequencer state (R26). -/
inductive Phase where
  | idle
  | startAsserted
  | addressSentForWrite
  | registerAddressSent
  | dataSent
  | stopAsserted
  | addressSentForRead
  | receiving
  deriving DecidableEq, Repr, Inhabited

/-- The lines that the commands' rules number: S1 to S17 with their lettered lines, the scan probe's P1 to P7,
and the abort's A1 to A3 (R79 to R104, R96). -/
inductive Line where
  | s1 | s2 | s3 | s4 | s5 | s6 | s7 | s8 | s9 | s10 | s11 | s12 | s13 | s14 | s15 | s16 | s17
  | s3a | s3b | s8a | s8b | s13a | s13b | s13c | s13d
  | p1 | p2 | p3 | p4 | p4a | p5 | p6 | p7
  | a1 | a2 | a3
  deriving DecidableEq, Repr, Inhabited

/-- Where inside a line the next numbered step lies. Every line starts at `act`; only a line that calls `Wait` has
the other two: W2's polls, and the step after the wait, which reads `wok` (R92, R35). -/
inductive Sub where
  | act
  | poll
  | test
  deriving DecidableEq, Repr, Inhabited

/-- The SEQ position (R34): no command runs, or the opcode, the label of the next numbered step, the loop index and
the probe address. -/
inductive SeqPos where
  | idle
  | at (op : BitVec 4) (line : Line) (sub : Sub) (i a : Nat)
  deriving DecidableEq, Repr, Inhabited

/-- Host memory and its form: see `Memory.wf`. -/
abbrev Memory := List Host.Cell

/-- What a byte of HM that nothing has written reads as. DESIGN CHOICE, unsafe (entry 6): R43 and R132 leave HM's
contents at reset to the host. -/
def unlistedByte : Byte := 0

/-- The whole state. The first group is what the spec names (10_state.md, R43); the last five fields are the model's
own (entries 2, 3, 5, 8). -/
structure State where
  /-- `dir` (R18). -/
  dir : Direction
  /-- The DIR pin's level (R19). -/
  dirPin : Bool
  /-- `rx_buf` (R20). -/
  rxBuf : Vector Byte Config.rxCap
  /-- `rx_count` (R21). -/
  rxCount : BitVec 9
  /-- `rx_ready` (R22). -/
  rxReady : Bool
  /-- `rx_pend` (R24). -/
  rxPend : Bool
  /-- `ack_en` (R25). -/
  ackEn : Bool
  /-- `phase` (R26). -/
  phase : Phase
  /-- `CMD_LO` (R28). -/
  cmdLo : Word
  /-- `CMD_HI` (R28). -/
  cmdHi : Word
  /-- `STATUS` (R29). -/
  status : Word
  /-- `VALUE` (R30). -/
  value : Word
  /-- `COUNT` (R31). -/
  count : Word
  /-- `PRESENT`, whose four words are PRESENT0 to PRESENT3 (R32). -/
  present : BitVec 128
  /-- The SEQ position (R34). -/
  seq : SeqPos
  /-- The latch `cmd` (R35). -/
  cmd : Descriptor
  /-- The latch `wstart` (R35). -/
  wstart : Word
  /-- The latch `wok` (R35). -/
  wok : Bool
  /-- The latch `c0` (R35). -/
  c0 : BitVec 9
  /-- The latch `nc` (R35). -/
  nc : BitVec 16
  /-- The latch `rorder` (R35): false stands for 0. -/
  rorder : Bool
  /-- The latch `rbound` (R35): false stands for 0, the latched bound. -/
  rbound : Bool
  /-- The latch `found` (R35). -/
  found : BitVec 8
  /-- The byte `v` of RDB, taken at its step S15 and used at S17 (R100; entry 13). -/
  rdByte : Byte
  /-- `tick`, the Timeout Clock (R36). -/
  tick : Word
  /-- `trace`, oldest event first (R38). -/
  trace : List Event
  /-- Host memory (R43). -/
  hm : Memory
  /-- The parameters (R7). No step changes them (R41). -/
  cfg : Params
  /-- ENV's answers to the numbered step being run. -/
  env : Answer
  /-- The coming steps of the four agents, next first. -/
  agenda : List Action
  /-- How many free values have been used. -/
  draws : Nat
  /-- What the host's last read returned (R129). -/
  hostData : Word
  deriving DecidableEq, Repr

/-- Why the machine stops with a fault. The block itself never stops (R111); each of these marks a state that no run
from a state satisfying `Inv` reaches, and stopping there is safe (entry 14). -/
inductive Fault where
  /-- The SEQ position names no numbered step of the command in `cmd`. Raised by every meaning. Safe. -/
  | strayPosition
  /-- SENDS finds no 0x00 in HM from PTR on, though its issue check found one (R81). Raised by SENDS. Safe. -/
  | lostString
  /-- A byte of HM is named outside 0x0000 to 0xFFFF, which no address space has (R42, R51). Raised by the buffer
  commands. Safe. -/
  | hmOutOfRange
  /-- A byte of rx_buf is named at index 256 or above, which does not exist (R20). Raised by RECV. Safe. -/
  | rxBufOutOfRange
  deriving DecidableEq, Repr

/-- Why a step is given no meaning. -/
inductive Refusal where
  /-- An instruction of the table without a meaning: raised by no arm of this model. Safe. -/
  | notModelled (mnemonic : String)
  /-- A host access of the register block that is not 32 bits wide (R52). Raised by the host's steps. Safe. -/
  | registerWidth
  /-- A host access of the register block at an offset that is no multiple of 4 (R52). Safe. -/
  | registerMisaligned
  /-- A host access at a reserved offset, or at one outside the block (R27, R52). Safe. -/
  | registerReserved
  /-- A host write to STATUS, VALUE, COUNT or PRESENT0 to PRESENT3 (R52). Safe. -/
  | registerReadOnly
  deriving DecidableEq, Repr

/-- The three outcomes of a step of this machine. -/
abbrev Result := Host.Outcome State Fault Refusal

/-- The state right after reset (R131): the spec's reset values; zero for `rx_buf`, the latches and `tick`, which it
leaves at any value (DESIGN CHOICE, unsafe, entry 7); HM with nothing written (entry 6); the default parameters. -/
def State.reset : State where
  dir := .receive
  dirPin := !Params.default.dirTxLevel
  rxBuf := Vector.replicate Config.rxCap 0
  rxCount := 0
  rxReady := false
  rxPend := false
  ackEn := true
  phase := .idle
  cmdLo := 0
  cmdHi := 0
  status := 0
  value := 0
  count := 0
  present := 0
  seq := .idle
  cmd := 0
  wstart := 0
  wok := false
  c0 := 0
  nc := 0
  rorder := false
  rbound := false
  found := 0
  rdByte := 0
  tick := 0
  trace := []
  hm := []
  cfg := Params.default
  env := ⟨false, 0⟩
  agenda := []
  draws := 0
  hostData := 0

end Sys2Proof.Machine
end

