-- ==== Sys2Proof/Machine/Flags.lean ====
section
/-! DEFINITION. The block's flags and result fields, and the codes of its named values: STATUS (R29), VALUE and COUNT
(R30, R31), PRESENT's words (R32), the DIR pin's level (R19), and the encodings of phases, conditions and events
(R26, R37, R38). -/

namespace Sys2Proof.Machine

/-- `STATUS.CAUSE` for no error, a Timeout and an IllegalCommand (R29, R108). -/
inductive Cause where
  | none
  | timeout
  | illegalCommand
  deriving DecidableEq, Repr

/-- R29: the code of a cause. 0b11 is never written. -/
def causeCode : Cause → BitVec 2
  | .none => 0b00
  | .timeout => 0b01
  | .illegalCommand => 0b10

/-- R29: the word `finish(ok, cause)` writes, `zext_32({cause, ok})`. -/
def statusWord (ok : Bool) (cause : Cause) : Word := (causeCode cause ++ bit ok).setWidth 32

/-- R29: the bit STATUS.OK. -/
def statusOk (status : Word) : Bool := status.getLsbD 0

/-- R29: the field STATUS.CAUSE. -/
def statusCause (status : Word) : BitVec 2 := status.extractLsb' 1 2

/-- R30: VALUE holding a byte. -/
def valueOfByte (b : Byte) : Word := b.setWidth 32

/-- R30, R86: VALUE holding a flag. -/
def valueOfFlag (f : Bool) : Word := (bit f).setWidth 32

/-- R31, R87: COUNT holding `rx_count`. -/
def countOfRxCount (c : BitVec 9) : Word := c.setWidth 32

/-- R31, R84: COUNT holding the number of bytes RECV copied. -/
def countOfCopied (n : BitVec 16) : Word := n.setWidth 32

/-- R31, R104: COUNT holding the number of addresses SCAN found. -/
def countOfFound (n : BitVec 8) : Word := n.setWidth 32

/-- R32: `PRESENT_k`, for k = 0..3. -/
def presentWord (present : BitVec 128) (k : Nat) : Word := present.extractLsb' (32 * k) 32

/-- R104 P4a: PRESENT with the bit of address `a` set. -/
def markPresent (present : BitVec 128) (a : Nat) : BitVec 128 := present ||| (1#128 <<< a)

/-- R19: the DIR pin's level while the direction is `d`. -/
def dirLevel (p : Params) : Direction → Bool
  | .transmit => p.dirTxLevel
  | .receive => !p.dirTxLevel

/-- R18, R63: a direction as a bit. -/
def directionBit : Direction → BitVec 1
  | .receive => 0
  | .transmit => 1

/-- R26: the code of a phase. -/
def phaseCode : Phase → BitVec 3
  | .idle => 0
  | .startAsserted => 1
  | .addressSentForWrite => 2
  | .registerAddressSent => 3
  | .dataSent => 4
  | .stopAsserted => 5
  | .addressSentForRead => 6
  | .receiving => 7

/-- R37: the code of a condition. -/
def condCode : Cond → BitVec 4
  | .busFree => 0x0
  | .startDone => 0x1
  | .addrWAck => 0x2
  | .addrRAck => 0x3
  | .byteTxDone => 0x4
  | .byteRxReady => 0x5
  | .stopDone => 0x6
  | .txe => 0x7
  | .tc => 0x8

/-- R38: a kind code and a payload. -/
def eventFields (kind : Byte) (payload : BitVec 24) : Word := kind ++ payload

/-- R38: the 32-bit encoding of an event. -/
def eventWord : Event → Word
  | .dir l => eventFields 0x01 ((bit l).setWidth 24)
  | .delayUs n => eventFields 0x02 (n.setWidth 24)
  | .delayMs n => eventFields 0x03 (n.setWidth 24)
  | .uTx b => eventFields 0x04 (b.setWidth 24)
  | .uRx b => eventFields 0x05 (b.setWidth 24)
  | .start => eventFields 0x06 0
  | .stop => eventFields 0x07 0
  | .tx b => eventFields 0x08 (b.setWidth 24)
  | .rx b => eventFields 0x09 (b.setWidth 24)
  | .ack on => eventFields 0x0A ((bit on).setWidth 24)
  | .waitOk c => eventFields 0x0B ((condCode c).setWidth 24)
  | .waitTimeout c => eventFields 0x0C ((condCode c).setWidth 24)

/-- The trace as the words of R38. -/
def traceWords (s : State) : List Word := s.trace.map eventWord

end Sys2Proof.Machine
end

