-- ==== Sys2Proof/Machine/Ops.lean ====
section
/-! DEFINITION. The named operations over memory, the trace and the registers: the primitives of R11, the ends of a
command (`finish`, IllegalCommand), the wait primitive (R92), the two interrupt steps (R89, R121), the host's register
accesses (R27, R52) and Reset (R131). -/

namespace Sys2Proof.Machine

/-! ### Host memory -/

/-- The byte of HM at an address (R43). -/
def memRead : Memory → Nat → Byte
  | [], _ => unlistedByte
  | (b, v) :: m, a => if a = b then v else if a < b then unlistedByte else memRead m a

/-- HM with one byte written (R43), in canonical form: a byte equal to an unlisted one is not listed. -/
def memWrite : Memory → Nat → Byte → Memory
  | [], a, v => if v = unlistedByte then [] else [(a, v)]
  | (b, w) :: m, a, v =>
    if a < b then (if v = unlistedByte then (b, w) :: m else (a, v) :: (b, w) :: m)
    else if a = b then (if v = unlistedByte then m else (a, v) :: m)
    else (b, w) :: memWrite m a v

/-- Every address of `m` is at least `lo` and below `Config.hmSize`, addresses rise strictly, and no entry equals what
an unlisted byte reads as. -/
def memWfFrom : Nat → Memory → Bool
  | _, [] => true
  | lo, (a, v) :: m => decide (lo ≤ a) && decide (a < Config.hmSize) && decide (v ≠ unlistedByte) && memWfFrom (a + 1) m

/-- The canonical form of host memory. -/
def Memory.wf (m : Memory) : Bool := memWfFrom 0 m

/-- `MemRead(a, 1)` (R43): none outside HM. -/
def hmLoad (s : State) (a : Nat) : Option Byte :=
  if a < Config.hmSize then some (memRead s.hm a) else none

/-- `MemWrite(a, 1, v)` (R43): none outside HM. -/
def hmStore (s : State) (a : Nat) (v : Byte) : Option State :=
  if a < Config.hmSize then some { s with hm := memWrite s.hm a v } else none

/-! ### Trace and lower interface (R11, R38) -/

/-- `Emit(e)`: the event becomes the last of the trace. -/
def emit (e : Event) (s : State) : State := { s with trace := s.trace ++ [e] }

/-- R75 P1 with `SetPin`: direction and pin change in one step (R19). -/
def setDirection (d : Direction) (s : State) : State :=
  emit (.dir (dirLevel s.cfg d)) { s with dir := d, dirPin := dirLevel s.cfg d }

/-- R75 P2: the settling delay. -/
def settle (s : State) : State := emit (.delayUs s.cfg.settleUs) s

/-- `UartWrite(b)`. -/
def uartWrite (b : Byte) (s : State) : State := emit (.uTx b) s

/-- `BusStart()`, which enters StartAsserted (R26). -/
def busStart (s : State) : State := emit .start { s with phase := .startAsserted }

/-- `BusStop()`. -/
def busStop (s : State) : State := emit .stop s

/-- `BusSend(b)` entering a phase (R26). -/
def busSend (b : Byte) (p : Phase) (s : State) : State := emit (.tx b) { s with phase := p }

/-- `BusRecv()`: the byte is ENV's answer. -/
def busRecv (s : State) : State := emit (.rx s.env.byte) s

/-- `BusAck(on)`. -/
def busAck (on : Bool) (s : State) : State := emit (.ack on) { s with ackEn := on }

/-- `DelayMs(n)`. -/
def delayMs (n : BitVec 16) (s : State) : State := emit (.delayMs n) s

/-! ### SEQ position and ends of a command -/

/-- R34: the next numbered step of the running command. -/
def moveTo (op : BitVec 4) (line : Line) (i a : Nat) (s : State) : State := { s with seq := .at op line .act i a }

/-- R12, R34: the first step of a loop over `n` bytes, at its body for byte 0, or at the line after it when n = 0, where the
index is 0 by the model's choice (entry 28). -/
def firstByte (op : BitVec 4) (body exit : Line) (n a : Nat) (s : State) : State :=
  moveTo op (if 0 < n then body else exit) 0 a s

/-- R12, R34: the step after a loop's iteration for byte `i` of `n`: the body for the next byte, or the line after the
loop. The index stays below `n` (after the loop it keeps its last value by the model's choice, entry 28). -/
def nextByte (op : BitVec 4) (body exit : Line) (n i a : Nat) (s : State) : State :=
  moveTo op (if i + 1 < n then body else exit) (if i + 1 < n then i + 1 else i) a s

/-- `finish(ok, cause)` (R11, R29, R34). DESIGN CHOICE (entry 29): R35 leaves the latches unspecified outside a command, and
the model keeps the values they have here; unsafe for a claim that names them. -/
def finish (ok : Bool) (cause : Cause) (s : State) : State := { s with status := statusWord ok cause, seq := .idle }

/-- The `finish` of a BM command, which also returns `phase` to Idle (R26). -/
def busFinish (ok : Bool) (cause : Cause) (s : State) : State := finish ok cause { s with phase := .idle }

/-- R109: the IllegalCommand exception. It is precise: STATUS is written and SEQ is Idle, and nothing else changes. -/
def raiseIllegalCommand (s : State) : State := finish false .illegalCommand s

/-! ### Waits -/

/-- R76 T1, R77 D1, R13: `await Sample(c); Emit(WaitOk(c))`. While ENV answers false SEQ stays and nothing changes. -/
def await (c : Cond) (andThen : State → State) (s : State) : Result :=
  if s.env.sample then .next (andThen (emit (.waitOk c) s)) else .next s

/-- R93: ticks since the wait's entry, modulo 2^32. -/
def elapsed (s : State) : Nat := (s.tick - s.wstart).toNat

/-- R92: a line that calls `Wait(c, budget)`, and the step after it, which reads `wok` (R35). -/
def waitLine (c : Cond) (budget : Nat) (op : BitVec 4) (line : Line) (sub : Sub) (i a : Nat)
    (passed failed : State → State) (s : State) : Result :=
  match sub with
  | .act => .next { s with wstart := s.tick, seq := .at op line .poll i a }
  | .poll =>
    if s.env.sample then .next { emit (.waitOk c) s with wok := true, seq := .at op line .test i a }
    else if elapsed s > budget then .next { emit (.waitTimeout c) s with wok := false, seq := .at op line .test i a }
    else .next s
  | .test => .next (if s.wok then passed s else failed s)

/-- A line `if enabled then Wait(...)`: with the parameter false it is one step without effect (R99 S1, S11). -/
def waitLineIf (enabled : Bool) (c : Cond) (budget : Nat) (op : BitVec 4) (line : Line) (sub : Sub) (i a : Nat)
    (passed failed : State → State) (s : State) : Result :=
  if enabled = false ∧ sub = .act then .next (passed s)
  else waitLine c budget op line sub i a passed failed s

/-! ### Interrupt steps -/

/-- R85, R114: whether SEQ is inside RECV or CLRRX. -/
def insideDrain : SeqPos → Bool
  | .idle => false
  | .at op _ _ _ _ => op == 0x5 || op == 0x8

/-- R89, R114: whether RXC's append is enabled. -/
def rxcEnabled (s : State) : Bool := s.rxPend && !(s.cfg.drainAtomic && insideDrain s.seq)

/-- R89: whether the receive buffer has room for a byte. -/
def rxRoom (s : State) : Bool := decide (s.rxCount.toNat < Config.rxCap)

/-- R89 X1: the receive interrupt is taken. The append is one step, which saves and restores nothing (R117, R118). -/
def rxcAppend (b : Byte) (s : State) : State :=
  emit (.uRx b)
    { s with
      rxBuf := if rxRoom s then s.rxBuf.setIfInBounds s.rxCount.toNat b else s.rxBuf
      rxCount := if rxRoom s then s.rxCount + 1 else s.rxCount
      rxReady := true
      rxPend := false }

/-- R121 K1: the timer interrupt is taken. -/
def tickStep (s : State) : State := { s with tick := s.tick + 1 }

/-- R113: ENV raises the receive interrupt. -/
def raiseReceive (s : State) : State := { s with rxPend := true }

/-! ### Register block -/

/-- R27: the register at an offset, none where none is implemented. -/
def registerAt (s : State) (offset : Nat) : Option Word :=
  if offset = 0x00 then some s.cmdLo
  else if offset = 0x04 then some s.cmdHi
  else if offset = 0x08 then some s.status
  else if offset = 0x0C then some s.value
  else if offset = 0x10 then some s.count
  else if offset = 0x20 then some (presentWord s.present 0)
  else if offset = 0x24 then some (presentWord s.present 1)
  else if offset = 0x28 then some (presentWord s.present 2)
  else if offset = 0x2C then some (presentWord s.present 3)
  else none

/-- R52: why an access of the register block has no meaning, none when it has one. -/
def accessRefusal (s : State) (offset width : Nat) : Option Refusal :=
  if width ≠ 4 then some .registerWidth
  else if offset % 4 ≠ 0 then some .registerMisaligned
  else if (registerAt s offset).isNone then some .registerReserved
  else none

/-! ### Reset -/

/-- R131: the Reset event. Every element of the block takes its reset value; HM is the host's, the parameters are fixed,
and what ENV, the scheduler and the host hold is not the block's (entry 27). -/
def resetEvent (s : State) : State :=
  { State.reset with
    dirPin := dirLevel s.cfg .receive
    hm := s.hm
    cfg := s.cfg
    env := s.env
    agenda := s.agenda
    draws := s.draws
    hostData := s.hostData }

end Sys2Proof.Machine
end

