-- ==== Sys2Proof/Machine/Operands.lean ====
section
/-! DEFINITION. Operands and the checks on them: the address byte (R64), a buffer in HM (R47, R51, R71), the string
operand of SENDS (R81), and the issue-time conditions of each command (R109). -/

namespace Sys2Proof.Machine

/-- R64: `addrbyte(sa, rw)`, the 7-bit address and then the read/write bit (0 = write, 1 = read). -/
def addrByte (sa : SlaveAddr) (read : Bool) : Byte := sa ++ bit read

/-- R47, R71, R9: the HM address of byte k of the buffer at `ptr`. It is a 17-bit sum and does not wrap. -/
def bufferAddress (ptr : Half) (k : Nat) : Nat := ptr.toNat + k

/-- R51: `zext_17(PTR) + zext_17(LEN) <= 2^16`. -/
def bufferInside (ptr len : Half) : Bool := decide (ptr.toNat + len.toNat ≤ Config.hmSize)

/-- R81: the least k with HM[a + k] = 0x00 among the `room` bytes from `a` on. -/
def stringLengthFrom (m : Memory) : (room : Nat) → (a : Nat) → Option Nat
  | 0, _ => none
  | room + 1, a =>
    if memRead m a = 0 then some 0
    else (stringLengthFrom m room (a + 1)).map (· + 1)

/-- R81: L, the length of the string at `ptr`, or none when no 0x00 lies between it and the end of HM. -/
def stringLength (m : Memory) (ptr : Half) : Option Nat :=
  stringLengthFrom m (Config.hmSize - ptr.toNat) ptr.toNat

/-- R109: the issue check I1 of a command, WF and the issue-time checks of its rule. -/
def legal (i : Instr) (m : Memory) : Bool :=
  i.wf &&
  match i with
  | .setdir _ => true
  | .sendb _ => true
  | .sends ptr => (stringLength m ptr).isSome
  | .sendbuf ptr len => bufferInside ptr len
  | .recv ptr len => bufferInside ptr len
  | .avail => true
  | .rxlen => true
  | .clrrx => true
  | .wrb _ _ _ => true
  | .rdb _ _ => true
  | .wrbuf _ _ ptr len => bufferInside ptr len
  | .rdbuf _ _ ptr len => bufferInside ptr len
  | .scan => true

/-- R109, R34: what issuing a command does. A legal command moves SEQ to the first step of its rule; any other is an
IllegalCommand. DESIGN CHOICE (entry 28): R109 gives the position no loop index and no probe address there, and the model
puts both at 0; unsafe for a claim that names them. -/
def issue (i : Instr) (s : State) : Result :=
  if legal i s.hm then .next { s with seq := .at i.opcode .s1 .act 0 0 }
  else .next (raiseIllegalCommand s)

/-- Runs a meaning at the SEQ position: the issue check when SEQ is Idle, and otherwise the numbered step the
position names, given the position's line, place in the line, loop index and probe address (R34). -/
def atPosition (i : Instr) (s : State) (numbered : Line → Sub → Nat → Nat → Result) : Result :=
  match s.seq with
  | .idle => issue i s
  | .at op line sub k a => if op = i.opcode then numbered line sub k a else .fault .strayPosition

end Sys2Proof.Machine
end

