-- ==== Sys2Proof/Machine/BusMaster.lean ====
section
/-! DEFINITION. The two-wire bus master commands WRB, RDB, WRBUF, RDBUF and SCAN (R99 to R104), with Abort (R96). -/

namespace Sys2Proof.Machine

/-! ### Abort -/

/-- R96: the abort's lines A1 to A3. `read` is true for RDB and RDBUF. -/
def abortLines (op : BitVec 4) (read : Bool) (line : Line) (sub : Sub) (i a : Nat) (s : State) : Result :=
  match line, sub with
  | .a1, .act => .next (moveTo op .a2 i a (if s.cfg.stopOnAbort then busStop s else s))
  | .a2, .act => .next (moveTo op .a3 i a (if read then busAck true s else s))
  | .a3, .act =>
    .next (busFinish false .timeout
      (if read ∧ op = 0xA then { s with value := valueOfByte (Config.drawByte s.draws), draws := s.draws + 1 } else s))
  | _, _ => .fault .strayPosition

/-! ### Shared lines -/

/-- A line `Wait(c, T_OP); fail` of a transaction: the next line on success, the abort on a timeout (R99 to R102). -/
def gate (c : Cond) (op : BitVec 4) (line : Line) (sub : Sub) (i a : Nat) (next : Line) (s : State) : Result :=
  waitLine c Config.tOp op line sub i a (moveTo op next i a) (moveTo op .a1 i a) s

/-- S1 to S7 of R99 and R100: start, address byte with W, register address, and then the lines that `next` enters.
`none` for any other line. -/
def addressLines (op : BitVec 4) (sa : SlaveAddr) (ra : RegAddr) (next : State → State) (line : Line) (sub : Sub) (i a : Nat)
    (s : State) : Option Result :=
  match line, sub with
  | .s1, sub =>
    some (waitLineIf s.cfg.busFreeWait .busFree Config.tOp op .s1 sub i a (moveTo op .s2 i a) (moveTo op .a1 i a) s)
  | .s2, .act => some (.next (moveTo op .s3 i a (busStart s)))
  | .s3, sub => some (gate .startDone op .s3 sub i a .s4 s)
  | .s4, .act => some (.next (moveTo op .s5 i a (busSend (addrByte sa false) .addressSentForWrite s)))
  | .s5, sub => some (gate .addrWAck op .s5 sub i a .s6 s)
  | .s6, .act => some (.next (moveTo op .s7 i a (busSend ra .registerAddressSent s)))
  | .s7, sub => some (waitLine .byteTxDone Config.tOp op .s7 sub i a next (moveTo op .a1 i a) s)
  | _, _ => none

/-- S8 to S11 of R100, used by RDBUF too: repeated start and address byte with R. `none` for any other line. -/
def readAddressLines (op : BitVec 4) (sa : SlaveAddr) (line : Line) (sub : Sub) (i a : Nat) (s : State) :
    Option Result :=
  match line, sub with
  | .s8, .act => some (.next (moveTo op .s9 i a (busStart s)))
  | .s9, sub => some (gate .startDone op .s9 sub i a .s10 s)
  | .s10, .act => some (.next (moveTo op .s11 i a (busSend (addrByte sa true) .addressSentForRead s)))
  | .s11, sub => some (gate .addrRAck op .s11 sub i a .s12 s)
  | _, _ => none

/-- A line after the STOP of a write transaction: `if P_STOPDONE_WAIT then Wait(STOP_DONE, T_OP); fail` (R99, R101). -/
def stopGate (op : BitVec 4) (line : Line) (sub : Sub) (i a : Nat) (next : Line) (s : State) : Result :=
  waitLineIf s.cfg.stopDoneWait .stopDone Config.tOp op line sub i a (moveTo op next i a) (moveTo op .a1 i a) s

/-- `BusStop(); phase <- StopAsserted` (R26). -/
def busStopAsserted (s : State) : State := busStop { s with phase := .stopAsserted }

/-! ### Commands -/

/-- S8 to S12 of WRB and its abort (R99, R96). -/
def wrbLines (v : Byte) (line : Line) (sub : Sub) (i a : Nat) (s : State) : Result :=
  match line, sub with
  | .s8, .act => .next (moveTo 0x9 .s9 i a (busSend v .dataSent s))
  | .s9, sub => gate .byteTxDone 0x9 .s9 sub i a .s10 s
  | .s10, .act => .next (moveTo 0x9 .s11 i a (busStopAsserted s))
  | .s11, sub => stopGate 0x9 .s11 sub i a .s12 s
  | .s12, .act => .next (busFinish true .none s)
  | line, sub => abortLines 0x9 false line sub i a s

/-- WRB (R99). -/
def execWrb (sa : SlaveAddr) (ra : RegAddr) (v : Byte) (s : State) : Result :=
  atPosition (.wrb sa ra v) s fun line sub i a =>
    (addressLines 0x9 sa ra (moveTo 0x9 .s8 i a) line sub i a s).getD (wrbLines v line sub i a s)

/-- S12 to S17 of RDB and its abort (R100, R96). The byte of S15 is held until S17 writes it to VALUE (entry 13). -/
def rdbLines (line : Line) (sub : Sub) (i a : Nat) (s : State) : Result :=
  match line, sub with
  | .s12, .act => .next (moveTo 0xA .s13 i a (busAck false { s with phase := .receiving }))
  | .s13, .act => .next (moveTo 0xA .s14 i a (busStop s))
  | .s14, sub => gate .byteRxReady 0xA .s14 sub i a .s15 s
  | .s15, .act => .next (moveTo 0xA .s16 i a { busRecv s with rdByte := s.env.byte })
  | .s16, .act => .next (moveTo 0xA .s17 i a (busAck true s))
  | .s17, .act => .next (busFinish true .none { s with value := valueOfByte s.rdByte })
  | line, sub => abortLines 0xA true line sub i a s

/-- RDB (R100). -/
def execRdb (sa : SlaveAddr) (ra : RegAddr) (s : State) : Result :=
  atPosition (.rdb sa ra) s fun line sub i a =>
    ((addressLines 0xA sa ra (moveTo 0xA .s8 i a) line sub i a s).or (readAddressLines 0xA sa line sub i a s)).getD
      (rdbLines line sub i a s)

/-- S8 to S11 of WRBUF and its abort (R101, R96). -/
def wrbufLines (ptr len : Half) (line : Line) (sub : Sub) (i a : Nat) (s : State) : Result :=
  match line, sub with
  | .s8a, .act =>
    match hmLoad s (bufferAddress ptr i) with
    | some v => .next (moveTo 0xB .s8b i a (busSend v .dataSent s))
    | none => .fault .hmOutOfRange
  | .s8b, sub =>
    waitLine .byteTxDone Config.tOp 0xB .s8b sub i a (nextByte 0xB .s8a .s9 len.toNat i a) (moveTo 0xB .a1 i a) s
  | .s9, .act => .next (moveTo 0xB .s10 i a (busStopAsserted s))
  | .s10, sub => stopGate 0xB .s10 sub i a .s11 s
  | .s11, .act => .next (busFinish true .none s)
  | line, sub => abortLines 0xB false line sub i a s

/-- WRBUF (R101). With LEN = 0 the register address is followed by the stop. -/
def execWrbuf (sa : SlaveAddr) (ra : RegAddr) (ptr len : Half) (s : State) : Result :=
  atPosition (.wrbuf sa ra ptr len) s fun line sub i a =>
    (addressLines 0xB sa ra (firstByte 0xB .s8a .s9 len.toNat a) line sub i a s).getD
      (wrbufLines ptr len line sub i a s)

/-- S12 to S15 of RDBUF and its abort (R102, R96). S13a and S13b act for the last byte only. -/
def rdbufLines (ptr len : Half) (line : Line) (sub : Sub) (i a : Nat) (s : State) : Result :=
  match line, sub with
  | .s12, .act =>
    .next (firstByte 0xC .s13a .s14 len.toNat a { s with phase := .receiving })
  | .s13a, .act => .next (moveTo 0xC .s13b i a (if i + 1 = len.toNat then busAck false s else s))
  | .s13b, .act => .next (moveTo 0xC .s13c i a (if i + 1 = len.toNat then busStop s else s))
  | .s13c, sub => gate .byteRxReady 0xC .s13c sub i a .s13d s
  | .s13d, .act =>
    match hmStore (busRecv s) (bufferAddress ptr i) s.env.byte with
    | some t => .next (nextByte 0xC .s13a .s14 len.toNat i a t)
    | none => .fault .hmOutOfRange
  | .s14, .act => .next (moveTo 0xC .s15 i a (busAck true s))
  | .s15, .act => .next (busFinish true .none s)
  | line, sub => abortLines 0xC true line sub i a s

/-- RDBUF (R102). -/
def execRdbuf (sa : SlaveAddr) (ra : RegAddr) (ptr len : Half) (s : State) : Result :=
  atPosition (.rdbuf sa ra ptr len) s fun line sub i a =>
    ((addressLines 0xC sa ra (moveTo 0xC .s8 i a) line sub i a s).or (readAddressLines 0xC sa line sub i a s)).getD
      (rdbufLines ptr len line sub i a s)

/-- R104 P4a: address `a` has acknowledged. -/
def markFound (a : Nat) (s : State) : State := { s with present := markPresent s.present a, found := s.found + 1 }

/-- R104 S2: the first probe. -/
def firstProbe (s : State) : State := moveTo 0xD .p1 0 Config.scanLo s

/-- R104 S2: the first line of the probe after that of `a`, or S3 when none is left. The address stays below
`SCAN_HI` (R34), at S3 at its last value by the model's choice (entry 28). -/
def nextProbe (a : Nat) (s : State) : State :=
  moveTo 0xD (if a + 1 < Config.scanHi then .p1 else .s3) 0 (if a + 1 < Config.scanHi then a + 1 else a) s

/-- SCAN (R104): a probe's failed BUS_FREE or START_DONE wait goes to its stop P5, STOP_DONE's outcome is ignored, and
no timeout aborts. -/
def execScan (s : State) : Result :=
  atPosition .scan s fun line sub i a =>
    match line, sub with
    | .s1, .act => .next (firstProbe { s with present := 0, found := 0 })
    | .p1, sub =>
      waitLineIf s.cfg.busFreeWait .busFree Config.tScan 0xD .p1 sub i a (moveTo 0xD .p2 i a) (moveTo 0xD .p5 i a) s
    | .p2, .act => .next (moveTo 0xD .p3 i a (busStart s))
    | .p3, sub => waitLine .startDone Config.tScan 0xD .p3 sub i a (moveTo 0xD .p4 i a) (moveTo 0xD .p5 i a) s
    | .p4, .act =>
      .next (moveTo 0xD .p4a i a (busSend (addrByte (BitVec.ofNat Config.saBits a) false) .addressSentForWrite s))
    | .p4a, sub =>
      waitLine .addrWAck Config.tScan 0xD .p4a sub i a (fun t => moveTo 0xD .p5 i a (markFound a t))
        (moveTo 0xD .p5 i a) s
    | .p5, .act => .next (moveTo 0xD .p6 i a (busStopAsserted s))
    | .p6, sub =>
      waitLineIf s.cfg.stopDoneWait .stopDone Config.tScan 0xD .p6 sub i a (moveTo 0xD .p7 i a) (moveTo 0xD .p7 i a) s
    | .p7, .act => .next (nextProbe a (delayMs Config.tPace { s with phase := .idle }))
    | .s3, .act => .next (busFinish true .none { s with count := countOfFound s.found })
    | _, _ => .fault .strayPosition

end Sys2Proof.Machine
end

