-- ==== Sys2Proof/Machine/Receive.lean ====
section
/-! DEFINITION. The HDX receive-side commands RECV, AVAIL, RXLEN and CLRRX (R84 to R88). -/

namespace Sys2Proof.Machine

/-- R84 S4, R88 S1: the first of the two resets, of the count when `order` is 0 (false) and else of the flag. -/
def firstReset (order : Bool) (s : State) : State :=
  { s with rxCount := if order then s.rxCount else 0, rxReady := if order then false else s.rxReady }

/-- R84 S5, R88 S2: the second of the two resets. -/
def secondReset (order : Bool) (s : State) : State :=
  { s with rxCount := if order then 0 else s.rxCount, rxReady := if order then s.rxReady else false }

/-- R84 S3: the copy bound, from the latched count when `rbound` is 0 (false) and else from the live one. -/
def copyBound (len : Half) (s : State) : Nat :=
  if s.rbound then min len.toNat s.rxCount.toNat else min len.toNat s.c0.toNat

/-- R84 S2: latch the count, clear the copied number and draw the two choices. -/
def latchDrain (s : State) : State :=
  { s with
    c0 := s.rxCount
    nc := 0
    rorder := Config.drawBit s.draws
    rbound := Config.drawBit (s.draws + 1)
    draws := s.draws + 2 }

/-- R84 S3, one iteration that copies: byte `i` of the receive buffer goes to byte `i` of the buffer at `ptr`. -/
def copyByte (ptr : Half) (i a : Nat) (s : State) : Result :=
  match s.rxBuf[i]? with
  | some v =>
    match hmStore s (bufferAddress ptr i) v with
    | some t => .next (moveTo 0x5 .s3 (i + 1) a { t with nc := BitVec.ofNat 16 (i + 1) })
    | none => .fault .hmOutOfRange
  | none => .fault .rxBufOutOfRange

/-- RECV (R84). -/
def execRecv (ptr len : Half) (s : State) : Result :=
  atPosition (.recv ptr len) s fun line sub i a =>
    match line, sub with
    | .s1, .act =>
      if s.rxReady then .next (moveTo 0x5 .s2 i a s) else .next (finish true .none { s with count := 0 })
    | .s2, .act => .next (moveTo 0x5 .s3 0 a (latchDrain s))
    | .s3, .act => if copyBound len s ≤ i then .next (moveTo 0x5 .s4 i a s) else copyByte ptr i a s
    | .s4, .act => .next (moveTo 0x5 .s5 i a (firstReset s.rorder s))
    | .s5, .act => .next (moveTo 0x5 .s6 i a (secondReset s.rorder s))
    | .s6, .act => .next (finish true .none { s with count := countOfCopied s.nc })
    | _, _ => .fault .strayPosition

/-- AVAIL (R86). -/
def execAvail (s : State) : Result :=
  atPosition .avail s fun line sub _ _ =>
    match line, sub with
    | .s1, .act => .next (finish true .none { s with value := valueOfFlag s.rxReady })
    | _, _ => .fault .strayPosition

/-- RXLEN (R87). -/
def execRxlen (s : State) : Result :=
  atPosition .rxlen s fun line sub _ _ =>
    match line, sub with
    | .s1, .act => .next (finish true .none { s with count := countOfRxCount s.rxCount })
    | _, _ => .fault .strayPosition

/-- R88 S1: draw the order of the resets and make the first one. -/
def drawOrder (s : State) : State :=
  firstReset (Config.drawBit s.draws) { s with rorder := Config.drawBit s.draws, draws := s.draws + 1 }

/-- CLRRX (R88). -/
def execClrrx (s : State) : Result :=
  atPosition .clrrx s fun line sub i a =>
    match line, sub with
    | .s1, .act => .next (moveTo 0x8 .s2 i a (drawOrder s))
    | .s2, .act => .next (moveTo 0x8 .s3 i a (secondReset s.rorder s))
    | .s3, .act => .next (finish true .none s)
    | _, _ => .fault .strayPosition

end Sys2Proof.Machine
end

