-- ==== Sys2Proof/Machine/Transmit.lean ====
section
/-! DEFINITION. The HDX direction and transmit commands SETDIR, SENDB, SENDS and SENDBUF (R79 to R82). -/

namespace Sys2Proof.Machine

/-- SETDIR (R79): S1-S2 are SetDirection of the operand (R75), S3 finishes. -/
def execSetdir (d : Direction) (s : State) : Result :=
  atPosition (.setdir d) s fun line sub i a =>
    match line, sub with
    | .s1, .act => .next (moveTo 0x1 .s2 i a (setDirection d s))
    | .s2, .act => .next (moveTo 0x1 .s3 i a (settle s))
    | .s3, .act => .next (finish true .none s)
    | _, _ => .fault .strayPosition

/-- SENDB (R80): S1-S2 SetDirection(Transmit), S3-S4 TxByte (R76), S5 TxDrain (R77), S6-S7 SetDirection(Receive),
S8 finishes. -/
def execSendb (b : Byte) (s : State) : Result :=
  atPosition (.sendb b) s fun line sub i a =>
    match line, sub with
    | .s1, .act => .next (moveTo 0x2 .s2 i a (setDirection .transmit s))
    | .s2, .act => .next (moveTo 0x2 .s3 i a (settle s))
    | .s3, .act => await .txe (moveTo 0x2 .s4 i a) s
    | .s4, .act => .next (moveTo 0x2 .s5 i a (uartWrite b s))
    | .s5, .act => await .tc (moveTo 0x2 .s6 i a) s
    | .s6, .act => .next (moveTo 0x2 .s7 i a (setDirection .receive s))
    | .s7, .act => .next (moveTo 0x2 .s8 i a (settle s))
    | .s8, .act => .next (finish true .none s)
    | _, _ => .fault .strayPosition

/-- The numbered steps SENDS and SENDBUF share (R81, R82): `n` bytes of the buffer at `ptr`, byte `i` at S3a and S3b.
The loop's header is no step of its own (entry 11). -/
def transmitLines (op : BitVec 4) (ptr : Half) (n : Nat) (line : Line) (sub : Sub) (i a : Nat) (s : State) : Result :=
  match line, sub with
  | .s1, .act => .next (moveTo op .s2 i a (setDirection .transmit s))
  | .s2, .act => .next (firstByte op .s3a .s4 n a (settle s))
  | .s3a, .act => await .txe (moveTo op .s3b i a) s
  | .s3b, .act =>
    match hmLoad s (bufferAddress ptr i) with
    | some v => .next (nextByte op .s3a .s4 n i a (uartWrite v s))
    | none => .fault .hmOutOfRange
  | .s4, .act => await .tc (moveTo op .s5 i a) s
  | .s5, .act => .next (moveTo op .s6 i a (setDirection .receive s))
  | .s6, .act => .next (moveTo op .s7 i a (settle s))
  | .s7, .act => .next (finish true .none s)
  | _, _ => .fault .strayPosition

/-- SENDS (R81): the bytes before the first 0x00 at `ptr`. HM does not change during the command (R60), so their number
is the L fixed at issue (entry 12). -/
def execSends (ptr : Half) (s : State) : Result :=
  atPosition (.sends ptr) s fun line sub i a =>
    match stringLength s.hm ptr with
    | some n => transmitLines 0x3 ptr n line sub i a s
    | none => .fault .lostString

/-- SENDBUF (R82). -/
def execSendbuf (ptr len : Half) (s : State) : Result :=
  atPosition (.sendbuf ptr len) s fun line sub i a => transmitLines 0x4 ptr len.toNat line sub i a s

end Sys2Proof.Machine
end

