-- ==== Sys2Proof/Machine/Dispatch.lean ====
section
/-! DEFINITION. The meaning of every command: at SEQ position Idle its issue check, inside the command the numbered step
the position names. -/

namespace Sys2Proof.Machine

def exec (i : Instr) (s : State) : Host.Outcome State Fault Refusal :=
  match i with
  | .setdir d => Sys2Proof.Machine.execSetdir d s
  | .sendb b => Sys2Proof.Machine.execSendb b s
  | .sends ptr => Sys2Proof.Machine.execSends ptr s
  | .sendbuf ptr len => Sys2Proof.Machine.execSendbuf ptr len s
  | .recv ptr len => Sys2Proof.Machine.execRecv ptr len s
  | .avail => Sys2Proof.Machine.execAvail s
  | .rxlen => Sys2Proof.Machine.execRxlen s
  | .clrrx => Sys2Proof.Machine.execClrrx s
  | .wrb sa ra v => Sys2Proof.Machine.execWrb sa ra v s
  | .rdb sa ra => Sys2Proof.Machine.execRdb sa ra s
  | .wrbuf sa ra ptr len => Sys2Proof.Machine.execWrbuf sa ra ptr len s
  | .rdbuf sa ra ptr len => Sys2Proof.Machine.execRdbuf sa ra ptr len s
  | .scan => Sys2Proof.Machine.execScan s

end Sys2Proof.Machine
end

