-- ==== Sys2Proof/Machine/Agents.lean ====
section
/-! DEFINITION. The steps of the four agents (R15): SEQ's numbered step, RXC's append, TICK, and ENV's steps, the host's
among them (R129). A step that is not enabled is passed over: nothing but the agenda changes (entry 2). -/

namespace Sys2Proof.Machine

/-- R34: whether SEQ is Idle, which is when the host's steps are enabled (R129). -/
def seqIdle (s : State) : Bool := s.seq == .idle

/-- SEQ's numbered step: the command latched in `cmd` runs at the SEQ position (R34, R35), with ENV's answers. -/
def seqStep (answer : Answer) (s : State) : Result :=
  if seqIdle s then .next s
  else
    match decode s.cmd with
    | .ok i => exec i { s with env := answer }
    | .error _ => .fault .strayPosition

/-- R129: the host writes CMD_HI. The descriptor is latched and its issue check runs, in the same step. -/
def issueDescriptor (hi : Word) (s : State) : Result :=
  let t := { s with cmdHi := hi, cmd := descriptorOf s.cmdLo hi }
  match decode t.cmd with
  | .ok i => exec i t
  | .error _ => .next (raiseIllegalCommand t)

/-- R28, R52, R129: a host write of the register block. -/
def hostWriteStep (offset width : Nat) (v : Word) (s : State) : Result :=
  if !seqIdle s then .next s
  else
    match accessRefusal s offset width with
    | some r => .refused r
    | none =>
      if offset = 0x00 then .next { s with cmdLo := v }
      else if offset = 0x04 then issueDescriptor v s
      else .refused .registerReadOnly

/-- R27, R52, R129: a host read of the register block. -/
def hostReadStep (offset width : Nat) (s : State) : Result :=
  if !seqIdle s then .next s
  else
    match accessRefusal s offset width with
    | some r => .refused r
    | none => .next { s with hostData := (registerAt s offset).getD 0 }

/-- R129: the host's own write of a byte of HM. -/
def hmWriteStep (a : Half) (v : Byte) (s : State) : State :=
  if seqIdle s then { s with hm := memWrite s.hm a.toNat v } else s

/-- R129: the host's own read of a byte of HM. -/
def hmReadStep (a : Half) (s : State) : State :=
  if seqIdle s then { s with hostData := (memRead s.hm a.toNat).setWidth 32 } else s

/-- One step of one agent (R15). -/
def perform : Action → State → Result
  | .seq answer, s => seqStep answer s
  | .rxc b, s => .next (if rxcEnabled s then rxcAppend b s else s)
  | .tick, s => .next (tickStep s)
  | .raise, s => .next (raiseReceive s)
  | .hostWrite offset width v, s => hostWriteStep offset width v s
  | .hostRead offset width, s => hostReadStep offset width s
  | .hmWrite a v, s => .next (hmWriteStep a v s)
  | .hmRead a, s => .next (hmReadStep a s)
  | .reset, s => .next (resetEvent s)

/-- R16: the step that comes next, and the state in which it is taken: the agenda's first, or, when the agenda is used
up, an unconstrained one. -/
def nextAction (s : State) : Action × State :=
  match s.agenda with
  | act :: rest => (act, { s with agenda := rest })
  | [] => (Config.envAction s.draws, { s with draws := s.draws + 1 })

/-- R28, R129: the state in which the host is about to issue a descriptor: SEQ is Idle, the low word is in CMD_LO, and
the next step is the host's write of the high word to CMD_HI. -/
def aboutToIssue (d : Descriptor) (s : State) : State :=
  { s with
    cmdLo := d.extractLsb' 0 32
    seq := .idle
    agenda := .hostWrite 0x04 4 (d.extractLsb' 32 32) :: s.agenda }

end Sys2Proof.Machine
end

