-- ==== Sys2Proof/Machine/Step.lean ====
section
/-! DEFINITION. One step of the machine: one step of one agent (R16). -/

namespace Sys2Proof.Machine

/-- One step of the interleaving (R12, R16): the next agent's step is taken, atomically. -/
def step (s : State) : Host.Outcome State Fault Refusal := perform (nextAction s).1 (nextAction s).2

/-- `s` with a descriptor where the machine takes its next command from: in CMD_LO and on its way to CMD_HI, so that the
next step latches it, decodes it and runs it (entry 4). -/
def State.withFetchWord (s : State) (nbits w : Nat) : State := aboutToIssue (BitVec.ofNat 64 (w % 2 ^ nbits)) s

end Sys2Proof.Machine
end

