-- ==== Sys2Proof/Machine/Assembler.lean ====
section
/-! DEFINITION. The assembler of R73 and R74: one command a line, its operand checks, the pseudo-instructions and the raw
`.desc`. A line is given as its characters. It stands before the machine: no step uses it. -/

namespace Sys2Proof.Machine

/-- A line's command with its operands as written (R73, R74). -/
inductive AsmCommand where
  | setdir (dir : Direction)
  | sendb (b : Nat)
  | sends (p : Nat)
  | sendbuf (p n : Nat)
  | recv (p n : Nat)
  | avail
  | rxlen
  | clrrx
  | wrb (sa ra v : Nat)
  | rdb (sa ra : Nat)
  | wrbuf (sa ra p n : Nat)
  | rdbuf (sa ra p n : Nat)
  | scan
  | dwrb (ra v : Nat)
  | drdb (ra : Nat)
  | dwrbuf (ra p n : Nat)
  | drdbuf (ra p n : Nat)
  | desc (d : Nat)
  deriving DecidableEq, Repr

/-- Why the assembler rejects a line (R73). -/
inductive AsmError where
  | unknownMnemonic
  | badOperands
  | operandRange
  | emptyRead
  | bufferOutside
  deriving DecidableEq, Repr

/-- R73: an operand within its field. -/
def asmField (w : Nat) (n : Nat) : Except AsmError (BitVec w) :=
  if n < 2 ^ w then .ok (BitVec.ofNat w n) else .error .operandRange

/-- R73: a buffer operand `[p], n`, inside HM, so that no descriptor is emitted that R51 refuses. -/
def asmBuffer (p n : Nat) : Except AsmError (Half × Half) := do
  let ptr ← asmField 16 p
  let len ← asmField 16 n
  if p + n ≤ Config.hmSize then .ok (ptr, len) else .error .bufferOutside

/-- R73: a buffer operand of RDBUF, whose length is at least 1. -/
def asmReadBuffer (p n : Nat) : Except AsmError (Half × Half) :=
  if n = 0 then .error .emptyRead else asmBuffer p n

/-- The command a line stands for, with its pseudo-instruction expanded (R74), and the descriptor it emits. -/
def assemble (cfg : Params) : AsmCommand → Except AsmError Descriptor
  | .setdir d => .ok (encode (.setdir d))
  | .sendb b => do .ok (encode (.sendb (← asmField 8 b)))
  | .sends p => do .ok (encode (.sends (← asmField 16 p)))
  | .sendbuf p n => do
    let buf ← asmBuffer p n
    .ok (encode (.sendbuf buf.1 buf.2))
  | .recv p n => do
    let buf ← asmBuffer p n
    .ok (encode (.recv buf.1 buf.2))
  | .avail => .ok (encode .avail)
  | .rxlen => .ok (encode .rxlen)
  | .clrrx => .ok (encode .clrrx)
  | .wrb sa ra v => do .ok (encode (.wrb (← asmField Config.saBits sa) (← asmField Config.raBits ra) (← asmField 8 v)))
  | .rdb sa ra => do .ok (encode (.rdb (← asmField Config.saBits sa) (← asmField Config.raBits ra)))
  | .wrbuf sa ra p n => do
    let buf ← asmBuffer p n
    .ok (encode (.wrbuf (← asmField Config.saBits sa) (← asmField Config.raBits ra) buf.1 buf.2))
  | .rdbuf sa ra p n => do
    let buf ← asmReadBuffer p n
    .ok (encode (.rdbuf (← asmField Config.saBits sa) (← asmField Config.raBits ra) buf.1 buf.2))
  | .scan => .ok (encode .scan)
  | .dwrb ra v => do .ok (encode (Pseudo.expand cfg (.dwrb (← asmField Config.raBits ra) (← asmField 8 v))))
  | .drdb ra => do .ok (encode (Pseudo.expand cfg (.drdb (← asmField Config.raBits ra))))
  | .dwrbuf ra p n => do
    let buf ← asmBuffer p n
    .ok (encode (Pseudo.expand cfg (.dwrbuf (← asmField Config.raBits ra) buf.1 buf.2)))
  | .drdbuf ra p n => do
    let buf ← asmReadBuffer p n
    .ok (encode (Pseudo.expand cfg (.drdbuf (← asmField Config.raBits ra) buf.1 buf.2)))
  | .desc d => asmField 64 d

/-! ### Text -/

/-- An operand as written: a number, a number in brackets, or a word (R73). -/
inductive AsmOperand where
  | num (n : Nat)
  | mem (n : Nat)
  | word (cs : List Char)
  deriving DecidableEq, Repr

/-- The value of a decimal or hexadecimal digit, in either case. -/
def digitValue (base : Nat) (c : Char) : Option Nat :=
  let u := c.toUpper.toNat
  let v := if 48 ≤ u ∧ u ≤ 57 then u - 48 else if 65 ≤ u ∧ u ≤ 70 then u - 55 else base
  if v < base then some v else none

/-- A run of digits, none when it is empty or holds anything else. -/
def digitsValue (base : Nat) : List Char → Option Nat
  | [] => none
  | c :: cs => (c :: cs).foldl (fun acc d => do .some ((← acc) * base + (← digitValue base d))) (some 0)

/-- R73: a number is decimal, or hexadecimal after `0x`. -/
def numberValue : List Char → Option Nat
  | '0' :: 'x' :: cs => digitsValue 16 cs
  | '0' :: 'X' :: cs => digitsValue 16 cs
  | cs => digitsValue 10 cs

/-- White space inside a line. -/
def isBlank (c : Char) : Bool := c == ' ' || c == '\t' || c == '\r'

/-- Characters without the blanks before and after them. -/
def trimBlanks (cs : List Char) : List Char := ((cs.dropWhile isBlank).reverse.dropWhile isBlank).reverse

/-- One operand, read from its trimmed characters. -/
def operandOf (cs : List Char) : Option AsmOperand :=
  match cs with
  | '[' :: rest =>
    if rest.getLast? = some ']' then (numberValue (trimBlanks rest.dropLast)).map .mem else none
  | _ =>
    match numberValue cs with
    | some n => some (.num n)
    | none => if cs = [] then none else some (.word (cs.map Char.toUpper))

/-- The pieces of a line's operand part between its commas. -/
def splitCommas : List Char → List (List Char)
  | [] => [[]]
  | c :: cs =>
    if c = ',' then [] :: splitCommas cs
    else match splitCommas cs with
      | [] => [[c]]
      | p :: ps => (c :: p) :: ps

/-- The operands of a line, none when one of them cannot be read. -/
def operandsOf (cs : List Char) : Option (List AsmOperand) :=
  if trimBlanks cs = [] then some [] else (splitCommas cs).mapM (fun p => operandOf (trimBlanks p))

/-- The command of a mnemonic in capitals with its operands (R73, R74). -/
def commandOf (mnemonic : List Char) (ops : List AsmOperand) : Except AsmError AsmCommand :=
  let shape (r : Option AsmCommand) : Except AsmError AsmCommand :=
    match r with
    | some c => .ok c
    | none => .error .badOperands
  if mnemonic = ['S', 'E', 'T', 'D', 'I', 'R'] then
    shape (match ops with
      | [.word ['T', 'X']] => some (.setdir .transmit)
      | [.word ['R', 'X']] => some (.setdir .receive)
      | _ => none)
  else if mnemonic = ['S', 'E', 'N', 'D', 'B'] then
    shape (match ops with | [.num b] => some (.sendb b) | _ => none)
  else if mnemonic = ['S', 'E', 'N', 'D', 'S'] then
    shape (match ops with | [.mem p] => some (.sends p) | _ => none)
  else if mnemonic = ['S', 'E', 'N', 'D', 'B', 'U', 'F'] then
    shape (match ops with | [.mem p, .num n] => some (.sendbuf p n) | _ => none)
  else if mnemonic = ['R', 'E', 'C', 'V'] then
    shape (match ops with | [.mem p, .num n] => some (.recv p n) | _ => none)
  else if mnemonic = ['A', 'V', 'A', 'I', 'L'] then
    shape (match ops with | [] => some .avail | _ => none)
  else if mnemonic = ['R', 'X', 'L', 'E', 'N'] then
    shape (match ops with | [] => some .rxlen | _ => none)
  else if mnemonic = ['C', 'L', 'R', 'R', 'X'] then
    shape (match ops with | [] => some .clrrx | _ => none)
  else if mnemonic = ['W', 'R', 'B'] then
    shape (match ops with | [.num sa, .num ra, .num v] => some (.wrb sa ra v) | _ => none)
  else if mnemonic = ['R', 'D', 'B'] then
    shape (match ops with | [.num sa, .num ra] => some (.rdb sa ra) | _ => none)
  else if mnemonic = ['W', 'R', 'B', 'U', 'F'] then
    shape (match ops with | [.num sa, .num ra, .mem p, .num n] => some (.wrbuf sa ra p n) | _ => none)
  else if mnemonic = ['R', 'D', 'B', 'U', 'F'] then
    shape (match ops with | [.num sa, .num ra, .mem p, .num n] => some (.rdbuf sa ra p n) | _ => none)
  else if mnemonic = ['S', 'C', 'A', 'N'] then
    shape (match ops with | [] => some .scan | _ => none)
  else if mnemonic = ['D', 'W', 'R', 'B'] then
    shape (match ops with | [.num ra, .num v] => some (.dwrb ra v) | _ => none)
  else if mnemonic = ['D', 'R', 'D', 'B'] then
    shape (match ops with | [.num ra] => some (.drdb ra) | _ => none)
  else if mnemonic = ['D', 'W', 'R', 'B', 'U', 'F'] then
    shape (match ops with | [.num ra, .mem p, .num n] => some (.dwrbuf ra p n) | _ => none)
  else if mnemonic = ['D', 'R', 'D', 'B', 'U', 'F'] then
    shape (match ops with | [.num ra, .mem p, .num n] => some (.drdbuf ra p n) | _ => none)
  else if mnemonic = ['.', 'D', 'E', 'S', 'C'] then
    shape (match ops with | [.num d] => some (.desc d) | _ => none)
  else .error .unknownMnemonic

/-- R73: one line's command, none for a blank line. `;` starts a comment, and mnemonics are case-insensitive. -/
def parseLine (line : List Char) : Except AsmError (Option AsmCommand) :=
  let text := trimBlanks (line.takeWhile (· ≠ ';'))
  if text = [] then .ok none
  else
    let mnemonic := (text.takeWhile (fun c => !isBlank c)).map Char.toUpper
    match operandsOf (text.dropWhile (fun c => !isBlank c)) with
    | some ops => (commandOf mnemonic ops).map some
    | none => .error .badOperands

/-- R73: the descriptor a line emits, none for a blank line. -/
def assembleLine (cfg : Params) (line : List Char) : Except AsmError (Option Descriptor) := do
  match ← parseLine line with
  | some c => .ok (some (← assemble cfg c))
  | none => .ok none

end Sys2Proof.Machine
end

