-- ==== Sys2Proof/Safety.lean ====
section
/-! DEFINITION. The words claims use: runs, completed commands, the sequences of lower-interface events each rule gives,
and the invariant `Inv` of the states a run from reset can be in. -/

namespace Sys2Proof.Machine

/-! ### Runs -/

/-- `n` steps from a state, stopping at the first fault or refusal. -/
def runSteps : Nat → State → Result
  | 0, s => .next s
  | n + 1, s =>
    match step s with
    | .next t => runSteps n t
    | .fault r => .fault r
    | .refused r => .refused r

/-- R130: the state in which a command running at `s` completes after exactly `n` steps of the interleaving, with any
agents' steps among them but no Reset: SEQ is not Idle before the last step and Idle after it. None otherwise. -/
def completion : Nat → State → Option State
  | 0, s => if s.seq = .idle then some s else none
  | n + 1, s =>
    if s.seq = .idle then none
    else if (nextAction s).1 = .reset then none
    else match step s with
      | .next t => completion n t
      | .fault _ => none
      | .refused _ => none

/-- `s` is a state right after the legal command `i` was issued (R109, R129), with the index and the address that the
model puts in the position then (entry 28). -/
def Issued (i : Instr) (s : State) : Prop :=
  s.seq = .at i.opcode .s1 .act 0 0 ∧ decode s.cmd = .ok i ∧ legal i s.hm = true

/-- `n` SEQ steps in which ENV answers every Sample true and every received byte is `b` (the environment E0 of
95_test_vectors.md). -/
def ideal (n : Nat) (b : Byte) : List Action := List.replicate n (.seq ⟨true, b⟩)

/-- The two host writes that issue a descriptor (R28). -/
def issueWrites (d : Descriptor) : List Action :=
  [.hostWrite 0x00 4 (d.extractLsb' 0 32), .hostWrite 0x04 4 (d.extractLsb' 32 32)]

/-- The host's steps, enabled only while SEQ is Idle (R129). -/
def isHostAction : Action → Bool
  | .seq _ => false
  | .rxc _ => false
  | .tick => false
  | .raise => false
  | .hostWrite _ _ _ => true
  | .hostRead _ _ => true
  | .hmWrite _ _ => true
  | .hmRead _ => true
  | .reset => false

/-- An action with which no SEQ progress is made while a wait's condition is not seen: TICK steps and polls answered
false (R92, R95). -/
def isTickOrFalsePoll : Action → Bool
  | .seq answer => !answer.sample
  | .rxc _ => false
  | .tick => true
  | .raise => false
  | .hostWrite _ _ _ => false
  | .hostRead _ _ => false
  | .hmWrite _ _ => false
  | .hmRead _ => false
  | .reset => false

/-- A byte's arrival and its capture: ENV raises the interrupt, RXC takes it (R113, R89). -/
def arrival (b : Byte) : List Action := [.raise, .rxc b]

/-! ### Buffers and events -/

/-- The `n` bytes of HM from `ptr` on (R47). -/
def bufferBytes (m : Memory) (ptr : Half) (n : Nat) : List Byte :=
  (List.range n).map fun k => memRead m (bufferAddress ptr k)

/-- Every event but RXC's `URx`, which RXC may append between any two of SEQ's (R38, R89). -/
def isSeqEvent : Event → Bool
  | .uRx _ => false
  | .dir _ => true
  | .delayUs _ => true
  | .delayMs _ => true
  | .uTx _ => true
  | .start => true
  | .stop => true
  | .tx _ => true
  | .rx _ => true
  | .ack _ => true
  | .waitOk _ => true
  | .waitTimeout _ => true

/-- The events SEQ has appended to the trace. -/
def seqEvents (s : State) : List Event := s.trace.filter isSeqEvent

/-- R75: the events of SetDirection. -/
def directionEvents (p : Params) (d : Direction) : List Event := [.dir (dirLevel p d), .delayUs p.settleUs]

/-- R76: the events of TxByte for each of some bytes. -/
def byteEvents (bytes : List Byte) : List Event := bytes.flatMap fun b => [.waitOk .txe, .uTx b]

/-- R80 to R82: the events of a transmit command that sends these bytes. -/
def transmitEvents (p : Params) (bytes : List Byte) : List Event :=
  directionEvents p .transmit ++ byteEvents bytes ++ [.waitOk .tc] ++ directionEvents p .receive

/-- The event of a wait that a parameter selects and that succeeds. -/
def gateEvents (enabled : Bool) (c : Cond) : List Event := if enabled then [.waitOk c] else []

/-- R99 S1 to S7: the events of the address and register phases. -/
def addressEvents (p : Params) (sa : SlaveAddr) (ra : RegAddr) : List Event :=
  gateEvents p.busFreeWait .busFree ++
    [.start, .waitOk .startDone, .tx (addrByte sa false), .waitOk .addrWAck, .tx ra, .waitOk .byteTxDone]

/-- R100 S8 to S11: the events of the repeated start and the read address. -/
def readAddressEvents (sa : SlaveAddr) : List Event :=
  [.start, .waitOk .startDone, .tx (addrByte sa true), .waitOk .addrRAck]

/-- R99, R101: the events of a write transaction that succeeds, with these data bytes. -/
def writeEvents (p : Params) (sa : SlaveAddr) (ra : RegAddr) (bytes : List Byte) : List Event :=
  addressEvents p sa ra ++ bytes.flatMap (fun b => [.tx b, .waitOk .byteTxDone]) ++ [.stop] ++
    gateEvents p.stopDoneWait .stopDone

/-- R102 S13: the events of receiving these bytes: acknowledgment off and the stop strictly before the last one. -/
def receiveEvents : List Byte → List Event
  | [] => []
  | [b] => [.ack false, .stop, .waitOk .byteRxReady, .rx b]
  | b :: c :: bs => [.waitOk .byteRxReady, .rx b] ++ receiveEvents (c :: bs)

/-- R100, R102: the events of a read transaction that succeeds and receives these bytes. -/
def readEvents (p : Params) (sa : SlaveAddr) (ra : RegAddr) (bytes : List Byte) : List Event :=
  addressEvents p sa ra ++ readAddressEvents sa ++ receiveEvents bytes ++ [.ack true]

/-- R96: the events of an abort after its WaitTimeout. -/
def abortEvents (p : Params) (read : Bool) : List Event :=
  (if p.stopOnAbort then [.stop] else []) ++ (if read then [.ack true] else [])

/-- R104: the events of one scan probe in which every wait but the address's succeeds. -/
def probeEvents (p : Params) (a : Nat) (found : Bool) : List Event :=
  gateEvents p.busFreeWait .busFree ++
    [.start, .waitOk .startDone, .tx (addrByte (BitVec.ofNat Config.saBits a) false),
      if found then .waitOk .addrWAck else .waitTimeout .addrWAck, .stop] ++
    gateEvents p.stopDoneWait .stopDone ++ [.delayMs Config.tPace]

/-- The bytes a trace sends on the two-wire bus. -/
def sentBytes : List Event → List Byte
  | [] => []
  | .tx b :: es => b :: sentBytes es
  | .dir _ :: es => sentBytes es
  | .delayUs _ :: es => sentBytes es
  | .delayMs _ :: es => sentBytes es
  | .uTx _ :: es => sentBytes es
  | .uRx _ :: es => sentBytes es
  | .start :: es => sentBytes es
  | .stop :: es => sentBytes es
  | .rx _ :: es => sentBytes es
  | .ack _ :: es => sentBytes es
  | .waitOk _ :: es => sentBytes es
  | .waitTimeout _ :: es => sentBytes es

/-- Whether an event is a byte received from the two-wire bus. -/
def isRx : Event → Bool
  | .rx _ => true
  | .tx _ => false
  | .dir _ => false
  | .delayUs _ => false
  | .delayMs _ => false
  | .uTx _ => false
  | .uRx _ => false
  | .start => false
  | .stop => false
  | .ack _ => false
  | .waitOk _ => false
  | .waitTimeout _ => false

/-! ### Positions -/

/-- The lines of a command's rule that call `Wait` (R99 to R104). -/
def waitsAt : Instr → Line → Bool
  | .setdir _, _ => false
  | .sendb _, _ => false
  | .sends _, _ => false
  | .sendbuf _ _, _ => false
  | .recv _ _, _ => false
  | .avail, _ => false
  | .rxlen, _ => false
  | .clrrx, _ => false
  | .wrb _ _ _, l => l ∈ [.s1, .s3, .s5, .s7, .s9, .s11]
  | .rdb _ _, l => l ∈ [.s1, .s3, .s5, .s7, .s9, .s11, .s14]
  | .wrbuf _ _ _ _, l => l ∈ [.s1, .s3, .s5, .s7, .s8b, .s10]
  | .rdbuf _ _ _ _, l => l ∈ [.s1, .s3, .s5, .s7, .s9, .s11, .s13c]
  | .scan, l => l ∈ [.p1, .p3, .p4a, .p6]

/-- The other lines of a command's rule and of its abort (R79 to R104, R96). -/
def actsAt : Instr → Line → Bool
  | .setdir _, l => l ∈ [.s1, .s2, .s3]
  | .sendb _, l => l ∈ [.s1, .s2, .s3, .s4, .s5, .s6, .s7, .s8]
  | .sends _, l => l ∈ [.s1, .s2, .s3a, .s3b, .s4, .s5, .s6, .s7]
  | .sendbuf _ _, l => l ∈ [.s1, .s2, .s3a, .s3b, .s4, .s5, .s6, .s7]
  | .recv _ _, l => l ∈ [.s1, .s2, .s3, .s4, .s5, .s6]
  | .avail, l => l ∈ [.s1]
  | .rxlen, l => l ∈ [.s1]
  | .clrrx, l => l ∈ [.s1, .s2, .s3]
  | .wrb _ _ _, l => l ∈ [.s2, .s4, .s6, .s8, .s10, .s12, .a1, .a2, .a3]
  | .rdb _ _, l => l ∈ [.s2, .s4, .s6, .s8, .s10, .s12, .s13, .s15, .s16, .s17, .a1, .a2, .a3]
  | .wrbuf _ _ _ _, l => l ∈ [.s2, .s4, .s6, .s8a, .s9, .s11, .a1, .a2, .a3]
  | .rdbuf _ _ _ _, l => l ∈ [.s2, .s4, .s6, .s8, .s10, .s12, .s13a, .s13b, .s13d, .s14, .s15, .a1, .a2, .a3]
  | .scan, l => l ∈ [.s1, .p2, .p4, .p5, .p7, .s3]

/-- R34: the labels of a command's numbered steps. -/
def numbered (c : Instr) (l : Line) (sub : Sub) : Bool := waitsAt c l || (decide (sub = .act) && actsAt c l)

/-- R34: the index of a loop over `n` bytes: below `n`, and 0 outside the loop when there are no bytes (entry 28). -/
def loopIndexAt (inLoop : Bool) (n i : Nat) : Bool := decide (i < n) || (!inLoop && decide (i = 0))

/-- R34: the loop index and the probe address at a position. Where no rule sets them they are as the model puts them: 0
from issue on, and outside a loop the index of its last byte (entry 28). -/
def indexAt (c : Instr) (m : Memory) (l : Line) (i a : Nat) : Bool :=
  match c with
  | .setdir _ => decide (i = 0 ∧ a = 0)
  | .sendb _ => decide (i = 0 ∧ a = 0)
  | .sends ptr => decide (a = 0) && (stringLength m ptr).any (fun n => loopIndexAt (l ∈ [.s3a, .s3b]) n i)
  | .sendbuf _ len => decide (a = 0) && loopIndexAt (l ∈ [.s3a, .s3b]) len.toNat i
  | .recv _ len => decide (a = 0) && decide (i ≤ min len.toNat Config.rxCap)
  | .avail => decide (i = 0 ∧ a = 0)
  | .rxlen => decide (i = 0 ∧ a = 0)
  | .clrrx => decide (i = 0 ∧ a = 0)
  | .wrb _ _ _ => decide (i = 0 ∧ a = 0)
  | .rdb _ _ => decide (i = 0 ∧ a = 0)
  | .wrbuf _ _ _ len => decide (a = 0) && loopIndexAt (l ∈ [.s8a, .s8b]) len.toNat i
  | .rdbuf _ _ _ len => decide (a = 0) && loopIndexAt (l ∈ [.s13a, .s13b, .s13c, .s13d]) len.toNat i
  | .scan => decide (i = 0) && if l = .s1 then decide (a = 0) else decide (Config.scanLo ≤ a ∧ a < Config.scanHi)

/-- R26, R98: the phase at a line shared by the transactions' address phases, none at any other line. -/
def addressPhaseAt : Line → Option Phase
  | .s1 => some .idle
  | .s2 => some .idle
  | .s3 => some .startAsserted
  | .s4 => some .startAsserted
  | .s5 => some .addressSentForWrite
  | .s6 => some .addressSentForWrite
  | .s7 => some .registerAddressSent
  | _ => none

/-- R98: the phase at a line of a read transaction after its register address. -/
def readPhaseAt : Line → Option Phase
  | .s8 => some .registerAddressSent
  | .s9 => some .startAsserted
  | .s10 => some .startAsserted
  | .s11 => some .addressSentForRead
  | .s12 => some .addressSentForRead
  | l => if l ∈ [.a1, .a2, .a3] then none else some .receiving

/-- R26, R98: whether `p` is a phase in which the numbered step at a position is taken. An abort is reached from every
wait, so any phase is possible there. -/
def phaseAt (c : Instr) (l : Line) (i : Nat) (p : Phase) : Bool :=
  match c with
  | .setdir _ => decide (p = .idle)
  | .sendb _ => decide (p = .idle)
  | .sends _ => decide (p = .idle)
  | .sendbuf _ _ => decide (p = .idle)
  | .recv _ _ => decide (p = .idle)
  | .avail => decide (p = .idle)
  | .rxlen => decide (p = .idle)
  | .clrrx => decide (p = .idle)
  | .wrb _ _ _ =>
    match addressPhaseAt l with
    | some q => decide (p = q)
    | none =>
      if l = .s8 then decide (p = .registerAddressSent)
      else if l ∈ [.s9, .s10] then decide (p = .dataSent)
      else if l ∈ [.s11, .s12] then decide (p = .stopAsserted)
      else true
  | .wrbuf _ _ _ len =>
    match addressPhaseAt l with
    | some q => decide (p = q)
    | none =>
      if l = .s8a then decide (p = if i = 0 then .registerAddressSent else .dataSent)
      else if l = .s9 then decide (p = if len = 0 then .registerAddressSent else .dataSent)
      else if l = .s8b then decide (p = .dataSent)
      else if l ∈ [.s10, .s11] then decide (p = .stopAsserted)
      else true
  | .rdb _ _ =>
    match addressPhaseAt l with
    | some q => decide (p = q)
    | none => (readPhaseAt l).all (fun q => decide (p = q))
  | .rdbuf _ _ _ _ =>
    match addressPhaseAt l with
    | some q => decide (p = q)
    | none => (readPhaseAt l).all (fun q => decide (p = q))
  | .scan =>
    if l ∈ [.s1, .s3, .p1, .p2] then decide (p = .idle)
    else if l ∈ [.p3, .p4] then decide (p = .startAsserted)
    else if l = .p4a then decide (p = .addressSentForWrite)
    else if l = .p5 then decide (p ∈ [.idle, .startAsserted, .addressSentForWrite])
    else decide (p = .stopAsserted)

/-- R25, R97, R103: whether `ack` is a value of `ack_en` with which the numbered step at a position is taken. -/
def ackAt (c : Instr) (l : Line) (i : Nat) (ack : Bool) : Bool :=
  match c with
  | .setdir _ => ack
  | .sendb _ => ack
  | .sends _ => ack
  | .sendbuf _ _ => ack
  | .recv _ _ => ack
  | .avail => ack
  | .rxlen => ack
  | .clrrx => ack
  | .wrb _ _ _ => ack
  | .wrbuf _ _ _ _ => ack
  | .rdb _ _ => if l ∈ [.s13, .s14, .s15, .s16] then !ack else if l ∈ [.a1, .a2] then true else ack
  | .rdbuf _ _ _ len =>
    if l ∈ [.s13b, .s13c, .s13d] then ack == decide (i + 1 ≠ len.toNat)
    else if l = .s14 then !ack
    else if l ∈ [.a1, .a2] then true
    else ack
  | .scan => ack

/-- R83: whether `d` is a direction with which the numbered step at a position is taken. -/
def dirAt (c : Instr) (l : Line) (d : Direction) : Bool :=
  match c with
  | .setdir e => decide (l = .s1) || decide (d = e)
  | .sendb _ => decide (l = .s1) || decide (d = if l ∈ [.s7, .s8] then .receive else .transmit)
  | .sends _ => decide (l = .s1) || decide (d = if l ∈ [.s6, .s7] then .receive else .transmit)
  | .sendbuf _ _ => decide (l = .s1) || decide (d = if l ∈ [.s6, .s7] then .receive else .transmit)
  | .recv _ _ => true
  | .avail => true
  | .rxlen => true
  | .clrrx => true
  | .wrb _ _ _ => true
  | .rdb _ _ => true
  | .wrbuf _ _ _ _ => true
  | .rdbuf _ _ _ _ => true
  | .scan => true

/-- What holds of the SEQ position: it names a numbered step of the command in `cmd`, and `phase`, `ack_en`, `dir`, and
RECV's latched count are as that step finds them (R25, R26, R34, R35, R83). While SEQ is Idle, `ack_en` is 1 and
`phase` is Idle. -/
def seqInv (s : State) : Bool :=
  match s.seq with
  | .idle => s.ackEn && decide (s.phase = .idle)
  | .at op l sub i a =>
    match decode s.cmd with
    | .ok c =>
      decide (op = c.opcode) && legal c s.hm && numbered c l sub && indexAt c s.hm l i a && phaseAt c l i s.phase &&
        ackAt c l i s.ackEn && dirAt c l s.dir &&
        (!decide (op = 0x5 ∧ l = .s3) || decide (s.c0.toNat ≤ Config.rxCap))
    | .error _ => false

/-- What holds of the registers, the receive buffer and host memory: HM in canonical form, `rx_count` within the capacity
(R21, R23), the DIR pin at the level of `dir` (R19), STATUS one of its four values (R29), the reserved bits of VALUE and
COUNT zero (R30, R31), PRESENT's bits 0 and 127 zero (R32), the settling delay in its range (R7). -/
def dataInv (s : State) : Bool :=
  Memory.wf s.hm && decide (s.rxCount.toNat ≤ Config.rxCap) && decide (s.dirPin = dirLevel s.cfg s.dir) &&
    decide (s.status ∈ [0x00, 0x01, 0x02, 0x04]) && decide (s.value.toNat < 2 ^ 8) && decide (s.count.toNat < 2 ^ 16) &&
    !s.present.getLsbD 0 && !s.present.getLsbD 127 && s.cfg.wf

/-- The states a run from reset can be in, described by what the spec says of each of them. -/
def Inv (s : State) : Bool := dataInv s && seqInv s

/-- R23: while DRAIN_ATOMIC holds RXC back, count and flag tell the same, but between the two resets of RECV and CLRRX,
where one of them is reset. -/
def drainTogether (s : State) : Bool :=
  match s.seq with
  | .at op l _ _ _ =>
    if (op = 0x5 ∧ l = .s5) ∨ (op = 0x8 ∧ l = .s2) then (if s.rorder then !s.rxReady else decide (s.rxCount = 0))
    else s.rxReady == !decide (s.rxCount = 0)
  | .idle => s.rxReady == !decide (s.rxCount = 0)

/-! ### Conditions and numbered steps, in the rules' own terms -/

/-- R73: the buffer operand `[p], n` of an assembler line is the buffer of `len` bytes at `ptr`, and lies inside HM. -/
def asmBufferIs (p n : Nat) (ptr len : Half) : Prop := ptr.toNat = p ∧ len.toNat = n ∧ p + n ≤ 0x10000


/-- R109: what the issue check asks of a decoded command beyond WF, in the words of R51 and R81. -/
def issueCondition (i : Instr) (m : Memory) : Prop :=
  match i with
  | .setdir _ => True
  | .sendb _ => True
  | .sends ptr => ∃ k, ptr.toNat + k ≤ 0xFFFF ∧ memRead m (ptr.toNat + k) = 0x00
  | .sendbuf ptr len => ptr.toNat + len.toNat ≤ 0x10000
  | .recv ptr len => ptr.toNat + len.toNat ≤ 0x10000
  | .avail => True
  | .rxlen => True
  | .clrrx => True
  | .wrb _ _ _ => True
  | .rdb _ _ => True
  | .wrbuf _ _ ptr len => ptr.toNat + len.toNat ≤ 0x10000
  | .rdbuf _ _ ptr len => ptr.toNat + len.toNat ≤ 0x10000
  | .scan => True

/-- R92: what a line that calls `Wait(c, budget)` does at its three places: the entry W1, a poll W2, and the step after
the wait, which reads `wok` and goes to `pass` or to `fail` (a step of its own: entry 10, DEDUCED from R35). -/
def WaitSteps (i : Instr) (l : Line) (c : Cond) (budget : Nat) (pass fail : Line) (k a : Nat) (s : State) : Prop :=
  (s.seq = .at i.opcode l .act k a →
    exec i s = .next { s with wstart := s.tick, seq := .at i.opcode l .poll k a }) ∧
  (s.seq = .at i.opcode l .poll k a →
    exec i s = .next
      (if s.env.sample then
        { s with trace := s.trace ++ [.waitOk c], wok := true, seq := .at i.opcode l .test k a }
      else if (s.tick - s.wstart).toNat > budget then
        { s with trace := s.trace ++ [.waitTimeout c], wok := false, seq := .at i.opcode l .test k a }
      else s)) ∧
  (s.seq = .at i.opcode l .test k a →
    exec i s = .next { s with seq := .at i.opcode (if s.wok then pass else fail) .act k a })

/-- R99 S1, S11 and their like: a line `if enabled then Wait(c, budget)`, one step when it is not enabled (entry 11). -/
def GuardedWaitSteps (enabled : Bool) (i : Instr) (l : Line) (c : Cond) (budget : Nat) (pass fail : Line) (k a : Nat)
    (s : State) : Prop :=
  if enabled then WaitSteps i l c budget pass fail k a s
  else s.seq = .at i.opcode l .act k a → exec i s = .next { s with seq := .at i.opcode pass .act k a }

/-- R96: the abort steps A1 and A2. A1's stop leaves `phase` (entry 17); either is one step when it does nothing (entry
11). -/
def AbortSteps (i : Instr) (read : Bool) (k a : Nat) (s : State) : Prop :=
  (s.seq = .at i.opcode .a1 .act k a →
    exec i s = .next
      { s with
        trace := if s.cfg.stopOnAbort then s.trace ++ [.stop] else s.trace
        seq := .at i.opcode .a2 .act k a }) ∧
  (s.seq = .at i.opcode .a2 .act k a →
    exec i s = .next
      { s with
        trace := if read then s.trace ++ [.ack true] else s.trace
        ackEn := if read then true else s.ackEn
        seq := .at i.opcode .a3 .act k a })

/-- R99, R100 S1 to S7: start, address byte with W, register address; S7's wait is stated with the
command. -/
def AddressSteps (i : Instr) (sa : SlaveAddr) (ra : RegAddr) (k a : Nat) (s : State) : Prop :=
  GuardedWaitSteps s.cfg.busFreeWait i .s1 .busFree 1000 .s2 .a1 k a s ∧
  (s.seq = .at i.opcode .s2 .act k a →
    exec i s = .next
      { s with trace := s.trace ++ [.start], phase := .startAsserted, seq := .at i.opcode .s3 .act k a }) ∧
  WaitSteps i .s3 .startDone 1000 .s4 .a1 k a s ∧
  (s.seq = .at i.opcode .s4 .act k a →
    exec i s = .next
      { s with
        trace := s.trace ++ [.tx (sa ++ 0#1)], phase := .addressSentForWrite, seq := .at i.opcode .s5 .act k a }) ∧
  WaitSteps i .s5 .addrWAck 1000 .s6 .a1 k a s ∧
  (s.seq = .at i.opcode .s6 .act k a →
    exec i s = .next
      { s with trace := s.trace ++ [.tx ra], phase := .registerAddressSent, seq := .at i.opcode .s7 .act k a })

/-- R100 S8 to S11: repeated start and address byte with R. -/
def ReadAddressSteps (i : Instr) (sa : SlaveAddr) (k a : Nat) (s : State) : Prop :=
  (s.seq = .at i.opcode .s8 .act k a →
    exec i s = .next
      { s with trace := s.trace ++ [.start], phase := .startAsserted, seq := .at i.opcode .s9 .act k a }) ∧
  WaitSteps i .s9 .startDone 1000 .s10 .a1 k a s ∧
  (s.seq = .at i.opcode .s10 .act k a →
    exec i s = .next
      { s with
        trace := s.trace ++ [.tx (sa ++ 1#1)], phase := .addressSentForRead, seq := .at i.opcode .s11 .act k a }) ∧
  WaitSteps i .s11 .addrRAck 1000 .s12 .a1 k a s

/-- R76 T1, R77 D1: what a line that awaits a condition does: it holds until ENV answers true (R13). -/
def AwaitSteps (i : Instr) (l : Line) (c : Cond) (next : Line) (k a : Nat) (s : State) : Prop :=
  s.seq = .at i.opcode l .act k a →
    exec i s = .next
      (if s.env.sample then { s with trace := s.trace ++ [.waitOk c], seq := .at i.opcode next .act k a } else s)

/-- R75: the two steps of SetDirection at two lines of a command. -/
def DirectionSteps (i : Instr) (d : Direction) (l₁ l₂ : Line) (after : SeqPos) (k a : Nat) (s : State) : Prop :=
  (s.seq = .at i.opcode l₁ .act k a →
    exec i s = .next
      { s with
        dir := d
        dirPin := if d = .transmit then s.cfg.dirTxLevel else !s.cfg.dirTxLevel
        trace := s.trace ++ [.dir (if d = .transmit then s.cfg.dirTxLevel else !s.cfg.dirTxLevel)]
        seq := .at i.opcode l₂ .act k a }) ∧
  (s.seq = .at i.opcode l₂ .act k a →
    exec i s = .next { s with trace := s.trace ++ [.delayUs s.cfg.settleUs], seq := after })

/-- R81, R82: the numbered steps of a command that sends the `n` bytes at `ptr`. -/
def TransmitSteps (i : Instr) (ptr : Half) (n k a : Nat) (s : State) : Prop :=
  DirectionSteps i .transmit .s1 .s2 (if 0 < n then .at i.opcode .s3a .act 0 a else .at i.opcode .s4 .act 0 a) k a s ∧
  AwaitSteps i .s3a .txe .s3b k a s ∧
  (k < n → s.seq = .at i.opcode .s3b .act k a →
    exec i s = .next
      { s with
        trace := s.trace ++ [.uTx (memRead s.hm (ptr.toNat + k))]
        seq := if k + 1 < n then .at i.opcode .s3a .act (k + 1) a else .at i.opcode .s4 .act k a }) ∧
  AwaitSteps i .s4 .tc .s5 k a s ∧
  DirectionSteps i .receive .s5 .s6 (.at i.opcode .s7 .act k a) k a s ∧
  (s.seq = .at i.opcode .s7 .act k a → exec i s = .next { s with status := 0x01, seq := .idle })

/-- The condition a line that waits asks for (R98, R99 to R104). -/
def condAt : Instr → Line → Cond
  | .wrb _ _ _, l => condOfWrite l .s9 .s11
  | .rdb _ _, l => condOfRead l
  | .wrbuf _ _ _ _, l => condOfWrite l .s8b .s10
  | .rdbuf _ _ _ _, l => condOfRead l
  | .setdir _, _ => .txe
  | .sendb _, _ => .txe
  | .sends _, _ => .txe
  | .sendbuf _ _, _ => .txe
  | .recv _ _, _ => .txe
  | .avail, _ => .txe
  | .rxlen, _ => .txe
  | .clrrx, _ => .txe
  | .scan, l => if l = .p1 then .busFree else if l = .p3 then .startDone else if l = .p4a then .addrWAck else .stopDone
where
  /-- The conditions of a write transaction, whose data and stop lines are given. -/
  condOfWrite (l data stop : Line) : Cond :=
    if l = .s1 then .busFree else if l = .s3 then .startDone else if l = .s5 then .addrWAck
    else if l = .s7 ∨ l = data then .byteTxDone else if l = stop then .stopDone else .txe
  /-- The conditions of a read transaction. -/
  condOfRead (l : Line) : Cond :=
    if l = .s1 then .busFree else if l = .s3 then .startDone else if l = .s5 then .addrWAck
    else if l = .s7 then .byteTxDone else if l = .s9 then .startDone else if l = .s11 then .addrRAck else .byteRxReady

/-- The budget of a command's waits (R94). -/
def budgetOf (i : Instr) : Nat := if i.opcode = 0xD then 100 else 1000

/-- How many steps a line `if enabled then Wait(...)` takes when its condition holds at the first poll (entries 10, 11). -/
def lineSteps (enabled : Bool) : Nat := if enabled then 3 else 1

/-- SEQ's and TICK's steps during one scan probe: every condition holds at its first poll, but that a slave which is not
there lets the address wait run out, after 101 ticks (R104, W6). A wait is three steps (entry 10). -/
def probeActions (p : Params) (b : Byte) (present : Bool) : List Action :=
  ideal (lineSteps p.busFreeWait + 6) b ++
    (if present then ideal 1 b else List.replicate 101 .tick ++ [.seq ⟨false, b⟩]) ++
    ideal (2 + lineSteps p.stopDoneWait + 1) b

/-! ### Which fields belong to what -/

/-- HDX's state (R3): direction, pin, receive buffer, its count, flag and request. -/
def sameHdx (s t : State) : Prop :=
  t.dir = s.dir ∧ t.dirPin = s.dirPin ∧ t.rxBuf = s.rxBuf ∧ t.rxCount = s.rxCount ∧ t.rxReady = s.rxReady ∧
    t.rxPend = s.rxPend

/-- BM's state (R3): acknowledgment control, phase and the scan's result. -/
def sameBm (s t : State) : Prop := t.ackEn = s.ackEn ∧ t.phase = s.phase ∧ t.present = s.present

/-- The SEQ position and latches, which no interrupt touches (R117, R118). -/
def sameSeq (s t : State) : Prop :=
  t.seq = s.seq ∧ t.cmd = s.cmd ∧ t.wstart = s.wstart ∧ t.wok = s.wok ∧ t.c0 = s.c0 ∧ t.nc = s.nc ∧
    t.rorder = s.rorder ∧ t.rbound = s.rbound ∧ t.found = s.found ∧ t.rdByte = s.rdByte

/-- The host-visible result registers (R33). -/
def sameResults (s t : State) : Prop :=
  t.status = s.status ∧ t.value = s.value ∧ t.count = s.count ∧ t.present = s.present

/-- What the host, ENV and an observer of the lower interface can see of a run (R133): the register block, HM, the DIR pin
and the trace. -/
def observation (s : State) : (Word × Word × Word × Word × Word) × BitVec 128 × Memory × Bool × List Event :=
  ((s.cmdLo, s.cmdHi, s.status, s.value, s.count), s.present, s.hm, s.dirPin, s.trace)

/-- A state right after reset, with the values R131 leaves open put to any value (R133). -/
def resetWith (rxBuf : Vector Byte Config.rxCap) (cmd : Descriptor) (wstart : Word) (wok : Bool) (c0 : BitVec 9)
    (nc : BitVec 16) (rorder rbound : Bool) (found rdByte : Byte) (tick : Word) (s : State) : State :=
  { resetEvent s with
    rxBuf := rxBuf
    cmd := cmd
    wstart := wstart
    wok := wok
    c0 := c0
    nc := nc
    rorder := rorder
    rbound := rbound
    found := found
    rdByte := rdByte
    tick := tick }

end Sys2Proof.Machine
end

