-- ==== Sys2Proof/Certificates/Slice0/Obligations.lean ====
section
/-! DEFINITION. What is claimed of the model: statements only, with the rules of the spec they come from. In a statement
about a numbered step, "the step at a position" is `exec i s` at that position; every field that its right side does not
name is unchanged. Two such fields are the model's choice wherever a statement has them: the loop index and the probe
address of a position where no rule gives them (entry 28), and the latches after a command's `finish` (entry 29). -/

open Sys2Proof Sys2Proof.Machine

/-! ### Encoding -/

/-- R62, R66: the descriptor of every well-formed command decodes to that command, for every value of every operand. -/
def Obligations.DecodeOfEncodeIsTheCommand : Prop :=
  ∀ i : Instr, i.wf = true → decode (encode i) = .ok i

/-- R62, R67: a descriptor that decodes is the descriptor of the command it decodes to, which is well formed: no bit of a
legal descriptor is ignored. -/
def Obligations.EncodeOfDecodeIsTheDescriptor : Prop :=
  ∀ (d : Descriptor) (i : Instr), decode d = .ok i → encode i = d ∧ i.wf = true

/-- R66: a descriptor encodes a mnemonic exactly when it matches the mnemonic's row and, for RDBUF, LEN >= 1; and no two
rows match the same descriptor. `r` stands for any command of the mnemonic. -/
def Obligations.DecodeFollowsTheOpcodeRows : Prop :=
  (∀ (d : Descriptor) (r : Instr),
    (∃ i, decode d = .ok i ∧ i.opcode = r.opcode) ↔
      (d &&& r.rowMask = r.rowMatch ∧ (r.opcode = 0xC → d.extractLsb' 16 16 ≠ 0))) ∧
  (∀ (d : Descriptor) (r r' : Instr), d &&& r.rowMask = r.rowMatch → d &&& r'.rowMask = r'.rowMatch →
    r.opcode = r'.opcode)

/-- Words written out from R62 (V1, V2, P1 of 95_test_vectors.md) decode to the commands they stand for. -/
def Obligations.DecodeReadsWrittenWords : Prop :=
  decode 0x093C015500000000 = .ok (.wrb 0x3C 0x01 0x55) ∧
  decode 0x0C3C000000030200 = .ok (.rdbuf 0x3C 0x00 0x0200 3) ∧
  decode 0x0B7F80000001FFFF = .ok (.wrbuf 0x7F 0x80 0xFFFF 1) ∧
  decode 0x05000000012C1000 = .ok (.recv 0x1000 300) ∧
  decode 0x0100000100000000 = .ok (.setdir .transmit) ∧
  decode 0x0D00000000000000 = .ok .scan

/-- R38: two events with the same 32-bit encoding are the same event. -/
def Obligations.EventWordsAreDistinct : Prop :=
  ∀ e e' : Event, eventWord e = eventWord e' → e = e'

/-- R73, R74: the assembler accepts a line exactly when its operands are within their fields, its buffer inside HM and a
read's length at least 1, and what it emits then is the descriptor that decodes to the line's command with the line's own
operands, at DISPLAY_ADDR for a pseudo-instruction; `.desc` emits its number. (A string of SENDS is not looked at: whether
it ends is a question of HM at issue, R109.) -/
def Obligations.AssemblerEmitsTheLinesCommand : Prop :=
  ∀ (cfg : Params) (c : AsmCommand) (d : Descriptor), assemble cfg c = .ok d ↔
    match c with
    | .setdir dir => decode d = .ok (.setdir dir)
    | .sendb b => ∃ b' : Byte, b'.toNat = b ∧ decode d = .ok (.sendb b')
    | .sends p => ∃ ptr : Half, ptr.toNat = p ∧ decode d = .ok (.sends ptr)
    | .sendbuf p n => ∃ ptr len, asmBufferIs p n ptr len ∧ decode d = .ok (.sendbuf ptr len)
    | .recv p n => ∃ ptr len, asmBufferIs p n ptr len ∧ decode d = .ok (.recv ptr len)
    | .avail => decode d = .ok .avail
    | .rxlen => decode d = .ok .rxlen
    | .clrrx => decode d = .ok .clrrx
    | .wrb sa ra v => ∃ (sa' : SlaveAddr) (ra' : RegAddr) (v' : Byte), sa'.toNat = sa ∧ ra'.toNat = ra ∧
        v'.toNat = v ∧ decode d = .ok (.wrb sa' ra' v')
    | .rdb sa ra => ∃ (sa' : SlaveAddr) (ra' : RegAddr), sa'.toNat = sa ∧ ra'.toNat = ra ∧
        decode d = .ok (.rdb sa' ra')
    | .wrbuf sa ra p n => ∃ (sa' : SlaveAddr) (ra' : RegAddr) (ptr len : Half), sa'.toNat = sa ∧ ra'.toNat = ra ∧
        asmBufferIs p n ptr len ∧ decode d = .ok (.wrbuf sa' ra' ptr len)
    | .rdbuf sa ra p n => ∃ (sa' : SlaveAddr) (ra' : RegAddr) (ptr len : Half), sa'.toNat = sa ∧ ra'.toNat = ra ∧
        1 ≤ n ∧ asmBufferIs p n ptr len ∧ decode d = .ok (.rdbuf sa' ra' ptr len)
    | .scan => decode d = .ok .scan
    | .dwrb ra v => ∃ (ra' : RegAddr) (v' : Byte), ra'.toNat = ra ∧ v'.toNat = v ∧
        decode d = .ok (.wrb cfg.displayAddr ra' v')
    | .drdb ra => ∃ ra' : RegAddr, ra'.toNat = ra ∧ decode d = .ok (.rdb cfg.displayAddr ra')
    | .dwrbuf ra p n => ∃ (ra' : RegAddr) (ptr len : Half), ra'.toNat = ra ∧ asmBufferIs p n ptr len ∧
        decode d = .ok (.wrbuf cfg.displayAddr ra' ptr len)
    | .drdbuf ra p n => ∃ (ra' : RegAddr) (ptr len : Half), ra'.toNat = ra ∧ 1 ≤ n ∧ asmBufferIs p n ptr len ∧
        decode d = .ok (.rdbuf cfg.displayAddr ra' ptr len)
    | .desc n => d.toNat = n

/-! ### Issue, host interface, reset -/

/-- R34, R35, R129: SEQ's next step is the meaning of the command decoded from `cmd`, with ENV's answers; and the host's
write of CMD_HI is the meaning of the command decoded from the new descriptor, at position Idle. -/
def Obligations.StepRunsTheDecodedCommand : Prop :=
  ∀ (s : State) (i : Instr) (rest : List Action),
    (∀ answer, s.agenda = .seq answer :: rest → s.seq ≠ .idle → decode s.cmd = .ok i →
      step s = exec i { s with agenda := rest, env := answer }) ∧
    (∀ hi, s.agenda = .hostWrite 0x04 4 hi :: rest → s.seq = .idle → decode (hi ++ s.cmdLo) = .ok i →
      step s = exec i { s with agenda := rest, cmdHi := hi, cmd := hi ++ s.cmdLo })

/-- R109, R129: the host's write of CMD_HI latches the descriptor and, in the same step, either moves SEQ to the first step
of the command's rule or, when the descriptor or an issue-time check is illegal, sets STATUS to 0x04; nothing else
changes. (That the position at the first step has loop index 0 and probe address 0 is the model's choice, entry 28.) -/
def Obligations.IssueCheckDecides : Prop :=
  ∀ (s : State) (hi : Word) (rest : List Action), s.seq = .idle → s.agenda = .hostWrite 0x04 4 hi :: rest →
    (∀ i, decode (hi ++ s.cmdLo) = .ok i → issueCondition i s.hm →
      step s = .next
        { s with agenda := rest, cmdHi := hi, cmd := hi ++ s.cmdLo, seq := .at i.opcode .s1 .act 0 0 }) ∧
    ((∀ i, decode (hi ++ s.cmdLo) = .ok i → ¬ issueCondition i s.hm) →
      step s = .next { s with agenda := rest, cmdHi := hi, cmd := hi ++ s.cmdLo, status := 0x00000004 })

/-- R109: at position Idle the meaning of each command is its issue check: a well-formed command whose issue-time check
holds starts at its first numbered step, and any other is an IllegalCommand that changes STATUS alone. (Loop index 0 and
probe address 0 at the first step are the model's choice, entry 28.) -/
def Obligations.IdleMeaningIsTheIssueCheck : Prop :=
  ∀ (i : Instr) (s : State), s.seq = .idle →
    (i.wf = true → issueCondition i s.hm → exec i s = .next { s with seq := .at i.opcode .s1 .act 0 0 }) ∧
    (¬ (i.wf = true ∧ issueCondition i s.hm) → exec i s = .next { s with status := 0x00000004 })

/-- R27, R28, R129: a host write to CMD_LO stores the value and does nothing else, and a host read of each implemented
register returns it and changes nothing (`hostData` is the model's place for what a read returns, entry 20). -/
def Obligations.HostReadsAndWritesRegisters : Prop :=
  ∀ (s : State) (rest : List Action), s.seq = .idle →
    (∀ v, s.agenda = .hostWrite 0x00 4 v :: rest → step s = .next { s with agenda := rest, cmdLo := v }) ∧
    (∀ off v, (off, v) ∈ [(0x00, s.cmdLo), (0x04, s.cmdHi), (0x08, s.status), (0x0C, s.value), (0x10, s.count),
        (0x20, s.present.extractLsb' 0 32), (0x24, s.present.extractLsb' 32 32), (0x28, s.present.extractLsb' 64 32),
        (0x2C, s.present.extractLsb' 96 32)] →
      s.agenda = .hostRead off 4 :: rest → step s = .next { s with agenda := rest, hostData := v })

/-- R52: the host's accesses of the register block of another width, at a misaligned or a reserved offset, and its writes to
STATUS, VALUE, COUNT and PRESENT0 to PRESENT3, are refused. -/
def Obligations.BadRegisterAccessIsRefused : Prop :=
  ∀ (s : State) (rest : List Action) (off width : Nat) (v : Word), s.seq = .idle →
    ((width ≠ 4 ∨ off % 4 ≠ 0 ∨ off ∈ [0x14, 0x18, 0x1C, 0x30, 0x34, 0x38, 0x3C]) →
      (s.agenda = .hostRead off width :: rest → ∃ r, step s = .refused r) ∧
      (s.agenda = .hostWrite off width v :: rest → ∃ r, step s = .refused r)) ∧
    (off ∈ [0x08, 0x0C, 0x10, 0x20, 0x24, 0x28, 0x2C] → s.agenda = .hostWrite off 4 v :: rest →
      step s = .refused .registerReadOnly)

/-- R129: while SEQ is not Idle the host has no step: each of its actions is passed over. -/
def Obligations.HostIsBlockedUntilFinish : Prop :=
  ∀ (s : State) (act : Action) (rest : List Action), s.seq ≠ .idle → isHostAction act = true →
    s.agenda = act :: rest → step s = .next { s with agenda := rest }

/-- R129, R43: while SEQ is Idle the host's write of a byte of HM sets that byte and leaves every other byte, and every
register, as it was. -/
def Obligations.HostWritesOneByteOfMemory : Prop :=
  ∀ (s : State) (a : Half) (v : Byte) (rest : List Action), s.seq = .idle → Memory.wf s.hm = true →
    s.agenda = .hmWrite a v :: rest →
    ∃ m, step s = .next { s with agenda := rest, hm := m } ∧ Memory.wf m = true ∧
      ∀ x, memRead m x = if x = a.toNat then v else memRead s.hm x

/-- R131: Reset puts every element whose reset value the spec gives to that value, whatever runs. That it leaves HM, which the
spec says is the host's business, and the parameters as they were is the model's reading (entry 27). -/
def Obligations.ResetEventSetsTheGivenValues : Prop :=
  ∀ (s : State) (rest : List Action), s.agenda = .reset :: rest →
    ∃ t, step s = .next t ∧ t.dir = .receive ∧ t.dirPin = !s.cfg.dirTxLevel ∧ t.rxCount = 0 ∧ t.rxReady = false ∧
      t.rxPend = false ∧ t.ackEn = true ∧ t.phase = .idle ∧ t.cmdLo = 0 ∧ t.cmdHi = 0 ∧ t.status = 0 ∧ t.value = 0 ∧
      t.count = 0 ∧ t.present = 0 ∧ t.seq = .idle ∧ t.trace = [] ∧ t.hm = s.hm ∧ t.cfg = s.cfg

/-- R131: the state right after reset has the values the spec gives. (Its `rxBuf`, latches and `tick`, which R131 leaves at
any value, are the model's choice, entry 7, and are not stated.) -/
def Obligations.ResetStateHasTheGivenValues : Prop :=
  State.reset.dir = .receive ∧ State.reset.dirPin = !State.reset.cfg.dirTxLevel ∧ State.reset.rxCount = 0 ∧
    State.reset.rxReady = false ∧ State.reset.rxPend = false ∧ State.reset.ackEn = true ∧
    State.reset.phase = .idle ∧ State.reset.cmdLo = 0 ∧ State.reset.cmdHi = 0 ∧ State.reset.status = 0 ∧
    State.reset.value = 0 ∧ State.reset.count = 0 ∧ State.reset.present = 0 ∧ State.reset.seq = .idle ∧
    State.reset.trace = []

/-! ### Interrupts and the clock -/

/-- R89: RXC's append is enabled when a request is pending and, with DRAIN_ATOMIC, SEQ is not inside RECV or CLRRX: the
byte is stored and counted while there is room and dropped otherwise, the flag is set, the request is cleared, and `URx` is
appended, all in one step. When it is not enabled RXC has no step: that its action is then passed over, with the request as
it was, is the model's choice (entry 2). -/
def Obligations.ReceiveAppendFollowsItsRule : Prop :=
  ∀ (s : State) (b : Byte) (rest : List Action), s.agenda = .rxc b :: rest →
    (s.rxPend = true → (s.cfg.drainAtomic = true → ∀ op l sub i a, s.seq = .at op l sub i a → op ≠ 0x5 ∧ op ≠ 0x8) →
      ∃ buf, step s = .next
          { s with
            agenda := rest
            trace := s.trace ++ [.uRx b]
            rxBuf := buf
            rxCount := if s.rxCount.toNat < 256 then s.rxCount + 1 else s.rxCount
            rxReady := true
            rxPend := false } ∧
        ∀ k, k < 256 → buf[k]? = if k = s.rxCount.toNat then some b else s.rxBuf[k]?) ∧
    ((s.rxPend = false ∨
        (s.cfg.drainAtomic = true ∧ ∃ op l sub i a, s.seq = .at op l sub i a ∧ (op = 0x5 ∨ op = 0x8))) →
      step s = .next { s with agenda := rest })

/-- R90: from an empty buffer, k arrivals one after the other leave `rx_count` = min(k, 256), `rx_ready` = 1 when k > 0, and
the first min(k, 256) bytes stored in arrival order. -/
def Obligations.ArrivalsFillTheBuffer : Prop :=
  ∀ (s : State) (bytes : List Byte) (rest : List Action), s.rxCount = 0 → bytes ≠ [] →
    (s.cfg.drainAtomic = true → s.seq = .idle) → s.agenda = bytes.flatMap arrival ++ rest →
    ∃ t, runSteps (2 * bytes.length) s = .next t ∧ t.agenda = rest ∧ t.rxCount.toNat = min bytes.length 256 ∧
      t.rxReady = true ∧ t.trace = s.trace ++ bytes.map .uRx ∧
      ∀ k, k < min bytes.length 256 → t.rxBuf[k]? = bytes[k]?

/-- R121: TICK adds 1 to `tick` modulo 2^32 and changes nothing else, at any position of SEQ. -/
def Obligations.TickAddsOne : Prop :=
  ∀ (s : State) (rest : List Action), s.agenda = .tick :: rest →
    step s = .next { s with agenda := rest, tick := s.tick + 1 }

/-- R117, R118: an interrupt step, at any boundary, leaves SEQ's position and latches, the results, `dir`, BM's state and HM
as they were. -/
def Obligations.InterruptsLeaveTheSequencer : Prop :=
  ∀ (s t : State) (act : Action) (rest : List Action),
    (act = .tick ∨ act = .raise ∨ ∃ b, act = .rxc b) → s.agenda = act :: rest → step s = .next t →
    sameSeq s t ∧ sameResults s t ∧ sameBm s t ∧ t.dir = s.dir ∧ t.dirPin = s.dirPin ∧ t.hm = s.hm ∧
      t.cmdLo = s.cmdLo ∧ t.cmdHi = s.cmdHi

/-- R116, which the spec marks as derived from R89 and R121: RXC's step and TICK's step taken in either order give the same
state. -/
def Obligations.ReceiveAndTickCommute : Prop :=
  ∀ (s : State) (b : Byte) (rest : List Action),
    runSteps 2 { s with agenda := .rxc b :: .tick :: rest } = runSteps 2 { s with agenda := .tick :: .rxc b :: rest }

/-! ### The numbered steps of each command -/

/-- R79: SETDIR's numbered steps, for both directions. -/
def Obligations.SetdirNumberedSteps : Prop :=
  ∀ (d : Direction) (s : State) (k a : Nat),
    DirectionSteps (.setdir d) d .s1 .s2 (.at 0x1 .s3 .act k a) k a s ∧
    (s.seq = .at 0x1 .s3 .act k a → exec (.setdir d) s = .next { s with status := 0x01, seq := .idle })

/-- R80: SENDB's numbered steps. -/
def Obligations.SendbNumberedSteps : Prop :=
  ∀ (b : Byte) (s : State) (k a : Nat),
    DirectionSteps (.sendb b) .transmit .s1 .s2 (.at 0x2 .s3 .act k a) k a s ∧
    AwaitSteps (.sendb b) .s3 .txe .s4 k a s ∧
    (s.seq = .at 0x2 .s4 .act k a →
      exec (.sendb b) s = .next { s with trace := s.trace ++ [.uTx b], seq := .at 0x2 .s5 .act k a }) ∧
    AwaitSteps (.sendb b) .s5 .tc .s6 k a s ∧
    DirectionSteps (.sendb b) .receive .s6 .s7 (.at 0x2 .s8 .act k a) k a s ∧
    (s.seq = .at 0x2 .s8 .act k a → exec (.sendb b) s = .next { s with status := 0x01, seq := .idle })

/-- R81, R82: the numbered steps of SENDBUF, and of SENDS for a string whose first 0x00 is its byte `n`. That the loop has no
step of its own is entry 11's, that SENDS finds its length in HM at each step entry 12's. -/
def Obligations.BufferTransmitNumberedSteps : Prop :=
  ∀ (ptr len : Half) (s : State) (k a : Nat),
    (ptr.toNat + len.toNat ≤ 0x10000 → TransmitSteps (.sendbuf ptr len) ptr len.toNat k a s) ∧
    (∀ n, ptr.toNat + n ≤ 0xFFFF → memRead s.hm (ptr.toNat + n) = 0x00 →
      (∀ j, j < n → memRead s.hm (ptr.toNat + j) ≠ 0x00) → TransmitSteps (.sends ptr) ptr n k a s)

/-- R84: RECV's numbered steps. The two draws are free values (entry 9): the steps after S2 are stated for every value of
`rorder` and `rbound`. Where the loop index is set and raised is entry 11's. -/
def Obligations.RecvNumberedSteps : Prop :=
  ∀ (ptr len : Half) (s : State) (k a : Nat), ptr.toNat + len.toNat ≤ 0x10000 → Memory.wf s.hm = true →
    (s.seq = .at 0x5 .s1 .act k a →
      exec (.recv ptr len) s = .next
        (if s.rxReady then { s with seq := .at 0x5 .s2 .act k a }
        else { s with count := 0, status := 0x01, seq := .idle })) ∧
    (s.seq = .at 0x5 .s2 .act k a →
      ∃ (order bound : Bool) (n : Nat), exec (.recv ptr len) s = .next
        { s with
          c0 := s.rxCount, nc := 0, rorder := order, rbound := bound, draws := n, seq := .at 0x5 .s3 .act 0 a }) ∧
    (s.seq = .at 0x5 .s3 .act k a →
      min len.toNat (if s.rbound then s.rxCount.toNat else s.c0.toNat) ≤ k →
      exec (.recv ptr len) s = .next { s with seq := .at 0x5 .s4 .act k a }) ∧
    (∀ hk : k < 256, s.seq = .at 0x5 .s3 .act k a →
      k < min len.toNat (if s.rbound then s.rxCount.toNat else s.c0.toNat) →
      ∃ m, exec (.recv ptr len) s = .next
          { s with hm := m, nc := BitVec.ofNat 16 (k + 1), seq := .at 0x5 .s3 .act (k + 1) a } ∧
        Memory.wf m = true ∧ ∀ x, memRead m x = if x = ptr.toNat + k then s.rxBuf[k] else memRead s.hm x) ∧
    (s.seq = .at 0x5 .s4 .act k a →
      exec (.recv ptr len) s = .next
        (if s.rorder then { s with rxReady := false, seq := .at 0x5 .s5 .act k a }
        else { s with rxCount := 0, seq := .at 0x5 .s5 .act k a })) ∧
    (s.seq = .at 0x5 .s5 .act k a →
      exec (.recv ptr len) s = .next
        (if s.rorder then { s with rxCount := 0, seq := .at 0x5 .s6 .act k a }
        else { s with rxReady := false, seq := .at 0x5 .s6 .act k a })) ∧
    (s.seq = .at 0x5 .s6 .act k a →
      exec (.recv ptr len) s = .next { s with count := s.nc.setWidth 32, status := 0x01, seq := .idle })

/-- R86, R87: AVAIL writes the flag to VALUE, RXLEN the count to COUNT; both finish in that one step and leave the receive
buffer as it was. -/
def Obligations.AvailAndRxlenNumberedSteps : Prop :=
  ∀ (s : State) (k a : Nat),
    (s.seq = .at 0x6 .s1 .act k a →
      exec .avail s = .next { s with value := if s.rxReady then 1 else 0, status := 0x01, seq := .idle }) ∧
    (s.seq = .at 0x7 .s1 .act k a →
      exec .rxlen s = .next { s with count := s.rxCount.setWidth 32, status := 0x01, seq := .idle })

/-- R88: CLRRX's numbered steps, for either outcome of its draw. -/
def Obligations.ClrrxNumberedSteps : Prop :=
  ∀ (s : State) (k a : Nat),
    (s.seq = .at 0x8 .s1 .act k a →
      ∃ (order : Bool) (n : Nat), exec .clrrx s = .next
        (if order then
          { s with rorder := true, draws := n, rxReady := false, seq := .at 0x8 .s2 .act k a }
        else { s with rorder := false, draws := n, rxCount := 0, seq := .at 0x8 .s2 .act k a })) ∧
    (s.seq = .at 0x8 .s2 .act k a →
      exec .clrrx s = .next
        (if s.rorder then { s with rxCount := 0, seq := .at 0x8 .s3 .act k a }
        else { s with rxReady := false, seq := .at 0x8 .s3 .act k a })) ∧
    (s.seq = .at 0x8 .s3 .act k a → exec .clrrx s = .next { s with status := 0x01, seq := .idle })

/-- R99, R96: WRB's numbered steps and its abort. The step after each wait that reads `wok` is entry 10's, the one step of a
line whose parameter is false entry 11's, and that the abort's stop leaves `phase` entry 17's. -/
def Obligations.WrbNumberedSteps : Prop :=
  ∀ (sa : SlaveAddr) (ra : RegAddr) (v : Byte) (s : State) (k a : Nat),
    AddressSteps (.wrb sa ra v) sa ra k a s ∧
    WaitSteps (.wrb sa ra v) .s7 .byteTxDone 1000 .s8 .a1 k a s ∧
    (s.seq = .at 0x9 .s8 .act k a →
      exec (.wrb sa ra v) s = .next
        { s with trace := s.trace ++ [.tx v], phase := .dataSent, seq := .at 0x9 .s9 .act k a }) ∧
    WaitSteps (.wrb sa ra v) .s9 .byteTxDone 1000 .s10 .a1 k a s ∧
    (s.seq = .at 0x9 .s10 .act k a →
      exec (.wrb sa ra v) s = .next
        { s with trace := s.trace ++ [.stop], phase := .stopAsserted, seq := .at 0x9 .s11 .act k a }) ∧
    GuardedWaitSteps s.cfg.stopDoneWait (.wrb sa ra v) .s11 .stopDone 1000 .s12 .a1 k a s ∧
    (s.seq = .at 0x9 .s12 .act k a →
      exec (.wrb sa ra v) s = .next { s with phase := .idle, status := 0x01, seq := .idle }) ∧
    AbortSteps (.wrb sa ra v) false k a s ∧
    (s.seq = .at 0x9 .a3 .act k a →
      exec (.wrb sa ra v) s = .next { s with phase := .idle, status := 0x02, seq := .idle })

/-- R100, R96: RDB's numbered steps and its abort, whose VALUE is a drawn byte (a free value, entry 9). The step after each
wait is entry 10's, the one step of a line whose parameter is false entry 11's, `rdByte`, which holds the byte from S15 to
S17, entry 13's, and that a stop of it leaves `phase` entry 17's. -/
def Obligations.RdbNumberedSteps : Prop :=
  ∀ (sa : SlaveAddr) (ra : RegAddr) (s : State) (k a : Nat),
    AddressSteps (.rdb sa ra) sa ra k a s ∧
    WaitSteps (.rdb sa ra) .s7 .byteTxDone 1000 .s8 .a1 k a s ∧
    ReadAddressSteps (.rdb sa ra) sa k a s ∧
    (s.seq = .at 0xA .s12 .act k a →
      exec (.rdb sa ra) s = .next
        { s with
          trace := s.trace ++ [.ack false], ackEn := false, phase := .receiving, seq := .at 0xA .s13 .act k a }) ∧
    (s.seq = .at 0xA .s13 .act k a →
      exec (.rdb sa ra) s = .next { s with trace := s.trace ++ [.stop], seq := .at 0xA .s14 .act k a }) ∧
    WaitSteps (.rdb sa ra) .s14 .byteRxReady 1000 .s15 .a1 k a s ∧
    (s.seq = .at 0xA .s15 .act k a →
      exec (.rdb sa ra) s = .next
        { s with trace := s.trace ++ [.rx s.env.byte], rdByte := s.env.byte, seq := .at 0xA .s16 .act k a }) ∧
    (s.seq = .at 0xA .s16 .act k a →
      exec (.rdb sa ra) s = .next
        { s with trace := s.trace ++ [.ack true], ackEn := true, seq := .at 0xA .s17 .act k a }) ∧
    (s.seq = .at 0xA .s17 .act k a →
      exec (.rdb sa ra) s = .next
        { s with value := s.rdByte.setWidth 32, phase := .idle, status := 0x01, seq := .idle }) ∧
    AbortSteps (.rdb sa ra) true k a s ∧
    (s.seq = .at 0xA .a3 .act k a →
      ∃ (b : Byte) (n : Nat), exec (.rdb sa ra) s = .next
        { s with value := b.setWidth 32, draws := n, phase := .idle, status := 0x02, seq := .idle })

/-- R101, R96: WRBUF's numbered steps and its abort, LEN = 0 included. The step after each wait, which goes on to the next
byte, is entry 10's, that the loop has no step of its own and a line whose parameter is false has one entry 11's, and that
the abort's stop leaves `phase` entry 17's. -/
def Obligations.WrbufNumberedSteps : Prop :=
  ∀ (sa : SlaveAddr) (ra : RegAddr) (ptr len : Half) (s : State) (k a : Nat), ptr.toNat + len.toNat ≤ 0x10000 →
    AddressSteps (.wrbuf sa ra ptr len) sa ra k a s ∧
    (k = 0 → WaitSteps (.wrbuf sa ra ptr len) .s7 .byteTxDone 1000 (if len = 0 then .s9 else .s8a) .a1 k a s) ∧
    (k < len.toNat → s.seq = .at 0xB .s8a .act k a →
      exec (.wrbuf sa ra ptr len) s = .next
        { s with
          trace := s.trace ++ [.tx (memRead s.hm (ptr.toNat + k))]
          phase := .dataSent
          seq := .at 0xB .s8b .act k a }) ∧
    (s.seq = .at 0xB .s8b .act k a →
      exec (.wrbuf sa ra ptr len) s = .next { s with wstart := s.tick, seq := .at 0xB .s8b .poll k a }) ∧
    (s.seq = .at 0xB .s8b .poll k a →
      exec (.wrbuf sa ra ptr len) s = .next
        (if s.env.sample then
          { s with trace := s.trace ++ [.waitOk .byteTxDone], wok := true, seq := .at 0xB .s8b .test k a }
        else if (s.tick - s.wstart).toNat > 1000 then
          { s with trace := s.trace ++ [.waitTimeout .byteTxDone], wok := false, seq := .at 0xB .s8b .test k a }
        else s)) ∧
    (s.seq = .at 0xB .s8b .test k a →
      exec (.wrbuf sa ra ptr len) s = .next
        { s with
          seq :=
            if s.wok then
              (if k + 1 < len.toNat then .at 0xB .s8a .act (k + 1) a else .at 0xB .s9 .act k a)
            else .at 0xB .a1 .act k a }) ∧
    (s.seq = .at 0xB .s9 .act k a →
      exec (.wrbuf sa ra ptr len) s = .next
        { s with trace := s.trace ++ [.stop], phase := .stopAsserted, seq := .at 0xB .s10 .act k a }) ∧
    GuardedWaitSteps s.cfg.stopDoneWait (.wrbuf sa ra ptr len) .s10 .stopDone 1000 .s11 .a1 k a s ∧
    (s.seq = .at 0xB .s11 .act k a →
      exec (.wrbuf sa ra ptr len) s = .next { s with phase := .idle, status := 0x01, seq := .idle }) ∧
    AbortSteps (.wrbuf sa ra ptr len) false k a s ∧
    (s.seq = .at 0xB .a3 .act k a →
      exec (.wrbuf sa ra ptr len) s = .next { s with phase := .idle, status := 0x02, seq := .idle })

/-- R102, R96: RDBUF's numbered steps and its abort. The step after each wait is entry 10's, the one step of S13a and S13b
before the last byte and of a line whose parameter is false entry 11's, and that a stop of it leaves `phase` entry 17's. -/
def Obligations.RdbufNumberedSteps : Prop :=
  ∀ (sa : SlaveAddr) (ra : RegAddr) (ptr len : Half) (s : State) (k a : Nat),
    ptr.toNat + len.toNat ≤ 0x10000 → len ≠ 0 → Memory.wf s.hm = true →
    AddressSteps (.rdbuf sa ra ptr len) sa ra k a s ∧
    WaitSteps (.rdbuf sa ra ptr len) .s7 .byteTxDone 1000 .s8 .a1 k a s ∧
    ReadAddressSteps (.rdbuf sa ra ptr len) sa k a s ∧
    (s.seq = .at 0xC .s12 .act k a →
      exec (.rdbuf sa ra ptr len) s = .next { s with phase := .receiving, seq := .at 0xC .s13a .act 0 a }) ∧
    (s.seq = .at 0xC .s13a .act k a →
      exec (.rdbuf sa ra ptr len) s = .next
        (if k + 1 = len.toNat then
          { s with trace := s.trace ++ [.ack false], ackEn := false, seq := .at 0xC .s13b .act k a }
        else { s with seq := .at 0xC .s13b .act k a })) ∧
    (s.seq = .at 0xC .s13b .act k a →
      exec (.rdbuf sa ra ptr len) s = .next
        (if k + 1 = len.toNat then { s with trace := s.trace ++ [.stop], seq := .at 0xC .s13c .act k a }
        else { s with seq := .at 0xC .s13c .act k a })) ∧
    WaitSteps (.rdbuf sa ra ptr len) .s13c .byteRxReady 1000 .s13d .a1 k a s ∧
    (k < len.toNat → s.seq = .at 0xC .s13d .act k a →
      ∃ m, exec (.rdbuf sa ra ptr len) s = .next
          { s with
            trace := s.trace ++ [.rx s.env.byte]
            hm := m
            seq := if k + 1 < len.toNat then .at 0xC .s13a .act (k + 1) a else .at 0xC .s14 .act k a } ∧
        Memory.wf m = true ∧ ∀ x, memRead m x = if x = ptr.toNat + k then s.env.byte else memRead s.hm x) ∧
    (s.seq = .at 0xC .s14 .act k a →
      exec (.rdbuf sa ra ptr len) s = .next
        { s with trace := s.trace ++ [.ack true], ackEn := true, seq := .at 0xC .s15 .act k a }) ∧
    (s.seq = .at 0xC .s15 .act k a →
      exec (.rdbuf sa ra ptr len) s = .next { s with phase := .idle, status := 0x01, seq := .idle }) ∧
    AbortSteps (.rdbuf sa ra ptr len) true k a s ∧
    (s.seq = .at 0xC .a3 .act k a →
      exec (.rdbuf sa ra ptr len) s = .next { s with phase := .idle, status := 0x02, seq := .idle })

/-- R104: SCAN's numbered steps: S1 and S3 at any position of them (issue enters S1 with address 0 by the model's choice,
entry 28), and those of a probe at every address 1 to 126. The step after each wait is entry 10's, the one step of a line
whose parameter is false entry 11's, and S3's `phase` entry 17's. -/
def Obligations.ScanNumberedSteps : Prop :=
  (∀ (s : State) (k a : Nat),
    (s.seq = .at 0xD .s1 .act k a →
      exec .scan s = .next { s with present := 0, found := 0, seq := .at 0xD .p1 .act 0 1 }) ∧
    (s.seq = .at 0xD .s3 .act k a →
      exec .scan s = .next
        { s with count := s.found.setWidth 32, phase := .idle, status := 0x01, seq := .idle })) ∧
  ∀ (s : State) (k a : Nat), 1 ≤ a → a < 127 →
    GuardedWaitSteps s.cfg.busFreeWait .scan .p1 .busFree 100 .p2 .p5 k a s ∧
    (s.seq = .at 0xD .p2 .act k a →
      exec .scan s = .next
        { s with trace := s.trace ++ [.start], phase := .startAsserted, seq := .at 0xD .p3 .act k a }) ∧
    WaitSteps .scan .p3 .startDone 100 .p4 .p5 k a s ∧
    (s.seq = .at 0xD .p4 .act k a →
      exec .scan s = .next
        { s with
          trace := s.trace ++ [.tx (BitVec.ofNat 7 a ++ 0#1)]
          phase := .addressSentForWrite
          seq := .at 0xD .p4a .act k a }) ∧
    (s.seq = .at 0xD .p4a .act k a →
      exec .scan s = .next { s with wstart := s.tick, seq := .at 0xD .p4a .poll k a }) ∧
    (s.seq = .at 0xD .p4a .poll k a →
      exec .scan s = .next
        (if s.env.sample then
          { s with trace := s.trace ++ [.waitOk .addrWAck], wok := true, seq := .at 0xD .p4a .test k a }
        else if (s.tick - s.wstart).toNat > 100 then
          { s with trace := s.trace ++ [.waitTimeout .addrWAck], wok := false, seq := .at 0xD .p4a .test k a }
        else s)) ∧
    (s.seq = .at 0xD .p4a .test k a →
      ∃ present, exec .scan s = .next
          { s with
            present := present
            found := if s.wok then s.found + 1 else s.found
            seq := .at 0xD .p5 .act k a } ∧
        ∀ x, present.getLsbD x = (s.present.getLsbD x || (s.wok && decide (x = a)))) ∧
    (s.seq = .at 0xD .p5 .act k a →
      exec .scan s = .next
        { s with trace := s.trace ++ [.stop], phase := .stopAsserted, seq := .at 0xD .p6 .act k a }) ∧
    GuardedWaitSteps s.cfg.stopDoneWait .scan .p6 .stopDone 100 .p7 .p7 k a s ∧
    (s.seq = .at 0xD .p7 .act k a →
      exec .scan s = .next
        { s with
          trace := s.trace ++ [.delayMs 1]
          phase := .idle
          seq := if a + 1 < 127 then .at 0xD .p1 .act 0 (a + 1) else .at 0xD .s3 .act 0 a })

/-! ### Whole commands under the ideal environment -/

/-- R80 to R82 with ENV answering every sample true: from its issue, SENDB, SENDBUF and SENDS run to completion, send
exactly their bytes in order between the two direction switches, and end in Receive with STATUS 0x01. (The number of steps:
the loop has none of its own, entry 11. That the latches are then as they were: entry 29.) -/
def Obligations.TransmitCommandsRunToCompletion : Prop :=
  ∀ (i : Instr) (bytes : List Byte) (s : State) (x : Byte) (rest : List Action), Issued i s →
    (i = .sendb (bytes.headD 0) ∧ bytes.length = 1 ∧ s.agenda = ideal 8 x ++ rest ∨
      (∃ ptr len, i = .sendbuf ptr len ∧ bytes = bufferBytes s.hm ptr len.toNat ∧
        s.agenda = ideal (6 + 2 * bytes.length) x ++ rest) ∨
      (∃ ptr, i = .sends ptr ∧ bytes = bufferBytes s.hm ptr bytes.length ∧ (∀ b ∈ bytes, b ≠ 0x00) ∧
        ptr.toNat + bytes.length ≤ 0xFFFF ∧ memRead s.hm (ptr.toNat + bytes.length) = 0x00 ∧
        s.agenda = ideal (6 + 2 * bytes.length) x ++ rest)) →
    runSteps (6 + 2 * bytes.length) s = .next
      { s with
        agenda := rest
        env := ⟨true, x⟩
        dir := .receive
        dirPin := !s.cfg.dirTxLevel
        trace := s.trace ++ transmitEvents s.cfg bytes
        status := 0x01
        seq := .idle }

/-- R84 without an arrival: RECV with the flag set copies min(len, rx_count) bytes to HM at PTR, leaves every other byte of HM
as it was, empties the buffer and reports the number; whatever the two draws. With the flag clear it reports 0 and
changes nothing else. (The number of steps: entry 11. The latches
after `finish`: entry 29.) -/
def Obligations.RecvRunsToCompletion : Prop :=
  ∀ (ptr len : Half) (s : State) (x : Byte) (rest : List Action), Issued (.recv ptr len) s →
    Memory.wf s.hm = true → s.rxCount.toNat ≤ 256 →
    (s.rxReady = true → s.agenda = ideal (min len.toNat s.rxCount.toNat + 6) x ++ rest →
      ∃ t, runSteps (min len.toNat s.rxCount.toNat + 6) s = .next t ∧
        t = { s with
          agenda := rest
          env := ⟨true, x⟩
          hm := t.hm
          rxCount := 0
          rxReady := false
          count := BitVec.ofNat 32 (min len.toNat s.rxCount.toNat)
          status := 0x01
          seq := .idle
          c0 := t.c0
          nc := t.nc
          rorder := t.rorder
          rbound := t.rbound
          draws := t.draws } ∧
        Memory.wf t.hm = true ∧
        (∀ k, k < min len.toNat s.rxCount.toNat → some (memRead t.hm (ptr.toNat + k)) = s.rxBuf[k]?) ∧
        (∀ y, (y < ptr.toNat ∨ ptr.toNat + min len.toNat s.rxCount.toNat ≤ y) → memRead t.hm y = memRead s.hm y)) ∧
    (s.rxReady = false → s.agenda = ideal 1 x ++ rest →
      runSteps 1 s = .next { s with agenda := rest, env := ⟨true, x⟩, count := 0, status := 0x01, seq := .idle })

/-- R99 under the ideal environment: WRB from its issue to STATUS 0x01, with the events of R99 for every choice of the two
wait parameters. (The number of steps, three for a wait and one for a line whose parameter is false: entries 10, 11.
The latches `wstart` and `wok` after `finish`: entry 29.) -/
def Obligations.WrbRunsToCompletion : Prop :=
  ∀ (sa : SlaveAddr) (ra : RegAddr) (v : Byte) (s : State) (x : Byte) (rest : List Action), Issued (.wrb sa ra v) s →
    s.agenda = ideal (18 + lineSteps s.cfg.busFreeWait + lineSteps s.cfg.stopDoneWait) x ++ rest →
    runSteps (18 + lineSteps s.cfg.busFreeWait + lineSteps s.cfg.stopDoneWait) s = .next
      { s with
        agenda := rest
        env := ⟨true, x⟩
        trace := s.trace ++ writeEvents s.cfg sa ra [v]
        phase := .idle
        wstart := s.tick
        wok := true
        status := 0x01
        seq := .idle }

/-- R100 under the ideal environment: RDB from its issue to STATUS 0x01 with the received byte in VALUE and acknowledgment
enabled again. (The number of steps, three for a wait: entries 10, 11; `rdByte`: entry 13; it, `wstart` and `wok`
after `finish`: entry 29.) -/
def Obligations.RdbRunsToCompletion : Prop :=
  ∀ (sa : SlaveAddr) (ra : RegAddr) (s : State) (x : Byte) (rest : List Action), Issued (.rdb sa ra) s →
    s.agenda = ideal (28 + lineSteps s.cfg.busFreeWait) x ++ rest →
    runSteps (28 + lineSteps s.cfg.busFreeWait) s = .next
      { s with
        agenda := rest
        env := ⟨true, x⟩
        trace := s.trace ++ readEvents s.cfg sa ra [x]
        ackEn := true
        phase := .idle
        wstart := s.tick
        wok := true
        rdByte := x
        value := x.setWidth 32
        status := 0x01
        seq := .idle }

/-- R101 under the ideal environment: WRBUF from its issue to STATUS 0x01, sending the bytes of its buffer in order, LEN = 0
included. (The number of steps, three for a wait: entries 10, 11. `wstart` and `wok` after `finish`: entry 29.) -/
def Obligations.WrbufRunsToCompletion : Prop :=
  ∀ (sa : SlaveAddr) (ra : RegAddr) (ptr len : Half) (s : State) (x : Byte) (rest : List Action),
    Issued (.wrbuf sa ra ptr len) s →
    s.agenda = ideal (14 + lineSteps s.cfg.busFreeWait + lineSteps s.cfg.stopDoneWait + 4 * len.toNat) x ++ rest →
    runSteps (14 + lineSteps s.cfg.busFreeWait + lineSteps s.cfg.stopDoneWait + 4 * len.toNat) s = .next
      { s with
        agenda := rest
        env := ⟨true, x⟩
        trace := s.trace ++ writeEvents s.cfg sa ra (bufferBytes s.hm ptr len.toNat)
        phase := .idle
        wstart := s.tick
        wok := true
        status := 0x01
        seq := .idle }

/-- R102 under an environment that delivers given bytes: RDBUF from its issue to STATUS 0x01, with the acknowledgment and
the stop where R103 has them, the bytes in HM at PTR and every other byte of HM as it was. (The number of steps, six for a
byte and three for a wait: entries 10, 11. `wstart` and `wok` after `finish`: entry 29.) -/
def Obligations.RdbufRunsToCompletion : Prop :=
  ∀ (sa : SlaveAddr) (ra : RegAddr) (ptr len : Half) (bytes : List Byte) (s : State) (x : Byte) (rest : List Action),
    Issued (.rdbuf sa ra ptr len) s → Memory.wf s.hm = true → bytes.length = len.toNat →
    s.agenda = ideal (21 + lineSteps s.cfg.busFreeWait) x ++ bytes.flatMap (ideal 6) ++ ideal 2 x ++ rest →
    ∃ t, runSteps (23 + lineSteps s.cfg.busFreeWait + 6 * bytes.length) s = .next t ∧
      t = { s with
        agenda := rest
        env := ⟨true, x⟩
        trace := s.trace ++ readEvents s.cfg sa ra bytes
        ackEn := true
        phase := .idle
        wstart := s.tick
        wok := true
        hm := t.hm
        status := 0x01
        seq := .idle } ∧
      Memory.wf t.hm = true ∧ (∀ k, k < bytes.length → some (memRead t.hm (ptr.toNat + k)) = bytes[k]?) ∧
      (∀ y, (y < ptr.toNat ∨ ptr.toNat + bytes.length ≤ y) → memRead t.hm y = memRead s.hm y)

/-- R104, R105, R32 under an environment in which exactly the slaves `r` answer: SCAN from its issue to STATUS 0x01, probing
1 to 126 in order with one stop and one delay each; PRESENT has exactly the bits of the slaves found and COUNT their
number. (The number of steps in `probeActions`, three for a wait: entries 10, 11. The latches after `finish`:
entry 29.) -/
def Obligations.ScanFindsTheResponsiveSlaves : Prop :=
  ∀ (r : Nat → Bool) (s : State) (x : Byte) (run rest : List Action), Issued .scan s →
    run = ideal 1 x ++ (List.range' 1 126).flatMap (fun a => probeActions s.cfg x (r a)) ++ ideal 1 x →
    s.agenda = run ++ rest →
    ∃ t, runSteps run.length s = .next t ∧
      t = { s with
        agenda := rest
        env := ⟨true, x⟩
        trace := s.trace ++ (List.range' 1 126).flatMap (fun a => probeEvents s.cfg a (r a))
        phase := .idle
        wstart := t.wstart
        wok := t.wok
        found := t.found
        tick := t.tick
        present := t.present
        count := BitVec.ofNat 32 ((List.range' 1 126).countP r)
        status := 0x01
        seq := .idle } ∧
      ∀ a, t.present.getLsbD a = (decide (1 ≤ a) && decide (a < 127) && r a)

/-! ### Whole commands under every environment and every interleaving -/

/-- R80 to R83, R91: however RXC, TICK and the host interleave and however often ENV answers false, a transmit command that
completes has sent exactly its bytes, ends in Receive with STATUS 0x01, and changed no result register, no BM state and
no byte of HM. -/
def Obligations.CompletedTransmitSentItsBytes : Prop :=
  ∀ (i : Instr) (bytes : List Byte) (n : Nat) (s t : State), Issued i s → completion n s = some t →
    (i = .sendb (bytes.headD 0) ∧ bytes.length = 1 ∨
      (∃ ptr len, i = .sendbuf ptr len ∧ bytes = bufferBytes s.hm ptr len.toNat) ∨
      (∃ ptr, i = .sends ptr ∧ bytes = bufferBytes s.hm ptr bytes.length ∧ (∀ b ∈ bytes, b ≠ 0x00) ∧
        ptr.toNat + bytes.length ≤ 0xFFFF ∧ memRead s.hm (ptr.toNat + bytes.length) = 0x00)) →
    seqEvents t = seqEvents s ++ transmitEvents s.cfg bytes ∧ t.dir = .receive ∧ t.dirPin = !s.cfg.dirTxLevel ∧
      t.status = 0x01 ∧ t.value = s.value ∧ t.count = s.count ∧ sameBm s t ∧ t.hm = s.hm

/-- R85, R114, R84: with DRAIN_ATOMIC, whatever else steps during it, RECV has one outcome: min(len, rx_count) bytes copied,
the buffer empty and COUNT that number, or COUNT 0 and the buffer as it was when the flag was clear at its first step.
Every other byte of HM is as it was. -/
def Obligations.CompletedAtomicRecvHasOneOutcome : Prop :=
  ∀ (ptr len : Half) (n : Nat) (s t : State), Issued (.recv ptr len) s → s.cfg.drainAtomic = true →
    Memory.wf s.hm = true → s.rxCount.toNat ≤ 256 → completion n s = some t →
    t.status = 0x01 ∧ t.rxBuf = s.rxBuf ∧ seqEvents t = seqEvents s ∧
    (s.rxReady = true →
      t.rxCount = 0 ∧ t.rxReady = false ∧ t.count = BitVec.ofNat 32 (min len.toNat s.rxCount.toNat) ∧
      (∀ k, k < min len.toNat s.rxCount.toNat → some (memRead t.hm (ptr.toNat + k)) = s.rxBuf[k]?) ∧
      (∀ y, (y < ptr.toNat ∨ ptr.toNat + min len.toNat s.rxCount.toNat ≤ y) → memRead t.hm y = memRead s.hm y)) ∧
    (s.rxReady = false → t.rxCount = s.rxCount ∧ t.rxReady = false ∧ t.count = 0 ∧ t.hm = s.hm)

/-- R99, R96, R110: however the agents interleave and ENV answers, a WRB that completes either has STATUS 0x01 and has
appended exactly the events of R99, or has STATUS 0x02 and has appended those before one of its waits, that wait's
WaitTimeout, and the abort's. -/
def Obligations.CompletedWrbSucceededOrTimedOut : Prop :=
  ∀ (sa : SlaveAddr) (ra : RegAddr) (v : Byte) (n : Nat) (s t : State), Issued (.wrb sa ra v) s → completion n s = some t →
    (t.status = 0x01 ∧ seqEvents t = seqEvents s ++ writeEvents s.cfg sa ra [v] ∨
      t.status = 0x02 ∧ ∃ done c, done ++ [.waitOk c] <+: writeEvents s.cfg sa ra [v] ∧
        seqEvents t = seqEvents s ++ done ++ [.waitTimeout c] ++ abortEvents s.cfg false) ∧
    t.phase = .idle ∧ t.ackEn = s.ackEn ∧ t.value = s.value ∧ t.count = s.count ∧ t.present = s.present ∧
      t.dir = s.dir ∧ t.hm = s.hm

/-- R100, R96, R97: the same of RDB: VALUE is the byte received or, after a timeout, some byte; acknowledgment is enabled
again in every case. -/
def Obligations.CompletedRdbSucceededOrTimedOut : Prop :=
  ∀ (sa : SlaveAddr) (ra : RegAddr) (n : Nat) (s t : State), Issued (.rdb sa ra) s → completion n s = some t →
    (t.status = 0x01 ∧ (∃ v : Byte, t.value = v.setWidth 32 ∧
        seqEvents t = seqEvents s ++ readEvents s.cfg sa ra [v]) ∨
      t.status = 0x02 ∧ (∃ v : Byte, t.value = v.setWidth 32) ∧
        ∃ v done c, done ++ [.waitOk c] <+: readEvents s.cfg sa ra [v] ∧
          seqEvents t = seqEvents s ++ done ++ [.waitTimeout c] ++ abortEvents s.cfg true) ∧
    t.phase = .idle ∧ t.ackEn = true ∧ t.count = s.count ∧ t.present = s.present ∧ t.dir = s.dir ∧ t.hm = s.hm

/-- R101, R96: the same of WRBUF with the bytes its buffer had at issue. -/
def Obligations.CompletedWrbufSucceededOrTimedOut : Prop :=
  ∀ (sa : SlaveAddr) (ra : RegAddr) (ptr len : Half) (n : Nat) (s t : State), Issued (.wrbuf sa ra ptr len) s →
    completion n s = some t →
    (t.status = 0x01 ∧
        seqEvents t = seqEvents s ++ writeEvents s.cfg sa ra (bufferBytes s.hm ptr len.toNat) ∨
      t.status = 0x02 ∧ ∃ done c,
        done ++ [.waitOk c] <+: writeEvents s.cfg sa ra (bufferBytes s.hm ptr len.toNat) ∧
        seqEvents t = seqEvents s ++ done ++ [.waitTimeout c] ++ abortEvents s.cfg false) ∧
    t.phase = .idle ∧ t.ackEn = s.ackEn ∧ t.value = s.value ∧ t.count = s.count ∧ t.present = s.present ∧
      t.dir = s.dir ∧ t.hm = s.hm

/-- R102, R103, R96, R97: the same of RDBUF. On success its events are those of R102 with acknowledgment disabled and the
stop asserted just before the last byte, and HM holds the bytes received; on a timeout HM holds the bytes received before
it. No other byte of HM changes, and acknowledgment is enabled again. -/
def Obligations.CompletedRdbufSucceededOrTimedOut : Prop :=
  ∀ (sa : SlaveAddr) (ra : RegAddr) (ptr len : Half) (n : Nat) (s t : State), Issued (.rdbuf sa ra ptr len) s →
    Memory.wf s.hm = true → completion n s = some t →
    (∃ bytes : List Byte, bytes.length = len.toNat ∧
      (t.status = 0x01 ∧ seqEvents t = seqEvents s ++ readEvents s.cfg sa ra bytes ∧
          (∀ y, memRead t.hm y =
            if ptr.toNat ≤ y ∧ y < ptr.toNat + len.toNat then bytes.getD (y - ptr.toNat) 0 else memRead s.hm y) ∨
        t.status = 0x02 ∧ ∃ done c, done ++ [.waitOk c] <+: readEvents s.cfg sa ra bytes ∧
          seqEvents t = seqEvents s ++ done ++ [.waitTimeout c] ++ abortEvents s.cfg true ∧
          (∀ y, memRead t.hm y =
            if ptr.toNat ≤ y ∧ y < ptr.toNat + done.countP isRx then bytes.getD (y - ptr.toNat) 0
            else memRead s.hm y))) ∧
    t.phase = .idle ∧ t.ackEn = true ∧ t.value = s.value ∧ t.count = s.count ∧ t.present = s.present ∧ t.dir = s.dir

/-- R104, R105, R32: however the agents interleave and ENV answers, a SCAN that completes has probed 1 to 126 in ascending
order, each probe with exactly one stop and one pacing delay, at most the one address byte sent and nothing received;
PRESENT has exactly the bits of the addresses whose probe saw an acknowledgment, COUNT is their number, and STATUS is
0x01. -/
def Obligations.CompletedScanProbedEveryAddress : Prop :=
  ∀ (n : Nat) (s t : State), Issued .scan s → completion n s = some t →
    ∃ probe : Nat → List Event,
      seqEvents t = seqEvents s ++ (List.range' 1 126).flatMap probe ∧
      (∀ a, 1 ≤ a → a < 127 →
        (probe a).countP (· == .stop) = 1 ∧ (probe a).countP (· == .delayMs 1) = 1 ∧
          (sentBytes (probe a) = [] ∨ sentBytes (probe a) = [BitVec.ofNat 7 a ++ 0#1]) ∧
          (probe a).countP isRx = 0) ∧
      (∀ a, t.present.getLsbD a = true ↔ 1 ≤ a ∧ a < 127 ∧ .waitOk .addrWAck ∈ probe a) ∧
      t.count = BitVec.ofNat 32 ((List.range' 1 126).countP (fun a => .waitOk .addrWAck ∈ probe a)) ∧
      t.status = 0x01 ∧ t.phase = .idle ∧ t.value = s.value ∧ t.ackEn = s.ackEn ∧ t.dir = s.dir ∧ t.hm = s.hm

/-- R91: HDX has no failure result: an HDX command that passed its issue check and completes has STATUS 0x01, whatever the
other agents did and ENV answered. -/
def Obligations.HdxCommandsNeverFail : Prop :=
  ∀ (i : Instr) (n : Nat) (s t : State), i.opcode.toNat ≤ 8 → Issued i s → completion n s = some t → t.status = 0x01

/-! ### Holds and waits -/

/-- R13, R78: while ENV answers false, a transmit command stays at its wait for ever and nothing changes: after any number of
such polls SEQ is where it was, with the same trace and direction. -/
def Obligations.TransmitWaitHoldsWithoutLimit : Prop :=
  ∀ (n : Nat) (s : State) (i : Instr) (l : Line) (k a : Nat) (x : Byte) (rest : List Action),
    decode s.cmd = .ok i → legal i s.hm = true → s.seq = .at i.opcode l .act k a →
    ((∃ b, i = .sendb b) ∧ l ∈ [.s3, .s5] ∨
      ((∃ ptr, i = .sends ptr) ∨ ∃ ptr len, i = .sendbuf ptr len) ∧ l ∈ [.s3a, .s4]) →
    s.agenda = List.replicate n (.seq ⟨false, x⟩) ++ rest →
    runSteps n s = .next { s with agenda := rest, env := if n = 0 then s.env else ⟨false, x⟩ }

/-- R92, R94, R95: a wait whose condition is not seen stays, whatever polls and ticks come, while at most the budget has
elapsed; its first poll after more than the budget (1000 ticks, 100 in SCAN) gives up with WaitTimeout; and a poll that
sees the condition succeeds whatever has elapsed. (A poll that ends the wait leaves SEQ at the step that reads `wok`, the
place `.test`: entry 10.) -/
def Obligations.WaitEndsByConditionOrBudget : Prop :=
  ∀ (s : State) (i : Instr) (l : Line) (k a : Nat), decode s.cmd = .ok i → waitsAt i l = true →
    s.seq = .at i.opcode l .poll k a →
    (∀ acts rest, acts.all isTickOrFalsePoll = true → s.agenda = acts ++ rest →
      (s.tick - s.wstart).toNat + acts.countP (· == .tick) ≤ budgetOf i →
      ∃ t, runSteps acts.length s = .next t ∧
        t = { s with agenda := rest, env := t.env, tick := s.tick + BitVec.ofNat 32 (acts.countP (· == .tick)) }) ∧
    (∀ ticks x rest, s.agenda = List.replicate ticks .tick ++ .seq ⟨false, x⟩ :: rest →
      budgetOf i < (s.tick - s.wstart).toNat + ticks → (s.tick - s.wstart).toNat + ticks < 2 ^ 32 →
      runSteps (ticks + 1) s = .next
        { s with
          agenda := rest
          env := ⟨false, x⟩
          tick := s.tick + BitVec.ofNat 32 ticks
          trace := s.trace ++ [.waitTimeout (condAt i l)]
          wok := false
          seq := .at i.opcode l .test k a }) ∧
    (∀ x rest, s.agenda = .seq ⟨true, x⟩ :: rest →
      step s = .next
        { s with
          agenda := rest
          env := ⟨true, x⟩
          trace := s.trace ++ [.waitOk (condAt i l)]
          wok := true
          seq := .at i.opcode l .test k a })

/-! ### The drain race -/

/-- R85 (a) to (d), V5: with DRAIN_ATOMIC false, an arrival taken during RECV: (a) between the last copy step and S4 it is
lost; (b) with `rorder` 0 between S4 and S5 it stays stored but not flagged; (c) with `rorder` 1 between S4 and S5 it is lost
while the flag stays set; (d) with `rbound` 1 during the loop it is copied too. R88: one taken between CLRRX's S1 and S2 has
the outcome (b) or (c), as CLRRX drew (a free value, entry 9), which `rorder` still shows after `finish` (entry 29). -/
def Obligations.DrainRaceOutcomes : Prop :=
  ∀ (s : State) (b : Byte) (k a : Nat) (x y z w v : Answer) (rest : List Action),
    s.cfg.drainAtomic = false → s.rxCount.toNat < 256 →
    (∀ ptr len, decode s.cmd = .ok (.recv ptr len) →
      (s.seq = .at 0x5 .s4 .act k a → s.agenda = .raise :: .rxc b :: .seq x :: .seq y :: .seq z :: rest →
        ∃ t, runSteps 5 s = .next t ∧ t.seq = .idle ∧ t.rxCount = 0 ∧ t.rxReady = false ∧ t.hm = s.hm ∧
          t.count = s.nc.setWidth 32) ∧
      (s.seq = .at 0x5 .s4 .act k a → s.rorder = false →
        s.agenda = .seq x :: .raise :: .rxc b :: .seq y :: .seq z :: rest →
        ∃ t, runSteps 5 s = .next t ∧ t.seq = .idle ∧ t.rxCount = 1 ∧ t.rxReady = false ∧ t.rxBuf[0]? = some b ∧
          t.hm = s.hm ∧ t.count = s.nc.setWidth 32) ∧
      (s.seq = .at 0x5 .s4 .act k a → s.rorder = true →
        s.agenda = .seq x :: .raise :: .rxc b :: .seq y :: .seq z :: rest →
        ∃ t, runSteps 5 s = .next t ∧ t.seq = .idle ∧ t.rxCount = 0 ∧ t.rxReady = true ∧ t.hm = s.hm ∧
          t.count = s.nc.setWidth 32) ∧
      (s.seq = .at 0x5 .s3 .act k a → s.rbound = true → k = s.rxCount.toNat → k < len.toNat →
        ptr.toNat + len.toNat ≤ 0x10000 → Memory.wf s.hm = true →
        s.agenda = .raise :: .rxc b :: .seq x :: .seq y :: .seq z :: .seq w :: .seq v :: rest →
        ∃ t, runSteps 7 s = .next t ∧ t.seq = .idle ∧ t.rxCount = 0 ∧ t.rxReady = false ∧
          memRead t.hm (ptr.toNat + k) = b ∧ t.count = BitVec.ofNat 32 (k + 1))) ∧
    (decode s.cmd = .ok .clrrx → s.seq = .at 0x8 .s1 .act k a →
      s.agenda = .seq x :: .raise :: .rxc b :: .seq y :: .seq z :: rest →
      ∃ t, runSteps 5 s = .next t ∧ t.seq = .idle ∧ t.status = 0x01 ∧ t.hm = s.hm ∧ t.value = s.value ∧
        t.count = s.count ∧ t.trace = s.trace ++ [.uRx b] ∧
        (t.rorder = false ∧ t.rxCount = 1 ∧ t.rxReady = false ∧ t.rxBuf[0]? = some b ∨
          t.rorder = true ∧ t.rxCount = 0 ∧ t.rxReady = true))

/-! ### Invariants and whole-machine rules -/

/-- Every step of every agent, from any state, keeps `Inv`: HM's canonical form, `rx_count` within the capacity, the DIR pin at
the level of `dir`, the register fields the spec reserves, and a position that names a numbered step with the phase,
acknowledgment and direction that step is taken in (R19, R21, R25, R26, R29 to R32, R34, R83). The index and the address at
the lines where no rule sets them are the model's choice (entry 28). -/
def Obligations.EveryStepKeepsTheInvariant : Prop :=
  ∀ s t : State, Inv s = true → step s = .next t → Inv t = true

/-- The state after reset satisfies `Inv`. -/
def Obligations.ResetSatisfiesTheInvariant : Prop := Inv State.reset = true

/-- R111, R52: no state that satisfies `Inv` stops with a fault, and one is refused exactly when SEQ is Idle and the host
reads the register block with a width that is not 32 bits or at an offset that is not one of the nine implemented ones, or
writes it with another width or at an offset other than those of CMD_LO and CMD_HI. (That offsets of 0x40 and above are
refused too is entry 16's.) -/
def Obligations.OnlyBadHostAccessesStop : Prop :=
  ∀ s : State, Inv s = true →
    (∀ f, step s ≠ .fault f) ∧
    ((∃ r, step s = .refused r) ↔ s.seq = .idle ∧
      ((∃ off width v, (nextAction s).1 = .hostWrite off width v ∧ (width ≠ 4 ∨ off ∉ [0x00, 0x04])) ∨
        ∃ off width, (nextAction s).1 = .hostRead off width ∧
          (width ≠ 4 ∨ off ∉ [0x00, 0x04, 0x08, 0x0C, 0x10, 0x20, 0x24, 0x28, 0x2C])))

/-- R19: the DIR pin is at DIR_TX_LEVEL when the direction is Transmit and at the other level when it is Receive: after
reset, and after every step of any agent from a state in which it is. No step changes the parameters (R41). -/
def Obligations.PinFollowsDirection : Prop :=
  State.reset.dirPin =
      (if State.reset.dir = .transmit then State.reset.cfg.dirTxLevel else !State.reset.cfg.dirTxLevel) ∧
    ∀ s t : State, s.dirPin = (if s.dir = .transmit then s.cfg.dirTxLevel else !s.cfg.dirTxLevel) →
      step s = .next t → t.dirPin = (if t.dir = .transmit then t.cfg.dirTxLevel else !t.cfg.dirTxLevel) ∧ t.cfg = s.cfg

/-- R11, R38: every step of every agent but Reset appends at most one event to the trace and removes none. -/
def Obligations.StepsAppendAtMostOneEvent : Prop :=
  ∀ s t : State, (nextAction s).1 ≠ .reset → step s = .next t →
    t.trace = s.trace ∨ ∃ e, t.trace = s.trace ++ [e]

/-- R26, R98: during a transaction, `phase` moves only along the arrows of R98, or returns to Idle with STATUS 0x02 when the
transaction is aborted. -/
def Obligations.PhaseFollowsTheArrows : Prop :=
  ∀ (s t : State) (c : Instr) (answer : Answer), Inv s = true → decode s.cmd = .ok c →
    c.opcode ∈ [0x9, 0xA, 0xB, 0xC] → s.seq ≠ .idle → (nextAction s).1 = .seq answer → step s = .next t →
    t.phase ≠ s.phase →
    (s.phase, t.phase) ∈
      [(.idle, .startAsserted), (.startAsserted, .addressSentForWrite), (.addressSentForWrite, .registerAddressSent),
        (.registerAddressSent, .dataSent), (.dataSent, .stopAsserted), (.registerAddressSent, .stopAsserted),
        (.stopAsserted, .idle), (.registerAddressSent, .startAsserted), (.startAsserted, .addressSentForRead),
        (.addressSentForRead, .receiving), (.receiving, .idle)] ∨
      (t.phase = .idle ∧ t.seq = .idle ∧ t.status = 0x02)

/-- R23: with DRAIN_ATOMIC, `rx_ready` = 0 exactly when `rx_count` = 0, but between the two resets of RECV and CLRRX; every
step keeps it. -/
def Obligations.AtomicDrainKeepsFlagWithCount : Prop :=
  ∀ s t : State, s.cfg.drainAtomic = true → drainTogether s = true → step s = .next t → drainTogether t = true

/-- R33, R91: a numbered step writes only the result registers its command has in R33, STATUS only as the command finishes,
and an HDX command finishes with STATUS 0x01 alone. -/
def Obligations.StepsWriteOnlyTheirResults : Prop :=
  ∀ (s t : State) (op : BitVec 4) (l : Line) (sub : Sub) (k a : Nat) (answer : Answer),
    s.seq = .at op l sub k a → (nextAction s).1 = .seq answer → step s = .next t →
    (t.status ≠ s.status → t.seq = .idle) ∧ (t.value ≠ s.value → op = 0x6 ∨ op = 0xA) ∧
      (t.count ≠ s.count → op = 0x5 ∨ op = 0x7 ∨ op = 0xD) ∧ (t.present ≠ s.present → op = 0xD) ∧
      (t.seq = .idle → t.status = 0x01 ∨ t.status = 0x02 ∧ op ∈ [0x9, 0xA, 0xB, 0xC])

/-- R3, R107: a numbered step of a BM command writes no HDX state, one of an HDX command no BM state, and no numbered step
writes CMD_LO, CMD_HI, `cmd`, `tick` or `rx_pend`. -/
def Obligations.UnitsWriteOnlyTheirOwnState : Prop :=
  ∀ (s t : State) (op : BitVec 4) (l : Line) (sub : Sub) (k a : Nat) (answer : Answer),
    s.seq = .at op l sub k a → (nextAction s).1 = .seq answer → step s = .next t →
    (9 ≤ op.toNat → sameHdx s t) ∧ (op.toNat ≤ 8 → sameBm s t) ∧ t.cmdLo = s.cmdLo ∧ t.cmdHi = s.cmdHi ∧
      t.cmd = s.cmd ∧ t.tick = s.tick ∧ t.rxPend = s.rxPend

/-- R43, R60, R47: a numbered step changes at most one byte of HM: RECV's copy and RDBUF's receive step store byte `k` of
their buffer at PTR + k, and every other numbered step leaves all of HM as it was. -/
def Obligations.StepsStoreOnlyTheirBufferByte : Prop :=
  ∀ (s t : State) (op : BitVec 4) (l : Line) (sub : Sub) (k a : Nat) (answer : Answer) (y : Nat),
    Memory.wf s.hm = true → s.seq = .at op l sub k a → (nextAction s).1 = .seq answer → step s = .next t →
    memRead t.hm y ≠ memRead s.hm y →
    (∃ ptr len, decode s.cmd = .ok (.recv ptr len) ∧ l = .s3 ∧ y = ptr.toNat + k) ∨
      (∃ sa ra ptr len, decode s.cmd = .ok (.rdbuf sa ra ptr len) ∧ l = .s13d ∧ y = ptr.toNat + k)

/-- R133: the values R131 leaves open are never observable: two runs of the same actions from resets that differ only in
`rx_buf`, the latches and `tick` have the same registers, HM, DIR pin and trace after every number of steps. -/
def Obligations.OpenResetValuesAreUnobservable : Prop :=
  ∀ (s : State) (n : Nat) (buf buf' : Vector Byte Config.rxCap) (cmd cmd' : Descriptor) (wstart wstart' : Word)
    (wok wok' : Bool) (c0 c0' : BitVec 9) (nc nc' : BitVec 16) (rorder rorder' rbound rbound' : Bool)
    (found found' rdByte rdByte' : Byte) (tick tick' : Word) (t : State),
    runSteps n (resetWith buf cmd wstart wok c0 nc rorder rbound found rdByte tick s) = .next t →
    ∃ t', runSteps n (resetWith buf' cmd' wstart' wok' c0' nc' rorder' rbound' found' rdByte' tick' s) = .next t' ∧
      observation t' = observation t
end

