-- ==== Sys2Proof/Laws/Assembler.lean ====
section
/-! SUPPORT. When the assembler's operand checks succeed, and with what (R73). -/

namespace Sys2Proof.Machine

/-- R73: a field holds an operand exactly when the operand is the field's value. -/
theorem asmField_ok_iff (w n : Nat) (x : BitVec w) : asmField w n = .ok x ↔ x.toNat = n := by
  unfold asmField
  split
  · next h =>
    constructor
    · rintro ⟨⟩
      simp [Nat.mod_eq_of_lt h]
    · rintro rfl
      simp
  · next h =>
    constructor
    · nofun
    · rintro rfl
      exact absurd x.isLt h

/-- A check and then a continuation succeed exactly when both do. -/
theorem except_bind_ok_iff {α β ε : Type} (x : Except ε α) (f : α → Except ε β) (b : β) :
    (x >>= f) = .ok b ↔ ∃ a, x = .ok a ∧ f a = .ok b := by
  cases x <;> simp [bind, Except.bind]

/-- R73: a buffer operand is accepted exactly when it is the buffer and lies inside HM. -/
theorem asmBuffer_ok_iff (p n : Nat) (r : Half × Half) : asmBuffer p n = .ok r ↔ asmBufferIs p n r.1 r.2 := by
  simp only [asmBuffer, asmBufferIs, except_bind_ok_iff, asmField_ok_iff, Config.hmSize, Config.hmBits]
  constructor
  · rintro ⟨a, ha, b, hb, h⟩
    split at h
    · next hp =>
      cases h
      exact ⟨ha, hb, by simpa using hp⟩
    · cases h
  · rintro ⟨ha, hb, h⟩
    exact ⟨_, ha, _, hb, if_pos (by simpa using h)⟩

/-- R73: a read's buffer operand has a length of at least 1 besides. -/
theorem asmReadBuffer_ok_iff (p n : Nat) (r : Half × Half) :
    asmReadBuffer p n = .ok r ↔ 1 ≤ n ∧ asmBufferIs p n r.1 r.2 := by
  unfold asmReadBuffer
  split
  · next h => simp [h]
  · next h =>
    rw [asmBuffer_ok_iff]
    exact ⟨fun hb => ⟨by omega, hb⟩, And.right⟩

end Sys2Proof.Machine
end

