-- ==== Sys2Proof/Laws/Decode.lean ====
section
/-! SUPPORT. The fields of a descriptor: what packing and taking apart do (R62). -/

namespace Sys2Proof

/-- R62: the fields of a packed descriptor are those it was packed from, with the reserved bits zero. -/
theorem fieldsOf_packFields (op : BitVec 4) (sa : SlaveAddr) (ra : RegAddr) (imm8 : Byte) (len ptr : Half) :
    fieldsOf (packFields op sa ra imm8 len ptr) =
      { rsv0 := 0, op := op, rsv1 := 0, sa := sa, ra := ra, imm8 := imm8, len := len, ptr := ptr } := by
  simp only [fieldsOf, packFields, Fields.mk.injEq]
  refine ⟨?_, ?_, ?_, ?_, ?_, ?_, ?_, ?_⟩ <;>
    · apply BitVec.eq_of_getLsbD_eq
      intro k hk
      simp only [BitVec.getLsbD_extractLsb', BitVec.getLsbD_append, hk]
      interval_cases k <;> simp [Config.saBits, Config.raBits]

/-- R62: a descriptor whose reserved bits are zero is packed from its fields. -/
theorem packFields_fieldsOf (d : Descriptor) (h0 : d.extractLsb' 60 4 = 0) (h1 : d.extractLsb' 55 1 = 0) :
    packFields (d.extractLsb' 56 4) (d.extractLsb' 48 Config.saBits) (d.extractLsb' 40 Config.raBits) (d.extractLsb' 32 8)
      (d.extractLsb' 16 16) (d.extractLsb' 0 16) = d := by
  rw [packFields, show 0#4 = d.extractLsb' 60 4 from h0.symm, show 0#1 = d.extractLsb' 55 1 from h1.symm]
  apply BitVec.eq_of_getLsbD_eq
  intro k hk
  simp only [BitVec.getLsbD_extractLsb', BitVec.getLsbD_append]
  interval_cases k <;> simp [Config.saBits, Config.raBits]

/-- R67: a command is decoded through `decodeUnused` exactly when the fields it does not use are zero. -/
theorem decodeUnused_ok_iff (f : Fields) (z : Bool) (i j : Instr) :
    decodeUnused f z i = .ok j ↔ z = true ∧ i = j := by
  cases z <;> simp [decodeUnused]

/-- R63: the direction's field is 0 or 1. -/
theorem directionField_bits (d : Direction) :
    (directionField d).extractLsb' 1 7 = 0 ∧ (directionField d).getLsbD 0 = decide (d = .transmit) := by
  cases d <;> decide

end Sys2Proof
end

