-- ==== Sys2Proof/Laws/Memory.lean ====
section
/-! SUPPORT. Host memory: reading after writing, and that every operation keeps the canonical form. -/

namespace Sys2Proof.Machine

theorem memWfFrom_mono {lo lo' : Nat} (h : lo' ≤ lo) : ∀ {m : Memory}, memWfFrom lo m = true → memWfFrom lo' m = true
  | [], _ => rfl
  | (a, v) :: m, hm => by
    simp only [memWfFrom, Bool.and_eq_true, decide_eq_true_eq] at hm ⊢
    exact ⟨⟨⟨h.trans hm.1.1.1, hm.1.1.2⟩, hm.1.2⟩, hm.2⟩

/-- Below its least address a canonical memory reads as unlisted. -/
theorem memRead_below {lo a : Nat} (h : a < lo) : ∀ {m : Memory}, memWfFrom lo m = true → memRead m a = unlistedByte
  | [], _ => rfl
  | (b, v) :: m, hm => by
    simp only [memWfFrom, Bool.and_eq_true, decide_eq_true_eq] at hm
    have h1 : a ≠ b := by omega
    have h2 : a < b := by omega
    simp [memRead, h1, h2]

theorem memWrite_wfFrom {lo a : Nat} {v : Byte} (hlo : lo ≤ a) (ha : a < Config.hmSize) :
    ∀ {m : Memory}, memWfFrom lo m = true → memWfFrom lo (memWrite m a v) = true
  | [], _ => by
    by_cases hv : v = unlistedByte <;> simp [memWrite, memWfFrom, hv, hlo, ha]
  | (b, w) :: m, hm => by
    simp only [memWfFrom, Bool.and_eq_true, decide_eq_true_eq] at hm
    obtain ⟨⟨⟨h1, h2⟩, h3⟩, h4⟩ := hm
    by_cases hab : a < b
    · by_cases hv : v = unlistedByte
      · simp [memWrite, hab, hv, memWfFrom, h1, h2, h3, h4]
      · have : a + 1 ≤ b := hab
        simp [memWrite, hab, hv, memWfFrom, h2, h3, h4, hlo, ha, this]
    · by_cases he : a = b
      · subst he
        by_cases hv : v = unlistedByte
        · simpa [memWrite, hv] using memWfFrom_mono (by omega) h4
        · simp [memWrite, hv, memWfFrom, h1, h2, h4]
      · have := memWrite_wfFrom (lo := b + 1) (v := v) (by omega) ha h4
        simp [memWrite, hab, he, memWfFrom, h1, h2, h3, this]

/-- A byte written to HM keeps the canonical form. -/
theorem memWrite_wf {m : Memory} {a : Nat} {v : Byte} (ha : a < Config.hmSize) (hm : Memory.wf m = true) :
    Memory.wf (memWrite m a v) = true :=
  memWrite_wfFrom (Nat.zero_le a) ha hm

theorem memRead_memWrite_from {lo a b : Nat} {v : Byte} :
    ∀ {m : Memory}, memWfFrom lo m = true → memRead (memWrite m a v) b = if b = a then v else memRead m b
  | [], _ => by
    by_cases hv : v = unlistedByte
    · by_cases hb : b = a <;> simp [memWrite, memRead, hv, hb]
    · by_cases hb : b = a <;> simp [memWrite, memRead, hv, hb]
  | (c, w) :: m, hm => by
    simp only [memWfFrom, Bool.and_eq_true, decide_eq_true_eq] at hm
    obtain ⟨⟨⟨h1, h2⟩, h3⟩, h4⟩ := hm
    by_cases hac : a < c
    · by_cases hv : v = unlistedByte
      · by_cases hb : b = a
        · subst hb
          have : b ≠ c := by omega
          simp [memWrite, memRead, hac, hv, this]
        · simp [memWrite, hac, hv, hb]
      · by_cases hb : b = a
        · simp [memWrite, memRead, hac, hv, hb]
        · by_cases hba : b < a
          · have h5 : b ≠ c := by omega
            have h6 : b < c := by omega
            simp [memWrite, memRead, hac, hv, hb, hba, h5, h6]
          · simp [memWrite, memRead, hac, hv, hb, hba]
    · by_cases hce : a = c
      · subst hce
        by_cases hv : v = unlistedByte
        · by_cases hb : b = a
          · subst hb
            simp [memWrite, hv, memRead_below (Nat.lt_succ_self b) h4]
          · by_cases hba : b < a
            · simp [memWrite, memRead, hv, hb, hba, memRead_below (show b < a + 1 by omega) h4]
            · simp [memWrite, memRead, hv, hb, hba]
        · by_cases hb : b = a <;> simp [memWrite, memRead, hv, hb]
      · have ih := memRead_memWrite_from (a := a) (b := b) (v := v) h4
        by_cases hbc : b = c
        · subst hbc
          have : b ≠ a := fun h => hce h.symm
          simp [memWrite, memRead, hac, hce, this]
        · by_cases hlt : b < c
          · have : b ≠ a := by omega
            simp [memWrite, memRead, hac, hce, hbc, hlt, this]
          · simp [memWrite, memRead, hac, hce, hbc, hlt, ih]

/-- R43: in canonical memory, a write leaves the byte it writes and every other byte as it was. -/
theorem memRead_memWrite {m : Memory} {a b : Nat} {v : Byte} (hm : Memory.wf m = true) :
    memRead (memWrite m a v) b = if b = a then v else memRead m b :=
  memRead_memWrite_from hm

/-- What `MemRead` answers. -/
theorem hmLoad_some {s : State} {a : Nat} {v : Byte} (h : hmLoad s a = some v) :
    a < Config.hmSize ∧ v = memRead s.hm a := by
  unfold hmLoad at h
  split at h
  · exact ⟨‹_›, (Option.some.inj h).symm⟩
  · cases h

theorem hmLoad_inside (s : State) {a : Nat} (h : a < Config.hmSize) : hmLoad s a = some (memRead s.hm a) := by
  simp [hmLoad, h]

/-- What `MemWrite` answers. -/
theorem hmStore_some {s t : State} {a : Nat} {v : Byte} (h : hmStore s a v = some t) :
    a < Config.hmSize ∧ t = { s with hm := memWrite s.hm a v } := by
  unfold hmStore at h
  split at h
  · exact ⟨‹_›, (Option.some.inj h).symm⟩
  · cases h

theorem hmStore_inside (s : State) {a : Nat} (v : Byte) (h : a < Config.hmSize) :
    hmStore s a v = some { s with hm := memWrite s.hm a v } := by
  simp [hmStore, h]

/-- `MemRead` answers nothing exactly outside HM. -/
theorem hmLoad_none_iff (s : State) (a : Nat) : hmLoad s a = none ↔ Config.hmSize ≤ a := by
  unfold hmLoad; split
  · simp; omega
  · simp; omega

/-- `MemWrite` answers nothing exactly outside HM. -/
theorem hmStore_none_iff (s : State) (a : Nat) (v : Byte) : hmStore s a v = none ↔ Config.hmSize ≤ a := by
  unfold hmStore; split
  · simp; omega
  · simp; omega

/-- `MemWrite` keeps the canonical form. -/
theorem hmStore_wf {s t : State} {a : Nat} {v : Byte} (hm : Memory.wf s.hm = true) (h : hmStore s a v = some t) :
    Memory.wf t.hm = true := by
  obtain ⟨ha, rfl⟩ := hmStore_some h
  exact memWrite_wf ha hm

/-- The host's own write keeps the canonical form. -/
theorem hmWriteStep_wf {s : State} {a : Half} {v : Byte} (hm : Memory.wf s.hm = true) :
    Memory.wf (hmWriteStep a v s).hm = true := by
  unfold hmWriteStep
  split
  · exact memWrite_wf a.isLt hm
  · exact hm

/-- Memory after reset has the canonical form. -/
theorem reset_hm_wf : Memory.wf State.reset.hm = true := rfl

end Sys2Proof.Machine
end

