-- ==== Sys2Proof/Laws/State.lean ====
section
/-! SUPPORT. What each state update leaves in each field: one lemma per field per update, so that no proof unfolds an
update. -/

namespace Sys2Proof.Machine

@[simp] theorem emit_dir (e : Event) (s : State) : (emit e s).dir = s.dir := rfl
@[simp] theorem emit_dirPin (e : Event) (s : State) : (emit e s).dirPin = s.dirPin := rfl
@[simp] theorem emit_rxBuf (e : Event) (s : State) : (emit e s).rxBuf = s.rxBuf := rfl
@[simp] theorem emit_rxCount (e : Event) (s : State) : (emit e s).rxCount = s.rxCount := rfl
@[simp] theorem emit_rxReady (e : Event) (s : State) : (emit e s).rxReady = s.rxReady := rfl
@[simp] theorem emit_rxPend (e : Event) (s : State) : (emit e s).rxPend = s.rxPend := rfl
@[simp] theorem emit_ackEn (e : Event) (s : State) : (emit e s).ackEn = s.ackEn := rfl
@[simp] theorem emit_phase (e : Event) (s : State) : (emit e s).phase = s.phase := rfl
@[simp] theorem emit_cmdLo (e : Event) (s : State) : (emit e s).cmdLo = s.cmdLo := rfl
@[simp] theorem emit_cmdHi (e : Event) (s : State) : (emit e s).cmdHi = s.cmdHi := rfl
@[simp] theorem emit_status (e : Event) (s : State) : (emit e s).status = s.status := rfl
@[simp] theorem emit_value (e : Event) (s : State) : (emit e s).value = s.value := rfl
@[simp] theorem emit_count (e : Event) (s : State) : (emit e s).count = s.count := rfl
@[simp] theorem emit_present (e : Event) (s : State) : (emit e s).present = s.present := rfl
@[simp] theorem emit_seq (e : Event) (s : State) : (emit e s).seq = s.seq := rfl
@[simp] theorem emit_cmd (e : Event) (s : State) : (emit e s).cmd = s.cmd := rfl
@[simp] theorem emit_wstart (e : Event) (s : State) : (emit e s).wstart = s.wstart := rfl
@[simp] theorem emit_wok (e : Event) (s : State) : (emit e s).wok = s.wok := rfl
@[simp] theorem emit_c0 (e : Event) (s : State) : (emit e s).c0 = s.c0 := rfl
@[simp] theorem emit_nc (e : Event) (s : State) : (emit e s).nc = s.nc := rfl
@[simp] theorem emit_rorder (e : Event) (s : State) : (emit e s).rorder = s.rorder := rfl
@[simp] theorem emit_rbound (e : Event) (s : State) : (emit e s).rbound = s.rbound := rfl
@[simp] theorem emit_found (e : Event) (s : State) : (emit e s).found = s.found := rfl
@[simp] theorem emit_rdByte (e : Event) (s : State) : (emit e s).rdByte = s.rdByte := rfl
@[simp] theorem emit_tick (e : Event) (s : State) : (emit e s).tick = s.tick := rfl
@[simp] theorem emit_trace (e : Event) (s : State) : (emit e s).trace = s.trace ++ [e] := rfl
@[simp] theorem emit_hm (e : Event) (s : State) : (emit e s).hm = s.hm := rfl
@[simp] theorem emit_cfg (e : Event) (s : State) : (emit e s).cfg = s.cfg := rfl
@[simp] theorem emit_env (e : Event) (s : State) : (emit e s).env = s.env := rfl
@[simp] theorem emit_agenda (e : Event) (s : State) : (emit e s).agenda = s.agenda := rfl
@[simp] theorem emit_draws (e : Event) (s : State) : (emit e s).draws = s.draws := rfl
@[simp] theorem emit_hostData (e : Event) (s : State) : (emit e s).hostData = s.hostData := rfl

@[simp] theorem setDirection_dir (d : Direction) (s : State) : (setDirection d s).dir = d := rfl
@[simp] theorem setDirection_dirPin (d : Direction) (s : State) : (setDirection d s).dirPin = dirLevel s.cfg d := rfl
@[simp] theorem setDirection_rxBuf (d : Direction) (s : State) : (setDirection d s).rxBuf = s.rxBuf := rfl
@[simp] theorem setDirection_rxCount (d : Direction) (s : State) : (setDirection d s).rxCount = s.rxCount := rfl
@[simp] theorem setDirection_rxReady (d : Direction) (s : State) : (setDirection d s).rxReady = s.rxReady := rfl
@[simp] theorem setDirection_rxPend (d : Direction) (s : State) : (setDirection d s).rxPend = s.rxPend := rfl
@[simp] theorem setDirection_ackEn (d : Direction) (s : State) : (setDirection d s).ackEn = s.ackEn := rfl
@[simp] theorem setDirection_phase (d : Direction) (s : State) : (setDirection d s).phase = s.phase := rfl
@[simp] theorem setDirection_cmdLo (d : Direction) (s : State) : (setDirection d s).cmdLo = s.cmdLo := rfl
@[simp] theorem setDirection_cmdHi (d : Direction) (s : State) : (setDirection d s).cmdHi = s.cmdHi := rfl
@[simp] theorem setDirection_status (d : Direction) (s : State) : (setDirection d s).status = s.status := rfl
@[simp] theorem setDirection_value (d : Direction) (s : State) : (setDirection d s).value = s.value := rfl
@[simp] theorem setDirection_count (d : Direction) (s : State) : (setDirection d s).count = s.count := rfl
@[simp] theorem setDirection_present (d : Direction) (s : State) : (setDirection d s).present = s.present := rfl
@[simp] theorem setDirection_seq (d : Direction) (s : State) : (setDirection d s).seq = s.seq := rfl
@[simp] theorem setDirection_cmd (d : Direction) (s : State) : (setDirection d s).cmd = s.cmd := rfl
@[simp] theorem setDirection_wstart (d : Direction) (s : State) : (setDirection d s).wstart = s.wstart := rfl
@[simp] theorem setDirection_wok (d : Direction) (s : State) : (setDirection d s).wok = s.wok := rfl
@[simp] theorem setDirection_c0 (d : Direction) (s : State) : (setDirection d s).c0 = s.c0 := rfl
@[simp] theorem setDirection_nc (d : Direction) (s : State) : (setDirection d s).nc = s.nc := rfl
@[simp] theorem setDirection_rorder (d : Direction) (s : State) : (setDirection d s).rorder = s.rorder := rfl
@[simp] theorem setDirection_rbound (d : Direction) (s : State) : (setDirection d s).rbound = s.rbound := rfl
@[simp] theorem setDirection_found (d : Direction) (s : State) : (setDirection d s).found = s.found := rfl
@[simp] theorem setDirection_rdByte (d : Direction) (s : State) : (setDirection d s).rdByte = s.rdByte := rfl
@[simp] theorem setDirection_tick (d : Direction) (s : State) : (setDirection d s).tick = s.tick := rfl
@[simp] theorem setDirection_trace (d : Direction) (s : State) : (setDirection d s).trace = s.trace ++ [.dir (dirLevel s.cfg d)] := rfl
@[simp] theorem setDirection_hm (d : Direction) (s : State) : (setDirection d s).hm = s.hm := rfl
@[simp] theorem setDirection_cfg (d : Direction) (s : State) : (setDirection d s).cfg = s.cfg := rfl
@[simp] theorem setDirection_env (d : Direction) (s : State) : (setDirection d s).env = s.env := rfl
@[simp] theorem setDirection_agenda (d : Direction) (s : State) : (setDirection d s).agenda = s.agenda := rfl
@[simp] theorem setDirection_draws (d : Direction) (s : State) : (setDirection d s).draws = s.draws := rfl
@[simp] theorem setDirection_hostData (d : Direction) (s : State) : (setDirection d s).hostData = s.hostData := rfl

@[simp] theorem settle_dir (s : State) : (settle s).dir = s.dir := rfl
@[simp] theorem settle_dirPin (s : State) : (settle s).dirPin = s.dirPin := rfl
@[simp] theorem settle_rxBuf (s : State) : (settle s).rxBuf = s.rxBuf := rfl
@[simp] theorem settle_rxCount (s : State) : (settle s).rxCount = s.rxCount := rfl
@[simp] theorem settle_rxReady (s : State) : (settle s).rxReady = s.rxReady := rfl
@[simp] theorem settle_rxPend (s : State) : (settle s).rxPend = s.rxPend := rfl
@[simp] theorem settle_ackEn (s : State) : (settle s).ackEn = s.ackEn := rfl
@[simp] theorem settle_phase (s : State) : (settle s).phase = s.phase := rfl
@[simp] theorem settle_cmdLo (s : State) : (settle s).cmdLo = s.cmdLo := rfl
@[simp] theorem settle_cmdHi (s : State) : (settle s).cmdHi = s.cmdHi := rfl
@[simp] theorem settle_status (s : State) : (settle s).status = s.status := rfl
@[simp] theorem settle_value (s : State) : (settle s).value = s.value := rfl
@[simp] theorem settle_count (s : State) : (settle s).count = s.count := rfl
@[simp] theorem settle_present (s : State) : (settle s).present = s.present := rfl
@[simp] theorem settle_seq (s : State) : (settle s).seq = s.seq := rfl
@[simp] theorem settle_cmd (s : State) : (settle s).cmd = s.cmd := rfl
@[simp] theorem settle_wstart (s : State) : (settle s).wstart = s.wstart := rfl
@[simp] theorem settle_wok (s : State) : (settle s).wok = s.wok := rfl
@[simp] theorem settle_c0 (s : State) : (settle s).c0 = s.c0 := rfl
@[simp] theorem settle_nc (s : State) : (settle s).nc = s.nc := rfl
@[simp] theorem settle_rorder (s : State) : (settle s).rorder = s.rorder := rfl
@[simp] theorem settle_rbound (s : State) : (settle s).rbound = s.rbound := rfl
@[simp] theorem settle_found (s : State) : (settle s).found = s.found := rfl
@[simp] theorem settle_rdByte (s : State) : (settle s).rdByte = s.rdByte := rfl
@[simp] theorem settle_tick (s : State) : (settle s).tick = s.tick := rfl
@[simp] theorem settle_trace (s : State) : (settle s).trace = s.trace ++ [.delayUs s.cfg.settleUs] := rfl
@[simp] theorem settle_hm (s : State) : (settle s).hm = s.hm := rfl
@[simp] theorem settle_cfg (s : State) : (settle s).cfg = s.cfg := rfl
@[simp] theorem settle_env (s : State) : (settle s).env = s.env := rfl
@[simp] theorem settle_agenda (s : State) : (settle s).agenda = s.agenda := rfl
@[simp] theorem settle_draws (s : State) : (settle s).draws = s.draws := rfl
@[simp] theorem settle_hostData (s : State) : (settle s).hostData = s.hostData := rfl

@[simp] theorem uartWrite_dir (b : Byte) (s : State) : (uartWrite b s).dir = s.dir := rfl
@[simp] theorem uartWrite_dirPin (b : Byte) (s : State) : (uartWrite b s).dirPin = s.dirPin := rfl
@[simp] theorem uartWrite_rxBuf (b : Byte) (s : State) : (uartWrite b s).rxBuf = s.rxBuf := rfl
@[simp] theorem uartWrite_rxCount (b : Byte) (s : State) : (uartWrite b s).rxCount = s.rxCount := rfl
@[simp] theorem uartWrite_rxReady (b : Byte) (s : State) : (uartWrite b s).rxReady = s.rxReady := rfl
@[simp] theorem uartWrite_rxPend (b : Byte) (s : State) : (uartWrite b s).rxPend = s.rxPend := rfl
@[simp] theorem uartWrite_ackEn (b : Byte) (s : State) : (uartWrite b s).ackEn = s.ackEn := rfl
@[simp] theorem uartWrite_phase (b : Byte) (s : State) : (uartWrite b s).phase = s.phase := rfl
@[simp] theorem uartWrite_cmdLo (b : Byte) (s : State) : (uartWrite b s).cmdLo = s.cmdLo := rfl
@[simp] theorem uartWrite_cmdHi (b : Byte) (s : State) : (uartWrite b s).cmdHi = s.cmdHi := rfl
@[simp] theorem uartWrite_status (b : Byte) (s : State) : (uartWrite b s).status = s.status := rfl
@[simp] theorem uartWrite_value (b : Byte) (s : State) : (uartWrite b s).value = s.value := rfl
@[simp] theorem uartWrite_count (b : Byte) (s : State) : (uartWrite b s).count = s.count := rfl
@[simp] theorem uartWrite_present (b : Byte) (s : State) : (uartWrite b s).present = s.present := rfl
@[simp] theorem uartWrite_seq (b : Byte) (s : State) : (uartWrite b s).seq = s.seq := rfl
@[simp] theorem uartWrite_cmd (b : Byte) (s : State) : (uartWrite b s).cmd = s.cmd := rfl
@[simp] theorem uartWrite_wstart (b : Byte) (s : State) : (uartWrite b s).wstart = s.wstart := rfl
@[simp] theorem uartWrite_wok (b : Byte) (s : State) : (uartWrite b s).wok = s.wok := rfl
@[simp] theorem uartWrite_c0 (b : Byte) (s : State) : (uartWrite b s).c0 = s.c0 := rfl
@[simp] theorem uartWrite_nc (b : Byte) (s : State) : (uartWrite b s).nc = s.nc := rfl
@[simp] theorem uartWrite_rorder (b : Byte) (s : State) : (uartWrite b s).rorder = s.rorder := rfl
@[simp] theorem uartWrite_rbound (b : Byte) (s : State) : (uartWrite b s).rbound = s.rbound := rfl
@[simp] theorem uartWrite_found (b : Byte) (s : State) : (uartWrite b s).found = s.found := rfl
@[simp] theorem uartWrite_rdByte (b : Byte) (s : State) : (uartWrite b s).rdByte = s.rdByte := rfl
@[simp] theorem uartWrite_tick (b : Byte) (s : State) : (uartWrite b s).tick = s.tick := rfl
@[simp] theorem uartWrite_trace (b : Byte) (s : State) : (uartWrite b s).trace = s.trace ++ [.uTx b] := rfl
@[simp] theorem uartWrite_hm (b : Byte) (s : State) : (uartWrite b s).hm = s.hm := rfl
@[simp] theorem uartWrite_cfg (b : Byte) (s : State) : (uartWrite b s).cfg = s.cfg := rfl
@[simp] theorem uartWrite_env (b : Byte) (s : State) : (uartWrite b s).env = s.env := rfl
@[simp] theorem uartWrite_agenda (b : Byte) (s : State) : (uartWrite b s).agenda = s.agenda := rfl
@[simp] theorem uartWrite_draws (b : Byte) (s : State) : (uartWrite b s).draws = s.draws := rfl
@[simp] theorem uartWrite_hostData (b : Byte) (s : State) : (uartWrite b s).hostData = s.hostData := rfl

@[simp] theorem busStart_dir (s : State) : (busStart s).dir = s.dir := rfl
@[simp] theorem busStart_dirPin (s : State) : (busStart s).dirPin = s.dirPin := rfl
@[simp] theorem busStart_rxBuf (s : State) : (busStart s).rxBuf = s.rxBuf := rfl
@[simp] theorem busStart_rxCount (s : State) : (busStart s).rxCount = s.rxCount := rfl
@[simp] theorem busStart_rxReady (s : State) : (busStart s).rxReady = s.rxReady := rfl
@[simp] theorem busStart_rxPend (s : State) : (busStart s).rxPend = s.rxPend := rfl
@[simp] theorem busStart_ackEn (s : State) : (busStart s).ackEn = s.ackEn := rfl
@[simp] theorem busStart_phase (s : State) : (busStart s).phase = .startAsserted := rfl
@[simp] theorem busStart_cmdLo (s : State) : (busStart s).cmdLo = s.cmdLo := rfl
@[simp] theorem busStart_cmdHi (s : State) : (busStart s).cmdHi = s.cmdHi := rfl
@[simp] theorem busStart_status (s : State) : (busStart s).status = s.status := rfl
@[simp] theorem busStart_value (s : State) : (busStart s).value = s.value := rfl
@[simp] theorem busStart_count (s : State) : (busStart s).count = s.count := rfl
@[simp] theorem busStart_present (s : State) : (busStart s).present = s.present := rfl
@[simp] theorem busStart_seq (s : State) : (busStart s).seq = s.seq := rfl
@[simp] theorem busStart_cmd (s : State) : (busStart s).cmd = s.cmd := rfl
@[simp] theorem busStart_wstart (s : State) : (busStart s).wstart = s.wstart := rfl
@[simp] theorem busStart_wok (s : State) : (busStart s).wok = s.wok := rfl
@[simp] theorem busStart_c0 (s : State) : (busStart s).c0 = s.c0 := rfl
@[simp] theorem busStart_nc (s : State) : (busStart s).nc = s.nc := rfl
@[simp] theorem busStart_rorder (s : State) : (busStart s).rorder = s.rorder := rfl
@[simp] theorem busStart_rbound (s : State) : (busStart s).rbound = s.rbound := rfl
@[simp] theorem busStart_found (s : State) : (busStart s).found = s.found := rfl
@[simp] theorem busStart_rdByte (s : State) : (busStart s).rdByte = s.rdByte := rfl
@[simp] theorem busStart_tick (s : State) : (busStart s).tick = s.tick := rfl
@[simp] theorem busStart_trace (s : State) : (busStart s).trace = s.trace ++ [.start] := rfl
@[simp] theorem busStart_hm (s : State) : (busStart s).hm = s.hm := rfl
@[simp] theorem busStart_cfg (s : State) : (busStart s).cfg = s.cfg := rfl
@[simp] theorem busStart_env (s : State) : (busStart s).env = s.env := rfl
@[simp] theorem busStart_agenda (s : State) : (busStart s).agenda = s.agenda := rfl
@[simp] theorem busStart_draws (s : State) : (busStart s).draws = s.draws := rfl
@[simp] theorem busStart_hostData (s : State) : (busStart s).hostData = s.hostData := rfl

@[simp] theorem busStop_dir (s : State) : (busStop s).dir = s.dir := rfl
@[simp] theorem busStop_dirPin (s : State) : (busStop s).dirPin = s.dirPin := rfl
@[simp] theorem busStop_rxBuf (s : State) : (busStop s).rxBuf = s.rxBuf := rfl
@[simp] theorem busStop_rxCount (s : State) : (busStop s).rxCount = s.rxCount := rfl
@[simp] theorem busStop_rxReady (s : State) : (busStop s).rxReady = s.rxReady := rfl
@[simp] theorem busStop_rxPend (s : State) : (busStop s).rxPend = s.rxPend := rfl
@[simp] theorem busStop_ackEn (s : State) : (busStop s).ackEn = s.ackEn := rfl
@[simp] theorem busStop_phase (s : State) : (busStop s).phase = s.phase := rfl
@[simp] theorem busStop_cmdLo (s : State) : (busStop s).cmdLo = s.cmdLo := rfl
@[simp] theorem busStop_cmdHi (s : State) : (busStop s).cmdHi = s.cmdHi := rfl
@[simp] theorem busStop_status (s : State) : (busStop s).status = s.status := rfl
@[simp] theorem busStop_value (s : State) : (busStop s).value = s.value := rfl
@[simp] theorem busStop_count (s : State) : (busStop s).count = s.count := rfl
@[simp] theorem busStop_present (s : State) : (busStop s).present = s.present := rfl
@[simp] theorem busStop_seq (s : State) : (busStop s).seq = s.seq := rfl
@[simp] theorem busStop_cmd (s : State) : (busStop s).cmd = s.cmd := rfl
@[simp] theorem busStop_wstart (s : State) : (busStop s).wstart = s.wstart := rfl
@[simp] theorem busStop_wok (s : State) : (busStop s).wok = s.wok := rfl
@[simp] theorem busStop_c0 (s : State) : (busStop s).c0 = s.c0 := rfl
@[simp] theorem busStop_nc (s : State) : (busStop s).nc = s.nc := rfl
@[simp] theorem busStop_rorder (s : State) : (busStop s).rorder = s.rorder := rfl
@[simp] theorem busStop_rbound (s : State) : (busStop s).rbound = s.rbound := rfl
@[simp] theorem busStop_found (s : State) : (busStop s).found = s.found := rfl
@[simp] theorem busStop_rdByte (s : State) : (busStop s).rdByte = s.rdByte := rfl
@[simp] theorem busStop_tick (s : State) : (busStop s).tick = s.tick := rfl
@[simp] theorem busStop_trace (s : State) : (busStop s).trace = s.trace ++ [.stop] := rfl
@[simp] theorem busStop_hm (s : State) : (busStop s).hm = s.hm := rfl
@[simp] theorem busStop_cfg (s : State) : (busStop s).cfg = s.cfg := rfl
@[simp] theorem busStop_env (s : State) : (busStop s).env = s.env := rfl
@[simp] theorem busStop_agenda (s : State) : (busStop s).agenda = s.agenda := rfl
@[simp] theorem busStop_draws (s : State) : (busStop s).draws = s.draws := rfl
@[simp] theorem busStop_hostData (s : State) : (busStop s).hostData = s.hostData := rfl

@[simp] theorem busStopAsserted_dir (s : State) : (busStopAsserted s).dir = s.dir := rfl
@[simp] theorem busStopAsserted_dirPin (s : State) : (busStopAsserted s).dirPin = s.dirPin := rfl
@[simp] theorem busStopAsserted_rxBuf (s : State) : (busStopAsserted s).rxBuf = s.rxBuf := rfl
@[simp] theorem busStopAsserted_rxCount (s : State) : (busStopAsserted s).rxCount = s.rxCount := rfl
@[simp] theorem busStopAsserted_rxReady (s : State) : (busStopAsserted s).rxReady = s.rxReady := rfl
@[simp] theorem busStopAsserted_rxPend (s : State) : (busStopAsserted s).rxPend = s.rxPend := rfl
@[simp] theorem busStopAsserted_ackEn (s : State) : (busStopAsserted s).ackEn = s.ackEn := rfl
@[simp] theorem busStopAsserted_phase (s : State) : (busStopAsserted s).phase = .stopAsserted := rfl
@[simp] theorem busStopAsserted_cmdLo (s : State) : (busStopAsserted s).cmdLo = s.cmdLo := rfl
@[simp] theorem busStopAsserted_cmdHi (s : State) : (busStopAsserted s).cmdHi = s.cmdHi := rfl
@[simp] theorem busStopAsserted_status (s : State) : (busStopAsserted s).status = s.status := rfl
@[simp] theorem busStopAsserted_value (s : State) : (busStopAsserted s).value = s.value := rfl
@[simp] theorem busStopAsserted_count (s : State) : (busStopAsserted s).count = s.count := rfl
@[simp] theorem busStopAsserted_present (s : State) : (busStopAsserted s).present = s.present := rfl
@[simp] theorem busStopAsserted_seq (s : State) : (busStopAsserted s).seq = s.seq := rfl
@[simp] theorem busStopAsserted_cmd (s : State) : (busStopAsserted s).cmd = s.cmd := rfl
@[simp] theorem busStopAsserted_wstart (s : State) : (busStopAsserted s).wstart = s.wstart := rfl
@[simp] theorem busStopAsserted_wok (s : State) : (busStopAsserted s).wok = s.wok := rfl
@[simp] theorem busStopAsserted_c0 (s : State) : (busStopAsserted s).c0 = s.c0 := rfl
@[simp] theorem busStopAsserted_nc (s : State) : (busStopAsserted s).nc = s.nc := rfl
@[simp] theorem busStopAsserted_rorder (s : State) : (busStopAsserted s).rorder = s.rorder := rfl
@[simp] theorem busStopAsserted_rbound (s : State) : (busStopAsserted s).rbound = s.rbound := rfl
@[simp] theorem busStopAsserted_found (s : State) : (busStopAsserted s).found = s.found := rfl
@[simp] theorem busStopAsserted_rdByte (s : State) : (busStopAsserted s).rdByte = s.rdByte := rfl
@[simp] theorem busStopAsserted_tick (s : State) : (busStopAsserted s).tick = s.tick := rfl
@[simp] theorem busStopAsserted_trace (s : State) : (busStopAsserted s).trace = s.trace ++ [.stop] := rfl
@[simp] theorem busStopAsserted_hm (s : State) : (busStopAsserted s).hm = s.hm := rfl
@[simp] theorem busStopAsserted_cfg (s : State) : (busStopAsserted s).cfg = s.cfg := rfl
@[simp] theorem busStopAsserted_env (s : State) : (busStopAsserted s).env = s.env := rfl
@[simp] theorem busStopAsserted_agenda (s : State) : (busStopAsserted s).agenda = s.agenda := rfl
@[simp] theorem busStopAsserted_draws (s : State) : (busStopAsserted s).draws = s.draws := rfl
@[simp] theorem busStopAsserted_hostData (s : State) : (busStopAsserted s).hostData = s.hostData := rfl

@[simp] theorem busSend_dir (b : Byte) (p : Phase) (s : State) : (busSend b p s).dir = s.dir := rfl
@[simp] theorem busSend_dirPin (b : Byte) (p : Phase) (s : State) : (busSend b p s).dirPin = s.dirPin := rfl
@[simp] theorem busSend_rxBuf (b : Byte) (p : Phase) (s : State) : (busSend b p s).rxBuf = s.rxBuf := rfl
@[simp] theorem busSend_rxCount (b : Byte) (p : Phase) (s : State) : (busSend b p s).rxCount = s.rxCount := rfl
@[simp] theorem busSend_rxReady (b : Byte) (p : Phase) (s : State) : (busSend b p s).rxReady = s.rxReady := rfl
@[simp] theorem busSend_rxPend (b : Byte) (p : Phase) (s : State) : (busSend b p s).rxPend = s.rxPend := rfl
@[simp] theorem busSend_ackEn (b : Byte) (p : Phase) (s : State) : (busSend b p s).ackEn = s.ackEn := rfl
@[simp] theorem busSend_phase (b : Byte) (p : Phase) (s : State) : (busSend b p s).phase = p := rfl
@[simp] theorem busSend_cmdLo (b : Byte) (p : Phase) (s : State) : (busSend b p s).cmdLo = s.cmdLo := rfl
@[simp] theorem busSend_cmdHi (b : Byte) (p : Phase) (s : State) : (busSend b p s).cmdHi = s.cmdHi := rfl
@[simp] theorem busSend_status (b : Byte) (p : Phase) (s : State) : (busSend b p s).status = s.status := rfl
@[simp] theorem busSend_value (b : Byte) (p : Phase) (s : State) : (busSend b p s).value = s.value := rfl
@[simp] theorem busSend_count (b : Byte) (p : Phase) (s : State) : (busSend b p s).count = s.count := rfl
@[simp] theorem busSend_present (b : Byte) (p : Phase) (s : State) : (busSend b p s).present = s.present := rfl
@[simp] theorem busSend_seq (b : Byte) (p : Phase) (s : State) : (busSend b p s).seq = s.seq := rfl
@[simp] theorem busSend_cmd (b : Byte) (p : Phase) (s : State) : (busSend b p s).cmd = s.cmd := rfl
@[simp] theorem busSend_wstart (b : Byte) (p : Phase) (s : State) : (busSend b p s).wstart = s.wstart := rfl
@[simp] theorem busSend_wok (b : Byte) (p : Phase) (s : State) : (busSend b p s).wok = s.wok := rfl
@[simp] theorem busSend_c0 (b : Byte) (p : Phase) (s : State) : (busSend b p s).c0 = s.c0 := rfl
@[simp] theorem busSend_nc (b : Byte) (p : Phase) (s : State) : (busSend b p s).nc = s.nc := rfl
@[simp] theorem busSend_rorder (b : Byte) (p : Phase) (s : State) : (busSend b p s).rorder = s.rorder := rfl
@[simp] theorem busSend_rbound (b : Byte) (p : Phase) (s : State) : (busSend b p s).rbound = s.rbound := rfl
@[simp] theorem busSend_found (b : Byte) (p : Phase) (s : State) : (busSend b p s).found = s.found := rfl
@[simp] theorem busSend_rdByte (b : Byte) (p : Phase) (s : State) : (busSend b p s).rdByte = s.rdByte := rfl
@[simp] theorem busSend_tick (b : Byte) (p : Phase) (s : State) : (busSend b p s).tick = s.tick := rfl
@[simp] theorem busSend_trace (b : Byte) (p : Phase) (s : State) : (busSend b p s).trace = s.trace ++ [.tx b] := rfl
@[simp] theorem busSend_hm (b : Byte) (p : Phase) (s : State) : (busSend b p s).hm = s.hm := rfl
@[simp] theorem busSend_cfg (b : Byte) (p : Phase) (s : State) : (busSend b p s).cfg = s.cfg := rfl
@[simp] theorem busSend_env (b : Byte) (p : Phase) (s : State) : (busSend b p s).env = s.env := rfl
@[simp] theorem busSend_agenda (b : Byte) (p : Phase) (s : State) : (busSend b p s).agenda = s.agenda := rfl
@[simp] theorem busSend_draws (b : Byte) (p : Phase) (s : State) : (busSend b p s).draws = s.draws := rfl
@[simp] theorem busSend_hostData (b : Byte) (p : Phase) (s : State) : (busSend b p s).hostData = s.hostData := rfl

@[simp] theorem busRecv_dir (s : State) : (busRecv s).dir = s.dir := rfl
@[simp] theorem busRecv_dirPin (s : State) : (busRecv s).dirPin = s.dirPin := rfl
@[simp] theorem busRecv_rxBuf (s : State) : (busRecv s).rxBuf = s.rxBuf := rfl
@[simp] theorem busRecv_rxCount (s : State) : (busRecv s).rxCount = s.rxCount := rfl
@[simp] theorem busRecv_rxReady (s : State) : (busRecv s).rxReady = s.rxReady := rfl
@[simp] theorem busRecv_rxPend (s : State) : (busRecv s).rxPend = s.rxPend := rfl
@[simp] theorem busRecv_ackEn (s : State) : (busRecv s).ackEn = s.ackEn := rfl
@[simp] theorem busRecv_phase (s : State) : (busRecv s).phase = s.phase := rfl
@[simp] theorem busRecv_cmdLo (s : State) : (busRecv s).cmdLo = s.cmdLo := rfl
@[simp] theorem busRecv_cmdHi (s : State) : (busRecv s).cmdHi = s.cmdHi := rfl
@[simp] theorem busRecv_status (s : State) : (busRecv s).status = s.status := rfl
@[simp] theorem busRecv_value (s : State) : (busRecv s).value = s.value := rfl
@[simp] theorem busRecv_count (s : State) : (busRecv s).count = s.count := rfl
@[simp] theorem busRecv_present (s : State) : (busRecv s).present = s.present := rfl
@[simp] theorem busRecv_seq (s : State) : (busRecv s).seq = s.seq := rfl
@[simp] theorem busRecv_cmd (s : State) : (busRecv s).cmd = s.cmd := rfl
@[simp] theorem busRecv_wstart (s : State) : (busRecv s).wstart = s.wstart := rfl
@[simp] theorem busRecv_wok (s : State) : (busRecv s).wok = s.wok := rfl
@[simp] theorem busRecv_c0 (s : State) : (busRecv s).c0 = s.c0 := rfl
@[simp] theorem busRecv_nc (s : State) : (busRecv s).nc = s.nc := rfl
@[simp] theorem busRecv_rorder (s : State) : (busRecv s).rorder = s.rorder := rfl
@[simp] theorem busRecv_rbound (s : State) : (busRecv s).rbound = s.rbound := rfl
@[simp] theorem busRecv_found (s : State) : (busRecv s).found = s.found := rfl
@[simp] theorem busRecv_rdByte (s : State) : (busRecv s).rdByte = s.rdByte := rfl
@[simp] theorem busRecv_tick (s : State) : (busRecv s).tick = s.tick := rfl
@[simp] theorem busRecv_trace (s : State) : (busRecv s).trace = s.trace ++ [.rx s.env.byte] := rfl
@[simp] theorem busRecv_hm (s : State) : (busRecv s).hm = s.hm := rfl
@[simp] theorem busRecv_cfg (s : State) : (busRecv s).cfg = s.cfg := rfl
@[simp] theorem busRecv_env (s : State) : (busRecv s).env = s.env := rfl
@[simp] theorem busRecv_agenda (s : State) : (busRecv s).agenda = s.agenda := rfl
@[simp] theorem busRecv_draws (s : State) : (busRecv s).draws = s.draws := rfl
@[simp] theorem busRecv_hostData (s : State) : (busRecv s).hostData = s.hostData := rfl

@[simp] theorem busAck_dir (on : Bool) (s : State) : (busAck on s).dir = s.dir := rfl
@[simp] theorem busAck_dirPin (on : Bool) (s : State) : (busAck on s).dirPin = s.dirPin := rfl
@[simp] theorem busAck_rxBuf (on : Bool) (s : State) : (busAck on s).rxBuf = s.rxBuf := rfl
@[simp] theorem busAck_rxCount (on : Bool) (s : State) : (busAck on s).rxCount = s.rxCount := rfl
@[simp] theorem busAck_rxReady (on : Bool) (s : State) : (busAck on s).rxReady = s.rxReady := rfl
@[simp] theorem busAck_rxPend (on : Bool) (s : State) : (busAck on s).rxPend = s.rxPend := rfl
@[simp] theorem busAck_ackEn (on : Bool) (s : State) : (busAck on s).ackEn = on := rfl
@[simp] theorem busAck_phase (on : Bool) (s : State) : (busAck on s).phase = s.phase := rfl
@[simp] theorem busAck_cmdLo (on : Bool) (s : State) : (busAck on s).cmdLo = s.cmdLo := rfl
@[simp] theorem busAck_cmdHi (on : Bool) (s : State) : (busAck on s).cmdHi = s.cmdHi := rfl
@[simp] theorem busAck_status (on : Bool) (s : State) : (busAck on s).status = s.status := rfl
@[simp] theorem busAck_value (on : Bool) (s : State) : (busAck on s).value = s.value := rfl
@[simp] theorem busAck_count (on : Bool) (s : State) : (busAck on s).count = s.count := rfl
@[simp] theorem busAck_present (on : Bool) (s : State) : (busAck on s).present = s.present := rfl
@[simp] theorem busAck_seq (on : Bool) (s : State) : (busAck on s).seq = s.seq := rfl
@[simp] theorem busAck_cmd (on : Bool) (s : State) : (busAck on s).cmd = s.cmd := rfl
@[simp] theorem busAck_wstart (on : Bool) (s : State) : (busAck on s).wstart = s.wstart := rfl
@[simp] theorem busAck_wok (on : Bool) (s : State) : (busAck on s).wok = s.wok := rfl
@[simp] theorem busAck_c0 (on : Bool) (s : State) : (busAck on s).c0 = s.c0 := rfl
@[simp] theorem busAck_nc (on : Bool) (s : State) : (busAck on s).nc = s.nc := rfl
@[simp] theorem busAck_rorder (on : Bool) (s : State) : (busAck on s).rorder = s.rorder := rfl
@[simp] theorem busAck_rbound (on : Bool) (s : State) : (busAck on s).rbound = s.rbound := rfl
@[simp] theorem busAck_found (on : Bool) (s : State) : (busAck on s).found = s.found := rfl
@[simp] theorem busAck_rdByte (on : Bool) (s : State) : (busAck on s).rdByte = s.rdByte := rfl
@[simp] theorem busAck_tick (on : Bool) (s : State) : (busAck on s).tick = s.tick := rfl
@[simp] theorem busAck_trace (on : Bool) (s : State) : (busAck on s).trace = s.trace ++ [.ack on] := rfl
@[simp] theorem busAck_hm (on : Bool) (s : State) : (busAck on s).hm = s.hm := rfl
@[simp] theorem busAck_cfg (on : Bool) (s : State) : (busAck on s).cfg = s.cfg := rfl
@[simp] theorem busAck_env (on : Bool) (s : State) : (busAck on s).env = s.env := rfl
@[simp] theorem busAck_agenda (on : Bool) (s : State) : (busAck on s).agenda = s.agenda := rfl
@[simp] theorem busAck_draws (on : Bool) (s : State) : (busAck on s).draws = s.draws := rfl
@[simp] theorem busAck_hostData (on : Bool) (s : State) : (busAck on s).hostData = s.hostData := rfl

@[simp] theorem delayMs_dir (n : BitVec 16) (s : State) : (delayMs n s).dir = s.dir := rfl
@[simp] theorem delayMs_dirPin (n : BitVec 16) (s : State) : (delayMs n s).dirPin = s.dirPin := rfl
@[simp] theorem delayMs_rxBuf (n : BitVec 16) (s : State) : (delayMs n s).rxBuf = s.rxBuf := rfl
@[simp] theorem delayMs_rxCount (n : BitVec 16) (s : State) : (delayMs n s).rxCount = s.rxCount := rfl
@[simp] theorem delayMs_rxReady (n : BitVec 16) (s : State) : (delayMs n s).rxReady = s.rxReady := rfl
@[simp] theorem delayMs_rxPend (n : BitVec 16) (s : State) : (delayMs n s).rxPend = s.rxPend := rfl
@[simp] theorem delayMs_ackEn (n : BitVec 16) (s : State) : (delayMs n s).ackEn = s.ackEn := rfl
@[simp] theorem delayMs_phase (n : BitVec 16) (s : State) : (delayMs n s).phase = s.phase := rfl
@[simp] theorem delayMs_cmdLo (n : BitVec 16) (s : State) : (delayMs n s).cmdLo = s.cmdLo := rfl
@[simp] theorem delayMs_cmdHi (n : BitVec 16) (s : State) : (delayMs n s).cmdHi = s.cmdHi := rfl
@[simp] theorem delayMs_status (n : BitVec 16) (s : State) : (delayMs n s).status = s.status := rfl
@[simp] theorem delayMs_value (n : BitVec 16) (s : State) : (delayMs n s).value = s.value := rfl
@[simp] theorem delayMs_count (n : BitVec 16) (s : State) : (delayMs n s).count = s.count := rfl
@[simp] theorem delayMs_present (n : BitVec 16) (s : State) : (delayMs n s).present = s.present := rfl
@[simp] theorem delayMs_seq (n : BitVec 16) (s : State) : (delayMs n s).seq = s.seq := rfl
@[simp] theorem delayMs_cmd (n : BitVec 16) (s : State) : (delayMs n s).cmd = s.cmd := rfl
@[simp] theorem delayMs_wstart (n : BitVec 16) (s : State) : (delayMs n s).wstart = s.wstart := rfl
@[simp] theorem delayMs_wok (n : BitVec 16) (s : State) : (delayMs n s).wok = s.wok := rfl
@[simp] theorem delayMs_c0 (n : BitVec 16) (s : State) : (delayMs n s).c0 = s.c0 := rfl
@[simp] theorem delayMs_nc (n : BitVec 16) (s : State) : (delayMs n s).nc = s.nc := rfl
@[simp] theorem delayMs_rorder (n : BitVec 16) (s : State) : (delayMs n s).rorder = s.rorder := rfl
@[simp] theorem delayMs_rbound (n : BitVec 16) (s : State) : (delayMs n s).rbound = s.rbound := rfl
@[simp] theorem delayMs_found (n : BitVec 16) (s : State) : (delayMs n s).found = s.found := rfl
@[simp] theorem delayMs_rdByte (n : BitVec 16) (s : State) : (delayMs n s).rdByte = s.rdByte := rfl
@[simp] theorem delayMs_tick (n : BitVec 16) (s : State) : (delayMs n s).tick = s.tick := rfl
@[simp] theorem delayMs_trace (n : BitVec 16) (s : State) : (delayMs n s).trace = s.trace ++ [.delayMs n] := rfl
@[simp] theorem delayMs_hm (n : BitVec 16) (s : State) : (delayMs n s).hm = s.hm := rfl
@[simp] theorem delayMs_cfg (n : BitVec 16) (s : State) : (delayMs n s).cfg = s.cfg := rfl
@[simp] theorem delayMs_env (n : BitVec 16) (s : State) : (delayMs n s).env = s.env := rfl
@[simp] theorem delayMs_agenda (n : BitVec 16) (s : State) : (delayMs n s).agenda = s.agenda := rfl
@[simp] theorem delayMs_draws (n : BitVec 16) (s : State) : (delayMs n s).draws = s.draws := rfl
@[simp] theorem delayMs_hostData (n : BitVec 16) (s : State) : (delayMs n s).hostData = s.hostData := rfl

@[simp] theorem moveTo_dir (op : BitVec 4) (l : Line) (i a : Nat) (s : State) : (moveTo op l i a s).dir = s.dir := rfl
@[simp] theorem moveTo_dirPin (op : BitVec 4) (l : Line) (i a : Nat) (s : State) : (moveTo op l i a s).dirPin = s.dirPin := rfl
@[simp] theorem moveTo_rxBuf (op : BitVec 4) (l : Line) (i a : Nat) (s : State) : (moveTo op l i a s).rxBuf = s.rxBuf := rfl
@[simp] theorem moveTo_rxCount (op : BitVec 4) (l : Line) (i a : Nat) (s : State) : (moveTo op l i a s).rxCount = s.rxCount := rfl
@[simp] theorem moveTo_rxReady (op : BitVec 4) (l : Line) (i a : Nat) (s : State) : (moveTo op l i a s).rxReady = s.rxReady := rfl
@[simp] theorem moveTo_rxPend (op : BitVec 4) (l : Line) (i a : Nat) (s : State) : (moveTo op l i a s).rxPend = s.rxPend := rfl
@[simp] theorem moveTo_ackEn (op : BitVec 4) (l : Line) (i a : Nat) (s : State) : (moveTo op l i a s).ackEn = s.ackEn := rfl
@[simp] theorem moveTo_phase (op : BitVec 4) (l : Line) (i a : Nat) (s : State) : (moveTo op l i a s).phase = s.phase := rfl
@[simp] theorem moveTo_cmdLo (op : BitVec 4) (l : Line) (i a : Nat) (s : State) : (moveTo op l i a s).cmdLo = s.cmdLo := rfl
@[simp] theorem moveTo_cmdHi (op : BitVec 4) (l : Line) (i a : Nat) (s : State) : (moveTo op l i a s).cmdHi = s.cmdHi := rfl
@[simp] theorem moveTo_status (op : BitVec 4) (l : Line) (i a : Nat) (s : State) : (moveTo op l i a s).status = s.status := rfl
@[simp] theorem moveTo_value (op : BitVec 4) (l : Line) (i a : Nat) (s : State) : (moveTo op l i a s).value = s.value := rfl
@[simp] theorem moveTo_count (op : BitVec 4) (l : Line) (i a : Nat) (s : State) : (moveTo op l i a s).count = s.count := rfl
@[simp] theorem moveTo_present (op : BitVec 4) (l : Line) (i a : Nat) (s : State) : (moveTo op l i a s).present = s.present := rfl
@[simp] theorem moveTo_seq (op : BitVec 4) (l : Line) (i a : Nat) (s : State) : (moveTo op l i a s).seq = .at op l .act i a := rfl
@[simp] theorem moveTo_cmd (op : BitVec 4) (l : Line) (i a : Nat) (s : State) : (moveTo op l i a s).cmd = s.cmd := rfl
@[simp] theorem moveTo_wstart (op : BitVec 4) (l : Line) (i a : Nat) (s : State) : (moveTo op l i a s).wstart = s.wstart := rfl
@[simp] theorem moveTo_wok (op : BitVec 4) (l : Line) (i a : Nat) (s : State) : (moveTo op l i a s).wok = s.wok := rfl
@[simp] theorem moveTo_c0 (op : BitVec 4) (l : Line) (i a : Nat) (s : State) : (moveTo op l i a s).c0 = s.c0 := rfl
@[simp] theorem moveTo_nc (op : BitVec 4) (l : Line) (i a : Nat) (s : State) : (moveTo op l i a s).nc = s.nc := rfl
@[simp] theorem moveTo_rorder (op : BitVec 4) (l : Line) (i a : Nat) (s : State) : (moveTo op l i a s).rorder = s.rorder := rfl
@[simp] theorem moveTo_rbound (op : BitVec 4) (l : Line) (i a : Nat) (s : State) : (moveTo op l i a s).rbound = s.rbound := rfl
@[simp] theorem moveTo_found (op : BitVec 4) (l : Line) (i a : Nat) (s : State) : (moveTo op l i a s).found = s.found := rfl
@[simp] theorem moveTo_rdByte (op : BitVec 4) (l : Line) (i a : Nat) (s : State) : (moveTo op l i a s).rdByte = s.rdByte := rfl
@[simp] theorem moveTo_tick (op : BitVec 4) (l : Line) (i a : Nat) (s : State) : (moveTo op l i a s).tick = s.tick := rfl
@[simp] theorem moveTo_trace (op : BitVec 4) (l : Line) (i a : Nat) (s : State) : (moveTo op l i a s).trace = s.trace := rfl
@[simp] theorem moveTo_hm (op : BitVec 4) (l : Line) (i a : Nat) (s : State) : (moveTo op l i a s).hm = s.hm := rfl
@[simp] theorem moveTo_cfg (op : BitVec 4) (l : Line) (i a : Nat) (s : State) : (moveTo op l i a s).cfg = s.cfg := rfl
@[simp] theorem moveTo_env (op : BitVec 4) (l : Line) (i a : Nat) (s : State) : (moveTo op l i a s).env = s.env := rfl
@[simp] theorem moveTo_agenda (op : BitVec 4) (l : Line) (i a : Nat) (s : State) : (moveTo op l i a s).agenda = s.agenda := rfl
@[simp] theorem moveTo_draws (op : BitVec 4) (l : Line) (i a : Nat) (s : State) : (moveTo op l i a s).draws = s.draws := rfl
@[simp] theorem moveTo_hostData (op : BitVec 4) (l : Line) (i a : Nat) (s : State) : (moveTo op l i a s).hostData = s.hostData := rfl

@[simp] theorem firstByte_dir (op : BitVec 4) (l k : Line) (n a : Nat) (s : State) : (firstByte op l k n a s).dir = s.dir := rfl
@[simp] theorem firstByte_dirPin (op : BitVec 4) (l k : Line) (n a : Nat) (s : State) : (firstByte op l k n a s).dirPin = s.dirPin := rfl
@[simp] theorem firstByte_rxBuf (op : BitVec 4) (l k : Line) (n a : Nat) (s : State) : (firstByte op l k n a s).rxBuf = s.rxBuf := rfl
@[simp] theorem firstByte_rxCount (op : BitVec 4) (l k : Line) (n a : Nat) (s : State) : (firstByte op l k n a s).rxCount = s.rxCount := rfl
@[simp] theorem firstByte_rxReady (op : BitVec 4) (l k : Line) (n a : Nat) (s : State) : (firstByte op l k n a s).rxReady = s.rxReady := rfl
@[simp] theorem firstByte_rxPend (op : BitVec 4) (l k : Line) (n a : Nat) (s : State) : (firstByte op l k n a s).rxPend = s.rxPend := rfl
@[simp] theorem firstByte_ackEn (op : BitVec 4) (l k : Line) (n a : Nat) (s : State) : (firstByte op l k n a s).ackEn = s.ackEn := rfl
@[simp] theorem firstByte_phase (op : BitVec 4) (l k : Line) (n a : Nat) (s : State) : (firstByte op l k n a s).phase = s.phase := rfl
@[simp] theorem firstByte_cmdLo (op : BitVec 4) (l k : Line) (n a : Nat) (s : State) : (firstByte op l k n a s).cmdLo = s.cmdLo := rfl
@[simp] theorem firstByte_cmdHi (op : BitVec 4) (l k : Line) (n a : Nat) (s : State) : (firstByte op l k n a s).cmdHi = s.cmdHi := rfl
@[simp] theorem firstByte_status (op : BitVec 4) (l k : Line) (n a : Nat) (s : State) : (firstByte op l k n a s).status = s.status := rfl
@[simp] theorem firstByte_value (op : BitVec 4) (l k : Line) (n a : Nat) (s : State) : (firstByte op l k n a s).value = s.value := rfl
@[simp] theorem firstByte_count (op : BitVec 4) (l k : Line) (n a : Nat) (s : State) : (firstByte op l k n a s).count = s.count := rfl
@[simp] theorem firstByte_present (op : BitVec 4) (l k : Line) (n a : Nat) (s : State) : (firstByte op l k n a s).present = s.present := rfl
@[simp] theorem firstByte_seq (op : BitVec 4) (l k : Line) (n a : Nat) (s : State) : (firstByte op l k n a s).seq = .at op (if 0 < n then l else k) .act 0 a := rfl
@[simp] theorem firstByte_cmd (op : BitVec 4) (l k : Line) (n a : Nat) (s : State) : (firstByte op l k n a s).cmd = s.cmd := rfl
@[simp] theorem firstByte_wstart (op : BitVec 4) (l k : Line) (n a : Nat) (s : State) : (firstByte op l k n a s).wstart = s.wstart := rfl
@[simp] theorem firstByte_wok (op : BitVec 4) (l k : Line) (n a : Nat) (s : State) : (firstByte op l k n a s).wok = s.wok := rfl
@[simp] theorem firstByte_c0 (op : BitVec 4) (l k : Line) (n a : Nat) (s : State) : (firstByte op l k n a s).c0 = s.c0 := rfl
@[simp] theorem firstByte_nc (op : BitVec 4) (l k : Line) (n a : Nat) (s : State) : (firstByte op l k n a s).nc = s.nc := rfl
@[simp] theorem firstByte_rorder (op : BitVec 4) (l k : Line) (n a : Nat) (s : State) : (firstByte op l k n a s).rorder = s.rorder := rfl
@[simp] theorem firstByte_rbound (op : BitVec 4) (l k : Line) (n a : Nat) (s : State) : (firstByte op l k n a s).rbound = s.rbound := rfl
@[simp] theorem firstByte_found (op : BitVec 4) (l k : Line) (n a : Nat) (s : State) : (firstByte op l k n a s).found = s.found := rfl
@[simp] theorem firstByte_rdByte (op : BitVec 4) (l k : Line) (n a : Nat) (s : State) : (firstByte op l k n a s).rdByte = s.rdByte := rfl
@[simp] theorem firstByte_tick (op : BitVec 4) (l k : Line) (n a : Nat) (s : State) : (firstByte op l k n a s).tick = s.tick := rfl
@[simp] theorem firstByte_trace (op : BitVec 4) (l k : Line) (n a : Nat) (s : State) : (firstByte op l k n a s).trace = s.trace := rfl
@[simp] theorem firstByte_hm (op : BitVec 4) (l k : Line) (n a : Nat) (s : State) : (firstByte op l k n a s).hm = s.hm := rfl
@[simp] theorem firstByte_cfg (op : BitVec 4) (l k : Line) (n a : Nat) (s : State) : (firstByte op l k n a s).cfg = s.cfg := rfl
@[simp] theorem firstByte_env (op : BitVec 4) (l k : Line) (n a : Nat) (s : State) : (firstByte op l k n a s).env = s.env := rfl
@[simp] theorem firstByte_agenda (op : BitVec 4) (l k : Line) (n a : Nat) (s : State) : (firstByte op l k n a s).agenda = s.agenda := rfl
@[simp] theorem firstByte_draws (op : BitVec 4) (l k : Line) (n a : Nat) (s : State) : (firstByte op l k n a s).draws = s.draws := rfl
@[simp] theorem firstByte_hostData (op : BitVec 4) (l k : Line) (n a : Nat) (s : State) : (firstByte op l k n a s).hostData = s.hostData := rfl

@[simp] theorem nextByte_dir (op : BitVec 4) (l k : Line) (n i a : Nat) (s : State) : (nextByte op l k n i a s).dir = s.dir := rfl
@[simp] theorem nextByte_dirPin (op : BitVec 4) (l k : Line) (n i a : Nat) (s : State) : (nextByte op l k n i a s).dirPin = s.dirPin := rfl
@[simp] theorem nextByte_rxBuf (op : BitVec 4) (l k : Line) (n i a : Nat) (s : State) : (nextByte op l k n i a s).rxBuf = s.rxBuf := rfl
@[simp] theorem nextByte_rxCount (op : BitVec 4) (l k : Line) (n i a : Nat) (s : State) : (nextByte op l k n i a s).rxCount = s.rxCount := rfl
@[simp] theorem nextByte_rxReady (op : BitVec 4) (l k : Line) (n i a : Nat) (s : State) : (nextByte op l k n i a s).rxReady = s.rxReady := rfl
@[simp] theorem nextByte_rxPend (op : BitVec 4) (l k : Line) (n i a : Nat) (s : State) : (nextByte op l k n i a s).rxPend = s.rxPend := rfl
@[simp] theorem nextByte_ackEn (op : BitVec 4) (l k : Line) (n i a : Nat) (s : State) : (nextByte op l k n i a s).ackEn = s.ackEn := rfl
@[simp] theorem nextByte_phase (op : BitVec 4) (l k : Line) (n i a : Nat) (s : State) : (nextByte op l k n i a s).phase = s.phase := rfl
@[simp] theorem nextByte_cmdLo (op : BitVec 4) (l k : Line) (n i a : Nat) (s : State) : (nextByte op l k n i a s).cmdLo = s.cmdLo := rfl
@[simp] theorem nextByte_cmdHi (op : BitVec 4) (l k : Line) (n i a : Nat) (s : State) : (nextByte op l k n i a s).cmdHi = s.cmdHi := rfl
@[simp] theorem nextByte_status (op : BitVec 4) (l k : Line) (n i a : Nat) (s : State) : (nextByte op l k n i a s).status = s.status := rfl
@[simp] theorem nextByte_value (op : BitVec 4) (l k : Line) (n i a : Nat) (s : State) : (nextByte op l k n i a s).value = s.value := rfl
@[simp] theorem nextByte_count (op : BitVec 4) (l k : Line) (n i a : Nat) (s : State) : (nextByte op l k n i a s).count = s.count := rfl
@[simp] theorem nextByte_present (op : BitVec 4) (l k : Line) (n i a : Nat) (s : State) : (nextByte op l k n i a s).present = s.present := rfl
@[simp] theorem nextByte_seq (op : BitVec 4) (l k : Line) (n i a : Nat) (s : State) : (nextByte op l k n i a s).seq = .at op (if i + 1 < n then l else k) .act (if i + 1 < n then i + 1 else i) a := rfl
@[simp] theorem nextByte_cmd (op : BitVec 4) (l k : Line) (n i a : Nat) (s : State) : (nextByte op l k n i a s).cmd = s.cmd := rfl
@[simp] theorem nextByte_wstart (op : BitVec 4) (l k : Line) (n i a : Nat) (s : State) : (nextByte op l k n i a s).wstart = s.wstart := rfl
@[simp] theorem nextByte_wok (op : BitVec 4) (l k : Line) (n i a : Nat) (s : State) : (nextByte op l k n i a s).wok = s.wok := rfl
@[simp] theorem nextByte_c0 (op : BitVec 4) (l k : Line) (n i a : Nat) (s : State) : (nextByte op l k n i a s).c0 = s.c0 := rfl
@[simp] theorem nextByte_nc (op : BitVec 4) (l k : Line) (n i a : Nat) (s : State) : (nextByte op l k n i a s).nc = s.nc := rfl
@[simp] theorem nextByte_rorder (op : BitVec 4) (l k : Line) (n i a : Nat) (s : State) : (nextByte op l k n i a s).rorder = s.rorder := rfl
@[simp] theorem nextByte_rbound (op : BitVec 4) (l k : Line) (n i a : Nat) (s : State) : (nextByte op l k n i a s).rbound = s.rbound := rfl
@[simp] theorem nextByte_found (op : BitVec 4) (l k : Line) (n i a : Nat) (s : State) : (nextByte op l k n i a s).found = s.found := rfl
@[simp] theorem nextByte_rdByte (op : BitVec 4) (l k : Line) (n i a : Nat) (s : State) : (nextByte op l k n i a s).rdByte = s.rdByte := rfl
@[simp] theorem nextByte_tick (op : BitVec 4) (l k : Line) (n i a : Nat) (s : State) : (nextByte op l k n i a s).tick = s.tick := rfl
@[simp] theorem nextByte_trace (op : BitVec 4) (l k : Line) (n i a : Nat) (s : State) : (nextByte op l k n i a s).trace = s.trace := rfl
@[simp] theorem nextByte_hm (op : BitVec 4) (l k : Line) (n i a : Nat) (s : State) : (nextByte op l k n i a s).hm = s.hm := rfl
@[simp] theorem nextByte_cfg (op : BitVec 4) (l k : Line) (n i a : Nat) (s : State) : (nextByte op l k n i a s).cfg = s.cfg := rfl
@[simp] theorem nextByte_env (op : BitVec 4) (l k : Line) (n i a : Nat) (s : State) : (nextByte op l k n i a s).env = s.env := rfl
@[simp] theorem nextByte_agenda (op : BitVec 4) (l k : Line) (n i a : Nat) (s : State) : (nextByte op l k n i a s).agenda = s.agenda := rfl
@[simp] theorem nextByte_draws (op : BitVec 4) (l k : Line) (n i a : Nat) (s : State) : (nextByte op l k n i a s).draws = s.draws := rfl
@[simp] theorem nextByte_hostData (op : BitVec 4) (l k : Line) (n i a : Nat) (s : State) : (nextByte op l k n i a s).hostData = s.hostData := rfl

@[simp] theorem firstProbe_dir (s : State) : (firstProbe s).dir = s.dir := rfl
@[simp] theorem firstProbe_dirPin (s : State) : (firstProbe s).dirPin = s.dirPin := rfl
@[simp] theorem firstProbe_rxBuf (s : State) : (firstProbe s).rxBuf = s.rxBuf := rfl
@[simp] theorem firstProbe_rxCount (s : State) : (firstProbe s).rxCount = s.rxCount := rfl
@[simp] theorem firstProbe_rxReady (s : State) : (firstProbe s).rxReady = s.rxReady := rfl
@[simp] theorem firstProbe_rxPend (s : State) : (firstProbe s).rxPend = s.rxPend := rfl
@[simp] theorem firstProbe_ackEn (s : State) : (firstProbe s).ackEn = s.ackEn := rfl
@[simp] theorem firstProbe_phase (s : State) : (firstProbe s).phase = s.phase := rfl
@[simp] theorem firstProbe_cmdLo (s : State) : (firstProbe s).cmdLo = s.cmdLo := rfl
@[simp] theorem firstProbe_cmdHi (s : State) : (firstProbe s).cmdHi = s.cmdHi := rfl
@[simp] theorem firstProbe_status (s : State) : (firstProbe s).status = s.status := rfl
@[simp] theorem firstProbe_value (s : State) : (firstProbe s).value = s.value := rfl
@[simp] theorem firstProbe_count (s : State) : (firstProbe s).count = s.count := rfl
@[simp] theorem firstProbe_present (s : State) : (firstProbe s).present = s.present := rfl
@[simp] theorem firstProbe_seq (s : State) : (firstProbe s).seq = .at 0xD .p1 .act 0 Config.scanLo := rfl
@[simp] theorem firstProbe_cmd (s : State) : (firstProbe s).cmd = s.cmd := rfl
@[simp] theorem firstProbe_wstart (s : State) : (firstProbe s).wstart = s.wstart := rfl
@[simp] theorem firstProbe_wok (s : State) : (firstProbe s).wok = s.wok := rfl
@[simp] theorem firstProbe_c0 (s : State) : (firstProbe s).c0 = s.c0 := rfl
@[simp] theorem firstProbe_nc (s : State) : (firstProbe s).nc = s.nc := rfl
@[simp] theorem firstProbe_rorder (s : State) : (firstProbe s).rorder = s.rorder := rfl
@[simp] theorem firstProbe_rbound (s : State) : (firstProbe s).rbound = s.rbound := rfl
@[simp] theorem firstProbe_found (s : State) : (firstProbe s).found = s.found := rfl
@[simp] theorem firstProbe_rdByte (s : State) : (firstProbe s).rdByte = s.rdByte := rfl
@[simp] theorem firstProbe_tick (s : State) : (firstProbe s).tick = s.tick := rfl
@[simp] theorem firstProbe_trace (s : State) : (firstProbe s).trace = s.trace := rfl
@[simp] theorem firstProbe_hm (s : State) : (firstProbe s).hm = s.hm := rfl
@[simp] theorem firstProbe_cfg (s : State) : (firstProbe s).cfg = s.cfg := rfl
@[simp] theorem firstProbe_env (s : State) : (firstProbe s).env = s.env := rfl
@[simp] theorem firstProbe_agenda (s : State) : (firstProbe s).agenda = s.agenda := rfl
@[simp] theorem firstProbe_draws (s : State) : (firstProbe s).draws = s.draws := rfl
@[simp] theorem firstProbe_hostData (s : State) : (firstProbe s).hostData = s.hostData := rfl

@[simp] theorem nextProbe_dir (k : Nat) (s : State) : (nextProbe k s).dir = s.dir := rfl
@[simp] theorem nextProbe_dirPin (k : Nat) (s : State) : (nextProbe k s).dirPin = s.dirPin := rfl
@[simp] theorem nextProbe_rxBuf (k : Nat) (s : State) : (nextProbe k s).rxBuf = s.rxBuf := rfl
@[simp] theorem nextProbe_rxCount (k : Nat) (s : State) : (nextProbe k s).rxCount = s.rxCount := rfl
@[simp] theorem nextProbe_rxReady (k : Nat) (s : State) : (nextProbe k s).rxReady = s.rxReady := rfl
@[simp] theorem nextProbe_rxPend (k : Nat) (s : State) : (nextProbe k s).rxPend = s.rxPend := rfl
@[simp] theorem nextProbe_ackEn (k : Nat) (s : State) : (nextProbe k s).ackEn = s.ackEn := rfl
@[simp] theorem nextProbe_phase (k : Nat) (s : State) : (nextProbe k s).phase = s.phase := rfl
@[simp] theorem nextProbe_cmdLo (k : Nat) (s : State) : (nextProbe k s).cmdLo = s.cmdLo := rfl
@[simp] theorem nextProbe_cmdHi (k : Nat) (s : State) : (nextProbe k s).cmdHi = s.cmdHi := rfl
@[simp] theorem nextProbe_status (k : Nat) (s : State) : (nextProbe k s).status = s.status := rfl
@[simp] theorem nextProbe_value (k : Nat) (s : State) : (nextProbe k s).value = s.value := rfl
@[simp] theorem nextProbe_count (k : Nat) (s : State) : (nextProbe k s).count = s.count := rfl
@[simp] theorem nextProbe_present (k : Nat) (s : State) : (nextProbe k s).present = s.present := rfl
@[simp] theorem nextProbe_seq (k : Nat) (s : State) : (nextProbe k s).seq = .at 0xD (if k + 1 < Config.scanHi then .p1 else .s3) .act 0 (if k + 1 < Config.scanHi then k + 1 else k) := rfl
@[simp] theorem nextProbe_cmd (k : Nat) (s : State) : (nextProbe k s).cmd = s.cmd := rfl
@[simp] theorem nextProbe_wstart (k : Nat) (s : State) : (nextProbe k s).wstart = s.wstart := rfl
@[simp] theorem nextProbe_wok (k : Nat) (s : State) : (nextProbe k s).wok = s.wok := rfl
@[simp] theorem nextProbe_c0 (k : Nat) (s : State) : (nextProbe k s).c0 = s.c0 := rfl
@[simp] theorem nextProbe_nc (k : Nat) (s : State) : (nextProbe k s).nc = s.nc := rfl
@[simp] theorem nextProbe_rorder (k : Nat) (s : State) : (nextProbe k s).rorder = s.rorder := rfl
@[simp] theorem nextProbe_rbound (k : Nat) (s : State) : (nextProbe k s).rbound = s.rbound := rfl
@[simp] theorem nextProbe_found (k : Nat) (s : State) : (nextProbe k s).found = s.found := rfl
@[simp] theorem nextProbe_rdByte (k : Nat) (s : State) : (nextProbe k s).rdByte = s.rdByte := rfl
@[simp] theorem nextProbe_tick (k : Nat) (s : State) : (nextProbe k s).tick = s.tick := rfl
@[simp] theorem nextProbe_trace (k : Nat) (s : State) : (nextProbe k s).trace = s.trace := rfl
@[simp] theorem nextProbe_hm (k : Nat) (s : State) : (nextProbe k s).hm = s.hm := rfl
@[simp] theorem nextProbe_cfg (k : Nat) (s : State) : (nextProbe k s).cfg = s.cfg := rfl
@[simp] theorem nextProbe_env (k : Nat) (s : State) : (nextProbe k s).env = s.env := rfl
@[simp] theorem nextProbe_agenda (k : Nat) (s : State) : (nextProbe k s).agenda = s.agenda := rfl
@[simp] theorem nextProbe_draws (k : Nat) (s : State) : (nextProbe k s).draws = s.draws := rfl
@[simp] theorem nextProbe_hostData (k : Nat) (s : State) : (nextProbe k s).hostData = s.hostData := rfl

@[simp] theorem finish_dir (ok : Bool) (c : Cause) (s : State) : (finish ok c s).dir = s.dir := rfl
@[simp] theorem finish_dirPin (ok : Bool) (c : Cause) (s : State) : (finish ok c s).dirPin = s.dirPin := rfl
@[simp] theorem finish_rxBuf (ok : Bool) (c : Cause) (s : State) : (finish ok c s).rxBuf = s.rxBuf := rfl
@[simp] theorem finish_rxCount (ok : Bool) (c : Cause) (s : State) : (finish ok c s).rxCount = s.rxCount := rfl
@[simp] theorem finish_rxReady (ok : Bool) (c : Cause) (s : State) : (finish ok c s).rxReady = s.rxReady := rfl
@[simp] theorem finish_rxPend (ok : Bool) (c : Cause) (s : State) : (finish ok c s).rxPend = s.rxPend := rfl
@[simp] theorem finish_ackEn (ok : Bool) (c : Cause) (s : State) : (finish ok c s).ackEn = s.ackEn := rfl
@[simp] theorem finish_phase (ok : Bool) (c : Cause) (s : State) : (finish ok c s).phase = s.phase := rfl
@[simp] theorem finish_cmdLo (ok : Bool) (c : Cause) (s : State) : (finish ok c s).cmdLo = s.cmdLo := rfl
@[simp] theorem finish_cmdHi (ok : Bool) (c : Cause) (s : State) : (finish ok c s).cmdHi = s.cmdHi := rfl
@[simp] theorem finish_status (ok : Bool) (c : Cause) (s : State) : (finish ok c s).status = statusWord ok c := rfl
@[simp] theorem finish_value (ok : Bool) (c : Cause) (s : State) : (finish ok c s).value = s.value := rfl
@[simp] theorem finish_count (ok : Bool) (c : Cause) (s : State) : (finish ok c s).count = s.count := rfl
@[simp] theorem finish_present (ok : Bool) (c : Cause) (s : State) : (finish ok c s).present = s.present := rfl
@[simp] theorem finish_seq (ok : Bool) (c : Cause) (s : State) : (finish ok c s).seq = .idle := rfl
@[simp] theorem finish_cmd (ok : Bool) (c : Cause) (s : State) : (finish ok c s).cmd = s.cmd := rfl
@[simp] theorem finish_wstart (ok : Bool) (c : Cause) (s : State) : (finish ok c s).wstart = s.wstart := rfl
@[simp] theorem finish_wok (ok : Bool) (c : Cause) (s : State) : (finish ok c s).wok = s.wok := rfl
@[simp] theorem finish_c0 (ok : Bool) (c : Cause) (s : State) : (finish ok c s).c0 = s.c0 := rfl
@[simp] theorem finish_nc (ok : Bool) (c : Cause) (s : State) : (finish ok c s).nc = s.nc := rfl
@[simp] theorem finish_rorder (ok : Bool) (c : Cause) (s : State) : (finish ok c s).rorder = s.rorder := rfl
@[simp] theorem finish_rbound (ok : Bool) (c : Cause) (s : State) : (finish ok c s).rbound = s.rbound := rfl
@[simp] theorem finish_found (ok : Bool) (c : Cause) (s : State) : (finish ok c s).found = s.found := rfl
@[simp] theorem finish_rdByte (ok : Bool) (c : Cause) (s : State) : (finish ok c s).rdByte = s.rdByte := rfl
@[simp] theorem finish_tick (ok : Bool) (c : Cause) (s : State) : (finish ok c s).tick = s.tick := rfl
@[simp] theorem finish_trace (ok : Bool) (c : Cause) (s : State) : (finish ok c s).trace = s.trace := rfl
@[simp] theorem finish_hm (ok : Bool) (c : Cause) (s : State) : (finish ok c s).hm = s.hm := rfl
@[simp] theorem finish_cfg (ok : Bool) (c : Cause) (s : State) : (finish ok c s).cfg = s.cfg := rfl
@[simp] theorem finish_env (ok : Bool) (c : Cause) (s : State) : (finish ok c s).env = s.env := rfl
@[simp] theorem finish_agenda (ok : Bool) (c : Cause) (s : State) : (finish ok c s).agenda = s.agenda := rfl
@[simp] theorem finish_draws (ok : Bool) (c : Cause) (s : State) : (finish ok c s).draws = s.draws := rfl
@[simp] theorem finish_hostData (ok : Bool) (c : Cause) (s : State) : (finish ok c s).hostData = s.hostData := rfl

@[simp] theorem busFinish_dir (ok : Bool) (c : Cause) (s : State) : (busFinish ok c s).dir = s.dir := rfl
@[simp] theorem busFinish_dirPin (ok : Bool) (c : Cause) (s : State) : (busFinish ok c s).dirPin = s.dirPin := rfl
@[simp] theorem busFinish_rxBuf (ok : Bool) (c : Cause) (s : State) : (busFinish ok c s).rxBuf = s.rxBuf := rfl
@[simp] theorem busFinish_rxCount (ok : Bool) (c : Cause) (s : State) : (busFinish ok c s).rxCount = s.rxCount := rfl
@[simp] theorem busFinish_rxReady (ok : Bool) (c : Cause) (s : State) : (busFinish ok c s).rxReady = s.rxReady := rfl
@[simp] theorem busFinish_rxPend (ok : Bool) (c : Cause) (s : State) : (busFinish ok c s).rxPend = s.rxPend := rfl
@[simp] theorem busFinish_ackEn (ok : Bool) (c : Cause) (s : State) : (busFinish ok c s).ackEn = s.ackEn := rfl
@[simp] theorem busFinish_phase (ok : Bool) (c : Cause) (s : State) : (busFinish ok c s).phase = .idle := rfl
@[simp] theorem busFinish_cmdLo (ok : Bool) (c : Cause) (s : State) : (busFinish ok c s).cmdLo = s.cmdLo := rfl
@[simp] theorem busFinish_cmdHi (ok : Bool) (c : Cause) (s : State) : (busFinish ok c s).cmdHi = s.cmdHi := rfl
@[simp] theorem busFinish_status (ok : Bool) (c : Cause) (s : State) : (busFinish ok c s).status = statusWord ok c := rfl
@[simp] theorem busFinish_value (ok : Bool) (c : Cause) (s : State) : (busFinish ok c s).value = s.value := rfl
@[simp] theorem busFinish_count (ok : Bool) (c : Cause) (s : State) : (busFinish ok c s).count = s.count := rfl
@[simp] theorem busFinish_present (ok : Bool) (c : Cause) (s : State) : (busFinish ok c s).present = s.present := rfl
@[simp] theorem busFinish_seq (ok : Bool) (c : Cause) (s : State) : (busFinish ok c s).seq = .idle := rfl
@[simp] theorem busFinish_cmd (ok : Bool) (c : Cause) (s : State) : (busFinish ok c s).cmd = s.cmd := rfl
@[simp] theorem busFinish_wstart (ok : Bool) (c : Cause) (s : State) : (busFinish ok c s).wstart = s.wstart := rfl
@[simp] theorem busFinish_wok (ok : Bool) (c : Cause) (s : State) : (busFinish ok c s).wok = s.wok := rfl
@[simp] theorem busFinish_c0 (ok : Bool) (c : Cause) (s : State) : (busFinish ok c s).c0 = s.c0 := rfl
@[simp] theorem busFinish_nc (ok : Bool) (c : Cause) (s : State) : (busFinish ok c s).nc = s.nc := rfl
@[simp] theorem busFinish_rorder (ok : Bool) (c : Cause) (s : State) : (busFinish ok c s).rorder = s.rorder := rfl
@[simp] theorem busFinish_rbound (ok : Bool) (c : Cause) (s : State) : (busFinish ok c s).rbound = s.rbound := rfl
@[simp] theorem busFinish_found (ok : Bool) (c : Cause) (s : State) : (busFinish ok c s).found = s.found := rfl
@[simp] theorem busFinish_rdByte (ok : Bool) (c : Cause) (s : State) : (busFinish ok c s).rdByte = s.rdByte := rfl
@[simp] theorem busFinish_tick (ok : Bool) (c : Cause) (s : State) : (busFinish ok c s).tick = s.tick := rfl
@[simp] theorem busFinish_trace (ok : Bool) (c : Cause) (s : State) : (busFinish ok c s).trace = s.trace := rfl
@[simp] theorem busFinish_hm (ok : Bool) (c : Cause) (s : State) : (busFinish ok c s).hm = s.hm := rfl
@[simp] theorem busFinish_cfg (ok : Bool) (c : Cause) (s : State) : (busFinish ok c s).cfg = s.cfg := rfl
@[simp] theorem busFinish_env (ok : Bool) (c : Cause) (s : State) : (busFinish ok c s).env = s.env := rfl
@[simp] theorem busFinish_agenda (ok : Bool) (c : Cause) (s : State) : (busFinish ok c s).agenda = s.agenda := rfl
@[simp] theorem busFinish_draws (ok : Bool) (c : Cause) (s : State) : (busFinish ok c s).draws = s.draws := rfl
@[simp] theorem busFinish_hostData (ok : Bool) (c : Cause) (s : State) : (busFinish ok c s).hostData = s.hostData := rfl

@[simp] theorem raiseIllegalCommand_dir (s : State) : (raiseIllegalCommand s).dir = s.dir := rfl
@[simp] theorem raiseIllegalCommand_dirPin (s : State) : (raiseIllegalCommand s).dirPin = s.dirPin := rfl
@[simp] theorem raiseIllegalCommand_rxBuf (s : State) : (raiseIllegalCommand s).rxBuf = s.rxBuf := rfl
@[simp] theorem raiseIllegalCommand_rxCount (s : State) : (raiseIllegalCommand s).rxCount = s.rxCount := rfl
@[simp] theorem raiseIllegalCommand_rxReady (s : State) : (raiseIllegalCommand s).rxReady = s.rxReady := rfl
@[simp] theorem raiseIllegalCommand_rxPend (s : State) : (raiseIllegalCommand s).rxPend = s.rxPend := rfl
@[simp] theorem raiseIllegalCommand_ackEn (s : State) : (raiseIllegalCommand s).ackEn = s.ackEn := rfl
@[simp] theorem raiseIllegalCommand_phase (s : State) : (raiseIllegalCommand s).phase = s.phase := rfl
@[simp] theorem raiseIllegalCommand_cmdLo (s : State) : (raiseIllegalCommand s).cmdLo = s.cmdLo := rfl
@[simp] theorem raiseIllegalCommand_cmdHi (s : State) : (raiseIllegalCommand s).cmdHi = s.cmdHi := rfl
@[simp] theorem raiseIllegalCommand_status (s : State) : (raiseIllegalCommand s).status = statusWord false .illegalCommand := rfl
@[simp] theorem raiseIllegalCommand_value (s : State) : (raiseIllegalCommand s).value = s.value := rfl
@[simp] theorem raiseIllegalCommand_count (s : State) : (raiseIllegalCommand s).count = s.count := rfl
@[simp] theorem raiseIllegalCommand_present (s : State) : (raiseIllegalCommand s).present = s.present := rfl
@[simp] theorem raiseIllegalCommand_seq (s : State) : (raiseIllegalCommand s).seq = .idle := rfl
@[simp] theorem raiseIllegalCommand_cmd (s : State) : (raiseIllegalCommand s).cmd = s.cmd := rfl
@[simp] theorem raiseIllegalCommand_wstart (s : State) : (raiseIllegalCommand s).wstart = s.wstart := rfl
@[simp] theorem raiseIllegalCommand_wok (s : State) : (raiseIllegalCommand s).wok = s.wok := rfl
@[simp] theorem raiseIllegalCommand_c0 (s : State) : (raiseIllegalCommand s).c0 = s.c0 := rfl
@[simp] theorem raiseIllegalCommand_nc (s : State) : (raiseIllegalCommand s).nc = s.nc := rfl
@[simp] theorem raiseIllegalCommand_rorder (s : State) : (raiseIllegalCommand s).rorder = s.rorder := rfl
@[simp] theorem raiseIllegalCommand_rbound (s : State) : (raiseIllegalCommand s).rbound = s.rbound := rfl
@[simp] theorem raiseIllegalCommand_found (s : State) : (raiseIllegalCommand s).found = s.found := rfl
@[simp] theorem raiseIllegalCommand_rdByte (s : State) : (raiseIllegalCommand s).rdByte = s.rdByte := rfl
@[simp] theorem raiseIllegalCommand_tick (s : State) : (raiseIllegalCommand s).tick = s.tick := rfl
@[simp] theorem raiseIllegalCommand_trace (s : State) : (raiseIllegalCommand s).trace = s.trace := rfl
@[simp] theorem raiseIllegalCommand_hm (s : State) : (raiseIllegalCommand s).hm = s.hm := rfl
@[simp] theorem raiseIllegalCommand_cfg (s : State) : (raiseIllegalCommand s).cfg = s.cfg := rfl
@[simp] theorem raiseIllegalCommand_env (s : State) : (raiseIllegalCommand s).env = s.env := rfl
@[simp] theorem raiseIllegalCommand_agenda (s : State) : (raiseIllegalCommand s).agenda = s.agenda := rfl
@[simp] theorem raiseIllegalCommand_draws (s : State) : (raiseIllegalCommand s).draws = s.draws := rfl
@[simp] theorem raiseIllegalCommand_hostData (s : State) : (raiseIllegalCommand s).hostData = s.hostData := rfl

@[simp] theorem rxcAppend_dir (b : Byte) (s : State) : (rxcAppend b s).dir = s.dir := rfl
@[simp] theorem rxcAppend_dirPin (b : Byte) (s : State) : (rxcAppend b s).dirPin = s.dirPin := rfl
@[simp] theorem rxcAppend_rxBuf (b : Byte) (s : State) : (rxcAppend b s).rxBuf = if rxRoom s then s.rxBuf.setIfInBounds s.rxCount.toNat b else s.rxBuf := rfl
@[simp] theorem rxcAppend_rxCount (b : Byte) (s : State) : (rxcAppend b s).rxCount = if rxRoom s then s.rxCount + 1 else s.rxCount := rfl
@[simp] theorem rxcAppend_rxReady (b : Byte) (s : State) : (rxcAppend b s).rxReady = true := rfl
@[simp] theorem rxcAppend_rxPend (b : Byte) (s : State) : (rxcAppend b s).rxPend = false := rfl
@[simp] theorem rxcAppend_ackEn (b : Byte) (s : State) : (rxcAppend b s).ackEn = s.ackEn := rfl
@[simp] theorem rxcAppend_phase (b : Byte) (s : State) : (rxcAppend b s).phase = s.phase := rfl
@[simp] theorem rxcAppend_cmdLo (b : Byte) (s : State) : (rxcAppend b s).cmdLo = s.cmdLo := rfl
@[simp] theorem rxcAppend_cmdHi (b : Byte) (s : State) : (rxcAppend b s).cmdHi = s.cmdHi := rfl
@[simp] theorem rxcAppend_status (b : Byte) (s : State) : (rxcAppend b s).status = s.status := rfl
@[simp] theorem rxcAppend_value (b : Byte) (s : State) : (rxcAppend b s).value = s.value := rfl
@[simp] theorem rxcAppend_count (b : Byte) (s : State) : (rxcAppend b s).count = s.count := rfl
@[simp] theorem rxcAppend_present (b : Byte) (s : State) : (rxcAppend b s).present = s.present := rfl
@[simp] theorem rxcAppend_seq (b : Byte) (s : State) : (rxcAppend b s).seq = s.seq := rfl
@[simp] theorem rxcAppend_cmd (b : Byte) (s : State) : (rxcAppend b s).cmd = s.cmd := rfl
@[simp] theorem rxcAppend_wstart (b : Byte) (s : State) : (rxcAppend b s).wstart = s.wstart := rfl
@[simp] theorem rxcAppend_wok (b : Byte) (s : State) : (rxcAppend b s).wok = s.wok := rfl
@[simp] theorem rxcAppend_c0 (b : Byte) (s : State) : (rxcAppend b s).c0 = s.c0 := rfl
@[simp] theorem rxcAppend_nc (b : Byte) (s : State) : (rxcAppend b s).nc = s.nc := rfl
@[simp] theorem rxcAppend_rorder (b : Byte) (s : State) : (rxcAppend b s).rorder = s.rorder := rfl
@[simp] theorem rxcAppend_rbound (b : Byte) (s : State) : (rxcAppend b s).rbound = s.rbound := rfl
@[simp] theorem rxcAppend_found (b : Byte) (s : State) : (rxcAppend b s).found = s.found := rfl
@[simp] theorem rxcAppend_rdByte (b : Byte) (s : State) : (rxcAppend b s).rdByte = s.rdByte := rfl
@[simp] theorem rxcAppend_tick (b : Byte) (s : State) : (rxcAppend b s).tick = s.tick := rfl
@[simp] theorem rxcAppend_trace (b : Byte) (s : State) : (rxcAppend b s).trace = s.trace ++ [.uRx b] := rfl
@[simp] theorem rxcAppend_hm (b : Byte) (s : State) : (rxcAppend b s).hm = s.hm := rfl
@[simp] theorem rxcAppend_cfg (b : Byte) (s : State) : (rxcAppend b s).cfg = s.cfg := rfl
@[simp] theorem rxcAppend_env (b : Byte) (s : State) : (rxcAppend b s).env = s.env := rfl
@[simp] theorem rxcAppend_agenda (b : Byte) (s : State) : (rxcAppend b s).agenda = s.agenda := rfl
@[simp] theorem rxcAppend_draws (b : Byte) (s : State) : (rxcAppend b s).draws = s.draws := rfl
@[simp] theorem rxcAppend_hostData (b : Byte) (s : State) : (rxcAppend b s).hostData = s.hostData := rfl

@[simp] theorem tickStep_dir (s : State) : (tickStep s).dir = s.dir := rfl
@[simp] theorem tickStep_dirPin (s : State) : (tickStep s).dirPin = s.dirPin := rfl
@[simp] theorem tickStep_rxBuf (s : State) : (tickStep s).rxBuf = s.rxBuf := rfl
@[simp] theorem tickStep_rxCount (s : State) : (tickStep s).rxCount = s.rxCount := rfl
@[simp] theorem tickStep_rxReady (s : State) : (tickStep s).rxReady = s.rxReady := rfl
@[simp] theorem tickStep_rxPend (s : State) : (tickStep s).rxPend = s.rxPend := rfl
@[simp] theorem tickStep_ackEn (s : State) : (tickStep s).ackEn = s.ackEn := rfl
@[simp] theorem tickStep_phase (s : State) : (tickStep s).phase = s.phase := rfl
@[simp] theorem tickStep_cmdLo (s : State) : (tickStep s).cmdLo = s.cmdLo := rfl
@[simp] theorem tickStep_cmdHi (s : State) : (tickStep s).cmdHi = s.cmdHi := rfl
@[simp] theorem tickStep_status (s : State) : (tickStep s).status = s.status := rfl
@[simp] theorem tickStep_value (s : State) : (tickStep s).value = s.value := rfl
@[simp] theorem tickStep_count (s : State) : (tickStep s).count = s.count := rfl
@[simp] theorem tickStep_present (s : State) : (tickStep s).present = s.present := rfl
@[simp] theorem tickStep_seq (s : State) : (tickStep s).seq = s.seq := rfl
@[simp] theorem tickStep_cmd (s : State) : (tickStep s).cmd = s.cmd := rfl
@[simp] theorem tickStep_wstart (s : State) : (tickStep s).wstart = s.wstart := rfl
@[simp] theorem tickStep_wok (s : State) : (tickStep s).wok = s.wok := rfl
@[simp] theorem tickStep_c0 (s : State) : (tickStep s).c0 = s.c0 := rfl
@[simp] theorem tickStep_nc (s : State) : (tickStep s).nc = s.nc := rfl
@[simp] theorem tickStep_rorder (s : State) : (tickStep s).rorder = s.rorder := rfl
@[simp] theorem tickStep_rbound (s : State) : (tickStep s).rbound = s.rbound := rfl
@[simp] theorem tickStep_found (s : State) : (tickStep s).found = s.found := rfl
@[simp] theorem tickStep_rdByte (s : State) : (tickStep s).rdByte = s.rdByte := rfl
@[simp] theorem tickStep_tick (s : State) : (tickStep s).tick = s.tick + 1 := rfl
@[simp] theorem tickStep_trace (s : State) : (tickStep s).trace = s.trace := rfl
@[simp] theorem tickStep_hm (s : State) : (tickStep s).hm = s.hm := rfl
@[simp] theorem tickStep_cfg (s : State) : (tickStep s).cfg = s.cfg := rfl
@[simp] theorem tickStep_env (s : State) : (tickStep s).env = s.env := rfl
@[simp] theorem tickStep_agenda (s : State) : (tickStep s).agenda = s.agenda := rfl
@[simp] theorem tickStep_draws (s : State) : (tickStep s).draws = s.draws := rfl
@[simp] theorem tickStep_hostData (s : State) : (tickStep s).hostData = s.hostData := rfl

@[simp] theorem raiseReceive_dir (s : State) : (raiseReceive s).dir = s.dir := rfl
@[simp] theorem raiseReceive_dirPin (s : State) : (raiseReceive s).dirPin = s.dirPin := rfl
@[simp] theorem raiseReceive_rxBuf (s : State) : (raiseReceive s).rxBuf = s.rxBuf := rfl
@[simp] theorem raiseReceive_rxCount (s : State) : (raiseReceive s).rxCount = s.rxCount := rfl
@[simp] theorem raiseReceive_rxReady (s : State) : (raiseReceive s).rxReady = s.rxReady := rfl
@[simp] theorem raiseReceive_rxPend (s : State) : (raiseReceive s).rxPend = true := rfl
@[simp] theorem raiseReceive_ackEn (s : State) : (raiseReceive s).ackEn = s.ackEn := rfl
@[simp] theorem raiseReceive_phase (s : State) : (raiseReceive s).phase = s.phase := rfl
@[simp] theorem raiseReceive_cmdLo (s : State) : (raiseReceive s).cmdLo = s.cmdLo := rfl
@[simp] theorem raiseReceive_cmdHi (s : State) : (raiseReceive s).cmdHi = s.cmdHi := rfl
@[simp] theorem raiseReceive_status (s : State) : (raiseReceive s).status = s.status := rfl
@[simp] theorem raiseReceive_value (s : State) : (raiseReceive s).value = s.value := rfl
@[simp] theorem raiseReceive_count (s : State) : (raiseReceive s).count = s.count := rfl
@[simp] theorem raiseReceive_present (s : State) : (raiseReceive s).present = s.present := rfl
@[simp] theorem raiseReceive_seq (s : State) : (raiseReceive s).seq = s.seq := rfl
@[simp] theorem raiseReceive_cmd (s : State) : (raiseReceive s).cmd = s.cmd := rfl
@[simp] theorem raiseReceive_wstart (s : State) : (raiseReceive s).wstart = s.wstart := rfl
@[simp] theorem raiseReceive_wok (s : State) : (raiseReceive s).wok = s.wok := rfl
@[simp] theorem raiseReceive_c0 (s : State) : (raiseReceive s).c0 = s.c0 := rfl
@[simp] theorem raiseReceive_nc (s : State) : (raiseReceive s).nc = s.nc := rfl
@[simp] theorem raiseReceive_rorder (s : State) : (raiseReceive s).rorder = s.rorder := rfl
@[simp] theorem raiseReceive_rbound (s : State) : (raiseReceive s).rbound = s.rbound := rfl
@[simp] theorem raiseReceive_found (s : State) : (raiseReceive s).found = s.found := rfl
@[simp] theorem raiseReceive_rdByte (s : State) : (raiseReceive s).rdByte = s.rdByte := rfl
@[simp] theorem raiseReceive_tick (s : State) : (raiseReceive s).tick = s.tick := rfl
@[simp] theorem raiseReceive_trace (s : State) : (raiseReceive s).trace = s.trace := rfl
@[simp] theorem raiseReceive_hm (s : State) : (raiseReceive s).hm = s.hm := rfl
@[simp] theorem raiseReceive_cfg (s : State) : (raiseReceive s).cfg = s.cfg := rfl
@[simp] theorem raiseReceive_env (s : State) : (raiseReceive s).env = s.env := rfl
@[simp] theorem raiseReceive_agenda (s : State) : (raiseReceive s).agenda = s.agenda := rfl
@[simp] theorem raiseReceive_draws (s : State) : (raiseReceive s).draws = s.draws := rfl
@[simp] theorem raiseReceive_hostData (s : State) : (raiseReceive s).hostData = s.hostData := rfl

@[simp] theorem firstReset_dir (o : Bool) (s : State) : (firstReset o s).dir = s.dir := rfl
@[simp] theorem firstReset_dirPin (o : Bool) (s : State) : (firstReset o s).dirPin = s.dirPin := rfl
@[simp] theorem firstReset_rxBuf (o : Bool) (s : State) : (firstReset o s).rxBuf = s.rxBuf := rfl
@[simp] theorem firstReset_rxCount (o : Bool) (s : State) : (firstReset o s).rxCount = if o then s.rxCount else 0 := rfl
@[simp] theorem firstReset_rxReady (o : Bool) (s : State) : (firstReset o s).rxReady = if o then false else s.rxReady := rfl
@[simp] theorem firstReset_rxPend (o : Bool) (s : State) : (firstReset o s).rxPend = s.rxPend := rfl
@[simp] theorem firstReset_ackEn (o : Bool) (s : State) : (firstReset o s).ackEn = s.ackEn := rfl
@[simp] theorem firstReset_phase (o : Bool) (s : State) : (firstReset o s).phase = s.phase := rfl
@[simp] theorem firstReset_cmdLo (o : Bool) (s : State) : (firstReset o s).cmdLo = s.cmdLo := rfl
@[simp] theorem firstReset_cmdHi (o : Bool) (s : State) : (firstReset o s).cmdHi = s.cmdHi := rfl
@[simp] theorem firstReset_status (o : Bool) (s : State) : (firstReset o s).status = s.status := rfl
@[simp] theorem firstReset_value (o : Bool) (s : State) : (firstReset o s).value = s.value := rfl
@[simp] theorem firstReset_count (o : Bool) (s : State) : (firstReset o s).count = s.count := rfl
@[simp] theorem firstReset_present (o : Bool) (s : State) : (firstReset o s).present = s.present := rfl
@[simp] theorem firstReset_seq (o : Bool) (s : State) : (firstReset o s).seq = s.seq := rfl
@[simp] theorem firstReset_cmd (o : Bool) (s : State) : (firstReset o s).cmd = s.cmd := rfl
@[simp] theorem firstReset_wstart (o : Bool) (s : State) : (firstReset o s).wstart = s.wstart := rfl
@[simp] theorem firstReset_wok (o : Bool) (s : State) : (firstReset o s).wok = s.wok := rfl
@[simp] theorem firstReset_c0 (o : Bool) (s : State) : (firstReset o s).c0 = s.c0 := rfl
@[simp] theorem firstReset_nc (o : Bool) (s : State) : (firstReset o s).nc = s.nc := rfl
@[simp] theorem firstReset_rorder (o : Bool) (s : State) : (firstReset o s).rorder = s.rorder := rfl
@[simp] theorem firstReset_rbound (o : Bool) (s : State) : (firstReset o s).rbound = s.rbound := rfl
@[simp] theorem firstReset_found (o : Bool) (s : State) : (firstReset o s).found = s.found := rfl
@[simp] theorem firstReset_rdByte (o : Bool) (s : State) : (firstReset o s).rdByte = s.rdByte := rfl
@[simp] theorem firstReset_tick (o : Bool) (s : State) : (firstReset o s).tick = s.tick := rfl
@[simp] theorem firstReset_trace (o : Bool) (s : State) : (firstReset o s).trace = s.trace := rfl
@[simp] theorem firstReset_hm (o : Bool) (s : State) : (firstReset o s).hm = s.hm := rfl
@[simp] theorem firstReset_cfg (o : Bool) (s : State) : (firstReset o s).cfg = s.cfg := rfl
@[simp] theorem firstReset_env (o : Bool) (s : State) : (firstReset o s).env = s.env := rfl
@[simp] theorem firstReset_agenda (o : Bool) (s : State) : (firstReset o s).agenda = s.agenda := rfl
@[simp] theorem firstReset_draws (o : Bool) (s : State) : (firstReset o s).draws = s.draws := rfl
@[simp] theorem firstReset_hostData (o : Bool) (s : State) : (firstReset o s).hostData = s.hostData := rfl

@[simp] theorem secondReset_dir (o : Bool) (s : State) : (secondReset o s).dir = s.dir := rfl
@[simp] theorem secondReset_dirPin (o : Bool) (s : State) : (secondReset o s).dirPin = s.dirPin := rfl
@[simp] theorem secondReset_rxBuf (o : Bool) (s : State) : (secondReset o s).rxBuf = s.rxBuf := rfl
@[simp] theorem secondReset_rxCount (o : Bool) (s : State) : (secondReset o s).rxCount = if o then 0 else s.rxCount := rfl
@[simp] theorem secondReset_rxReady (o : Bool) (s : State) : (secondReset o s).rxReady = if o then s.rxReady else false := rfl
@[simp] theorem secondReset_rxPend (o : Bool) (s : State) : (secondReset o s).rxPend = s.rxPend := rfl
@[simp] theorem secondReset_ackEn (o : Bool) (s : State) : (secondReset o s).ackEn = s.ackEn := rfl
@[simp] theorem secondReset_phase (o : Bool) (s : State) : (secondReset o s).phase = s.phase := rfl
@[simp] theorem secondReset_cmdLo (o : Bool) (s : State) : (secondReset o s).cmdLo = s.cmdLo := rfl
@[simp] theorem secondReset_cmdHi (o : Bool) (s : State) : (secondReset o s).cmdHi = s.cmdHi := rfl
@[simp] theorem secondReset_status (o : Bool) (s : State) : (secondReset o s).status = s.status := rfl
@[simp] theorem secondReset_value (o : Bool) (s : State) : (secondReset o s).value = s.value := rfl
@[simp] theorem secondReset_count (o : Bool) (s : State) : (secondReset o s).count = s.count := rfl
@[simp] theorem secondReset_present (o : Bool) (s : State) : (secondReset o s).present = s.present := rfl
@[simp] theorem secondReset_seq (o : Bool) (s : State) : (secondReset o s).seq = s.seq := rfl
@[simp] theorem secondReset_cmd (o : Bool) (s : State) : (secondReset o s).cmd = s.cmd := rfl
@[simp] theorem secondReset_wstart (o : Bool) (s : State) : (secondReset o s).wstart = s.wstart := rfl
@[simp] theorem secondReset_wok (o : Bool) (s : State) : (secondReset o s).wok = s.wok := rfl
@[simp] theorem secondReset_c0 (o : Bool) (s : State) : (secondReset o s).c0 = s.c0 := rfl
@[simp] theorem secondReset_nc (o : Bool) (s : State) : (secondReset o s).nc = s.nc := rfl
@[simp] theorem secondReset_rorder (o : Bool) (s : State) : (secondReset o s).rorder = s.rorder := rfl
@[simp] theorem secondReset_rbound (o : Bool) (s : State) : (secondReset o s).rbound = s.rbound := rfl
@[simp] theorem secondReset_found (o : Bool) (s : State) : (secondReset o s).found = s.found := rfl
@[simp] theorem secondReset_rdByte (o : Bool) (s : State) : (secondReset o s).rdByte = s.rdByte := rfl
@[simp] theorem secondReset_tick (o : Bool) (s : State) : (secondReset o s).tick = s.tick := rfl
@[simp] theorem secondReset_trace (o : Bool) (s : State) : (secondReset o s).trace = s.trace := rfl
@[simp] theorem secondReset_hm (o : Bool) (s : State) : (secondReset o s).hm = s.hm := rfl
@[simp] theorem secondReset_cfg (o : Bool) (s : State) : (secondReset o s).cfg = s.cfg := rfl
@[simp] theorem secondReset_env (o : Bool) (s : State) : (secondReset o s).env = s.env := rfl
@[simp] theorem secondReset_agenda (o : Bool) (s : State) : (secondReset o s).agenda = s.agenda := rfl
@[simp] theorem secondReset_draws (o : Bool) (s : State) : (secondReset o s).draws = s.draws := rfl
@[simp] theorem secondReset_hostData (o : Bool) (s : State) : (secondReset o s).hostData = s.hostData := rfl

@[simp] theorem latchDrain_dir (s : State) : (latchDrain s).dir = s.dir := rfl
@[simp] theorem latchDrain_dirPin (s : State) : (latchDrain s).dirPin = s.dirPin := rfl
@[simp] theorem latchDrain_rxBuf (s : State) : (latchDrain s).rxBuf = s.rxBuf := rfl
@[simp] theorem latchDrain_rxCount (s : State) : (latchDrain s).rxCount = s.rxCount := rfl
@[simp] theorem latchDrain_rxReady (s : State) : (latchDrain s).rxReady = s.rxReady := rfl
@[simp] theorem latchDrain_rxPend (s : State) : (latchDrain s).rxPend = s.rxPend := rfl
@[simp] theorem latchDrain_ackEn (s : State) : (latchDrain s).ackEn = s.ackEn := rfl
@[simp] theorem latchDrain_phase (s : State) : (latchDrain s).phase = s.phase := rfl
@[simp] theorem latchDrain_cmdLo (s : State) : (latchDrain s).cmdLo = s.cmdLo := rfl
@[simp] theorem latchDrain_cmdHi (s : State) : (latchDrain s).cmdHi = s.cmdHi := rfl
@[simp] theorem latchDrain_status (s : State) : (latchDrain s).status = s.status := rfl
@[simp] theorem latchDrain_value (s : State) : (latchDrain s).value = s.value := rfl
@[simp] theorem latchDrain_count (s : State) : (latchDrain s).count = s.count := rfl
@[simp] theorem latchDrain_present (s : State) : (latchDrain s).present = s.present := rfl
@[simp] theorem latchDrain_seq (s : State) : (latchDrain s).seq = s.seq := rfl
@[simp] theorem latchDrain_cmd (s : State) : (latchDrain s).cmd = s.cmd := rfl
@[simp] theorem latchDrain_wstart (s : State) : (latchDrain s).wstart = s.wstart := rfl
@[simp] theorem latchDrain_wok (s : State) : (latchDrain s).wok = s.wok := rfl
@[simp] theorem latchDrain_c0 (s : State) : (latchDrain s).c0 = s.rxCount := rfl
@[simp] theorem latchDrain_nc (s : State) : (latchDrain s).nc = 0 := rfl
@[simp] theorem latchDrain_rorder (s : State) : (latchDrain s).rorder = Config.drawBit s.draws := rfl
@[simp] theorem latchDrain_rbound (s : State) : (latchDrain s).rbound = Config.drawBit (s.draws + 1) := rfl
@[simp] theorem latchDrain_found (s : State) : (latchDrain s).found = s.found := rfl
@[simp] theorem latchDrain_rdByte (s : State) : (latchDrain s).rdByte = s.rdByte := rfl
@[simp] theorem latchDrain_tick (s : State) : (latchDrain s).tick = s.tick := rfl
@[simp] theorem latchDrain_trace (s : State) : (latchDrain s).trace = s.trace := rfl
@[simp] theorem latchDrain_hm (s : State) : (latchDrain s).hm = s.hm := rfl
@[simp] theorem latchDrain_cfg (s : State) : (latchDrain s).cfg = s.cfg := rfl
@[simp] theorem latchDrain_env (s : State) : (latchDrain s).env = s.env := rfl
@[simp] theorem latchDrain_agenda (s : State) : (latchDrain s).agenda = s.agenda := rfl
@[simp] theorem latchDrain_draws (s : State) : (latchDrain s).draws = s.draws + 2 := rfl
@[simp] theorem latchDrain_hostData (s : State) : (latchDrain s).hostData = s.hostData := rfl

@[simp] theorem drawOrder_dir (s : State) : (drawOrder s).dir = s.dir := rfl
@[simp] theorem drawOrder_dirPin (s : State) : (drawOrder s).dirPin = s.dirPin := rfl
@[simp] theorem drawOrder_rxBuf (s : State) : (drawOrder s).rxBuf = s.rxBuf := rfl
@[simp] theorem drawOrder_rxCount (s : State) : (drawOrder s).rxCount = if Config.drawBit s.draws then s.rxCount else 0 := rfl
@[simp] theorem drawOrder_rxReady (s : State) : (drawOrder s).rxReady = if Config.drawBit s.draws then false else s.rxReady := rfl
@[simp] theorem drawOrder_rxPend (s : State) : (drawOrder s).rxPend = s.rxPend := rfl
@[simp] theorem drawOrder_ackEn (s : State) : (drawOrder s).ackEn = s.ackEn := rfl
@[simp] theorem drawOrder_phase (s : State) : (drawOrder s).phase = s.phase := rfl
@[simp] theorem drawOrder_cmdLo (s : State) : (drawOrder s).cmdLo = s.cmdLo := rfl
@[simp] theorem drawOrder_cmdHi (s : State) : (drawOrder s).cmdHi = s.cmdHi := rfl
@[simp] theorem drawOrder_status (s : State) : (drawOrder s).status = s.status := rfl
@[simp] theorem drawOrder_value (s : State) : (drawOrder s).value = s.value := rfl
@[simp] theorem drawOrder_count (s : State) : (drawOrder s).count = s.count := rfl
@[simp] theorem drawOrder_present (s : State) : (drawOrder s).present = s.present := rfl
@[simp] theorem drawOrder_seq (s : State) : (drawOrder s).seq = s.seq := rfl
@[simp] theorem drawOrder_cmd (s : State) : (drawOrder s).cmd = s.cmd := rfl
@[simp] theorem drawOrder_wstart (s : State) : (drawOrder s).wstart = s.wstart := rfl
@[simp] theorem drawOrder_wok (s : State) : (drawOrder s).wok = s.wok := rfl
@[simp] theorem drawOrder_c0 (s : State) : (drawOrder s).c0 = s.c0 := rfl
@[simp] theorem drawOrder_nc (s : State) : (drawOrder s).nc = s.nc := rfl
@[simp] theorem drawOrder_rorder (s : State) : (drawOrder s).rorder = Config.drawBit s.draws := rfl
@[simp] theorem drawOrder_rbound (s : State) : (drawOrder s).rbound = s.rbound := rfl
@[simp] theorem drawOrder_found (s : State) : (drawOrder s).found = s.found := rfl
@[simp] theorem drawOrder_rdByte (s : State) : (drawOrder s).rdByte = s.rdByte := rfl
@[simp] theorem drawOrder_tick (s : State) : (drawOrder s).tick = s.tick := rfl
@[simp] theorem drawOrder_trace (s : State) : (drawOrder s).trace = s.trace := rfl
@[simp] theorem drawOrder_hm (s : State) : (drawOrder s).hm = s.hm := rfl
@[simp] theorem drawOrder_cfg (s : State) : (drawOrder s).cfg = s.cfg := rfl
@[simp] theorem drawOrder_env (s : State) : (drawOrder s).env = s.env := rfl
@[simp] theorem drawOrder_agenda (s : State) : (drawOrder s).agenda = s.agenda := rfl
@[simp] theorem drawOrder_draws (s : State) : (drawOrder s).draws = s.draws + 1 := rfl
@[simp] theorem drawOrder_hostData (s : State) : (drawOrder s).hostData = s.hostData := rfl

@[simp] theorem markFound_dir (k : Nat) (s : State) : (markFound k s).dir = s.dir := rfl
@[simp] theorem markFound_dirPin (k : Nat) (s : State) : (markFound k s).dirPin = s.dirPin := rfl
@[simp] theorem markFound_rxBuf (k : Nat) (s : State) : (markFound k s).rxBuf = s.rxBuf := rfl
@[simp] theorem markFound_rxCount (k : Nat) (s : State) : (markFound k s).rxCount = s.rxCount := rfl
@[simp] theorem markFound_rxReady (k : Nat) (s : State) : (markFound k s).rxReady = s.rxReady := rfl
@[simp] theorem markFound_rxPend (k : Nat) (s : State) : (markFound k s).rxPend = s.rxPend := rfl
@[simp] theorem markFound_ackEn (k : Nat) (s : State) : (markFound k s).ackEn = s.ackEn := rfl
@[simp] theorem markFound_phase (k : Nat) (s : State) : (markFound k s).phase = s.phase := rfl
@[simp] theorem markFound_cmdLo (k : Nat) (s : State) : (markFound k s).cmdLo = s.cmdLo := rfl
@[simp] theorem markFound_cmdHi (k : Nat) (s : State) : (markFound k s).cmdHi = s.cmdHi := rfl
@[simp] theorem markFound_status (k : Nat) (s : State) : (markFound k s).status = s.status := rfl
@[simp] theorem markFound_value (k : Nat) (s : State) : (markFound k s).value = s.value := rfl
@[simp] theorem markFound_count (k : Nat) (s : State) : (markFound k s).count = s.count := rfl
@[simp] theorem markFound_present (k : Nat) (s : State) : (markFound k s).present = markPresent s.present k := rfl
@[simp] theorem markFound_seq (k : Nat) (s : State) : (markFound k s).seq = s.seq := rfl
@[simp] theorem markFound_cmd (k : Nat) (s : State) : (markFound k s).cmd = s.cmd := rfl
@[simp] theorem markFound_wstart (k : Nat) (s : State) : (markFound k s).wstart = s.wstart := rfl
@[simp] theorem markFound_wok (k : Nat) (s : State) : (markFound k s).wok = s.wok := rfl
@[simp] theorem markFound_c0 (k : Nat) (s : State) : (markFound k s).c0 = s.c0 := rfl
@[simp] theorem markFound_nc (k : Nat) (s : State) : (markFound k s).nc = s.nc := rfl
@[simp] theorem markFound_rorder (k : Nat) (s : State) : (markFound k s).rorder = s.rorder := rfl
@[simp] theorem markFound_rbound (k : Nat) (s : State) : (markFound k s).rbound = s.rbound := rfl
@[simp] theorem markFound_found (k : Nat) (s : State) : (markFound k s).found = s.found + 1 := rfl
@[simp] theorem markFound_rdByte (k : Nat) (s : State) : (markFound k s).rdByte = s.rdByte := rfl
@[simp] theorem markFound_tick (k : Nat) (s : State) : (markFound k s).tick = s.tick := rfl
@[simp] theorem markFound_trace (k : Nat) (s : State) : (markFound k s).trace = s.trace := rfl
@[simp] theorem markFound_hm (k : Nat) (s : State) : (markFound k s).hm = s.hm := rfl
@[simp] theorem markFound_cfg (k : Nat) (s : State) : (markFound k s).cfg = s.cfg := rfl
@[simp] theorem markFound_env (k : Nat) (s : State) : (markFound k s).env = s.env := rfl
@[simp] theorem markFound_agenda (k : Nat) (s : State) : (markFound k s).agenda = s.agenda := rfl
@[simp] theorem markFound_draws (k : Nat) (s : State) : (markFound k s).draws = s.draws := rfl
@[simp] theorem markFound_hostData (k : Nat) (s : State) : (markFound k s).hostData = s.hostData := rfl

end Sys2Proof.Machine
end

