-- ==== Sys2Proof/Laws/Ops.lean ====
section
/-! SUPPORT. For each shared operation, what it can do, said once: the step and runs of steps, waits, the ends of a
command, the receive append, register accesses, and the checks on operands. -/

namespace Sys2Proof.Machine

/-! ### Steps and runs -/

/-- The step that an agenda names next. -/
theorem step_of_agenda {s : State} {act : Action} {rest : List Action} (h : s.agenda = act :: rest) :
    step s = perform act { s with agenda := rest } := by
  simp [step, nextAction, h]

theorem runSteps_succ (n : Nat) {s t : State} (h : step s = .next t) : runSteps (n + 1) s = runSteps n t := by
  simp [runSteps, h]

/-- A run of `m + n` steps whose first `m` reach `t` is a run of `n` steps from `t`. -/
theorem runSteps_add : ∀ (m n : Nat) {s t : State}, runSteps m s = .next t → runSteps (m + n) s = runSteps n t
  | 0, n, s, t, h => by
    simp only [runSteps, Host.Outcome.next.injEq] at h
    simp [h]
  | m + 1, n, s, t, h => by
    rw [Nat.succ_add]
    cases hs : step s with
    | next u =>
      rw [runSteps_succ _ hs] at h ⊢
      exact runSteps_add m n h
    | fault r => simp [runSteps, hs] at h
    | refused r => simp [runSteps, hs] at h

/-- The model's runs are the host's. -/
theorem runSteps_eq_run : ∀ (n : Nat) (s : State), runSteps n s = Host.Core.run core n s
  | 0, _ => rfl
  | n + 1, s => by
    have h : core.step s = step s := rfl
    simp only [runSteps, Host.Core.run, h]
    cases step s with
    | next t => exact runSteps_eq_run n t
    | fault r => rfl
    | refused r => rfl

/-! ### Codes and fields -/

@[simp] theorem statusWord_ok : statusWord true .none = 1#32 := by decide
@[simp] theorem statusWord_timeout : statusWord false .timeout = 2#32 := by decide
@[simp] theorem statusWord_illegal : statusWord false .illegalCommand = 4#32 := by decide

/-- R29: what the two fields of STATUS are after `finish`. -/
theorem statusWord_fields (ok : Bool) (c : Cause) :
    statusOk (statusWord ok c) = ok ∧ statusCause (statusWord ok c) = causeCode c := by
  cases ok <;> cases c <;> decide

theorem valueOfByte_lt (b : Byte) : (valueOfByte b).toNat < 256 := by
  simp [valueOfByte]; omega

theorem valueOfFlag_lt (f : Bool) : (valueOfFlag f).toNat < 256 := by
  cases f <;> decide

theorem countOfRxCount_lt (c : BitVec 9) : (countOfRxCount c).toNat < 65536 := by
  simp [countOfRxCount]; omega

theorem countOfCopied_lt (n : BitVec 16) : (countOfCopied n).toNat < 65536 := by
  simp [countOfCopied]; omega

theorem countOfFound_lt (n : BitVec 8) : (countOfFound n).toNat < 65536 := by
  simp [countOfFound]; omega

/-- R104 P4a: marking address `a` sets its bit and leaves the others. -/
theorem markPresent_bit (p : BitVec 128) (a : Nat) {x : Nat} (hx : x < 128) :
    (markPresent p a).getLsbD x = (p.getLsbD x || decide (x = a)) := by
  simp only [markPresent, BitVec.getLsbD_or, BitVec.getLsbD_shiftLeft, BitVec.getLsbD_one]
  by_cases h : x = a
  · subst h; simp [hx]
  · by_cases h' : x < a
    · simp [h, h']
    · have h'' : x - a ≠ 0 := by omega
      simp [h, h'']

/-- R64: the address byte's two fields. -/
theorem addrByte_fields (sa : SlaveAddr) (read : Bool) :
    (addrByte sa read).extractLsb' 1 Config.saBits = sa ∧ (addrByte sa read).getLsbD 0 = read := by
  constructor
  · revert sa read; decide
  · revert sa read; decide

/-! ### Operands -/

theorem bufferInside_iff (ptr len : Half) : bufferInside ptr len = true ↔ ptr.toNat + len.toNat ≤ 0x10000 := by
  simp [bufferInside, Config.hmSize, Config.hmBits]

/-- R81: what the search for the string's end finds. -/
theorem stringLengthFrom_some_iff (m : Memory) : ∀ (room a n : Nat),
    stringLengthFrom m room a = some n ↔
      n < room ∧ memRead m (a + n) = 0 ∧ ∀ j, j < n → memRead m (a + j) ≠ 0
  | 0, a, n => by simp [stringLengthFrom]
  | room + 1, a, n => by
    unfold stringLengthFrom
    by_cases h : memRead m a = 0
    · rw [if_pos h]
      constructor
      · intro e
        obtain rfl := Option.some.inj e
        exact ⟨by omega, h, fun j hj => absurd hj (by omega)⟩
      · rintro ⟨-, -, h3⟩
        cases n with
        | zero => rfl
        | succ n => exact absurd h (h3 0 (by omega))
    · rw [if_neg h]
      cases n with
      | zero => simpa using h
      | succ n =>
        have ih := stringLengthFrom_some_iff m room (a + 1) n
        simp only [Option.map_eq_some_iff, Nat.add_right_cancel_iff, exists_eq_right, ih]
        constructor
        · rintro ⟨h1, h2, h3⟩
          refine ⟨by omega, by rwa [show a + (n + 1) = a + 1 + n by omega], fun j hj => ?_⟩
          cases j with
          | zero => exact h
          | succ j =>
            have := h3 j (by omega)
            rwa [show a + (j + 1) = a + 1 + j by omega]
        · rintro ⟨h1, h2, h3⟩
          refine ⟨by omega, by rwa [show a + 1 + n = a + (n + 1) by omega], fun j hj => ?_⟩
          have := h3 (j + 1) (by omega)
          rwa [show a + 1 + j = a + (j + 1) by omega]

/-- R81: L is the least index of a 0x00 that lies inside HM. -/
theorem stringLength_some_iff (m : Memory) (ptr : Half) (n : Nat) :
    stringLength m ptr = some n ↔
      ptr.toNat + n ≤ 0xFFFF ∧ memRead m (ptr.toNat + n) = 0 ∧ ∀ j, j < n → memRead m (ptr.toNat + j) ≠ 0 := by
  have := ptr.isLt
  rw [stringLength, stringLengthFrom_some_iff]
  simp only [Config.hmSize, Config.hmBits]
  constructor
  · rintro ⟨h1, h2⟩; exact ⟨by omega, h2⟩
  · rintro ⟨h1, h2⟩; exact ⟨by omega, h2⟩

/-- A 0x00 inside HM gives the string a length. -/
theorem stringLengthFrom_isSome (m : Memory) : ∀ (room a k : Nat), k < room → memRead m (a + k) = 0 →
    (stringLengthFrom m room a).isSome = true
  | 0, _, _, h, _ => absurd h (by omega)
  | room + 1, a, k, h, hz => by
    unfold stringLengthFrom
    by_cases h0 : memRead m a = 0
    · simp [h0]
    · rw [if_neg h0, Option.isSome_map]
      cases k with
      | zero => exact absurd hz h0
      | succ k => exact stringLengthFrom_isSome m room (a + 1) k (by omega) (by rwa [show a + 1 + k = a + (k + 1) by omega])

theorem stringLength_isSome_iff (m : Memory) (ptr : Half) :
    (stringLength m ptr).isSome = true ↔ ∃ k, ptr.toNat + k ≤ 0xFFFF ∧ memRead m (ptr.toNat + k) = 0x00 := by
  have := ptr.isLt
  constructor
  · intro h
    obtain ⟨n, hn⟩ := Option.isSome_iff_exists.mp h
    obtain ⟨h1, h2, -⟩ := (stringLength_some_iff m ptr n).mp hn
    exact ⟨n, h1, h2⟩
  · rintro ⟨k, h1, h2⟩
    refine stringLengthFrom_isSome m _ _ k ?_ h2
    simp only [Config.hmSize, Config.hmBits]
    omega

/-- R109: the issue check is WF and the condition of the command's rule. -/
theorem legal_iff (i : Instr) (m : Memory) : legal i m = true ↔ i.wf = true ∧ issueCondition i m := by
  cases i <;> simp [legal, issueCondition, bufferInside_iff, stringLength_isSome_iff]

/-! ### Waits -/

/-- R13: `await` either holds or appends WaitOk and goes on. -/
theorem await_eq (c : Cond) (k : State → State) (s : State) :
    await c k s = .next (if s.env.sample then k (emit (.waitOk c) s) else s) := by
  unfold await; split <;> rfl

/-- R92 W1. -/
theorem waitLine_act (c : Cond) (budget : Nat) (op : BitVec 4) (l : Line) (i a : Nat) (p f : State → State)
    (s : State) :
    waitLine c budget op l .act i a p f s = .next { s with wstart := s.tick, seq := .at op l .poll i a } := rfl

/-- R92 W2. -/
theorem waitLine_poll (c : Cond) (budget : Nat) (op : BitVec 4) (l : Line) (i a : Nat) (p f : State → State)
    (s : State) :
    waitLine c budget op l .poll i a p f s = .next
      (if s.env.sample then { emit (.waitOk c) s with wok := true, seq := .at op l .test i a }
      else if elapsed s > budget then { emit (.waitTimeout c) s with wok := false, seq := .at op l .test i a }
      else s) := by
  unfold waitLine; dsimp only; split
  · rfl
  · split <;> rfl

/-- R35: the step after a wait reads `wok`. -/
theorem waitLine_test (c : Cond) (budget : Nat) (op : BitVec 4) (l : Line) (i a : Nat) (p f : State → State)
    (s : State) : waitLine c budget op l .test i a p f s = .next (if s.wok then p s else f s) := rfl

/-- A wait always answers a next state. -/
theorem waitLine_next (c : Cond) (budget : Nat) (op : BitVec 4) (l : Line) (sub : Sub) (i a : Nat)
    (p f : State → State) (s : State) : ∃ t, waitLine c budget op l sub i a p f s = .next t := by
  cases sub
  · exact ⟨_, waitLine_act ..⟩
  · exact ⟨_, waitLine_poll ..⟩
  · exact ⟨_, waitLine_test ..⟩

theorem waitLineIf_off (c : Cond) (budget : Nat) (op : BitVec 4) (l : Line) (i a : Nat) (p f : State → State)
    (s : State) : waitLineIf false c budget op l .act i a p f s = .next (p s) := rfl

theorem waitLineIf_on (c : Cond) (budget : Nat) (op : BitVec 4) (l : Line) (sub : Sub) (i a : Nat)
    (p f : State → State) (s : State) :
    waitLineIf true c budget op l sub i a p f s = waitLine c budget op l sub i a p f s := rfl

/-! ### Meanings at the SEQ position -/

/-- At Idle a meaning is the issue check. -/
theorem atPosition_idle (i : Instr) {s : State} (h : s.seq = .idle) (f : Line → Sub → Nat → Nat → Result) :
    atPosition i s f = issue i s := by
  simp [atPosition, h]

/-- Inside its command a meaning is the numbered step of the position. -/
theorem atPosition_at (i : Instr) {s : State} {l : Line} {sub : Sub} {k a : Nat} (h : s.seq = .at i.opcode l sub k a)
    (f : Line → Sub → Nat → Nat → Result) : atPosition i s f = f l sub k a := by
  simp [atPosition, h]

/-- R109: what issuing can do. -/
theorem issue_eq (i : Instr) (s : State) :
    issue i s = .next (if legal i s.hm then { s with seq := .at i.opcode .s1 .act 0 0 } else raiseIllegalCommand s) := by
  unfold issue; split <;> rfl

/-- R96: whatever the position among its lines, an abort's step is a next state. -/
theorem abortLines_next (op : BitVec 4) (read : Bool) {l : Line} (h : l ∈ [.a1, .a2, .a3]) (i a : Nat) (s : State) :
    ∃ t, abortLines op read l .act i a s = .next t := by
  simp only [List.mem_cons, List.not_mem_nil, or_false] at h
  rcases h with rfl | rfl | rfl <;> exact ⟨_, rfl⟩

/-! ### Agents -/

/-- R89, R114: when RXC's append is enabled. -/
theorem rxcEnabled_iff (s : State) :
    rxcEnabled s = true ↔ s.rxPend = true ∧ (s.cfg.drainAtomic = true → insideDrain s.seq = false) := by
  cases h : s.cfg.drainAtomic <;> simp [rxcEnabled, h]

theorem insideDrain_iff (p : SeqPos) :
    insideDrain p = true ↔ ∃ op l sub i a, p = .at op l sub i a ∧ (op = 0x5 ∨ op = 0x8) := by
  rcases p with _ | ⟨op, l, sub, i, a⟩
  · simp [insideDrain]
  · constructor
    · intro h
      exact ⟨op, l, sub, i, a, rfl, by simpa [insideDrain] using h⟩
    · rintro ⟨op', l', sub', i', a', h, h'⟩
      obtain ⟨rfl, -⟩ := SeqPos.at.inj h
      simpa [insideDrain] using h'

/-- R89: the append keeps the count within the capacity. -/
theorem rxcAppend_count_le {s : State} (b : Byte) (h : s.rxCount.toNat ≤ Config.rxCap) :
    (rxcAppend b s).rxCount.toNat ≤ Config.rxCap := by
  simp only [rxcAppend_rxCount, rxRoom, decide_eq_true_eq]
  split
  · simp only [Config.rxCap] at *
    bv_omega
  · exact h

/-- R27: the offsets that hold a register. -/
theorem registerAt_isSome_iff (s : State) (off : Nat) :
    (registerAt s off).isSome = true ↔ off ∈ [0x00, 0x04, 0x08, 0x0C, 0x10, 0x20, 0x24, 0x28, 0x2C] := by
  unfold registerAt
  repeat' split
  all_goals simp_all

/-- R52: the accesses that have a meaning. -/
theorem accessRefusal_none_iff (s : State) (off width : Nat) :
    accessRefusal s off width = none ↔
      width = 4 ∧ off ∈ [0x00, 0x04, 0x08, 0x0C, 0x10, 0x20, 0x24, 0x28, 0x2C] := by
  have h := registerAt_isSome_iff s off
  unfold accessRefusal
  split
  · simp_all
  · split
    · rename_i hw hm
      constructor
      · simp
      · rintro ⟨-, hmem⟩
        simp only [List.mem_cons, List.not_mem_nil, or_false] at hmem
        omega
    · split
      · simp_all
      · rename_i hw _ hr
        simp only [Option.isNone_iff_eq_none, ← Option.not_isSome_iff_eq_none, not_not] at hr
        simp only [ne_eq, not_not] at hw
        simp only [true_iff]
        exact ⟨hw, h.mp hr⟩

/-- R129: a host read changes nothing of the block. -/
theorem hostReadStep_next {off width : Nat} {s t : State} (h : hostReadStep off width s = .next t) :
    t = { s with hostData := t.hostData } := by
  unfold hostReadStep at h
  split at h
  · obtain rfl := Host.Outcome.next.inj h; rfl
  · split at h
    · cases h
    · obtain rfl := Host.Outcome.next.inj h; rfl

end Sys2Proof.Machine
end

