-- ==== Sys2Proof/Laws/Inv.lean ====
section
/-! SUPPORT. Which fields the invariant reads, so that an update of any other field keeps it. -/

namespace Sys2Proof.Machine

/-- `seqInv` reads the SEQ position, `cmd`, HM, `phase`, `ack_en`, `dir` and `c0`. -/
theorem seqInv_congr {s t : State} (h1 : t.seq = s.seq) (h2 : t.cmd = s.cmd) (h3 : t.hm = s.hm)
    (h4 : t.phase = s.phase) (h5 : t.ackEn = s.ackEn) (h6 : t.dir = s.dir) (h7 : t.c0 = s.c0) :
    seqInv t = seqInv s := by
  unfold seqInv
  rw [h1, h2, h3, h4, h5, h6, h7]

/-- While SEQ is Idle, `seqInv` reads `ack_en` and `phase` only. -/
theorem seqInv_idle {s : State} (h : s.seq = .idle) : seqInv s = true ↔ s.ackEn = true ∧ s.phase = .idle := by
  simp [seqInv, h]

/-- `dataInv` reads HM, `rx_count`, the pin, `dir`, the parameters and the result registers. -/
theorem dataInv_congr {s t : State} (h1 : t.hm = s.hm) (h2 : t.rxCount = s.rxCount) (h3 : t.dirPin = s.dirPin)
    (h4 : t.dir = s.dir) (h5 : t.cfg = s.cfg) (h6 : t.status = s.status) (h7 : t.value = s.value)
    (h8 : t.count = s.count) (h9 : t.present = s.present) : dataInv t = dataInv s := by
  unfold dataInv
  rw [h1, h2, h3, h4, h5, h6, h7, h8, h9]

/-- `drainTogether` reads the SEQ position, `rorder`, `rx_ready` and `rx_count`. -/
theorem drainTogether_congr {s t : State} (h1 : t.seq = s.seq) (h2 : t.rorder = s.rorder)
    (h3 : t.rxReady = s.rxReady) (h4 : t.rxCount = s.rxCount) : drainTogether t = drainTogether s := by
  unfold drainTogether
  rw [h1, h2, h3, h4]

end Sys2Proof.Machine
end

