-- ==== Sys2Proof/Laws/PerInstr.lean ====
section
/-! SUPPORT. Facts of every command as syntax, one lemma per constructor. -/

namespace Sys2Proof.Laws.Encoding

/-- R62, R65, R66: a command's descriptor has zero reserved bits, the command's opcode in OP, and matches the command's
row of the opcode table. -/
def Statement (i : Sys2Proof.Instr) : Prop :=
  (Sys2Proof.fieldsOf (Sys2Proof.encode i)).rsv0 = 0 ∧ (Sys2Proof.fieldsOf (Sys2Proof.encode i)).rsv1 = 0 ∧
    (Sys2Proof.fieldsOf (Sys2Proof.encode i)).op = i.opcode ∧ Sys2Proof.encode i &&& i.rowMask = i.rowMatch

/-- Under a row's mask a packed descriptor keeps what the mask keeps of each field. -/
theorem packed_and (op : BitVec 4) (sa : Sys2Proof.SlaveAddr) (ra : Sys2Proof.RegAddr) (imm8 : Sys2Proof.Byte)
    (len ptr : Sys2Proof.Half) (msa : Sys2Proof.SlaveAddr) (mra : Sys2Proof.RegAddr) (mimm8 : Sys2Proof.Byte)
    (mlen mptr : Sys2Proof.Half) :
    Sys2Proof.packFields op sa ra imm8 len ptr &&&
        ((0xF#4 ++ 0xF#4) ++ ((1#1 ++ msa) ++ (mra ++ (mimm8 ++ (mlen ++ mptr))))) =
      Sys2Proof.packFields op (sa &&& msa) (ra &&& mra) (imm8 &&& mimm8) (len &&& mlen) (ptr &&& mptr) := by
  apply BitVec.eq_of_getLsbD_eq
  intro k hk
  simp only [Sys2Proof.packFields, BitVec.getLsbD_and, BitVec.getLsbD_append]
  interval_cases k <;> simp [Sys2Proof.Config.saBits, Sys2Proof.Config.raBits]

theorem setdir (d : Sys2Proof.Direction) : Statement (.setdir d) := by
  cases d <;> exact ⟨by decide, by decide, by decide, by decide⟩

theorem sendb (b : Sys2Proof.Byte) : Statement (.sendb b) := by
  refine ⟨?_, ?_, ?_, ?_⟩ <;> simp only [Sys2Proof.encode, Sys2Proof.fieldsOf_packFields, Sys2Proof.Instr.opcode]
  exact (packed_and 2 0 0 b 0 0 0x7F 0xFF 0 0xFFFF 0xFFFF).trans (by simp [Sys2Proof.Instr.rowMatch]; decide)

theorem sends (ptr : Sys2Proof.Half) : Statement (.sends ptr) := by
  refine ⟨?_, ?_, ?_, ?_⟩ <;> simp only [Sys2Proof.encode, Sys2Proof.fieldsOf_packFields, Sys2Proof.Instr.opcode]
  exact (packed_and 3 0 0 0 0 ptr 0x7F 0xFF 0xFF 0xFFFF 0).trans (by simp [Sys2Proof.Instr.rowMatch]; decide)

theorem sendbuf (ptr len : Sys2Proof.Half) : Statement (.sendbuf ptr len) := by
  refine ⟨?_, ?_, ?_, ?_⟩ <;> simp only [Sys2Proof.encode, Sys2Proof.fieldsOf_packFields, Sys2Proof.Instr.opcode]
  exact (packed_and 4 0 0 0 len ptr 0x7F 0xFF 0xFF 0 0).trans (by simp [Sys2Proof.Instr.rowMatch]; decide)

theorem recv (ptr len : Sys2Proof.Half) : Statement (.recv ptr len) := by
  refine ⟨?_, ?_, ?_, ?_⟩ <;> simp only [Sys2Proof.encode, Sys2Proof.fieldsOf_packFields, Sys2Proof.Instr.opcode]
  exact (packed_and 5 0 0 0 len ptr 0x7F 0xFF 0xFF 0 0).trans (by simp [Sys2Proof.Instr.rowMatch]; decide)

theorem avail : Statement .avail := ⟨by decide, by decide, by decide, by decide⟩

theorem rxlen : Statement .rxlen := ⟨by decide, by decide, by decide, by decide⟩

theorem clrrx : Statement .clrrx := ⟨by decide, by decide, by decide, by decide⟩

theorem wrb (sa : Sys2Proof.SlaveAddr) (ra : Sys2Proof.RegAddr) (v : Sys2Proof.Byte) : Statement (.wrb sa ra v) := by
  refine ⟨?_, ?_, ?_, ?_⟩ <;> simp only [Sys2Proof.encode, Sys2Proof.fieldsOf_packFields, Sys2Proof.Instr.opcode]
  exact (packed_and 9 sa ra v 0 0 0 0 0 0xFFFF 0xFFFF).trans (by simp [Sys2Proof.Instr.rowMatch]; decide)

theorem rdb (sa : Sys2Proof.SlaveAddr) (ra : Sys2Proof.RegAddr) : Statement (.rdb sa ra) := by
  refine ⟨?_, ?_, ?_, ?_⟩ <;> simp only [Sys2Proof.encode, Sys2Proof.fieldsOf_packFields, Sys2Proof.Instr.opcode]
  exact (packed_and 10 sa ra 0 0 0 0 0 0xFF 0xFFFF 0xFFFF).trans (by simp [Sys2Proof.Instr.rowMatch]; decide)

theorem wrbuf (sa : Sys2Proof.SlaveAddr) (ra : Sys2Proof.RegAddr) (ptr len : Sys2Proof.Half) :
    Statement (.wrbuf sa ra ptr len) := by
  refine ⟨?_, ?_, ?_, ?_⟩ <;> simp only [Sys2Proof.encode, Sys2Proof.fieldsOf_packFields, Sys2Proof.Instr.opcode]
  exact (packed_and 11 sa ra 0 len ptr 0 0 0xFF 0 0).trans (by simp [Sys2Proof.Instr.rowMatch]; decide)

theorem rdbuf (sa : Sys2Proof.SlaveAddr) (ra : Sys2Proof.RegAddr) (ptr len : Sys2Proof.Half) :
    Statement (.rdbuf sa ra ptr len) := by
  refine ⟨?_, ?_, ?_, ?_⟩ <;> simp only [Sys2Proof.encode, Sys2Proof.fieldsOf_packFields, Sys2Proof.Instr.opcode]
  exact (packed_and 12 sa ra 0 len ptr 0 0 0xFF 0 0).trans (by simp [Sys2Proof.Instr.rowMatch]; decide)

theorem scan : Statement .scan := ⟨by decide, by decide, by decide, by decide⟩

end Sys2Proof.Laws.Encoding
end

