-- ==== Sys2Proof/Tests/Slice0.lean ====
section
/-! SUPPORT. Tests: written-out words and what they decode to, one-step tests whose results come from the examples of the
spec, and for every statement with hypotheses a state that meets them. -/

namespace Sys2Proof.Tests

open Sys2Proof Sys2Proof.Machine

/-! ### Well-formedness and decoding -/

theorem test_rdbuf_of_nothing_is_ill_formed : (Instr.rdbuf 0x3C 0x00 0x0200 0).wf = false := by decide

/-- The least LEN RDBUF takes. -/
theorem test_rdbuf_of_one_is_well_formed : (Instr.rdbuf 0x3C 0x00 0x0200 1).wf = true := by decide

/-- R66: OP = 1, bit 32 = 1. -/
theorem test_decode_setdir_tx : decode 0x0100000100000000 = .ok (.setdir .transmit) := by decide
theorem test_decode_setdir_rx : decode 0x0100000000000000 = .ok (.setdir .receive) := by decide
/-- R80's example. -/
theorem test_decode_sendb : decode 0x0200004100000000 = .ok (.sendb 0x41) := by decide
/-- R81's example. -/
theorem test_decode_sends : decode 0x0300000000000300 = .ok (.sends 0x0300) := by decide
/-- R82's example. -/
theorem test_decode_sendbuf : decode 0x0400000000020100 = .ok (.sendbuf 0x0100 2) := by decide
/-- R84's example. -/
theorem test_decode_recv : decode 0x0500000000100400 = .ok (.recv 0x0400 16) := by decide
theorem test_decode_avail : decode 0x0600000000000000 = .ok .avail := by decide
theorem test_decode_rxlen : decode 0x0700000000000000 = .ok .rxlen := by decide
theorem test_decode_clrrx : decode 0x0800000000000000 = .ok .clrrx := by decide
/-- R99's example. -/
theorem test_decode_wrb : decode 0x093C015500000000 = .ok (.wrb 0x3C 0x01 0x55) := by decide
/-- R100's example. -/
theorem test_decode_rdb : decode 0x0A3C010000000000 = .ok (.rdb 0x3C 0x01) := by decide
/-- R101's example. -/
theorem test_decode_wrbuf : decode 0x0B3C000000030100 = .ok (.wrbuf 0x3C 0x00 0x0100 3) := by decide
/-- R102's example. -/
theorem test_decode_rdbuf : decode 0x0C3C000000030200 = .ok (.rdbuf 0x3C 0x00 0x0200 3) := by decide
/-- R104's example. -/
theorem test_decode_scan : decode 0x0D00000000000000 = .ok .scan := by decide

/-- R67: the reserved opcodes. -/
theorem test_reserved_opcodes :
    decode 0 = .error (.reservedOpcode 0x0) ∧ decode 0x0E00000000000000 = .error (.reservedOpcode 0xE) ∧
      decode 0x0F00000000000000 = .error (.reservedOpcode 0xF) := by decide
/-- R67: RSV0 and RSV1. -/
theorem test_reserved_bits :
    decode 0x1600000000000000 = .error .reservedBit ∧ decode 0x8D00000000000000 = .error .reservedBit ∧
      decode 0x09BC015500000000 = .error .reservedBit := by decide
/-- R67: fields that must be zero, SETDIR's IMM8[7:1] among them, and RDBUF with LEN = 0. -/
theorem test_unused_fields :
    decode 0x0100000200000000 = .error (.unusedField 0x1) ∧ decode 0x0200004100000001 = .error (.unusedField 0x2) ∧
      decode 0x0601000000000000 = .error (.unusedField 0x6) ∧ decode 0x0C3C000000000200 = .error .emptyRead := by decide

theorem test_table_word : decodeTableWord 64 0x0A3C010000000000 = some (.rdb 0x3C 0x01) := by decide
theorem test_table_word_refused : decodeTableWord 64 0x0E00000000000000 = none := by decide

/-! ### Assembler -/

/-- R73, with a comment, blanks and capitals of either kind. -/
theorem test_assemble_rdbuf :
    assembleLine Params.default
      [' ', 'r', 'd', 'B', 'U', 'F', ' ', '0', 'x', '3', 'c', ',', '0', ' ', ',', ' ', '[', '5', '1', '2', ']', ',',
        ' ', '3', ' ', ';', 'x'] = .ok (some 0x0C3C000000030200) := by decide
/-- R74: DRDB expands to RDB at 0x3C. -/
theorem test_assemble_drdb :
    assembleLine Params.default ['D', 'R', 'D', 'B', ' ', '1'] = .ok (some 0x0A3C010000000000) := by decide
/-- R73: p + n = 65536 is taken, one more is rejected. -/
theorem test_assemble_bounds :
    assemble Params.default (.sendbuf 0xFFFF 1) = .ok 0x040000000001FFFF ∧
      assemble Params.default (.sendbuf 0xFFFF 2) = .error .bufferOutside ∧
      assemble Params.default (.rdb 128 0) = .error .operandRange ∧
      assemble Params.default (.rdbuf 1 0 0 0) = .error .emptyRead := by decide

/-! ### One-step tests -/

/-- A small machine: the waits of both parameters on, a settling delay of 20 us, three bytes in HM, three received. -/
def small : State :=
  { State.reset with
    cfg := ⟨true, 20, 0x3C, true, true, false, false⟩
    hm := [(0x0300, 0x48), (0x0301, 0x49), (0xFFFF, 0x7E)]
    rxBuf := (Vector.replicate 256 (0 : Byte)).set 0 0x10 |>.set 1 0x20 |>.set 2 0x30
    rxCount := 3
    rxReady := true
    dirPin := false }

/-- `small` with ENV's answers, at a numbered step. -/
def small.at (op : BitVec 4) (l : Line) (sub : Sub) (k : Nat) (sample : Bool) (b : Byte) : State :=
  { small with seq := .at op l sub k 0, env := ⟨sample, b⟩ }

/-- A view of what a result holds, `none` unless it is a next state. -/
def seen {α : Type} (r : Result) (f : State → α) : Option α :=
  match r with
  | .next t => some (f t)
  | .fault _ => none
  | .refused _ => none

/-- R79 with R75: the pin and the direction change in S1. -/
theorem test_setdir_s1 :
    seen (exec (.setdir .transmit) (small.at 0x1 .s1 .act 0 false 0)) (fun t => (t.dir, t.dirPin, t.trace, t.seq)) =
      some (.transmit, true, [.dir true], .at 0x1 .s2 .act 0 0) := by decide
/-- R79 S3. -/
theorem test_setdir_s3 :
    seen (exec (.setdir .receive) (small.at 0x1 .s3 .act 0 false 0)) (fun t => (t.status, t.seq)) =
      some (0x01, .idle) := by decide
/-- R13: S3 of SENDB holds on false. -/
theorem test_sendb_holds :
    seen (exec (.sendb 0x41) (small.at 0x2 .s3 .act 0 false 0)) (fun t => (t.trace, t.seq)) =
      some ([], .at 0x2 .s3 .act 0 0) := by decide
/-- R80 S4. -/
theorem test_sendb_writes :
    seen (exec (.sendb 0x41) (small.at 0x2 .s4 .act 0 false 0)) (fun t => (t.trace, t.seq)) =
      some ([.uTx 0x41], .at 0x2 .s5 .act 0 0) := by decide
/-- R81: the string 0x48 0x49 0x00 of its example: byte 1 is the last one. -/
theorem test_sends_last_byte :
    seen (exec (.sends 0x0300) (small.at 0x3 .s3b .act 1 false 0)) (fun t => (t.trace, t.seq)) =
      some ([.uTx 0x49], .at 0x3 .s4 .act 1 0) := by decide +kernel
/-- R81: no 0x00 from 0xFFFF on in HM. -/
theorem test_sends_unterminated :
    seen (exec (.sends 0xFFFF) small) (fun t => (t.status, t.seq)) = some (0x04, .idle) := by decide +kernel
/-- R82: with LEN = 0 no byte is sent. -/
theorem test_sendbuf_empty :
    seen (exec (.sendbuf 0x0300 0) (small.at 0x4 .s2 .act 0 false 0)) (fun t => (t.trace, t.seq)) =
      some ([.delayUs 20], .at 0x4 .s4 .act 0 0) := by decide
/-- R82: PTR = 0xFFFF with LEN = 1 sends HM[0xFFFF]. -/
theorem test_sendbuf_top :
    seen (exec (.sendbuf 0xFFFF 1) (small.at 0x4 .s3b .act 0 false 0)) (fun t => t.trace) = some [.uTx 0x7E] := by
  decide
/-- R84 S3: byte 1 of the receive buffer goes to PTR + 1. -/
theorem test_recv_copies :
    seen (exec (.recv 0x0400 16) { small.at 0x5 .s3 .act 1 false 0 with c0 := 3 })
      (fun t => (memRead t.hm 0x0401, t.nc, t.seq)) = some (0x20, 2, .at 0x5 .s3 .act 2 0) := by decide
/-- R84 S1: with the flag clear COUNT is 0 and the buffer is untouched. -/
theorem test_recv_not_ready :
    seen (exec (.recv 0x0400 16) { small.at 0x5 .s1 .act 0 false 0 with rxReady := false, count := 9 })
      (fun t => (t.count, t.status, t.rxCount, t.seq)) = some (0, 0x01, 3, .idle) := by decide
/-- R86. -/
theorem test_avail :
    seen (exec .avail (small.at 0x6 .s1 .act 0 false 0)) (fun t => (t.value, t.status, t.seq)) =
      some (1, 0x01, .idle) := by decide
/-- R87. -/
theorem test_rxlen :
    seen (exec .rxlen (small.at 0x7 .s1 .act 0 false 0)) (fun t => (t.count, t.status, t.seq)) =
      some (3, 0x01, .idle) := by decide
/-- R88 S2 in both orders. -/
theorem test_clrrx_second_reset :
    seen (exec .clrrx { small.at 0x8 .s2 .act 0 false 0 with rorder := true }) (fun t => (t.rxCount, t.rxReady)) =
        some (0, true) ∧
      seen (exec .clrrx { small.at 0x8 .s2 .act 0 false 0 with rorder := false }) (fun t => (t.rxCount, t.rxReady)) =
        some (3, false) := by decide
/-- R99 S4, R64: 0x3C with W is 0x78. -/
theorem test_wrb_address :
    seen (exec (.wrb 0x3C 0x01 0x55) (small.at 0x9 .s4 .act 0 false 0)) (fun t => (t.trace, t.phase)) =
      some ([.tx 0x78], .addressSentForWrite) := by decide
/-- R92: the poll that finds the condition succeeds though 1001 ticks have elapsed. -/
theorem test_wrb_poll_prefers_condition :
    seen (exec (.wrb 0x3C 0x01 0x55) { small.at 0x9 .s9 .poll 0 true 0 with wstart := 0xFFFFFFFF, tick := 1000 })
      (fun t => (t.trace, t.wok)) = some ([.waitOk .byteTxDone], true) := by decide
/-- R100 S10, R64: 0x3C with R is 0x79. -/
theorem test_rdb_address :
    seen (exec (.rdb 0x3C 0x01) (small.at 0xA .s10 .act 0 false 0)) (fun t => (t.trace, t.phase)) =
      some ([.tx 0x79], .addressSentForRead) := by decide
/-- R96 A2: the abort of a read enables acknowledgment again. -/
theorem test_rdb_abort_restores_ack :
    seen (exec (.rdb 0x3C 0x01) { small.at 0xA .a2 .act 0 false 0 with ackEn := false })
      (fun t => (t.trace, t.ackEn, t.seq)) = some ([.ack true], true, .at 0xA .a3 .act 0 0) := by decide
/-- R101: with LEN = 0 the stop follows the register address. -/
theorem test_wrbuf_empty :
    seen (exec (.wrbuf 0x3C 0x00 0x0300 0) { small.at 0xB .s7 .test 0 false 0 with wok := true }) (fun t => t.seq) =
      some (.at 0xB .s9 .act 0 0) := by decide
/-- R94, R96: 1000 ticks are within the budget, 1001 are not. -/
theorem test_wrbuf_budget :
    seen (exec (.wrbuf 0x3C 0x00 0x0300 2) { small.at 0xB .s8b .poll 0 false 0 with tick := 1000 }) (fun t => t.seq) =
        some (.at 0xB .s8b .poll 0 0) ∧
      seen (exec (.wrbuf 0x3C 0x00 0x0300 2) { small.at 0xB .s8b .poll 0 false 0 with tick := 1001 })
        (fun t => (t.trace, t.seq)) = some ([.waitTimeout .byteTxDone], .at 0xB .s8b .test 0 0) := by decide
/-- R102 S13a: acknowledgment goes off for the last byte only. -/
theorem test_rdbuf_last_byte :
    seen (exec (.rdbuf 0x3C 0x00 0x0200 3) (small.at 0xC .s13a .act 1 false 0)) (fun t => (t.trace, t.ackEn)) =
        some ([], true) ∧
      seen (exec (.rdbuf 0x3C 0x00 0x0200 3) (small.at 0xC .s13a .act 2 false 0)) (fun t => (t.trace, t.ackEn)) =
        some ([.ack false], false) := by decide
/-- R102 S13d. -/
theorem test_rdbuf_stores :
    seen (exec (.rdbuf 0x3C 0x00 0x0200 3) (small.at 0xC .s13d .act 2 false 0xCC))
      (fun t => (memRead t.hm 0x0202, t.trace, t.seq)) = some (0xCC, [.rx 0xCC], .at 0xC .s14 .act 2 0) := by decide
/-- R104 P4a with R32: address 60 is bit 28 of PRESENT1. -/
theorem test_scan_marks :
    seen (exec .scan { small with seq := .at 0xD .p4a .test 0 60, wok := true })
      (fun t => (presentWord t.present 1, presentWord t.present 0, t.found)) = some (0x10000000, 0, 1) := by decide
/-- R104 P7: 126 is the last address probed. -/
theorem test_scan_ends :
    seen (exec .scan { small with seq := .at 0xD .p7 .act 0 126 }) (fun t => (t.trace, t.seq)) =
      some ([.delayMs 1], .at 0xD .s3 .act 0 126) := by decide

/-- R89: an arrival at a full buffer is dropped and still flagged. -/
theorem test_append_when_full :
    seen (perform (.rxc 0x7F) { small with rxCount := 256, rxReady := false, rxPend := true })
      (fun t => (t.rxCount, t.rxReady, t.rxPend, t.trace)) = some (256, true, false, [.uRx 0x7F]) := by decide

/-- The machine takes the next command from where `withFetchWord` puts it. -/
theorem test_fetch_runs :
    seen (step (State.reset.withFetchWord 64 0x0D00000000000000)) (fun t => (t.cmd, t.seq)) =
      some (0x0D00000000000000, .at 0xD .s1 .act 0 0) := by decide
/-- R109: an illegal descriptor sets STATUS to 0x04. -/
theorem test_fetch_illegal :
    seen (step (State.reset.withFetchWord 64 0x0F00000000000000)) (fun t => (t.status, t.seq)) =
      some (0x04, .idle) := by decide

/-! ### Witnesses: states that meet the hypotheses of the statements -/

/-- Whether a result is a next state. -/
def isNext (r : Result) : Bool := (seen r fun _ => ()).isSome

theorem next_of_isNext {r : Result} (h : isNext r = true) : ∃ t, r = .next t := by
  cases r with
  | next t => exact ⟨t, rfl⟩
  | fault e => simp [isNext, seen] at h
  | refused e => simp [isNext, seen] at h

theorem next_of_seen {α : Type} {r : Result} {f : State → α} {v : α} (h : seen r f = some v) :
    ∃ t, r = .next t ∧ f t = v := by
  cases r with
  | next t => exact ⟨t, rfl, by simpa [seen] using h⟩
  | fault e => simp [seen] at h
  | refused e => simp [seen] at h

theorem completes {n : Nat} {s : State} (h : (completion n s).isSome = true) : ∃ t, completion n s = some t :=
  Option.isSome_iff_exists.mp h

/-- `small` with a command just issued and some coming steps. -/
def issued (i : Instr) (d : Descriptor) (agenda : List Action) : State :=
  { small with cmd := d, seq := .at i.opcode .s1 .act 0 0, agenda := agenda }

/-- `small` about to perform some actions. -/
def coming (agenda : List Action) : State := { small with agenda := agenda }

/-- `small` without either of the parameters' waits. -/
def noWaits (s : State) : State := { s with cfg := { s.cfg with busFreeWait := false, stopDoneWait := false } }

theorem witness_DecodeOfEncodeIsTheCommand : (Instr.rdbuf 0x7F 0xFF 0xFFFF 1).wf = true := by decide

theorem witness_EncodeOfDecodeIsTheDescriptor :
    decode 0x0C7FFF000001FFFF = .ok (.rdbuf 0x7F 0xFF 0xFFFF 1) := by decide

theorem witness_DecodeFollowsTheOpcodeRows :
    (0x0C3C000000030200 : Descriptor) &&& (Instr.rdbuf 0 0 0 0).rowMask = (Instr.rdbuf 0 0 0 0).rowMatch ∧
      (0x0C3C000000030200 : Descriptor) &&& (Instr.rdbuf 1 2 3 4).rowMask = (Instr.rdbuf 1 2 3 4).rowMatch := by decide

theorem witness_EventWordsAreDistinct : eventWord (.tx 0x78) = 0x08000078 := by decide

/-- The last buffer inside HM, a wrapper at DISPLAY_ADDR, and the operands one above their ranges. -/
theorem witness_AssemblerEmitsTheLinesCommand :
    assemble Params.default (.rdbuf 0x3C 0 0xFFFF 1) = .ok 0x0C3C00000001FFFF ∧
      assemble Params.default (.dwrb 0x01 0x55) = .ok 0x093C015500000000 ∧
      assemble Params.default (.rdbuf 0x3C 0 0xFFFF 2) = .error .bufferOutside ∧
      assemble Params.default (.rdb 128 0) = .error .operandRange := by decide

theorem witness_StepRunsTheDecodedCommand :
    (∃ s : State, s.agenda = .seq ⟨true, 0⟩ :: [] ∧ s.seq ≠ .idle ∧ decode s.cmd = .ok .scan) ∧
      ∃ s : State, s.agenda = .hostWrite 0x04 4 0x0D000000 :: [] ∧ s.seq = .idle ∧
        decode (0x0D000000#32 ++ s.cmdLo) = .ok .scan :=
  ⟨⟨issued .scan 0x0D00000000000000 [.seq ⟨true, 0⟩], rfl, by decide, by decide⟩,
    ⟨coming [.hostWrite 0x04 4 0x0D000000], rfl, rfl, by decide⟩⟩

/-- PTR + LEN = 0x10000 passes the check, 0x10001 does not; nor does a reserved opcode, which decodes to nothing. -/
theorem witness_IssueCheckDecides :
    (∃ s : State, s.seq = .idle ∧ s.agenda = .hostWrite 0x04 4 0x04000000 :: [] ∧
        decode (0x04000000#32 ++ s.cmdLo) = .ok (.sendbuf 0xFFFF 1) ∧ issueCondition (.sendbuf 0xFFFF 1) s.hm) ∧
      (∃ s : State, s.seq = .idle ∧ s.agenda = .hostWrite 0x04 4 0x04000000 :: [] ∧
        decode (0x04000000#32 ++ s.cmdLo) = .ok (.sendbuf 0xFFFF 2) ∧ ¬ issueCondition (.sendbuf 0xFFFF 2) s.hm) ∧
      ∃ s : State, s.seq = .idle ∧ s.agenda = .hostWrite 0x04 4 0x0E000000 :: [] ∧
        ∀ i, decode (0x0E000000#32 ++ s.cmdLo) = .ok i → ¬ issueCondition i s.hm := by
  refine ⟨⟨{ coming [.hostWrite 0x04 4 0x04000000] with cmdLo := 0x0001FFFF }, rfl, rfl, by decide, ?_⟩,
    ⟨{ coming [.hostWrite 0x04 4 0x04000000] with cmdLo := 0x0002FFFF }, rfl, rfl, by decide, ?_⟩,
    ⟨coming [.hostWrite 0x04 4 0x0E000000], rfl, rfl, ?_⟩⟩
  · simp [issueCondition]
  · simp [issueCondition]
  · intro i h
    have h' : decode (0x0E000000#32 ++ (coming [.hostWrite 0x04 4 0x0E000000]).cmdLo) =
        .error (.reservedOpcode 0xE) := by decide
    rw [h'] at h
    cases h

/-- A string that ends at the last byte of HM, and one that does not end. -/
theorem witness_IdleMeaningIsTheIssueCheck :
    small.seq = .idle ∧ (Instr.sends 0xFFFE).wf = true ∧ issueCondition (.sends 0xFFFE) small.hm ∧
      ¬ ((Instr.sends 0xFFFF).wf = true ∧ issueCondition (.sends 0xFFFF) small.hm) := by
  refine ⟨rfl, rfl, ⟨0, by decide, by decide⟩, ?_⟩
  rintro ⟨-, k, h1, h2⟩
  have h3 : k = 0 := by simpa using h1
  subst h3
  revert h2
  decide

theorem witness_HostReadsAndWritesRegisters :
    (∃ s : State, s.seq = .idle ∧ s.agenda = .hostWrite 0x00 4 0xFFFFFFFF :: []) ∧
      ∃ s : State, s.seq = .idle ∧ s.agenda = .hostRead 0x2C 4 :: [] :=
  ⟨⟨coming [.hostWrite 0x00 4 0xFFFFFFFF], rfl, rfl⟩, ⟨coming [.hostRead 0x2C 4], rfl, rfl⟩⟩

/-- Each clause, at its boundary: a half word, an odd offset, the reserved offsets 0x1C and 0x3C, a write to PRESENT3. -/
theorem witness_BadRegisterAccessIsRefused :
    (∃ s : State, s.seq = .idle ∧ s.agenda = .hostRead 0x00 2 :: []) ∧
      (∃ s : State, s.seq = .idle ∧ s.agenda = .hostWrite 0x03 4 0 :: []) ∧
      (∃ s : State, s.seq = .idle ∧ s.agenda = .hostRead 0x1C 4 :: []) ∧
      (∃ s : State, s.seq = .idle ∧ s.agenda = .hostWrite 0x3C 4 0 :: []) ∧
      ∃ s : State, s.seq = .idle ∧ s.agenda = .hostWrite 0x2C 4 0 :: [] :=
  ⟨⟨coming [.hostRead 0x00 2], rfl, rfl⟩, ⟨coming [.hostWrite 0x03 4 0], rfl, rfl⟩,
    ⟨coming [.hostRead 0x1C 4], rfl, rfl⟩, ⟨coming [.hostWrite 0x3C 4 0], rfl, rfl⟩,
    ⟨coming [.hostWrite 0x2C 4 0], rfl, rfl⟩⟩

theorem witness_HostIsBlockedUntilFinish :
    ∃ s : State, s.seq ≠ .idle ∧ isHostAction (.hostWrite 0x04 4 0) = true ∧ s.agenda = .hostWrite 0x04 4 0 :: [] :=
  ⟨issued .scan 0x0D00000000000000 [.hostWrite 0x04 4 0], by decide, rfl, rfl⟩

theorem witness_HostWritesOneByteOfMemory :
    ∃ s : State, s.seq = .idle ∧ Memory.wf s.hm = true ∧ s.agenda = .hmWrite 0xFFFF 0x00 :: [] :=
  ⟨coming [.hmWrite 0xFFFF 0x00], rfl, by decide, rfl⟩

theorem witness_ResetEventSetsTheGivenValues : ∃ s : State, s.seq ≠ .idle ∧ s.agenda = .reset :: [] :=
  ⟨issued .scan 0x0D00000000000000 [.reset], by decide, rfl⟩

/-- With room for one byte, inside RECV without DRAIN_ATOMIC; without a request; and inside CLRRX with it. -/
theorem witness_ReceiveAppendFollowsItsRule :
    (∃ s : State, s.agenda = .rxc 0x7E :: [] ∧ s.rxPend = true ∧ s.rxCount = 255 ∧ s.cfg.drainAtomic = false ∧
        s.seq = .at 0x5 .s4 .act 0 0) ∧
      (∃ s : State, s.agenda = .rxc 0x7E :: [] ∧ s.rxPend = false) ∧
      ∃ s : State, s.agenda = .rxc 0x7E :: [] ∧ s.rxPend = true ∧ s.cfg.drainAtomic = true ∧
        s.seq = .at 0x8 .s2 .act 0 0 :=
  ⟨⟨{ coming [.rxc 0x7E] with rxPend := true, rxCount := 255, seq := .at 0x5 .s4 .act 0 0 }, rfl, rfl, rfl, rfl, rfl⟩,
    ⟨coming [.rxc 0x7E], rfl, rfl⟩,
    ⟨{ coming [.rxc 0x7E] with
        rxPend := true, seq := .at 0x8 .s2 .act 0 0, cfg := { small.cfg with drainAtomic := true } },
      rfl, rfl, rfl, rfl⟩⟩

theorem witness_ArrivalsFillTheBuffer :
    ∃ s : State, s.rxCount = 0 ∧ ([0x10, 0x20] : List Byte) ≠ [] ∧ (s.cfg.drainAtomic = true → s.seq = .idle) ∧
      s.agenda = ([0x10, 0x20] : List Byte).flatMap arrival ++ [] :=
  ⟨{ coming [.raise, .rxc 0x10, .raise, .rxc 0x20] with rxCount := 0 }, rfl, by decide, fun _ => rfl, rfl⟩

theorem witness_TickAddsOne : ∃ s : State, s.agenda = .tick :: [] ∧ s.tick = 0xFFFFFFFF :=
  ⟨{ coming [.tick] with tick := 0xFFFFFFFF }, rfl, rfl⟩

theorem witness_InterruptsLeaveTheSequencer :
    ∃ s t : State, s.agenda = .rxc 0x55 :: [] ∧ s.rxPend = true ∧ s.seq ≠ .idle ∧ step s = .next t :=
  let s : State := { issued .scan 0x0D00000000000000 [.rxc 0x55] with rxPend := true }
  ⟨s, _, rfl, rfl, by decide, (next_of_isNext (r := step s) (by decide)).choose_spec⟩

/-- Every position of every command: the hypothesis of each clause about a numbered step. -/
theorem witness_NumberedSteps (op : BitVec 4) (l : Line) (sub : Sub) (k : Nat) (sample : Bool) (b : Byte) :
    (small.at op l sub k sample b).seq = .at op l sub k 0 := rfl

theorem witness_SetdirNumberedSteps :
    (small.at 0x1 .s1 .act 0 false 0).seq = .at 0x1 .s1 .act 0 0 ∧
      (small.at 0x1 .s2 .act 0 false 0).seq = .at 0x1 .s2 .act 0 0 ∧
      (small.at 0x1 .s3 .act 0 false 0).seq = .at 0x1 .s3 .act 0 0 := ⟨rfl, rfl, rfl⟩

theorem witness_SendbNumberedSteps :
    (small.at 0x2 .s3 .act 0 true 0).seq = .at 0x2 .s3 .act 0 0 ∧
      (small.at 0x2 .s8 .act 0 false 0).seq = .at 0x2 .s8 .act 0 0 := ⟨rfl, rfl⟩

/-- SENDBUF with PTR + LEN = 0x10000 at its last byte, and SENDS at the last byte of a string. -/
theorem witness_BufferTransmitNumberedSteps :
    (0xFFFE#16).toNat + (2#16).toNat ≤ 0x10000 ∧ 1 < (2#16).toNat ∧
      (small.at 0x4 .s3b .act 1 false 0).seq = .at 0x4 .s3b .act 1 0 ∧
      (0x0300#16).toNat + 2 ≤ 0xFFFF ∧ memRead small.hm ((0x0300#16).toNat + 2) = 0x00 ∧
      (∀ j, j < 2 → memRead small.hm ((0x0300#16).toNat + j) ≠ 0x00) ∧
      (small.at 0x3 .s3b .act 1 false 0).seq = .at 0x3 .s3b .act 1 0 :=
  ⟨by decide, by decide, rfl, by decide, by decide, by decide, rfl⟩

/-- The copy loop's end and its last copy, for the latched and for the live bound. -/
theorem witness_RecvNumberedSteps :
    (0xFFF0#16).toNat + (16#16).toNat ≤ 0x10000 ∧ Memory.wf small.hm = true ∧
      (∃ s : State, s.seq = .at 0x5 .s3 .act 3 0 ∧ s.rbound = true ∧
        min (16#16).toNat (if s.rbound then s.rxCount.toNat else s.c0.toNat) ≤ 3) ∧
      ∃ s : State, s.seq = .at 0x5 .s3 .act 2 0 ∧ s.rbound = false ∧
        2 < min (16#16).toNat (if s.rbound then s.rxCount.toNat else s.c0.toNat) :=
  ⟨by decide, by decide, ⟨{ small.at 0x5 .s3 .act 3 false 0 with rbound := true }, rfl, rfl, by decide⟩,
    ⟨{ small.at 0x5 .s3 .act 2 false 0 with c0 := 3 }, rfl, rfl, by decide⟩⟩

theorem witness_AvailAndRxlenNumberedSteps :
    (small.at 0x6 .s1 .act 0 false 0).seq = .at 0x6 .s1 .act 0 0 ∧
      (small.at 0x7 .s1 .act 0 false 0).seq = .at 0x7 .s1 .act 0 0 := ⟨rfl, rfl⟩

theorem witness_ClrrxNumberedSteps :
    (small.at 0x8 .s1 .act 0 false 0).seq = .at 0x8 .s1 .act 0 0 ∧
      (small.at 0x8 .s2 .act 0 false 0).seq = .at 0x8 .s2 .act 0 0 ∧
      (small.at 0x8 .s3 .act 0 false 0).seq = .at 0x8 .s3 .act 0 0 := ⟨rfl, rfl, rfl⟩

/-- A poll, and a guarded wait with its parameter on and off. -/
theorem witness_WrbNumberedSteps :
    (small.at 0x9 .s9 .poll 0 true 0).seq = .at 0x9 .s9 .poll 0 0 ∧ small.cfg.stopDoneWait = true ∧
      (noWaits (small.at 0x9 .s11 .act 0 false 0)).cfg.stopDoneWait = false ∧
      (noWaits (small.at 0x9 .s11 .act 0 false 0)).seq = .at 0x9 .s11 .act 0 0 := ⟨rfl, rfl, rfl, rfl⟩

theorem witness_RdbNumberedSteps :
    (small.at 0xA .s15 .act 0 false 0x55).seq = .at 0xA .s15 .act 0 0 ∧
      (small.at 0xA .a3 .act 0 false 0).seq = .at 0xA .a3 .act 0 0 := ⟨rfl, rfl⟩

/-- WRBUF's last byte at PTR + LEN = 0x10000. -/
theorem witness_WrbufNumberedSteps :
    (0xFFFF#16).toNat + (1#16).toNat ≤ 0x10000 ∧ 0 < (1#16).toNat ∧
      (small.at 0xB .s8a .act 0 false 0).seq = .at 0xB .s8a .act 0 0 ∧
      (small.at 0xB .s7 .test 0 false 0).seq = .at 0xB .s7 .test 0 0 := ⟨by decide, by decide, rfl, rfl⟩

/-- RDBUF's last byte at PTR + LEN = 0x10000. -/
theorem witness_RdbufNumberedSteps :
    (0xFFFF#16).toNat + (1#16).toNat ≤ 0x10000 ∧ (1 : Half) ≠ 0 ∧ Memory.wf small.hm = true ∧ 0 < (1#16).toNat ∧
      (small.at 0xC .s13d .act 0 false 0xCC).seq = .at 0xC .s13d .act 0 0 := by
  refine ⟨?_, ?_, ?_, ?_, rfl⟩ <;> decide

/-- S1 at the position issue gives it, address 0. -/
theorem witness_ScanNumberedSteps_first :
    (issued .scan 0x0D00000000000000 []).seq = .at 0xD .s1 .act 0 0 ∧
      Inv (issued .scan 0x0D00000000000000 []) = true := ⟨rfl, by decide⟩

/-- Each of a probe's steps, at the first and the last address. -/
theorem witness_ScanNumberedSteps :
    (1 ≤ 1 ∧ 1 < 127 ∧ 1 ≤ 126 ∧ 126 < 127) ∧ ∀ (l : Line) (sub : Sub) (a : Nat), a ∈ [1, 126] →
      ∃ s : State, s.seq = .at 0xD l sub 0 a :=
  ⟨by decide, fun l sub a _ => ⟨{ small with seq := .at 0xD l sub 0 a }, rfl⟩⟩

theorem witness_Issued :
    Issued (.sendb 0x41) (issued (.sendb 0x41) 0x0200004100000000 []) ∧
      Issued (.sendbuf 0x0300 2) (issued (.sendbuf 0x0300 2) 0x0400000000020300 []) ∧
      Issued (.sends 0x0300) (issued (.sends 0x0300) 0x0300000000000300 []) ∧
      Issued (.recv 0x0400 2) (issued (.recv 0x0400 2) 0x0500000000020400 []) ∧
      Issued (.wrb 0x3C 1 2) (issued (.wrb 0x3C 1 2) 0x093C010200000000 []) ∧
      Issued (.rdb 0x3C 1) (issued (.rdb 0x3C 1) 0x0A3C010000000000 []) ∧
      Issued (.wrbuf 0x3C 1 0x0300 2) (issued (.wrbuf 0x3C 1 0x0300 2) 0x0B3C010000020300 []) ∧
      Issued (.rdbuf 0x3C 1 0x0300 2) (issued (.rdbuf 0x3C 1 0x0300 2) 0x0C3C010000020300 []) ∧
      Issued .scan (issued .scan 0x0D00000000000000 []) := by
  refine ⟨⟨rfl, ?_, ?_⟩, ⟨rfl, ?_, ?_⟩, ⟨rfl, ?_, ?_⟩, ⟨rfl, ?_, ?_⟩, ⟨rfl, ?_, ?_⟩, ⟨rfl, ?_, ?_⟩, ⟨rfl, ?_, ?_⟩,
    ⟨rfl, ?_, ?_⟩, ⟨rfl, ?_, ?_⟩⟩ <;> decide +kernel

/-- SENDB, SENDBUF with no byte, and SENDS with a string of two. -/
theorem witness_TransmitCommandsRunToCompletion :
    (∃ s : State, Issued (.sendb 0x41) s ∧ s.agenda = ideal 8 0 ++ []) ∧
      (∃ s : State, Issued (.sendbuf 0x0300 0) s ∧ [] = bufferBytes s.hm 0x0300 (0#16).toNat ∧
        s.agenda = ideal 6 0 ++ []) ∧
      ∃ s : State, Issued (.sends 0x0300) s ∧ [0x48, 0x49] = bufferBytes s.hm 0x0300 2 ∧
        (∀ b ∈ ([0x48, 0x49] : List Byte), b ≠ 0x00) ∧ (0x0300#16).toNat + 2 ≤ 0xFFFF ∧
        memRead s.hm ((0x0300#16).toNat + 2) = 0x00 ∧ s.agenda = ideal 10 0 ++ [] := by
  refine ⟨⟨issued (.sendb 0x41) 0x0200004100000000 (ideal 8 0 ++ []), ⟨rfl, ?_, ?_⟩, rfl⟩,
    ⟨issued (.sendbuf 0x0300 0) 0x0400000000000300 (ideal 6 0 ++ []), ⟨rfl, ?_, ?_⟩, ?_, rfl⟩,
    ⟨issued (.sends 0x0300) 0x0300000000000300 (ideal 10 0 ++ []), ⟨rfl, ?_, ?_⟩, ?_, ?_, ?_, ?_, rfl⟩⟩ <;>
  decide +kernel

theorem witness_RecvRunsToCompletion :
    (∃ s : State, Issued (.recv 0x0400 2) s ∧ Memory.wf s.hm = true ∧ s.rxCount.toNat ≤ 256 ∧ s.rxReady = true ∧
        s.agenda = ideal (min (2#16).toNat s.rxCount.toNat + 6) 0 ++ []) ∧
      ∃ s : State, Issued (.recv 0x0400 2) s ∧ Memory.wf s.hm = true ∧ s.rxCount.toNat ≤ 256 ∧ s.rxReady = false ∧
        s.agenda = ideal 1 0 ++ [] := by
  refine ⟨⟨issued (.recv 0x0400 2) 0x0500000000020400 (ideal 8 0 ++ []), ⟨rfl, ?_, ?_⟩, ?_, ?_, rfl, rfl⟩,
    ⟨{ issued (.recv 0x0400 2) 0x0500000000020400 (ideal 1 0 ++ []) with rxReady := false },
      ⟨rfl, ?_, ?_⟩, ?_, ?_, rfl, rfl⟩⟩ <;> decide +kernel

theorem witness_WrbRunsToCompletion :
    ∃ s : State, Issued (.wrb 0x3C 1 2) s ∧
      s.agenda = ideal (18 + lineSteps s.cfg.busFreeWait + lineSteps s.cfg.stopDoneWait) 0 ++ [] := by
  refine ⟨issued (.wrb 0x3C 1 2) 0x093C010200000000 (ideal 24 0 ++ []), ⟨rfl, ?_, ?_⟩, rfl⟩ <;> decide +kernel

theorem witness_RdbRunsToCompletion :
    ∃ s : State, Issued (.rdb 0x3C 1) s ∧ s.agenda = ideal (28 + lineSteps s.cfg.busFreeWait) 0x55 ++ [] := by
  refine ⟨issued (.rdb 0x3C 1) 0x0A3C010000000000 (ideal 31 0x55 ++ []), ⟨rfl, ?_, ?_⟩, rfl⟩ <;> decide +kernel

theorem witness_WrbufRunsToCompletion :
    ∃ s : State, Issued (.wrbuf 0x3C 1 0x0300 0) s ∧
      s.agenda =
        ideal (14 + lineSteps s.cfg.busFreeWait + lineSteps s.cfg.stopDoneWait + 4 * (0#16).toNat) 0 ++ [] := by
  refine ⟨issued (.wrbuf 0x3C 1 0x0300 0) 0x0B3C010000000300 (ideal 20 0 ++ []), ⟨rfl, ?_, ?_⟩, rfl⟩ <;>
  decide +kernel

theorem witness_RdbufRunsToCompletion :
    ∃ s : State, Issued (.rdbuf 0x3C 1 0xFFFE 2) s ∧ Memory.wf s.hm = true ∧
      ([0xAA, 0xBB] : List Byte).length = (2#16).toNat ∧
      s.agenda = ideal (21 + lineSteps s.cfg.busFreeWait) 0 ++ ([0xAA, 0xBB] : List Byte).flatMap (ideal 6) ++
        ideal 2 0 ++ [] := by
  refine ⟨issued (.rdbuf 0x3C 1 0xFFFE 2) 0x0C3C01000002FFFE
    (ideal 24 0 ++ ([0xAA, 0xBB] : List Byte).flatMap (ideal 6) ++ ideal 2 0 ++ []), ⟨rfl, ?_, ?_⟩, ?_, ?_, rfl⟩ <;>
  decide +kernel

/-- A bus with a slave at 0x3C only (V8, R104's example). -/
theorem witness_ScanFindsTheResponsiveSlaves :
    ∃ (s : State) (run : List Action), Issued .scan s ∧
      run = ideal 1 0 ++ (List.range' 1 126).flatMap (fun a => probeActions s.cfg 0 (a == 0x3C)) ++ ideal 1 0 ∧
      s.agenda = run ++ [] := by
  refine ⟨issued .scan 0x0D00000000000000 ((ideal 1 0 ++
    (List.range' 1 126).flatMap (fun a => probeActions small.cfg 0 (a == 0x3C)) ++ ideal 1 0) ++ []), _,
    ⟨rfl, ?_, ?_⟩, rfl, rfl⟩ <;> decide +kernel

/-- SENDBUF of two bytes with a false poll, a tick and an arrival on the way. -/
theorem witness_CompletedTransmitSentItsBytes :
    ∃ s t : State, Issued (.sendbuf 0x0300 2) s ∧ completion 14 s = some t ∧
      [0x48, 0x49] = bufferBytes s.hm 0x0300 (2#16).toNat :=
  let s := issued (.sendbuf 0x0300 2) 0x0400000000020300
    ([.seq ⟨true, 0⟩, .seq ⟨true, 0⟩, .seq ⟨false, 0⟩, .tick, .raise, .rxc 0x10] ++ ideal 8 0)
  ⟨s, _, ⟨rfl, by decide, by decide⟩, (completes (n := 14) (s := s) (by decide +kernel)).choose_spec, by decide⟩

/-- RECV with DRAIN_ATOMIC and an arrival inside it. -/
def atomicRecv : State :=
  { issued (.recv 0x0400 2) 0x0500000000020400 ([.raise, .rxc 0x10] ++ ideal 8 0) with
    cfg := { small.cfg with drainAtomic := true } }

/-- `atomicRecv` after its step S2, for the two values drawn there. -/
def atomicRecvDrawn (order bound : Bool) : State :=
  { atomicRecv with
    seq := .at 0x5 .s3 .act 0 0
    rxPend := true
    c0 := 3
    nc := 0
    rorder := order
    rbound := bound
    draws := 2
    env := ⟨true, 0⟩
    agenda := ideal 6 0 }

theorem atomicRecvDrawn_completes : ∀ order bound, (completion 6 (atomicRecvDrawn order bound)).isSome = true := by
  decide +kernel

theorem atomicRecv_draws : completion 10 atomicRecv =
    completion 6 (atomicRecvDrawn (Config.drawBit 0) (Config.drawBit 1)) := rfl

/-- With the flag set and with it clear. -/
theorem witness_CompletedAtomicRecvHasOneOutcome :
    (∃ s t : State, Issued (.recv 0x0400 2) s ∧ s.cfg.drainAtomic = true ∧ Memory.wf s.hm = true ∧
        s.rxCount.toNat ≤ 256 ∧ completion 10 s = some t ∧ s.rxReady = true) ∧
      ∃ s t : State, Issued (.recv 0x0400 2) s ∧ s.cfg.drainAtomic = true ∧ Memory.wf s.hm = true ∧
        s.rxCount.toNat ≤ 256 ∧ completion 3 s = some t ∧ s.rxReady = false :=
  let s' : State := { atomicRecv with rxReady := false, rxCount := 0 }
  ⟨⟨atomicRecv, _, ⟨rfl, by decide, by decide⟩, rfl, by decide, by decide,
      (completes (by rw [atomicRecv_draws]; exact atomicRecvDrawn_completes _ _)).choose_spec, rfl⟩,
    ⟨s', _, ⟨rfl, by decide, by decide⟩, rfl, by decide, by decide,
      (completes (n := 3) (s := s') (by decide +kernel)).choose_spec, rfl⟩⟩

/-- A WRB that succeeds, and one whose first wait times out after 1001 ticks. -/
theorem witness_CompletedWrbSucceededOrTimedOut :
    (∃ s t : State, Issued (.wrb 0x3C 1 2) s ∧ completion 24 s = some t ∧ t.status = 0x01) ∧
      ∃ s t : State, Issued (.wrb 0x3C 1 2) s ∧ completion 1007 s = some t ∧ t.status = 0x02 := by
  have h1 : ((completion 24 (issued (.wrb 0x3C 1 2) 0x093C010200000000 (ideal 24 0))).map (·.status)) =
      some 0x01 := by decide +kernel
  have h2 : ((completion 1007 (issued (.wrb 0x3C 1 2) 0x093C010200000000 (ideal 1 0 ++
      List.replicate 1001 .tick ++ [.seq ⟨false, 0⟩] ++ ideal 4 0))).map (·.status)) = some 0x02 := by decide +kernel
  obtain ⟨t1, h1, e1⟩ := Option.map_eq_some_iff.mp h1
  obtain ⟨t2, h2, e2⟩ := Option.map_eq_some_iff.mp h2
  exact ⟨⟨_, t1, ⟨rfl, by decide, by decide⟩, h1, e1⟩, ⟨_, t2, ⟨rfl, by decide, by decide⟩, h2, e2⟩⟩

theorem witness_CompletedRdbSucceededOrTimedOut :
    ∃ s t : State, Issued (.rdb 0x3C 1) s ∧ completion 31 s = some t :=
  let s := issued (.rdb 0x3C 1) 0x0A3C010000000000 (ideal 31 0x55)
  ⟨s, _, ⟨rfl, by decide, by decide⟩, (completes (n := 31) (s := s) (by decide +kernel)).choose_spec⟩

theorem witness_CompletedWrbufSucceededOrTimedOut :
    ∃ s t : State, Issued (.wrbuf 0x3C 1 0x0300 2) s ∧ completion 28 s = some t :=
  let s := issued (.wrbuf 0x3C 1 0x0300 2) 0x0B3C010000020300 (ideal 28 0)
  ⟨s, _, ⟨rfl, by decide, by decide⟩, (completes (n := 28) (s := s) (by decide +kernel)).choose_spec⟩

theorem witness_CompletedRdbufSucceededOrTimedOut :
    ∃ s t : State, Issued (.rdbuf 0x3C 1 0x0300 2) s ∧ Memory.wf s.hm = true ∧ completion 38 s = some t :=
  let s := issued (.rdbuf 0x3C 1 0x0300 2) 0x0C3C010000020300 (ideal 38 0xAA)
  ⟨s, _, ⟨rfl, by decide, by decide⟩, by decide, (completes (n := 38) (s := s) (by decide +kernel)).choose_spec⟩

/-- A whole SCAN, without the two parameters' waits, in which every address acknowledges. -/
theorem witness_CompletedScanProbedEveryAddress :
    ∃ s t : State, Issued .scan s ∧ completion 1514 s = some t :=
  let s := noWaits (issued .scan 0x0D00000000000000 (ideal 1514 0))
  ⟨s, _, ⟨rfl, by decide, by decide⟩, (completes (n := 1514) (s := s) (by decide +kernel)).choose_spec⟩

/-- The last HDX opcode, CLRRX. -/
theorem witness_HdxCommandsNeverFail :
    ∃ s t : State, Instr.clrrx.opcode.toNat ≤ 8 ∧ Issued .clrrx s ∧ completion 3 s = some t :=
  let s := issued .clrrx 0x0800000000000000 (ideal 3 0)
  ⟨s, _, by decide, ⟨rfl, by decide, by decide⟩, (completes (n := 3) (s := s) (by decide +kernel)).choose_spec⟩

theorem witness_TransmitWaitHoldsWithoutLimit :
    (∃ s : State, decode s.cmd = .ok (.sendb 0x41) ∧ legal (.sendb 0x41) s.hm = true ∧
        s.seq = .at 0x2 .s5 .act 0 0 ∧ s.agenda = List.replicate 2 (.seq ⟨false, 0⟩) ++ []) ∧
      ∃ s : State, decode s.cmd = .ok (.sends 0x0300) ∧ legal (.sends 0x0300) s.hm = true ∧
        s.seq = .at 0x3 .s3a .act 1 0 ∧ s.agenda = List.replicate 2 (.seq ⟨false, 0⟩) ++ [] := by
  refine ⟨⟨{ small with
      cmd := 0x0200004100000000
      seq := .at 0x2 .s5 .act 0 0
      agenda := List.replicate 2 (.seq ⟨false, 0⟩) ++ [] }, ?_, ?_, rfl, rfl⟩,
    ⟨{ small with
      cmd := 0x0300000000000300
      seq := .at 0x3 .s3a .act 1 0
      agenda := List.replicate 2 (.seq ⟨false, 0⟩) ++ [] }, ?_, ?_, rfl, rfl⟩⟩ <;> decide +kernel

/-- The three clauses at the boundary: 1000 ticks elapsed across the clock's wrap, 1001, and a condition seen after
1001; and a SCAN wait at its budget of 100. -/
theorem witness_WaitEndsByConditionOrBudget :
    (∃ s : State, decode s.cmd = .ok (.wrb 0x3C 1 2) ∧ waitsAt (.wrb 0x3C 1 2) .s5 = true ∧
        s.seq = .at 0x9 .s5 .poll 0 0 ∧ [Action.tick, .seq ⟨false, 0⟩].all isTickOrFalsePoll = true ∧
        s.agenda = [Action.tick, .seq ⟨false, 0⟩] ++ [] ∧
        (s.tick - s.wstart).toNat + [Action.tick, .seq ⟨false, 0⟩].countP (· == .tick) = budgetOf (.wrb 0x3C 1 2)) ∧
      (∃ s : State, decode s.cmd = .ok (.wrb 0x3C 1 2) ∧ s.seq = .at 0x9 .s5 .poll 0 0 ∧
        s.agenda = List.replicate 2 .tick ++ .seq ⟨false, 0⟩ :: [] ∧
        (s.tick - s.wstart).toNat + 2 = budgetOf (.wrb 0x3C 1 2) + 1) ∧
      (∃ s : State, decode s.cmd = .ok (.wrb 0x3C 1 2) ∧ s.seq = .at 0x9 .s5 .poll 0 0 ∧
        s.agenda = .seq ⟨true, 0⟩ :: [] ∧ (s.tick - s.wstart).toNat = 1001) ∧
      ∃ s : State, decode s.cmd = .ok .scan ∧ waitsAt .scan .p6 = true ∧ s.seq = .at 0xD .p6 .poll 0 126 ∧
        s.agenda = [Action.seq ⟨false, 0⟩] ++ [] ∧ (s.tick - s.wstart).toNat = budgetOf .scan := by
  refine ⟨⟨{ small.at 0x9 .s5 .poll 0 false 0 with
      cmd := 0x093C010200000000, wstart := 0xFFFFFFFF, tick := 998, agenda := [.tick, .seq ⟨false, 0⟩] },
      by decide, by decide, rfl, by decide, rfl, by decide⟩,
    ⟨{ small.at 0x9 .s5 .poll 0 false 0 with
      cmd := 0x093C010200000000, wstart := 0xFFFFFFFF, tick := 998, agenda := [.tick, .tick, .seq ⟨false, 0⟩] },
      by decide, rfl, rfl, by decide⟩,
    ⟨{ small.at 0x9 .s5 .poll 0 false 0 with
      cmd := 0x093C010200000000, wstart := 0xFFFFFFFF, tick := 1000, agenda := [.seq ⟨true, 0⟩] },
      by decide, rfl, rfl, by decide⟩,
    ⟨{ small with
      seq := .at 0xD .p6 .poll 0 126
      cmd := 0x0D00000000000000, wstart := 0, tick := 100, agenda := [.seq ⟨false, 0⟩] },
      by decide, by decide, rfl, rfl, by decide⟩⟩

/-- RECV's state for the race's clauses: at a line, with some coming steps. -/
def racing (l : Line) (k : Nat) (order bound : Bool) (agenda : List Action) : State :=
  { small.at 0x5 l .act k false 0 with cmd := 0x050000000010FFF0, rorder := order, rbound := bound, agenda := agenda }

/-- What the race's clauses about RECV ask of every state. -/
def racesRecv (s : State) : Prop :=
  decode s.cmd = .ok (.recv 0xFFF0 16) ∧ s.cfg.drainAtomic = false ∧ s.rxCount.toNat < 256

theorem racing_racesRecv (l : Line) (k : Nat) (order bound : Bool) (agenda : List Action) :
    racesRecv (racing l k order bound agenda) :=
  ⟨show decode 0x050000000010FFF0 = _ by decide, rfl, show (3#9).toNat < 256 by decide⟩

/-- The race's four clauses about RECV: before S4, between S4 and S5 in either order, and at the end of the copy loop. -/
theorem witness_DrainRaceOutcomes :
    (∃ s : State, racesRecv s ∧ s.seq = .at 0x5 .s4 .act 0 0 ∧
        s.agenda = .raise :: .rxc 0x55 :: .seq ⟨true, 0⟩ :: .seq ⟨true, 0⟩ :: .seq ⟨true, 0⟩ :: []) ∧
      (∃ s : State, racesRecv s ∧ s.seq = .at 0x5 .s4 .act 0 0 ∧ s.rorder = false ∧
        s.agenda = .seq ⟨true, 0⟩ :: .raise :: .rxc 0x55 :: .seq ⟨true, 0⟩ :: .seq ⟨true, 0⟩ :: []) ∧
      (∃ s : State, racesRecv s ∧ s.seq = .at 0x5 .s4 .act 0 0 ∧ s.rorder = true ∧
        s.agenda = .seq ⟨true, 0⟩ :: .raise :: .rxc 0x55 :: .seq ⟨true, 0⟩ :: .seq ⟨true, 0⟩ :: []) ∧
      ∃ s : State, racesRecv s ∧ s.seq = .at 0x5 .s3 .act 3 0 ∧ s.rbound = true ∧ 3 = s.rxCount.toNat ∧
        3 < (16#16).toNat ∧ (0xFFF0#16).toNat + (16#16).toNat ≤ 0x10000 ∧ Memory.wf s.hm = true ∧
        s.agenda = .raise :: .rxc 0x55 :: ideal 5 0 := by
  refine ⟨⟨racing .s4 0 false false ([.raise, .rxc 0x55] ++ ideal 3 0), racing_racesRecv .., rfl, rfl⟩,
    ⟨racing .s4 0 false false ([.seq ⟨true, 0⟩, .raise, .rxc 0x55] ++ ideal 2 0), racing_racesRecv .., rfl, rfl, rfl⟩,
    ⟨racing .s4 0 true false ([.seq ⟨true, 0⟩, .raise, .rxc 0x55] ++ ideal 2 0), racing_racesRecv .., rfl, rfl, rfl⟩,
    ⟨racing .s3 3 false true ([.raise, .rxc 0x55] ++ ideal 5 0), racing_racesRecv .., rfl, rfl, ?_, ?_, ?_, ?_, rfl⟩⟩
  all_goals decide

/-- The race's clause about CLRRX, just issued. -/
theorem witness_DrainRaceOutcomes_clrrx :
    ∃ s : State, s.cfg.drainAtomic = false ∧ s.rxCount.toNat < 256 ∧ decode s.cmd = .ok .clrrx ∧
      s.seq = .at 0x8 .s1 .act 0 0 ∧
      s.agenda = .seq ⟨true, 0⟩ :: .raise :: .rxc 0x55 :: .seq ⟨true, 0⟩ :: .seq ⟨true, 0⟩ :: [] :=
  ⟨issued .clrrx 0x0800000000000000 ([.seq ⟨true, 0⟩, .raise, .rxc 0x55] ++ ideal 2 0), rfl, by decide, by decide, rfl,
    rfl⟩

/-- RDB about to assert its stop, with acknowledgment off. -/
def reading (agenda : List Action) : State :=
  { small with
    cmd := 0x0A3C010000000000
    seq := .at 0xA .s13 .act 0 0
    phase := .receiving
    ackEn := false
    agenda := agenda }

theorem witness_EveryStepKeepsTheInvariant :
    ∃ s t : State, Inv s = true ∧ s.seq ≠ .idle ∧ step s = .next t :=
  ⟨reading [.seq ⟨true, 0⟩], _, by decide, by decide,
    (next_of_isNext (r := step (reading [.seq ⟨true, 0⟩])) (by decide)).choose_spec⟩

/-- A refused access, and the read of the last implemented offset, which is none. -/
theorem witness_OnlyBadHostAccessesStop :
    (∃ s : State, Inv s = true ∧ step s = .refused .registerMisaligned) ∧
      Inv (coming [.hostRead 0x2C 4]) = true ∧
      seen (step (coming [.hostRead 0x2C 4])) (·.hostData) = some 0 :=
  ⟨⟨coming [.hostRead 0x02 4], by decide, rfl⟩, by decide, by decide⟩

theorem witness_PinFollowsDirection :
    ∃ s t : State, s.dirPin = (if s.dir = .transmit then s.cfg.dirTxLevel else !s.cfg.dirTxLevel) ∧
      step s = .next t ∧ t.dir = .transmit := by
  obtain ⟨t, h1, h2⟩ := next_of_seen (r := step (issued (.sendb 0x41) 0x0200004100000000 (ideal 1 0)))
    (f := (·.dir)) (v := .transmit) (by decide)
  exact ⟨_, t, rfl, h1, h2⟩

theorem witness_StepsAppendAtMostOneEvent :
    ∃ s t : State, (nextAction s).1 ≠ .reset ∧ step s = .next t ∧ t.trace = s.trace ++ [.stop] := by
  obtain ⟨t, h1, h2⟩ := next_of_seen (r := step (reading [.seq ⟨true, 0⟩])) (f := (·.trace)) (v := [.stop]) (by decide)
  exact ⟨_, t, by decide, h1, h2⟩

theorem witness_PhaseFollowsTheArrows :
    ∃ s t : State, Inv s = true ∧ decode s.cmd = .ok (.rdb 0x3C 0x01) ∧ (Instr.rdb 0x3C 0x01).opcode = 0xA ∧
      s.seq ≠ .idle ∧ (nextAction s).1 = .seq ⟨true, 0⟩ ∧ step s = .next t ∧ t.phase ≠ s.phase := by
  obtain ⟨t, h1, h2⟩ := next_of_seen
    (r := step { reading [.seq ⟨true, 0⟩] with seq := .at 0xA .s17 .act 0 0, ackEn := true }) (f := (·.phase))
    (v := .idle) (by decide)
  exact ⟨_, t, by decide, by decide, rfl, by decide, rfl, h1, by rw [h2]; decide⟩

theorem witness_AtomicDrainKeepsFlagWithCount :
    ∃ s t : State, s.cfg.drainAtomic = true ∧ drainTogether s = true ∧ s.seq = .at 0x8 .s2 .act 0 0 ∧
      step s = .next t :=
  let s : State := { small with
    cfg := { small.cfg with drainAtomic := true }
    cmd := 0x0800000000000000
    seq := .at 0x8 .s2 .act 0 0
    rxCount := 0
    agenda := ideal 1 0 }
  ⟨s, _, rfl, by decide, rfl, (next_of_isNext (r := step s) (by decide)).choose_spec⟩

theorem witness_StepsWriteOnlyTheirResults :
    ∃ s t : State, s.seq = .at 0x6 .s1 .act 0 0 ∧ (nextAction s).1 = .seq ⟨true, 0⟩ ∧ step s = .next t ∧
      t.value ≠ s.value := by
  obtain ⟨t, h1, h2⟩ := next_of_seen (r := step (issued .avail 0x0600000000000000 (ideal 1 0))) (f := (·.value))
    (v := 1) (by decide)
  exact ⟨_, t, rfl, rfl, h1, by rw [h2]; decide⟩

theorem witness_UnitsWriteOnlyTheirOwnState :
    ∃ s t : State, s.seq = .at 0xA .s13 .act 0 0 ∧ (nextAction s).1 = .seq ⟨true, 0⟩ ∧ step s = .next t ∧
      9 ≤ (0xA#4).toNat :=
  ⟨reading (ideal 1 0), _, rfl, rfl,
    (next_of_isNext (r := step (reading (ideal 1 0))) (by decide)).choose_spec, by decide⟩

theorem witness_StepsStoreOnlyTheirBufferByte :
    ∃ s t : State, Memory.wf s.hm = true ∧ s.seq = .at 0x5 .s3 .act 1 0 ∧ (nextAction s).1 = .seq ⟨true, 0⟩ ∧
      step s = .next t ∧ memRead t.hm 0x0401 ≠ memRead s.hm 0x0401 := by
  obtain ⟨t, h1, h2⟩ := next_of_seen
    (r := step { issued (.recv 0x0400 2) 0x0500000000020400 (ideal 1 0) with seq := .at 0x5 .s3 .act 1 0, c0 := 3 })
    (f := fun t => memRead t.hm 0x0401) (v := 0x20) (by decide)
  exact ⟨_, t, by decide, rfl, rfl, h1, by rw [h2]; decide⟩

/-- Two ticks after a reset with some contents. -/
theorem witness_OpenResetValuesAreUnobservable :
    ∃ t : State, runSteps 2 (resetWith small.rxBuf 5 6 true 7 8 true true 9 10 11 (coming [.tick, .tick])) = .next t :=
  next_of_isNext (by decide)

end Sys2Proof.Tests
end

section
/-! The direction and its pin (R18, R19, R75): only `setDirection` and Reset write either of them, and both write the two
together. Every command's step is put under one of two relations between the states before and after it. -/

namespace Sys2Proof.Machine

/-! ### What a result answers -/

/-- Whatever next state the result answers satisfies `P`; a fault and a refusal answer none. -/
def Yields (P : State → Prop) : Result → Prop
  | .next t => P t
  | .fault _ => True
  | .refused _ => True

@[simp] theorem yields_next {P : State → Prop} {t : State} : Yields P (.next t) ↔ P t := Iff.rfl

@[simp] theorem yields_fault (P : State → Prop) (f : Fault) : Yields P (.fault f) := trivial

@[simp] theorem yields_refused (P : State → Prop) (r : Refusal) : Yields P (.refused r) := trivial

theorem yields_iff {P : State → Prop} {r : Result} : Yields P r ↔ ∀ t, r = .next t → P t := by
  cases r with
  | next u => simp
  | fault f => simp
  | refused x => simp

theorem Yields.mono {P Q : State → Prop} {r : Result} (hPQ : ∀ t, P t → Q t) (h : Yields P r) : Yields Q r :=
  yields_iff.mpr fun t ht => hPQ t (yields_iff.mp h t ht)

/-- The lines of a table that may be silent, then those that stand in for it. -/
theorem yields_getD {P : State → Prop} {o : Option Result} {d : Result} (ho : ∀ r, o = some r → Yields P r)
    (hd : Yields P d) : Yields P (o.getD d) := by
  cases o with
  | none => exact hd
  | some r => exact ho r rfl

/-- A meaning is the issue check or one of its numbered steps. -/
theorem yields_atPosition {P : State → Prop} {i : Instr} {s : State} {f : Line → Sub → Nat → Nat → Result}
    (hissue : Yields P (issue i s)) (hf : ∀ l sub k a, Yields P (f l sub k a)) : Yields P (atPosition i s f) := by
  unfold atPosition
  split
  · exact hissue
  · split
    · exact hf ..
    · exact yields_fault ..

/-! ### The two relations -/

/-- `t` has the direction, the DIR pin and the parameters of `s`. -/
def KeepsDirection (s t : State) : Prop := t.dir = s.dir ∧ t.dirPin = s.dirPin ∧ t.cfg = s.cfg

/-- What a step can do to the direction: it leaves direction and pin alone, or it brings the pin to the level of the
direction (R19). The parameters stay (R41). -/
def DirectionStep (s t : State) : Prop := t.cfg = s.cfg ∧
  ((t.dir = s.dir ∧ t.dirPin = s.dirPin) ∨ t.dirPin = dirLevel t.cfg t.dir)

theorem KeepsDirection.refl (s : State) : KeepsDirection s s := ⟨rfl, rfl, rfl⟩

theorem KeepsDirection.ite {s t u : State} {p : Prop} [Decidable p] (ht : KeepsDirection s t)
    (hu : KeepsDirection s u) : KeepsDirection s (if p then t else u) := by
  split
  · exact ht
  · exact hu

theorem KeepsDirection.directionStep {s t : State} (h : KeepsDirection s t) : DirectionStep s t := by
  obtain ⟨hdir, hpin, hcfg⟩ := h
  exact ⟨hcfg, .inl ⟨hdir, hpin⟩⟩

theorem KeepsDirection.trans_directionStep {s t u : State} (h : KeepsDirection s t) (hu : DirectionStep t u) :
    DirectionStep s u := by
  obtain ⟨hdir, hpin, hcfg⟩ := h
  obtain ⟨hcfg', hcases⟩ := hu
  exact ⟨hcfg'.trans hcfg, by rwa [hdir, hpin] at hcases⟩

theorem Yields.directionStep {s : State} {r : Result} (h : Yields (KeepsDirection s) r) :
    Yields (DirectionStep s) r :=
  h.mono fun _ => KeepsDirection.directionStep

/-- R75 P1: the direction and the pin change together. -/
theorem setDirection_directionStep (d : Direction) (s : State) : DirectionStep s (setDirection d s) :=
  ⟨rfl, .inr rfl⟩

theorem moveTo_directionStep {op : BitVec 4} {l : Line} {i a : Nat} {s t : State} (h : DirectionStep s t) :
    DirectionStep s (moveTo op l i a t) := h

/-- R131: Reset sets the direction and the pin together. -/
theorem resetEvent_directionStep (s : State) : DirectionStep s (resetEvent s) := ⟨rfl, .inr rfl⟩

/-! ### Operations that keep the direction -/

theorem moveTo_keepsDirection {op : BitVec 4} {l : Line} {i a : Nat} {s t : State} (h : KeepsDirection s t) :
    KeepsDirection s (moveTo op l i a t) := h

theorem nextByte_keepsDirection {op : BitVec 4} {body exit : Line} {n i a : Nat} {s t : State}
    (h : KeepsDirection s t) : KeepsDirection s (nextByte op body exit n i a t) := h

theorem busFinish_keepsDirection {ok : Bool} {c : Cause} {s t : State} (h : KeepsDirection s t) :
    KeepsDirection s (busFinish ok c t) := h

theorem hmStore_keepsDirection {s t : State} {x : Nat} {v : Byte} (h : hmStore s x v = some t) :
    KeepsDirection s t := by
  obtain ⟨-, rfl⟩ := hmStore_some h
  exact ⟨rfl, rfl, rfl⟩

theorem issue_keepsDirection (i : Instr) (s : State) : Yields (KeepsDirection s) (issue i s) := by
  rw [issue_eq, yields_next]
  exact .ite ⟨rfl, rfl, rfl⟩ ⟨rfl, rfl, rfl⟩

theorem await_keepsDirection {c : Cond} {k : State → State} {s : State}
    (hk : KeepsDirection s (k (emit (.waitOk c) s))) : Yields (KeepsDirection s) (await c k s) := by
  rw [await_eq, yields_next]
  exact .ite hk (.refl s)

/-- A wait keeps the direction when both its ways on do. -/
theorem waitLine_keepsDirection {c : Cond} {budget : Nat} {op : BitVec 4} {l : Line} {sub : Sub} {i a : Nat}
    {passed failed : State → State} {s : State} (hp : KeepsDirection s (passed s))
    (hf : KeepsDirection s (failed s)) :
    Yields (KeepsDirection s) (waitLine c budget op l sub i a passed failed s) := by
  cases sub with
  | act =>
    rw [waitLine_act, yields_next]
    exact ⟨rfl, rfl, rfl⟩
  | poll =>
    rw [waitLine_poll, yields_next]
    exact .ite ⟨rfl, rfl, rfl⟩ (.ite ⟨rfl, rfl, rfl⟩ (.refl s))
  | test =>
    rw [waitLine_test, yields_next]
    exact .ite hp hf

theorem waitLineIf_keepsDirection {enabled : Bool} {c : Cond} {budget : Nat} {op : BitVec 4} {l : Line} {sub : Sub}
    {i a : Nat} {passed failed : State → State} {s : State} (hp : KeepsDirection s (passed s))
    (hf : KeepsDirection s (failed s)) :
    Yields (KeepsDirection s) (waitLineIf enabled c budget op l sub i a passed failed s) := by
  unfold waitLineIf
  split
  · exact yields_next.mpr hp
  · exact waitLine_keepsDirection hp hf

theorem gate_keepsDirection (c : Cond) (op : BitVec 4) (l : Line) (sub : Sub) (i a : Nat) (next : Line) (s : State) :
    Yields (KeepsDirection s) (gate c op l sub i a next s) :=
  waitLine_keepsDirection ⟨rfl, rfl, rfl⟩ ⟨rfl, rfl, rfl⟩

theorem stopGate_keepsDirection (op : BitVec 4) (l : Line) (sub : Sub) (i a : Nat) (next : Line) (s : State) :
    Yields (KeepsDirection s) (stopGate op l sub i a next s) :=
  waitLineIf_keepsDirection ⟨rfl, rfl, rfl⟩ ⟨rfl, rfl, rfl⟩

theorem abortLines_keepsDirection (op : BitVec 4) (read : Bool) (l : Line) (sub : Sub) (i a : Nat) (s : State) :
    Yields (KeepsDirection s) (abortLines op read l sub i a s) := by
  unfold abortLines
  split
  · exact yields_next.mpr (moveTo_keepsDirection (.ite ⟨rfl, rfl, rfl⟩ (.refl s)))
  · exact yields_next.mpr (moveTo_keepsDirection (.ite ⟨rfl, rfl, rfl⟩ (.refl s)))
  · exact yields_next.mpr (busFinish_keepsDirection (.ite ⟨rfl, rfl, rfl⟩ (.refl s)))
  · exact yields_fault ..

theorem addressLines_keepsDirection {op : BitVec 4} {sa : SlaveAddr} {ra : RegAddr} {next : State → State} {l : Line}
    {sub : Sub} {i a : Nat} {s : State} (hn : KeepsDirection s (next s)) (r : Result)
    (h : addressLines op sa ra next l sub i a s = some r) : Yields (KeepsDirection s) r := by
  unfold addressLines at h
  split at h <;> cases h
  case h_1 => exact waitLineIf_keepsDirection ⟨rfl, rfl, rfl⟩ ⟨rfl, rfl, rfl⟩
  case h_2 => exact yields_next.mpr ⟨rfl, rfl, rfl⟩
  case h_3 => exact gate_keepsDirection ..
  case h_4 => exact yields_next.mpr ⟨rfl, rfl, rfl⟩
  case h_5 => exact gate_keepsDirection ..
  case h_6 => exact yields_next.mpr ⟨rfl, rfl, rfl⟩
  case h_7 => exact waitLine_keepsDirection hn ⟨rfl, rfl, rfl⟩

theorem readAddressLines_keepsDirection {op : BitVec 4} {sa : SlaveAddr} {l : Line} {sub : Sub} {i a : Nat}
    {s : State} (r : Result) (h : readAddressLines op sa l sub i a s = some r) : Yields (KeepsDirection s) r := by
  unfold readAddressLines at h
  split at h <;> cases h
  case h_1 => exact yields_next.mpr ⟨rfl, rfl, rfl⟩
  case h_2 => exact gate_keepsDirection ..
  case h_3 => exact yields_next.mpr ⟨rfl, rfl, rfl⟩
  case h_4 => exact gate_keepsDirection ..

/-! ### Commands of the bus master -/

theorem execWrb_keepsDirection (sa : SlaveAddr) (ra : RegAddr) (v : Byte) (s : State) :
    Yields (KeepsDirection s) (execWrb sa ra v s) := by
  refine yields_atPosition (issue_keepsDirection ..) fun l sub i a => ?_
  refine yields_getD (addressLines_keepsDirection ⟨rfl, rfl, rfl⟩) ?_
  unfold wrbLines
  split
  · exact yields_next.mpr ⟨rfl, rfl, rfl⟩
  · exact gate_keepsDirection ..
  · exact yields_next.mpr ⟨rfl, rfl, rfl⟩
  · exact stopGate_keepsDirection ..
  · exact yields_next.mpr ⟨rfl, rfl, rfl⟩
  · exact abortLines_keepsDirection ..

theorem execRdb_keepsDirection (sa : SlaveAddr) (ra : RegAddr) (s : State) :
    Yields (KeepsDirection s) (execRdb sa ra s) := by
  refine yields_atPosition (issue_keepsDirection ..) fun l sub i a => ?_
  rw [Option.getD_or]
  refine yields_getD (addressLines_keepsDirection ⟨rfl, rfl, rfl⟩) ?_
  refine yields_getD readAddressLines_keepsDirection ?_
  unfold rdbLines
  split
  · exact yields_next.mpr ⟨rfl, rfl, rfl⟩
  · exact yields_next.mpr ⟨rfl, rfl, rfl⟩
  · exact gate_keepsDirection ..
  · exact yields_next.mpr ⟨rfl, rfl, rfl⟩
  · exact yields_next.mpr ⟨rfl, rfl, rfl⟩
  · exact yields_next.mpr ⟨rfl, rfl, rfl⟩
  · exact abortLines_keepsDirection ..

theorem execWrbuf_keepsDirection (sa : SlaveAddr) (ra : RegAddr) (ptr len : Half) (s : State) :
    Yields (KeepsDirection s) (execWrbuf sa ra ptr len s) := by
  refine yields_atPosition (issue_keepsDirection ..) fun l sub i a => ?_
  refine yields_getD (addressLines_keepsDirection ⟨rfl, rfl, rfl⟩) ?_
  unfold wrbufLines
  split
  · split
    · exact yields_next.mpr ⟨rfl, rfl, rfl⟩
    · exact yields_fault ..
  · exact waitLine_keepsDirection ⟨rfl, rfl, rfl⟩ ⟨rfl, rfl, rfl⟩
  · exact yields_next.mpr ⟨rfl, rfl, rfl⟩
  · exact stopGate_keepsDirection ..
  · exact yields_next.mpr ⟨rfl, rfl, rfl⟩
  · exact abortLines_keepsDirection ..

theorem execRdbuf_keepsDirection (sa : SlaveAddr) (ra : RegAddr) (ptr len : Half) (s : State) :
    Yields (KeepsDirection s) (execRdbuf sa ra ptr len s) := by
  refine yields_atPosition (issue_keepsDirection ..) fun l sub i a => ?_
  rw [Option.getD_or]
  refine yields_getD (addressLines_keepsDirection ⟨rfl, rfl, rfl⟩) ?_
  refine yields_getD readAddressLines_keepsDirection ?_
  unfold rdbufLines
  split
  · exact yields_next.mpr ⟨rfl, rfl, rfl⟩
  · exact yields_next.mpr (moveTo_keepsDirection (.ite ⟨rfl, rfl, rfl⟩ (.refl s)))
  · exact yields_next.mpr (moveTo_keepsDirection (.ite ⟨rfl, rfl, rfl⟩ (.refl s)))
  · exact gate_keepsDirection ..
  · split
    · next t ht =>
      have hkeep : KeepsDirection s t := hmStore_keepsDirection (s := busRecv s) ht
      exact yields_next.mpr (nextByte_keepsDirection hkeep)
    · exact yields_fault ..
  · exact yields_next.mpr ⟨rfl, rfl, rfl⟩
  · exact yields_next.mpr ⟨rfl, rfl, rfl⟩
  · exact abortLines_keepsDirection ..

theorem execScan_keepsDirection (s : State) : Yields (KeepsDirection s) (execScan s) := by
  refine yields_atPosition (issue_keepsDirection ..) fun l sub i a => ?_
  split
  · exact yields_next.mpr ⟨rfl, rfl, rfl⟩
  · exact waitLineIf_keepsDirection ⟨rfl, rfl, rfl⟩ ⟨rfl, rfl, rfl⟩
  · exact yields_next.mpr ⟨rfl, rfl, rfl⟩
  · exact waitLine_keepsDirection ⟨rfl, rfl, rfl⟩ ⟨rfl, rfl, rfl⟩
  · exact yields_next.mpr ⟨rfl, rfl, rfl⟩
  · exact waitLine_keepsDirection ⟨rfl, rfl, rfl⟩ ⟨rfl, rfl, rfl⟩
  · exact yields_next.mpr ⟨rfl, rfl, rfl⟩
  · exact waitLineIf_keepsDirection ⟨rfl, rfl, rfl⟩ ⟨rfl, rfl, rfl⟩
  · exact yields_next.mpr ⟨rfl, rfl, rfl⟩
  · exact yields_next.mpr ⟨rfl, rfl, rfl⟩
  · exact yields_fault ..

/-! ### Receive-side commands -/

theorem copyByte_keepsDirection (ptr : Half) (i a : Nat) (s : State) :
    Yields (KeepsDirection s) (copyByte ptr i a s) := by
  unfold copyByte
  split
  · split
    · next t ht =>
      have hkeep : KeepsDirection s t := hmStore_keepsDirection ht
      exact yields_next.mpr hkeep
    · exact yields_fault ..
  · exact yields_fault ..

theorem execRecv_keepsDirection (ptr len : Half) (s : State) :
    Yields (KeepsDirection s) (execRecv ptr len s) := by
  refine yields_atPosition (issue_keepsDirection ..) fun l sub i a => ?_
  split
  · split
    · exact yields_next.mpr ⟨rfl, rfl, rfl⟩
    · exact yields_next.mpr ⟨rfl, rfl, rfl⟩
  · exact yields_next.mpr ⟨rfl, rfl, rfl⟩
  · split
    · exact yields_next.mpr ⟨rfl, rfl, rfl⟩
    · exact copyByte_keepsDirection ..
  · exact yields_next.mpr ⟨rfl, rfl, rfl⟩
  · exact yields_next.mpr ⟨rfl, rfl, rfl⟩
  · exact yields_next.mpr ⟨rfl, rfl, rfl⟩
  · exact yields_fault ..

theorem execAvail_keepsDirection (s : State) : Yields (KeepsDirection s) (execAvail s) := by
  refine yields_atPosition (issue_keepsDirection ..) fun l sub i a => ?_
  split
  · exact yields_next.mpr ⟨rfl, rfl, rfl⟩
  · exact yields_fault ..

theorem execRxlen_keepsDirection (s : State) : Yields (KeepsDirection s) (execRxlen s) := by
  refine yields_atPosition (issue_keepsDirection ..) fun l sub i a => ?_
  split
  · exact yields_next.mpr ⟨rfl, rfl, rfl⟩
  · exact yields_fault ..

theorem execClrrx_keepsDirection (s : State) : Yields (KeepsDirection s) (execClrrx s) := by
  refine yields_atPosition (issue_keepsDirection ..) fun l sub i a => ?_
  split
  · exact yields_next.mpr ⟨rfl, rfl, rfl⟩
  · exact yields_next.mpr ⟨rfl, rfl, rfl⟩
  · exact yields_next.mpr ⟨rfl, rfl, rfl⟩
  · exact yields_fault ..

/-! ### Direction and transmit commands -/

theorem issue_directionStep (i : Instr) (s : State) : Yields (DirectionStep s) (issue i s) :=
  (issue_keepsDirection i s).directionStep

/-- A numbered step that makes `SetDirection`'s first line (R75 P1) and moves on. -/
theorem yields_setDirection (op : BitVec 4) (l : Line) (i a : Nat) (d : Direction) (s : State) :
    Yields (DirectionStep s) (.next (moveTo op l i a (setDirection d s))) :=
  yields_next.mpr (moveTo_directionStep (setDirection_directionStep d s))

/-- A numbered step that keeps the direction. -/
theorem yields_of_keepsDirection {s t : State} (h : KeepsDirection s t) : Yields (DirectionStep s) (.next t) :=
  yields_next.mpr h.directionStep

theorem execSetdir_directionStep (d : Direction) (s : State) : Yields (DirectionStep s) (execSetdir d s) := by
  refine yields_atPosition (issue_directionStep ..) fun l sub i a => ?_
  split
  · exact yields_setDirection ..
  · exact yields_of_keepsDirection ⟨rfl, rfl, rfl⟩
  · exact yields_of_keepsDirection ⟨rfl, rfl, rfl⟩
  · exact yields_fault ..

theorem execSendb_directionStep (b : Byte) (s : State) : Yields (DirectionStep s) (execSendb b s) := by
  refine yields_atPosition (issue_directionStep ..) fun l sub i a => ?_
  split
  · exact yields_setDirection ..
  · exact yields_of_keepsDirection ⟨rfl, rfl, rfl⟩
  · exact (await_keepsDirection ⟨rfl, rfl, rfl⟩).directionStep
  · exact yields_of_keepsDirection ⟨rfl, rfl, rfl⟩
  · exact (await_keepsDirection ⟨rfl, rfl, rfl⟩).directionStep
  · exact yields_setDirection ..
  · exact yields_of_keepsDirection ⟨rfl, rfl, rfl⟩
  · exact yields_of_keepsDirection ⟨rfl, rfl, rfl⟩
  · exact yields_fault ..

theorem transmitLines_directionStep (op : BitVec 4) (ptr : Half) (n : Nat) (l : Line) (sub : Sub) (i a : Nat)
    (s : State) : Yields (DirectionStep s) (transmitLines op ptr n l sub i a s) := by
  unfold transmitLines
  split
  · exact yields_setDirection ..
  · exact yields_of_keepsDirection ⟨rfl, rfl, rfl⟩
  · exact (await_keepsDirection ⟨rfl, rfl, rfl⟩).directionStep
  · split
    · exact yields_of_keepsDirection ⟨rfl, rfl, rfl⟩
    · exact yields_fault ..
  · exact (await_keepsDirection ⟨rfl, rfl, rfl⟩).directionStep
  · exact yields_setDirection ..
  · exact yields_of_keepsDirection ⟨rfl, rfl, rfl⟩
  · exact yields_of_keepsDirection ⟨rfl, rfl, rfl⟩
  · exact yields_fault ..

theorem execSends_directionStep (ptr : Half) (s : State) : Yields (DirectionStep s) (execSends ptr s) := by
  refine yields_atPosition (issue_directionStep ..) fun l sub i a => ?_
  split
  · exact transmitLines_directionStep ..
  · exact yields_fault ..

theorem execSendbuf_directionStep (ptr len : Half) (s : State) :
    Yields (DirectionStep s) (execSendbuf ptr len s) :=
  yields_atPosition (issue_directionStep ..) fun _ _ _ _ => transmitLines_directionStep ..

/-! ### Agents -/

/-- The meaning of every command, at every SEQ position. -/
theorem exec_directionStep (i : Instr) (s : State) : Yields (DirectionStep s) (exec i s) := by
  cases i with
  | setdir d => exact execSetdir_directionStep d s
  | sendb b => exact execSendb_directionStep b s
  | sends ptr => exact execSends_directionStep ptr s
  | sendbuf ptr len => exact execSendbuf_directionStep ptr len s
  | recv ptr len => exact (execRecv_keepsDirection ptr len s).directionStep
  | avail => exact (execAvail_keepsDirection s).directionStep
  | rxlen => exact (execRxlen_keepsDirection s).directionStep
  | clrrx => exact (execClrrx_keepsDirection s).directionStep
  | wrb sa ra v => exact (execWrb_keepsDirection sa ra v s).directionStep
  | rdb sa ra => exact (execRdb_keepsDirection sa ra s).directionStep
  | wrbuf sa ra ptr len => exact (execWrbuf_keepsDirection sa ra ptr len s).directionStep
  | rdbuf sa ra ptr len => exact (execRdbuf_keepsDirection sa ra ptr len s).directionStep
  | scan => exact (execScan_keepsDirection s).directionStep

/-- A command run in a state that differs from `s` outside the direction, its pin and the parameters. -/
theorem exec_directionStep_of_keeps (i : Instr) {s u : State} (h : KeepsDirection s u) :
    Yields (DirectionStep s) (exec i u) :=
  (exec_directionStep i u).mono fun _ => h.trans_directionStep

theorem seqStep_directionStep (answer : Answer) (s : State) : Yields (DirectionStep s) (seqStep answer s) := by
  unfold seqStep
  split
  · exact yields_of_keepsDirection (.refl s)
  · split
    · exact exec_directionStep_of_keeps _ ⟨rfl, rfl, rfl⟩
    · exact yields_fault ..

theorem issueDescriptor_directionStep (hi : Word) (s : State) :
    Yields (DirectionStep s) (issueDescriptor hi s) := by
  unfold issueDescriptor
  dsimp only
  split
  · exact exec_directionStep_of_keeps _ ⟨rfl, rfl, rfl⟩
  · exact yields_of_keepsDirection ⟨rfl, rfl, rfl⟩

theorem hostWriteStep_directionStep (offset width : Nat) (v : Word) (s : State) :
    Yields (DirectionStep s) (hostWriteStep offset width v s) := by
  unfold hostWriteStep
  split
  · exact yields_of_keepsDirection (.refl s)
  · split
    · exact yields_refused ..
    · split
      · exact yields_of_keepsDirection ⟨rfl, rfl, rfl⟩
      · split
        · exact issueDescriptor_directionStep ..
        · exact yields_refused ..

theorem hostReadStep_keepsDirection (offset width : Nat) (s : State) :
    Yields (KeepsDirection s) (hostReadStep offset width s) := by
  refine yields_iff.mpr fun t h => ?_
  rw [hostReadStep_next h]
  exact ⟨rfl, rfl, rfl⟩

/-- One step of any agent. -/
theorem perform_directionStep (act : Action) (s : State) : Yields (DirectionStep s) (perform act s) := by
  cases act with
  | seq answer => exact seqStep_directionStep answer s
  | rxc b => exact yields_of_keepsDirection (.ite ⟨rfl, rfl, rfl⟩ (.refl s))
  | tick => exact yields_of_keepsDirection ⟨rfl, rfl, rfl⟩
  | raise => exact yields_of_keepsDirection ⟨rfl, rfl, rfl⟩
  | hostWrite offset width v => exact hostWriteStep_directionStep offset width v s
  | hostRead offset width => exact (hostReadStep_keepsDirection offset width s).directionStep
  | hmWrite a v => exact yields_of_keepsDirection (.ite ⟨rfl, rfl, rfl⟩ (.refl s))
  | hmRead a => exact yields_of_keepsDirection (.ite ⟨rfl, rfl, rfl⟩ (.refl s))
  | reset => exact yields_next.mpr (resetEvent_directionStep s)

theorem nextAction_keepsDirection (s : State) : KeepsDirection s (nextAction s).2 := by
  unfold nextAction
  split
  · exact ⟨rfl, rfl, rfl⟩
  · exact ⟨rfl, rfl, rfl⟩

/-- What a step of the machine can do to the direction, its pin and the parameters. -/
theorem step_directionStep {s t : State} (h : step s = .next t) : DirectionStep s t :=
  (nextAction_keepsDirection s).trans_directionStep (yields_iff.mp (perform_directionStep _ _) t h)

/-- R19: the pin's level, as the obligation writes it. -/
theorem dirLevel_eq_ite (p : Params) (d : Direction) :
    dirLevel p d = if d = .transmit then p.dirTxLevel else !p.dirTxLevel := by
  cases d with
  | transmit => rfl
  | receive => rfl

theorem DirectionStep.cfg {s t : State} (h : DirectionStep s t) : t.cfg = s.cfg := h.left

/-- A step with no part in the direction keeps a pin that is right, and any other makes it right. -/
theorem DirectionStep.pin {s t : State} (h : DirectionStep s t) (hs : s.dirPin = dirLevel s.cfg s.dir) :
    t.dirPin = dirLevel t.cfg t.dir := by
  obtain ⟨hcfg, ⟨hdir, hpin⟩ | hpin⟩ := h
  · rw [hpin, hs, hcfg, hdir]
  · exact hpin

/-- Settles O53: a step leaves both the direction and the pin or brings the pin to the direction's level. -/
theorem pinFollowsDirection : Obligations.PinFollowsDirection := by
  unfold Obligations.PinFollowsDirection
  simp only [← dirLevel_eq_ite]
  refine ⟨rfl, fun s t hs h => ?_⟩
  have hstep : DirectionStep s t := step_directionStep h
  exact ⟨hstep.pin hs, hstep.cfg⟩

end Sys2Proof.Machine
end

section
/-! The host's refused accesses of the register block (R52): which accesses have no meaning, and what the host's two
register steps answer to them while SEQ is Idle. -/

namespace Sys2Proof.Machine

/-- R34: the host's steps are enabled at Idle. -/
theorem seqIdle_of_idle {s : State} (hs : s.seq = .idle) : seqIdle s = true := by
  simp [seqIdle, hs]

/-- R52: an access of another width, at a misaligned offset or at a reserved one (R27) has no meaning. -/
theorem accessRefusal_of_bad (s : State) {off width : Nat}
    (hbad : width ≠ 4 ∨ off % 4 ≠ 0 ∨ off ∈ [0x14, 0x18, 0x1C, 0x30, 0x34, 0x38, 0x3C]) :
    ∃ r, accessRefusal s off width = some r := by
  refine Option.ne_none_iff_exists'.mp fun hnone => ?_
  obtain ⟨hwidth, himpl⟩ := (accessRefusal_none_iff s off width).mp hnone
  simp only [List.mem_cons, List.not_mem_nil, or_false] at himpl hbad
  omega

/-- R52: while SEQ is Idle a host read that has no meaning is refused. -/
theorem hostReadStep_refused {s : State} {off width : Nat} {r : Refusal} (hs : s.seq = .idle)
    (hr : accessRefusal s off width = some r) : hostReadStep off width s = .refused r := by
  simp [hostReadStep, seqIdle_of_idle hs, hr]

/-- R52: while SEQ is Idle a host write that has no meaning is refused. -/
theorem hostWriteStep_refused {s : State} {off width : Nat} (v : Word) {r : Refusal} (hs : s.seq = .idle)
    (hr : accessRefusal s off width = some r) : hostWriteStep off width v s = .refused r := by
  simp [hostWriteStep, seqIdle_of_idle hs, hr]

/-- R52: of the registers the host writes only CMD_LO and CMD_HI. -/
theorem hostWriteStep_readOnly {s : State} {off width : Nat} (v : Word) (hs : s.seq = .idle)
    (hnone : accessRefusal s off width = none) (hlo : off ≠ 0x00) (hhi : off ≠ 0x04) :
    hostWriteStep off width v s = .refused .registerReadOnly := by
  simp [hostWriteStep, seqIdle_of_idle hs, hnone, hlo, hhi]

/-- R27: a result register's offset is an implemented one, and neither CMD_LO's nor CMD_HI's. -/
theorem resultOffset_implemented {off : Nat} (h : off ∈ [0x08, 0x0C, 0x10, 0x20, 0x24, 0x28, 0x2C]) :
    off ∈ [0x00, 0x04, 0x08, 0x0C, 0x10, 0x20, 0x24, 0x28, 0x2C] ∧ off ≠ 0x00 ∧ off ≠ 0x04 := by
  simp only [List.mem_cons, List.not_mem_nil, or_false] at h ⊢
  omega

/-- Settles O11: a bad access has no meaning, so both register steps refuse it, and a write of a result register is an
access that has a meaning but not a write's. -/
theorem badRegisterAccessIsRefused : Obligations.BadRegisterAccessIsRefused := by
  unfold Obligations.BadRegisterAccessIsRefused
  intro s rest off width v hidle
  refine ⟨fun hbad => ?_, fun hresult hagenda => ?_⟩
  · obtain ⟨r, hr⟩ := accessRefusal_of_bad { s with agenda := rest } hbad
    refine ⟨fun hagenda => ⟨r, ?_⟩, fun hagenda => ⟨r, ?_⟩⟩
    · rw [step_of_agenda hagenda]
      exact hostReadStep_refused hidle hr
    · rw [step_of_agenda hagenda]
      exact hostWriteStep_refused v hidle hr
  · obtain ⟨himpl, hlo, hhi⟩ := resultOffset_implemented hresult
    rw [step_of_agenda hagenda]
    exact hostWriteStep_readOnly v hidle ((accessRefusal_none_iff _ off 4).mpr ⟨rfl, himpl⟩) hlo hhi

end Sys2Proof.Machine
end

section
/-! HDX has no failure result (R91): while an HDX command runs, every agent's step but Reset leaves the command latched and
SEQ running, or is the command's own `finish(1, 0b00)`. -/

namespace Sys2Proof.Machine

/-! ### What a step of a running HDX command can do -/

/-- `t` has the command of `s` latched, and if SEQ is Idle in `t`, the command finished with STATUS 0x01. -/
def FinishesOk (s t : State) : Prop := t.cmd = s.cmd ∧ (t.seq = .idle → t.status = 0x01)

theorem FinishesOk.of_running {s t : State} (hcmd : t.cmd = s.cmd) (hrun : t.seq ≠ .idle) : FinishesOk s t :=
  ⟨hcmd, fun hidle => absurd hidle hrun⟩

theorem FinishesOk.trans_cmd {s u t : State} (hcmd : u.cmd = s.cmd) (h : FinishesOk u t) : FinishesOk s t :=
  ⟨h.left.trans hcmd, h.right⟩

/-- A numbered step that moves on to another (R34). -/
theorem yields_finishesOk_moveTo {op : BitVec 4} {l : Line} {i a : Nat} {s u : State} (hcmd : u.cmd = s.cmd) :
    Yields (FinishesOk s) (.next (moveTo op l i a u)) :=
  yields_next.mpr (.of_running hcmd SeqPos.noConfusion)

/-- The last numbered step of every HDX command. -/
theorem yields_finishesOk_finish {s u : State} (hcmd : u.cmd = s.cmd) :
    Yields (FinishesOk s) (.next (finish true .none u)) :=
  yields_next.mpr ⟨hcmd, fun _ => statusWord_ok⟩

/-- A transmit hold (R78) stays where it is or moves on. -/
theorem await_finishesOk {c : Cond} {op : BitVec 4} {l : Line} {i a : Nat} {s : State} (hrun : s.seq ≠ .idle) :
    Yields (FinishesOk s) (await c (moveTo op l i a) s) := by
  rw [await_eq]
  split
  · exact yields_finishesOk_moveTo rfl
  · exact yields_next.mpr (.of_running rfl hrun)

/-- While a command runs its meaning is one of its numbered steps: the issue check has been passed. -/
theorem yields_atPosition_running {P : State → Prop} {i : Instr} {s : State} {f : Line → Sub → Nat → Nat → Result}
    (hrun : s.seq ≠ .idle) (hf : ∀ l sub k a, Yields P (f l sub k a)) : Yields P (atPosition i s f) := by
  unfold atPosition
  split
  · contradiction
  · split
    · exact hf ..
    · exact yields_fault ..

/-- R84 S3: an iteration that copies goes on to the next one. -/
theorem copyByte_finishesOk (ptr : Half) (i a : Nat) (s : State) : Yields (FinishesOk s) (copyByte ptr i a s) := by
  unfold copyByte
  split
  · split
    · next t ht =>
      obtain ⟨-, rfl⟩ := hmStore_some ht
      exact yields_finishesOk_moveTo rfl
    · exact yields_fault ..
  · exact yields_fault ..

/-! ### The eight commands -/

section Commands
variable {s : State} (hrun : s.seq ≠ .idle)
include hrun

theorem execSetdir_finishesOk (d : Direction) : Yields (FinishesOk s) (execSetdir d s) := by
  refine yields_atPosition_running hrun fun l sub i a => ?_
  split
  · exact yields_finishesOk_moveTo rfl
  · exact yields_finishesOk_moveTo rfl
  · exact yields_finishesOk_finish rfl
  · exact yields_fault ..

theorem execSendb_finishesOk (b : Byte) : Yields (FinishesOk s) (execSendb b s) := by
  refine yields_atPosition_running hrun fun l sub i a => ?_
  split
  · exact yields_finishesOk_moveTo rfl
  · exact yields_finishesOk_moveTo rfl
  · exact await_finishesOk hrun
  · exact yields_finishesOk_moveTo rfl
  · exact await_finishesOk hrun
  · exact yields_finishesOk_moveTo rfl
  · exact yields_finishesOk_moveTo rfl
  · exact yields_finishesOk_finish rfl
  · exact yields_fault ..

theorem transmitLines_finishesOk (op : BitVec 4) (ptr : Half) (n : Nat) (l : Line) (sub : Sub) (i a : Nat) :
    Yields (FinishesOk s) (transmitLines op ptr n l sub i a s) := by
  unfold transmitLines
  split
  · exact yields_finishesOk_moveTo rfl
  · exact yields_finishesOk_moveTo rfl
  · exact await_finishesOk hrun
  · split
    · exact yields_finishesOk_moveTo rfl
    · exact yields_fault ..
  · exact await_finishesOk hrun
  · exact yields_finishesOk_moveTo rfl
  · exact yields_finishesOk_moveTo rfl
  · exact yields_finishesOk_finish rfl
  · exact yields_fault ..

theorem execSends_finishesOk (ptr : Half) : Yields (FinishesOk s) (execSends ptr s) := by
  refine yields_atPosition_running hrun fun l sub i a => ?_
  split
  · exact transmitLines_finishesOk hrun ..
  · exact yields_fault ..

theorem execSendbuf_finishesOk (ptr len : Half) : Yields (FinishesOk s) (execSendbuf ptr len s) :=
  yields_atPosition_running hrun fun _ _ _ _ => transmitLines_finishesOk hrun ..

theorem execRecv_finishesOk (ptr len : Half) : Yields (FinishesOk s) (execRecv ptr len s) := by
  refine yields_atPosition_running hrun fun l sub i a => ?_
  split
  · split
    · exact yields_finishesOk_moveTo rfl
    · exact yields_finishesOk_finish rfl
  · exact yields_finishesOk_moveTo rfl
  · split
    · exact yields_finishesOk_moveTo rfl
    · exact copyByte_finishesOk ..
  · exact yields_finishesOk_moveTo rfl
  · exact yields_finishesOk_moveTo rfl
  · exact yields_finishesOk_finish rfl
  · exact yields_fault ..

theorem execAvail_finishesOk : Yields (FinishesOk s) (execAvail s) := by
  refine yields_atPosition_running hrun fun l sub i a => ?_
  split
  · exact yields_finishesOk_finish rfl
  · exact yields_fault ..

theorem execRxlen_finishesOk : Yields (FinishesOk s) (execRxlen s) := by
  refine yields_atPosition_running hrun fun l sub i a => ?_
  split
  · exact yields_finishesOk_finish rfl
  · exact yields_fault ..

theorem execClrrx_finishesOk : Yields (FinishesOk s) (execClrrx s) := by
  refine yields_atPosition_running hrun fun l sub i a => ?_
  split
  · exact yields_finishesOk_moveTo rfl
  · exact yields_finishesOk_moveTo rfl
  · exact yields_finishesOk_finish rfl
  · exact yields_fault ..

/-- Opcodes 1 to 8 are the HDX commands (R65). -/
theorem exec_finishesOk {i : Instr} (hop : i.opcode.toNat ≤ 8) : Yields (FinishesOk s) (exec i s) := by
  cases i with
  | setdir d => exact execSetdir_finishesOk hrun d
  | sendb b => exact execSendb_finishesOk hrun b
  | sends ptr => exact execSends_finishesOk hrun ptr
  | sendbuf ptr len => exact execSendbuf_finishesOk hrun ptr len
  | recv ptr len => exact execRecv_finishesOk hrun ptr len
  | avail => exact execAvail_finishesOk hrun
  | rxlen => exact execRxlen_finishesOk hrun
  | clrrx => exact execClrrx_finishesOk hrun
  | wrb sa ra v => simp [Instr.opcode] at hop
  | rdb sa ra => simp [Instr.opcode] at hop
  | wrbuf sa ra ptr len => simp [Instr.opcode] at hop
  | rdbuf sa ra ptr len => simp [Instr.opcode] at hop
  | scan => simp [Instr.opcode] at hop

end Commands

/-! ### Agents and runs -/

theorem seqIdle_of_running {s : State} (hrun : s.seq ≠ .idle) : seqIdle s = false := by
  simp [seqIdle, hrun]

/-- SEQ's step of a running command is the latched command's meaning, with ENV's answers at hand (R34, R35). -/
theorem seqStep_running {s : State} {i : Instr} (answer : Answer) (hrun : s.seq ≠ .idle) (hi : decode s.cmd = .ok i) :
    seqStep answer s = exec i { s with env := answer } := by
  simp [seqStep, seqIdle_of_running hrun, hi]

/-- R129: while a command runs the host's steps are passed over. -/
theorem perform_host_running {act : Action} {s : State} (hrun : s.seq ≠ .idle) (hact : isHostAction act = true) :
    perform act s = .next s := by
  have hbusy : seqIdle s = false := seqIdle_of_running hrun
  cases act with
  | hostWrite offset width v => simp [perform, hostWriteStep, hbusy]
  | hostRead offset width => simp [perform, hostReadStep, hbusy]
  | hmWrite a v => simp [perform, hmWriteStep, hbusy]
  | hmRead a => simp [perform, hmReadStep, hbusy]
  | seq answer => cases hact
  | rxc b => cases hact
  | tick => cases hact
  | raise => cases hact
  | reset => cases hact

/-- While an HDX command runs, only its own numbered step can end it, whichever agent but Reset moves. -/
theorem perform_finishesOk {act : Action} {s : State} {i : Instr} (hop : i.opcode.toNat ≤ 8)
    (hi : decode s.cmd = .ok i) (hrun : s.seq ≠ .idle) (hact : act ≠ .reset) :
    Yields (FinishesOk s) (perform act s) := by
  have hstays : Yields (FinishesOk s) (.next s) := yields_next.mpr (.of_running rfl hrun)
  have hhost (h : isHostAction act = true) : Yields (FinishesOk s) (perform act s) :=
    (perform_host_running hrun h).symm ▸ hstays
  cases act with
  | seq answer =>
    rw [perform, seqStep_running answer hrun hi]
    exact exec_finishesOk (s := { s with env := answer }) hrun hop
  | rxc b =>
    rw [perform]
    split
    · exact yields_next.mpr (.of_running rfl hrun)
    · exact hstays
  | tick => exact yields_next.mpr (.of_running rfl hrun)
  | raise => exact yields_next.mpr (.of_running rfl hrun)
  | hostWrite offset width v => exact hhost rfl
  | hostRead offset width => exact hhost rfl
  | hmWrite a v => exact hhost rfl
  | hmRead a => exact hhost rfl
  | reset => contradiction

/-- Choosing the next agent touches neither the latched command nor the SEQ position. -/
theorem nextAction_keepsCommand (s : State) : (nextAction s).2.cmd = s.cmd ∧ (nextAction s).2.seq = s.seq := by
  unfold nextAction
  split
  · exact ⟨rfl, rfl⟩
  · exact ⟨rfl, rfl⟩

theorem step_finishesOk {s t : State} {i : Instr} (hop : i.opcode.toNat ≤ 8) (hi : decode s.cmd = .ok i)
    (hrun : s.seq ≠ .idle) (hact : (nextAction s).1 ≠ .reset) (h : step s = .next t) : FinishesOk s t := by
  obtain ⟨hcmd, hseq⟩ := nextAction_keepsCommand s
  exact .trans_cmd hcmd (yields_iff.mp (perform_finishesOk hop (hcmd ▸ hi) (hseq ▸ hrun) hact) t h)

theorem completion_zero {s t : State} (h : completion 0 s = some t) : s.seq = .idle ∧ s = t := by
  simpa [completion] using h

/-- The first step of a completed run: SEQ is running, the step is no Reset and the rest of the run completes. -/
theorem completion_succ {n : Nat} {s t : State} (h : completion (n + 1) s = some t) :
    s.seq ≠ .idle ∧ (nextAction s).1 ≠ .reset ∧ ∃ u, step s = .next u ∧ completion n u = some t := by
  unfold completion at h
  split at h
  · cases h
  · next hrun =>
    split at h
    · cases h
    · next hact =>
      split at h
      · next u hu => exact ⟨hrun, hact, u, hu, h⟩
      · cases h
      · cases h

/-- R91 along a run: a run that starts with an HDX command latched, and with STATUS 0x01 should SEQ be Idle already, ends
with STATUS 0x01. -/
theorem completion_status_ok {i : Instr} (hop : i.opcode.toNat ≤ 8) {n : Nat} {s t : State}
    (hi : decode s.cmd = .ok i) (hdone : s.seq = .idle → s.status = 0x01) (h : completion n s = some t) :
    t.status = 0x01 := by
  induction n generalizing s with
  | zero =>
    obtain ⟨hidle, rfl⟩ := completion_zero h
    exact hdone hidle
  | succ n ih =>
    obtain ⟨hrun, hact, u, hu, hrest⟩ := completion_succ h
    obtain ⟨hcmd, hdone'⟩ := step_finishesOk hop hi hrun hact hu
    exact ih (hcmd.symm ▸ hi) hdone' hrest

/-- Settles O46: an issued command is running, so only its own last step can bring SEQ to Idle. -/
theorem hdxCommandsNeverFail : Obligations.HdxCommandsNeverFail := by
  unfold Obligations.HdxCommandsNeverFail
  intro i n s t hop hissued h
  obtain ⟨hseq, hi, -⟩ := hissued
  exact completion_status_ok hop hi (fun hidle => by simp [hseq] at hidle) h

end Sys2Proof.Machine
end

section
/-! The encoding (R62 to R74): decoding and encoding a descriptor undo each other, the opcode table's rows, the trace's event
words, and the descriptors the assembler emits. -/

namespace Sys2Proof

/-! ### Decoding and encoding -/

/-- R66: the fields of a well-formed command's descriptor decode to it. -/
theorem decode_encode {i : Instr} (hwf : i.wf = true) : decode (encode i) = .ok i := by
  cases i with
  | setdir d => cases d <;> decide
  | rdbuf sa ra ptr len =>
    have hlen : len ≠ 0 := by simpa [Instr.wf] using hwf
    simpa [decode, encode, fieldsOf_packFields, decodeFields, decodeUnused] using hlen
  | _ => simp [decode, encode, fieldsOf_packFields, decodeFields, decodeUnused]

/-- R63: IMM8 of a SETDIR descriptor, all zero above bit 0 (as the decoder and as the row's mask say it), is its direction's
field. -/
theorem directionField_of_bits (imm8 : Byte) (h : imm8.extractLsb' 1 7 = 0 ∨ imm8 &&& 0xFE = 0) :
    directionField (if imm8.getLsbD 0 then .transmit else .receive) = imm8 := by
  revert imm8
  decide

/-- R67: fields that decode have zero reserved bits and are those the command is packed from. -/
theorem packFields_of_decodeFields {f : Fields} {i : Instr} (h : decodeFields f = .ok i) :
    f.rsv0 = 0 ∧ f.rsv1 = 0 ∧ encode i = packFields f.op f.sa f.ra f.imm8 f.len f.ptr ∧ i.wf = true := by
  obtain ⟨rsv0, op, rsv1, sa, ra, imm8, len, ptr⟩ := f
  unfold decodeFields at h
  simp only [ite_eq_iff, decodeUnused_ok_iff, reduceCtorEq, and_false, false_or, or_false, not_or, not_not,
    Bool.and_eq_true, beq_iff_eq] at h
  obtain ⟨⟨hrsv0, hrsv1⟩, h⟩ := h
  refine ⟨hrsv0, hrsv1, ?_⟩
  rcases h with ⟨rfl, hzero, rfl⟩ | ⟨-, h⟩
  · obtain ⟨⟨⟨⟨himm, rfl⟩, rfl⟩, rfl⟩, rfl⟩ := hzero
    simp only [encode, directionField_of_bits imm8 (.inl himm), Instr.wf, and_self]
  rcases h with ⟨rfl, hz, rfl⟩ | ⟨-, ⟨rfl, hz, rfl⟩ | ⟨-, ⟨rfl, hz, rfl⟩ | ⟨-, ⟨rfl, hz, rfl⟩ | ⟨-, 
    ⟨rfl, hz, rfl⟩ | ⟨-, ⟨rfl, hz, rfl⟩ | ⟨-, ⟨rfl, hz, rfl⟩ | ⟨-, ⟨rfl, hz, rfl⟩ | ⟨-, ⟨rfl, hz, rfl⟩ | ⟨-, ⟨rfl, hz, rfl⟩ | ⟨-, 
    ⟨rfl, hlen, hz, rfl⟩ | ⟨-, ⟨rfl, hz, rfl⟩⟩⟩⟩⟩⟩⟩⟩⟩⟩⟩⟩ <;>
    simp_all [encode, Instr.wf]

/-- R67: a descriptor that decodes is the descriptor of a well-formed command. -/
theorem encode_of_decode {d : Descriptor} {i : Instr} (h : decode d = .ok i) : encode i = d ∧ i.wf = true := by
  obtain ⟨hrsv0, hrsv1, hpack, hwf⟩ := packFields_of_decodeFields h
  exact ⟨hpack.trans (packFields_fieldsOf d hrsv0 hrsv1), hwf⟩

/-- A descriptor decodes to a command exactly when it is the command's and the command is well formed. -/
theorem decode_ok_iff (d : Descriptor) (i : Instr) : decode d = .ok i ↔ encode i = d ∧ i.wf = true :=
  ⟨encode_of_decode, fun ⟨hd, hwf⟩ => hd ▸ decode_encode hwf⟩

/-- Settles O1. -/
theorem decodeOfEncodeIsTheCommand : Obligations.DecodeOfEncodeIsTheCommand := by
  unfold Obligations.DecodeOfEncodeIsTheCommand
  exact fun i hwf => decode_encode hwf

/-- Settles O2. -/
theorem encodeOfDecodeIsTheDescriptor : Obligations.EncodeOfDecodeIsTheDescriptor := by
  unfold Obligations.EncodeOfDecodeIsTheDescriptor
  exact fun d i h => encode_of_decode h

/-- Settles O4: each word is the packed descriptor of its command. -/
theorem decodeReadsWrittenWords : Obligations.DecodeReadsWrittenWords := by
  unfold Obligations.DecodeReadsWrittenWords
  refine ⟨?_, ?_, ?_, ?_, ?_, ?_⟩ <;> exact (decode_ok_iff ..).mpr (by decide)

/-! ### The opcode table -/

/-- The fields of a masked descriptor are its masked fields. -/
theorem fieldsOf_and (d m : Descriptor) :
    fieldsOf (d &&& m) =
      { rsv0 := (fieldsOf d).rsv0 &&& (fieldsOf m).rsv0, op := (fieldsOf d).op &&& (fieldsOf m).op,
        rsv1 := (fieldsOf d).rsv1 &&& (fieldsOf m).rsv1, sa := (fieldsOf d).sa &&& (fieldsOf m).sa,
        ra := (fieldsOf d).ra &&& (fieldsOf m).ra, imm8 := (fieldsOf d).imm8 &&& (fieldsOf m).imm8,
        len := (fieldsOf d).len &&& (fieldsOf m).len, ptr := (fieldsOf d).ptr &&& (fieldsOf m).ptr } := by
  simp [fieldsOf, BitVec.extractLsb'_and]

/-- R66: a row's mask and match depend on the mnemonic only. -/
theorem row_of_opcode {i r : Instr} (h : i.opcode = r.opcode) : i.rowMask = r.rowMask ∧ i.rowMatch = r.rowMatch := by
  cases i <;> cases r <;> simp_all [Instr.opcode, Instr.rowMask, Instr.rowMatch]

/-- R66: a command's descriptor matches its row. -/
theorem encode_and_rowMask (i : Instr) : encode i &&& i.rowMask = i.rowMatch := by
  cases i with
  | setdir d => exact (Laws.Encoding.setdir d).2.2.2
  | sendb b => exact (Laws.Encoding.sendb b).2.2.2
  | sends ptr => exact (Laws.Encoding.sends ptr).2.2.2
  | sendbuf ptr len => exact (Laws.Encoding.sendbuf ptr len).2.2.2
  | recv ptr len => exact (Laws.Encoding.recv ptr len).2.2.2
  | avail => exact Laws.Encoding.avail.2.2.2
  | rxlen => exact Laws.Encoding.rxlen.2.2.2
  | clrrx => exact Laws.Encoding.clrrx.2.2.2
  | wrb sa ra v => exact (Laws.Encoding.wrb sa ra v).2.2.2
  | rdb sa ra => exact (Laws.Encoding.rdb sa ra).2.2.2
  | wrbuf sa ra ptr len => exact (Laws.Encoding.wrbuf sa ra ptr len).2.2.2
  | rdbuf sa ra ptr len => exact (Laws.Encoding.rdbuf sa ra ptr len).2.2.2
  | scan => exact Laws.Encoding.scan.2.2.2

/-- R66: the LEN field of RDBUF's descriptor is its operand. -/
theorem length_of_opcode_rdbuf {i : Instr} (hop : i.opcode = 0xC) (hwf : i.wf = true) : (fieldsOf (encode i)).len ≠ 0 := by
  cases i with
  | rdbuf sa ra ptr len => simpa [encode, fieldsOf_packFields, Instr.wf] using hwf
  | _ => simp [Instr.opcode] at hop

/-- R66: the bits of each field that a row's mask keeps. -/
def Instr.fieldMask : Instr → Fields
  | .setdir _ => ⟨0xF, 0xF, 1, 0x7F, 0xFF, 0xFE, 0xFFFF, 0xFFFF⟩
  | .sendb _ => ⟨0xF, 0xF, 1, 0x7F, 0xFF, 0, 0xFFFF, 0xFFFF⟩
  | .sends _ => ⟨0xF, 0xF, 1, 0x7F, 0xFF, 0xFF, 0xFFFF, 0⟩
  | .sendbuf _ _ => ⟨0xF, 0xF, 1, 0x7F, 0xFF, 0xFF, 0, 0⟩
  | .recv _ _ => ⟨0xF, 0xF, 1, 0x7F, 0xFF, 0xFF, 0, 0⟩
  | .avail => ⟨0xF, 0xF, 1, 0x7F, 0xFF, 0xFF, 0xFFFF, 0xFFFF⟩
  | .rxlen => ⟨0xF, 0xF, 1, 0x7F, 0xFF, 0xFF, 0xFFFF, 0xFFFF⟩
  | .clrrx => ⟨0xF, 0xF, 1, 0x7F, 0xFF, 0xFF, 0xFFFF, 0xFFFF⟩
  | .wrb _ _ _ => ⟨0xF, 0xF, 1, 0, 0, 0, 0xFFFF, 0xFFFF⟩
  | .rdb _ _ => ⟨0xF, 0xF, 1, 0, 0, 0xFF, 0xFFFF, 0xFFFF⟩
  | .wrbuf _ _ _ _ => ⟨0xF, 0xF, 1, 0, 0, 0xFF, 0, 0⟩
  | .rdbuf _ _ _ _ => ⟨0xF, 0xF, 1, 0, 0, 0xFF, 0, 0⟩
  | .scan => ⟨0xF, 0xF, 1, 0x7F, 0xFF, 0xFF, 0xFFFF, 0xFFFF⟩

theorem fieldsOf_rowMask (r : Instr) : fieldsOf r.rowMask = r.fieldMask := by
  cases r <;> simp only [Instr.rowMask, Instr.fieldMask] <;> decide

theorem fieldsOf_rowMatch (r : Instr) :
    fieldsOf r.rowMatch = { rsv0 := 0, op := r.opcode, rsv1 := 0, sa := 0, ra := 0, imm8 := 0, len := 0, ptr := 0 } := by
  cases r <;> simp only [Instr.rowMatch, Instr.opcode] <;> decide

/-- A field that its row's mask keeps whole. -/
theorem and_ones : (∀ x : BitVec 1, x &&& 1#1 = x) ∧ (∀ x : BitVec 4, x &&& 15#4 = x) ∧ (∀ x : BitVec 7, x &&& 127#7 = x) ∧
    (∀ x : BitVec 8, x &&& 255#8 = x) ∧ ∀ x : BitVec 16, x &&& 65535#16 = x :=
  ⟨fun _ => BitVec.and_allOnes, fun _ => BitVec.and_allOnes, fun _ => BitVec.and_allOnes, fun _ => BitVec.and_allOnes,
    fun _ => BitVec.and_allOnes⟩

/-- R66: the reserved bits and the opcode are in every row. -/
theorem fixed_of_row {d : Descriptor} {r : Instr} (h : d &&& r.rowMask = r.rowMatch) :
    (fieldsOf d).rsv0 = 0 ∧ (fieldsOf d).rsv1 = 0 ∧ (fieldsOf d).op = r.opcode := by
  have hmask : fieldsOf (d &&& r.rowMask) = fieldsOf r.rowMatch := congrArg fieldsOf h
  rw [fieldsOf_and, fieldsOf_rowMask, fieldsOf_rowMatch, Fields.mk.injEq] at hmask
  obtain ⟨hrsv0, hop, hrsv1, -⟩ := hmask
  cases r <;> simp_all [Instr.fieldMask, and_ones]

/-- R66: the operand fields that a row asks to be zero. -/
theorem masked_of_row {d : Descriptor} {r : Instr} (h : d &&& r.rowMask = r.rowMatch) :
    (fieldsOf d).sa &&& r.fieldMask.sa = 0 ∧ (fieldsOf d).ra &&& r.fieldMask.ra = 0 ∧
      (fieldsOf d).imm8 &&& r.fieldMask.imm8 = 0 ∧ (fieldsOf d).len &&& r.fieldMask.len = 0 ∧
      (fieldsOf d).ptr &&& r.fieldMask.ptr = 0 := by
  have hmask : fieldsOf (d &&& r.rowMask) = fieldsOf r.rowMatch := congrArg fieldsOf h
  rw [fieldsOf_and, fieldsOf_rowMask, fieldsOf_rowMatch, Fields.mk.injEq] at hmask
  obtain ⟨-, -, -, hoperands⟩ := hmask
  exact hoperands

/-- R66: the command of a row's mnemonic with the operands of some fields. -/
def Instr.withFields (f : Fields) : Instr → Instr
  | .setdir _ => .setdir (if f.imm8.getLsbD 0 then .transmit else .receive)
  | .sendb _ => .sendb f.imm8
  | .sends _ => .sends f.ptr
  | .sendbuf _ _ => .sendbuf f.ptr f.len
  | .recv _ _ => .recv f.ptr f.len
  | .avail => .avail
  | .rxlen => .rxlen
  | .clrrx => .clrrx
  | .wrb _ _ _ => .wrb f.sa f.ra f.imm8
  | .rdb _ _ => .rdb f.sa f.ra
  | .wrbuf _ _ _ _ => .wrbuf f.sa f.ra f.ptr f.len
  | .rdbuf _ _ _ _ => .rdbuf f.sa f.ra f.ptr f.len
  | .scan => .scan

theorem opcode_withFields (f : Fields) (r : Instr) : (r.withFields f).opcode = r.opcode := by
  cases r <;> rfl

/-- R66: fields whose unused ones are zero are packed to the descriptor of the row's command. -/
theorem encode_withFields {f : Fields} {r : Instr} (hsa : f.sa &&& r.fieldMask.sa = 0)
    (hra : f.ra &&& r.fieldMask.ra = 0) (himm : f.imm8 &&& r.fieldMask.imm8 = 0)
    (hlen : f.len &&& r.fieldMask.len = 0) (hptr : f.ptr &&& r.fieldMask.ptr = 0) :
    encode (r.withFields f) = packFields r.opcode f.sa f.ra f.imm8 f.len f.ptr := by
  obtain ⟨rsv0, op, rsv1, sa, ra, imm8, len, ptr⟩ := f
  cases r <;>
    simp only [Instr.fieldMask, BitVec.ofNat_eq_ofNat, and_ones] at hsa hra himm hlen hptr <;>
    simp only [Instr.withFields, encode, Instr.opcode, BitVec.ofNat_eq_ofNat, *]
  rw [directionField_of_bits imm8 (.inr himm)]

/-- R66: a descriptor that matches a row is the descriptor of a command of that mnemonic. -/
theorem encode_of_row {d : Descriptor} {r : Instr} (h : d &&& r.rowMask = r.rowMatch) :
    encode (r.withFields (fieldsOf d)) = d := by
  obtain ⟨hrsv0, hrsv1, hop⟩ := fixed_of_row h
  obtain ⟨hsa, hra, himm, hlen, hptr⟩ := masked_of_row h
  rw [encode_withFields hsa hra himm hlen hptr, ← hop]
  exact packFields_fieldsOf d hrsv0 hrsv1

/-- R66: a command is well formed unless it is an empty read. -/
theorem wf_withFields {f : Fields} {r : Instr} (h : r.opcode = 0xC → f.len ≠ 0) : (r.withFields f).wf = true := by
  cases r with
  | rdbuf sa ra ptr len => simpa [Instr.withFields, Instr.wf] using h rfl
  | _ => rfl

/-- Settles O3: a descriptor that decodes is a command's, which matches its row, and one that matches a row is packed from
that row's operands. -/
theorem decodeFollowsTheOpcodeRows : Obligations.DecodeFollowsTheOpcodeRows := by
  unfold Obligations.DecodeFollowsTheOpcodeRows
  refine ⟨fun d r => ⟨?_, ?_⟩, fun d r r' h h' => ?_⟩
  · rintro ⟨i, hi, hop⟩
    obtain ⟨rfl, hwf⟩ := encode_of_decode hi
    obtain ⟨hmask, hmatch⟩ := row_of_opcode hop
    refine ⟨?_, fun hread => length_of_opcode_rdbuf (hop.trans hread) hwf⟩
    rw [← hmask, ← hmatch]
    exact encode_and_rowMask i
  · rintro ⟨hrow, hread⟩
    refine ⟨r.withFields (fieldsOf d), ?_, opcode_withFields _ r⟩
    exact (decode_ok_iff ..).mpr ⟨encode_of_row hrow, wf_withFields hread⟩
  · obtain ⟨-, -, hop⟩ := fixed_of_row h
    obtain ⟨-, -, hop'⟩ := fixed_of_row h'
    exact hop.symm.trans hop'

namespace Machine

/-! ### Event words -/

/-- R37: the condition of a code. -/
def condOfCode (n : Nat) : Cond :=
  match n with
  | 0 => .busFree
  | 1 => .startDone
  | 2 => .addrWAck
  | 3 => .addrRAck
  | 4 => .byteTxDone
  | 5 => .byteRxReady
  | 6 => .stopDone
  | 7 => .txe
  | _ => .tc

theorem condOfCode_condCode (c : Cond) : condOfCode (condCode c).toNat = c := by
  cases c <;> rfl

/-- R38: the event of a kind and a payload. -/
def eventOfFields (kind payload : Nat) : Event :=
  match kind with
  | 0x01 => .dir (payload == 1)
  | 0x02 => .delayUs (BitVec.ofNat 16 payload)
  | 0x03 => .delayMs (BitVec.ofNat 16 payload)
  | 0x04 => .uTx (BitVec.ofNat 8 payload)
  | 0x05 => .uRx (BitVec.ofNat 8 payload)
  | 0x06 => .start
  | 0x07 => .stop
  | 0x08 => .tx (BitVec.ofNat 8 payload)
  | 0x09 => .rx (BitVec.ofNat 8 payload)
  | 0x0A => .ack (payload == 1)
  | 0x0B => .waitOk (condOfCode payload)
  | _ => .waitTimeout (condOfCode payload)

/-- R38: the event that a word encodes. -/
def eventOfWord (w : Word) : Event := eventOfFields (w.toNat / 2 ^ 24) (w.toNat % 2 ^ 24)

/-- R38: the kind is the word's upper byte, the payload its other 24 bits. -/
theorem eventOfWord_eventFields (kind : Byte) (payload : BitVec 24) :
    eventOfWord (eventFields kind payload) = eventOfFields kind.toNat payload.toNat := by
  have hpayload := payload.isLt
  have hword : (eventFields kind payload).toNat = kind.toNat * 2 ^ 24 + payload.toNat := by
    rw [eventFields, BitVec.toNat_append, Nat.shiftLeft_eq, Nat.mul_comm, Nat.two_pow_add_eq_or_of_lt hpayload]
  rw [eventOfWord, hword]
  congr 1 <;> omega

/-- R38: a payload of at most 24 bits is the value it holds. -/
theorem toNat_payload {w : Nat} (h : w ≤ 24) (x : BitVec w) : (x.setWidth 24).toNat = x.toNat :=
  BitVec.toNat_setWidth_of_le h

theorem bit_toNat_eq_one (b : Bool) : ((bit b).toNat == 1) = b := by
  cases b <;> rfl

/-- R38: each event is read back from its word. -/
theorem eventOfWord_eventWord (e : Event) : eventOfWord (eventWord e) = e := by
  cases e <;> simp only [eventWord, eventOfWord_eventFields]
  case dir l => rw [toNat_payload (by decide)]; exact congrArg Event.dir (bit_toNat_eq_one l)
  case ack on => rw [toNat_payload (by decide)]; exact congrArg Event.ack (bit_toNat_eq_one on)
  case waitOk c => rw [toNat_payload (by decide)]; exact congrArg Event.waitOk (condOfCode_condCode c)
  case waitTimeout c => rw [toNat_payload (by decide)]; exact congrArg Event.waitTimeout (condOfCode_condCode c)
  case start => rfl
  case stop => rfl
  all_goals
    rw [toNat_payload (by decide)]
    simp [eventOfFields]

/-- Settles O5: the encoding has an inverse. -/
theorem eventWordsAreDistinct : Obligations.EventWordsAreDistinct := by
  unfold Obligations.EventWordsAreDistinct
  exact fun e e' h => Function.LeftInverse.injective eventOfWord_eventWord h

/-! ### The assembler -/

/-- R73: the read buffer of an assembler line is not empty. -/
theorem length_ne_zero {p n : Nat} {ptr len : Half} (h : asmBufferIs p n ptr len) (hn : 1 ≤ n) : len ≠ 0#16 := by
  obtain ⟨-, hlen, -⟩ := h
  rintro rfl
  simp only [BitVec.toNat_ofNat, Nat.zero_mod] at hlen
  omega

/-- Settles O6: each operand check succeeds exactly for the field's value, and encoding undoes decoding. -/
theorem assemblerEmitsTheLinesCommand : Obligations.AssemblerEmitsTheLinesCommand := by
  unfold Obligations.AssemblerEmitsTheLinesCommand
  intro cfg c d
  cases c with
  | desc n => exact asmField_ok_iff 64 n d
  | wrbuf sa ra p n =>
    simp only [assemble, except_bind_ok_iff, asmField_ok_iff, asmBuffer_ok_iff, decode_ok_iff, Instr.wf, Prod.exists,
      Except.ok.injEq, and_true]
    constructor
    · rintro ⟨ptr, len, hbuf, sa', hsa, ra', hra, hd⟩
      exact ⟨sa', ra', ptr, len, hsa, hra, hbuf, hd⟩
    · rintro ⟨sa', ra', ptr, len, hsa, hra, hbuf, hd⟩
      exact ⟨ptr, len, hbuf, sa', hsa, ra', hra, hd⟩
  | dwrbuf ra p n =>
    simp only [assemble, except_bind_ok_iff, asmField_ok_iff, asmBuffer_ok_iff, decode_ok_iff, Instr.wf, Prod.exists,
      Except.ok.injEq, and_true, Pseudo.expand]
    constructor
    · rintro ⟨ptr, len, hbuf, ra', hra, hd⟩
      exact ⟨ra', ptr, len, hra, hbuf, hd⟩
    · rintro ⟨ra', ptr, len, hra, hbuf, hd⟩
      exact ⟨ptr, len, hbuf, ra', hra, hd⟩
  | rdbuf sa ra p n =>
    simp only [assemble, except_bind_ok_iff, asmField_ok_iff, asmReadBuffer_ok_iff, decode_ok_iff, Instr.wf, Prod.exists,
      Except.ok.injEq, decide_eq_true_eq]
    constructor
    · rintro ⟨ptr, len, ⟨hn, hbuf⟩, sa', hsa, ra', hra, hd⟩
      exact ⟨sa', ra', ptr, len, hsa, hra, hn, hbuf, hd, length_ne_zero hbuf hn⟩
    · rintro ⟨sa', ra', ptr, len, hsa, hra, hn, hbuf, hd, -⟩
      exact ⟨ptr, len, ⟨hn, hbuf⟩, sa', hsa, ra', hra, hd⟩
  | drdbuf ra p n =>
    simp only [assemble, except_bind_ok_iff, asmField_ok_iff, asmReadBuffer_ok_iff, decode_ok_iff, Instr.wf, Prod.exists,
      Except.ok.injEq, decide_eq_true_eq, Pseudo.expand]
    constructor
    · rintro ⟨ptr, len, ⟨hn, hbuf⟩, ra', hra, hd⟩
      exact ⟨ra', ptr, len, hra, hn, hbuf, hd, length_ne_zero hbuf hn⟩
    · rintro ⟨ra', ptr, len, hra, hn, hbuf, hd, -⟩
      exact ⟨ptr, len, ⟨hn, hbuf⟩, ra', hra, hd⟩
  | _ =>
    simp [assemble, except_bind_ok_iff, asmField_ok_iff, asmBuffer_ok_iff, Pseudo.expand, decode_ok_iff, Instr.wf]

end Machine

end Sys2Proof
end

section
/-! The agents' steps one at a time (R15): the issue check, the host's accesses, Reset, the interrupts and the clock. -/

namespace Sys2Proof.Machine

/-! ### Issue -/

/-- R109: at Idle the meaning of a command is its issue check. -/
theorem exec_idle (i : Instr) {s : State} (h : s.seq = .idle) : exec i s = issue i s := by
  cases i <;> exact atPosition_idle _ h _

/-- R109: at Idle an IllegalCommand writes STATUS alone. -/
theorem raiseIllegalCommand_of_idle {s : State} (h : s.seq = .idle) : raiseIllegalCommand s = { s with status := 0x04 } := by
  obtain ⟨⟩ := s
  cases h
  rfl

theorem exec_idle_of_legal {i : Instr} {s : State} (h : s.seq = .idle) (hlegal : legal i s.hm = true) :
    exec i s = .next { s with seq := .at i.opcode .s1 .act 0 0 } := by
  rw [exec_idle i h, issue_eq, if_pos hlegal]

theorem exec_idle_of_illegal {i : Instr} {s : State} (h : s.seq = .idle) (hillegal : legal i s.hm ≠ true) :
    exec i s = .next { s with status := 0x04 } := by
  rw [exec_idle i h, issue_eq, if_neg hillegal, raiseIllegalCommand_of_idle h]

/-- Settles O9: the issue check is WF with the command's condition. -/
theorem idleMeaningIsTheIssueCheck : Obligations.IdleMeaningIsTheIssueCheck := by
  unfold Obligations.IdleMeaningIsTheIssueCheck
  intro i s hidle
  rw [← legal_iff]
  exact ⟨fun hwf hcond => exec_idle_of_legal hidle ((legal_iff i s.hm).mpr ⟨hwf, hcond⟩), exec_idle_of_illegal hidle⟩

/-- R129: while SEQ is Idle the host's write of CMD_HI is `issueDescriptor`. -/
theorem hostWriteStep_cmdHi {s : State} (hi : Word) (h : s.seq = .idle) :
    hostWriteStep 0x04 4 hi s = issueDescriptor hi s := by
  simp [hostWriteStep, seqIdle_of_idle h, (accessRefusal_none_iff s 0x04 4).mpr]

/-- R129: a descriptor that decodes is issued to its command. -/
theorem issueDescriptor_of_ok {s : State} {hi : Word} {i : Instr} (h : decode (hi ++ s.cmdLo) = .ok i) :
    issueDescriptor hi s = exec i { s with cmdHi := hi, cmd := hi ++ s.cmdLo } := by
  simp [issueDescriptor, descriptorOf, h]

/-- R109: a descriptor that decodes to nothing is an IllegalCommand. -/
theorem issueDescriptor_of_error {s : State} {hi : Word} {e : DecodeError} (h : decode (hi ++ s.cmdLo) = .error e) :
    issueDescriptor hi s = .next (raiseIllegalCommand { s with cmdHi := hi, cmd := hi ++ s.cmdLo }) := by
  simp [issueDescriptor, descriptorOf, h]

theorem issueDescriptor_of_legal {s : State} {hi : Word} {i : Instr} (hidle : s.seq = .idle)
    (h : decode (hi ++ s.cmdLo) = .ok i) (hlegal : legal i s.hm = true) :
    issueDescriptor hi s =
      .next { s with cmdHi := hi, cmd := hi ++ s.cmdLo, seq := .at i.opcode .s1 .act 0 0 } :=
  (issueDescriptor_of_ok h).trans (exec_idle_of_legal hidle hlegal)

theorem issueDescriptor_of_illegal {s : State} {hi : Word} (hidle : s.seq = .idle)
    (h : ∀ i, decode (hi ++ s.cmdLo) = .ok i → legal i s.hm ≠ true) :
    issueDescriptor hi s = .next { s with cmdHi := hi, cmd := hi ++ s.cmdLo, status := 0x04 } := by
  cases hdec : decode (hi ++ s.cmdLo) with
  | ok i => exact (issueDescriptor_of_ok hdec).trans (exec_idle_of_illegal hidle (h i hdec))
  | error e =>
    rw [issueDescriptor_of_error hdec]
    exact congrArg Host.Outcome.next (raiseIllegalCommand_of_idle hidle)

/-- R129: the host's write of CMD_HI as a step of the machine. -/
theorem step_of_issue {s : State} {hi : Word} {rest : List Action} (hidle : s.seq = .idle)
    (hagenda : s.agenda = .hostWrite 0x04 4 hi :: rest) : step s = issueDescriptor hi { s with agenda := rest } :=
  (step_of_agenda hagenda).trans (hostWriteStep_cmdHi (s := { s with agenda := rest }) hi hidle)

/-- SEQ's turn as a step of the machine. -/
theorem step_of_seq {s : State} {i : Instr} {answer : Answer} {rest : List Action}
    (hagenda : s.agenda = .seq answer :: rest) (hrun : s.seq ≠ .idle) (hi : decode s.cmd = .ok i) :
    step s = exec i { s with agenda := rest, env := answer } :=
  (step_of_agenda hagenda).trans (seqStep_running (s := { s with agenda := rest }) answer hrun hi)

/-- Settles O7: the two agents that run a meaning are SEQ, and the host as it writes CMD_HI. -/
theorem stepRunsTheDecodedCommand : Obligations.StepRunsTheDecodedCommand := by
  unfold Obligations.StepRunsTheDecodedCommand
  intro s i rest
  refine ⟨fun answer hagenda hrun hi => step_of_seq hagenda hrun hi, fun hi hagenda hidle hdec => ?_⟩
  exact (step_of_issue hidle hagenda).trans (issueDescriptor_of_ok hdec)

/-- Settles O8: a descriptor that decodes is well formed, so what is left of the issue check is the command's condition. -/
theorem issueCheckDecides : Obligations.IssueCheckDecides := by
  unfold Obligations.IssueCheckDecides
  intro s hi rest hidle hagenda
  refine ⟨fun i hdec hcond => ?_, fun hbad => ?_⟩
  · obtain ⟨-, hwf⟩ := encode_of_decode hdec
    exact (step_of_issue hidle hagenda).trans
      (issueDescriptor_of_legal hidle hdec ((legal_iff i s.hm).mpr ⟨hwf, hcond⟩))
  · exact (step_of_issue hidle hagenda).trans
      (issueDescriptor_of_illegal hidle fun i hdec hlegal => hbad i hdec ((legal_iff i s.hm).mp hlegal).right)

/-! ### The host -/

/-- R28: a host write to CMD_LO stores it. -/
theorem hostWriteStep_cmdLo {s : State} (v : Word) (h : s.seq = .idle) :
    hostWriteStep 0x00 4 v s = .next { s with cmdLo := v } := by
  simp [hostWriteStep, seqIdle_of_idle h, (accessRefusal_none_iff s 0x00 4).mpr]

/-- R27: a host read of an implemented register returns it. -/
theorem hostReadStep_of_register {s : State} {off : Nat} {v : Word} (h : s.seq = .idle)
    (hoff : off ∈ [0x00, 0x04, 0x08, 0x0C, 0x10, 0x20, 0x24, 0x28, 0x2C]) (hv : registerAt s off = some v) :
    hostReadStep off 4 s = .next { s with hostData := v } := by
  simp [hostReadStep, seqIdle_of_idle h, (accessRefusal_none_iff s off 4).mpr ⟨rfl, hoff⟩, hv]

/-- R27: the register at each implemented offset. -/
theorem registerAt_of_mem {s : State} {off : Nat} {v : Word}
    (h : (off, v) ∈ [(0x00, s.cmdLo), (0x04, s.cmdHi), (0x08, s.status), (0x0C, s.value), (0x10, s.count),
      (0x20, s.present.extractLsb' 0 32), (0x24, s.present.extractLsb' 32 32), (0x28, s.present.extractLsb' 64 32),
      (0x2C, s.present.extractLsb' 96 32)]) :
    off ∈ [0x00, 0x04, 0x08, 0x0C, 0x10, 0x20, 0x24, 0x28, 0x2C] ∧ registerAt s off = some v := by
  simp only [List.mem_cons, Prod.mk.injEq, List.not_mem_nil, or_false] at h
  rcases h with ⟨rfl, rfl⟩ | ⟨rfl, rfl⟩ | ⟨rfl, rfl⟩ | ⟨rfl, rfl⟩ | ⟨rfl, rfl⟩ | ⟨rfl, rfl⟩ | ⟨rfl, rfl⟩ | ⟨rfl, rfl⟩ |
    ⟨rfl, rfl⟩ <;> exact ⟨by decide, rfl⟩

/-- Settles O10: an access with a meaning is the register's store or load. -/
theorem hostReadsAndWritesRegisters : Obligations.HostReadsAndWritesRegisters := by
  unfold Obligations.HostReadsAndWritesRegisters
  intro s rest hidle
  refine ⟨fun v hagenda => ?_, fun off v hreg hagenda => ?_⟩
  · rw [step_of_agenda hagenda]
    exact hostWriteStep_cmdLo v hidle
  · obtain ⟨hoff, hv⟩ := registerAt_of_mem hreg
    rw [step_of_agenda hagenda]
    exact hostReadStep_of_register (s := { s with agenda := rest }) hidle hoff hv

/-- Settles O12: a host action is passed over while SEQ runs. -/
theorem hostIsBlockedUntilFinish : Obligations.HostIsBlockedUntilFinish := by
  unfold Obligations.HostIsBlockedUntilFinish
  intro s act rest hrun hhost hagenda
  rw [step_of_agenda hagenda]
  exact perform_host_running hrun hhost

theorem hmWriteStep_of_idle {s : State} (a : Half) (v : Byte) (h : s.seq = .idle) :
    hmWriteStep a v s = { s with hm := memWrite s.hm a.toNat v } :=
  if_pos (seqIdle_of_idle h)

/-- Settles O13: the byte is written into canonical memory. -/
theorem hostWritesOneByteOfMemory : Obligations.HostWritesOneByteOfMemory := by
  unfold Obligations.HostWritesOneByteOfMemory
  intro s a v rest hidle hwf hagenda
  refine ⟨memWrite s.hm a.toNat v, ?_, memWrite_wf a.isLt hwf, fun x => memRead_memWrite hwf⟩
  rw [step_of_agenda hagenda]
  exact congrArg Host.Outcome.next (hmWriteStep_of_idle (s := { s with agenda := rest }) a v hidle)

/-! ### Reset -/

/-- Settles O14: the Reset event is `resetEvent`, whose fields are given. -/
theorem resetEventSetsTheGivenValues : Obligations.ResetEventSetsTheGivenValues := by
  unfold Obligations.ResetEventSetsTheGivenValues
  intro s rest hagenda
  refine ⟨resetEvent { s with agenda := rest }, step_of_agenda hagenda, ?_⟩
  simp [resetEvent, State.reset, dirLevel]

/-- Settles O15: the fields of the reset state are given. -/
theorem resetStateHasTheGivenValues : Obligations.ResetStateHasTheGivenValues := by
  unfold Obligations.ResetStateHasTheGivenValues
  simp [State.reset]

/-- R7: the settling delay of the default parameters is in its range, whatever the open part is. -/
theorem default_wf : Params.default.wf = true := by
  have h := Config.settleAbove10.isLt
  simp only [Params.wf, Params.default, BitVec.toNat_ofNat, Bool.and_eq_true, decide_eq_true_eq]
  omega

/-- Settles O51: after reset HM is empty, the registers are zero and SEQ is Idle. -/
theorem resetSatisfiesTheInvariant : Obligations.ResetSatisfiesTheInvariant := by
  unfold Obligations.ResetSatisfiesTheInvariant
  have hdata : dataInv State.reset = true := by
    simp [dataInv, State.reset, Memory.wf, memWfFrom, dirLevel, default_wf]
  have hseq : seqInv State.reset = true := by simp [seqInv, State.reset]
  rw [Inv, hdata, hseq, Bool.and_self]

/-! ### Interrupts and the clock -/

/-- R89: an append with room stores its byte at the count, and no other. -/
theorem setIfInBounds_getElem? (buf : Vector Byte Config.rxCap) (n : Nat) (b : Byte) {k : Nat} (hk : k < Config.rxCap) :
    (buf.setIfInBounds n b)[k]? = if k = n then some b else buf[k]? := by
  rw [Vector.getElem?_setIfInBounds]
  split
  · next h =>
    subst h
    simp [hk]
  · next h => rw [if_neg (Ne.symm h)]

/-- R89: whether there is room, as the rule says it. -/
theorem rxRoom_iff (s : State) : rxRoom s = true ↔ s.rxCount.toNat < 256 := by
  simp [rxRoom]

/-- R89: what an append leaves at each index of the buffer: with the buffer full, the count is no index. -/
theorem rxcAppend_getElem? (b : Byte) (s : State) {k : Nat} (hk : k < 256) :
    (rxcAppend b s).rxBuf[k]? = if k = s.rxCount.toNat then some b else s.rxBuf[k]? := by
  rw [rxcAppend_rxBuf]
  split
  · exact setIfInBounds_getElem? s.rxBuf _ b hk
  · next hfull =>
    rw [rxRoom_iff] at hfull
    rw [if_neg (by omega)]

/-- Settles O16: RXC's action is the append when it is enabled, and nothing otherwise. -/
theorem receiveAppendFollowsItsRule : Obligations.ReceiveAppendFollowsItsRule := by
  unfold Obligations.ReceiveAppendFollowsItsRule
  intro s b rest hagenda
  rw [step_of_agenda hagenda, perform]
  refine ⟨fun hpend hfree => ?_, fun hoff => ?_⟩
  · have hon : rxcEnabled { s with agenda := rest } = true := by
      rw [rxcEnabled_iff]
      refine ⟨hpend, fun hatomic => Bool.eq_false_iff.mpr fun hin => ?_⟩
      obtain ⟨op, l, sub, i, a, hseq, hop⟩ := (insideDrain_iff s.seq).mp hin
      obtain ⟨hrecv, hclr⟩ := hfree hatomic op l sub i a hseq
      exact hop.elim hrecv hclr
    rw [if_pos hon]
    refine ⟨_, ?_, fun k => rxcAppend_getElem? b { s with agenda := rest }⟩
    simp [rxcAppend, emit, rxRoom]
  · have hoff : rxcEnabled { s with agenda := rest } ≠ true := by
      rw [Ne, rxcEnabled_iff]
      rintro ⟨hpend, hfree⟩
      rcases hoff with hpend' | ⟨hatomic, hin⟩
      · exact absurd (hpend.symm.trans hpend') (by decide)
      · exact absurd ((insideDrain_iff s.seq).mpr hin) (by simpa using hfree hatomic)
    rw [if_neg hoff]

/-- Settles O18. -/
theorem tickAddsOne : Obligations.TickAddsOne := by
  unfold Obligations.TickAddsOne
  exact fun s rest hagenda => step_of_agenda hagenda

/-- What the three interrupt agents change: the receive buffer, its count, flag and request, the clock and the trace. -/
def InterruptStep (s t : State) : Prop :=
  t = { s with
    rxBuf := t.rxBuf, rxCount := t.rxCount, rxReady := t.rxReady, rxPend := t.rxPend, tick := t.tick, trace := t.trace }

theorem perform_interruptStep {act : Action} (h : act = .tick ∨ act = .raise ∨ ∃ b, act = .rxc b) (s : State) :
    Yields (InterruptStep s) (perform act s) := by
  rcases h with rfl | rfl | ⟨b, rfl⟩
  · exact yields_next.mpr rfl
  · exact yields_next.mpr rfl
  · rw [perform, yields_next]
    split
    · exact rfl
    · exact rfl

/-- Settles O19: none of the named fields is among those an interrupt step writes. -/
theorem interruptsLeaveTheSequencer : Obligations.InterruptsLeaveTheSequencer := by
  unfold Obligations.InterruptsLeaveTheSequencer
  intro s t act rest hact hagenda hstep
  rw [step_of_agenda hagenda] at hstep
  have hframe : InterruptStep { s with agenda := rest } t := yields_iff.mp (perform_interruptStep hact _) t hstep
  rw [InterruptStep] at hframe
  rw [hframe]
  simp [sameSeq, sameResults, sameBm]

/-- RXC's turn as a step of the machine. -/
theorem step_rxc (s : State) (b : Byte) (rest : List Action) :
    step { s with agenda := .rxc b :: rest } =
      .next { (if rxcEnabled s then rxcAppend b s else s) with agenda := rest } := by
  rw [step_of_agenda rfl, perform]
  cases hon : rxcEnabled s with
  | true => exact congrArg Host.Outcome.next (if_pos hon)
  | false => exact congrArg Host.Outcome.next (if_neg (Bool.eq_false_iff.mp hon))

/-- TICK's turn as a step of the machine. -/
theorem step_tick (s : State) (rest : List Action) :
    step { s with agenda := .tick :: rest } = .next { tickStep s with agenda := rest } := rfl

/-- R116: an append does not read the clock, and a tick reads nothing but the clock. -/
theorem tickStep_rxc (b : Byte) (s : State) :
    tickStep (if rxcEnabled s then rxcAppend b s else s) =
      if rxcEnabled (tickStep s) then rxcAppend b (tickStep s) else tickStep s := by
  have henabled : rxcEnabled (tickStep s) = rxcEnabled s := rfl
  rw [henabled, apply_ite tickStep]
  rfl

/-- Settles O20. -/
theorem receiveAndTickCommute : Obligations.ReceiveAndTickCommute := by
  unfold Obligations.ReceiveAndTickCommute
  intro s b rest
  rw [runSteps_succ 1 (step_rxc s b _), runSteps_succ 1 (step_tick s _), runSteps_succ 0 (step_tick _ rest),
    runSteps_succ 0 (step_rxc _ b rest), tickStep_rxc]

/-! ### Arrivals -/

/-- R89: the count after an append, which stops at the capacity. -/
theorem rxcAppend_rxCount_toNat (b : Byte) {s : State} (h : s.rxCount.toNat ≤ 256) :
    (rxcAppend b s).rxCount.toNat = min (s.rxCount.toNat + 1) 256 := by
  rw [rxcAppend_rxCount]
  split
  · next hroom =>
    rw [rxRoom_iff] at hroom
    bv_omega
  · next hfull =>
    rw [rxRoom_iff] at hfull
    omega

/-- R113, R89: an arrival that nothing holds back is captured in two steps. -/
theorem runSteps_arrival {s : State} {b : Byte} {rest : List Action} (n : Nat)
    (hfree : s.cfg.drainAtomic = true → s.seq = .idle) (hagenda : s.agenda = arrival b ++ rest) :
    runSteps (n + 2) s = runSteps n { rxcAppend b (raiseReceive s) with agenda := rest } := by
  have hraise : step s = .next { raiseReceive s with agenda := .rxc b :: rest } := step_of_agenda hagenda
  have hon : rxcEnabled (raiseReceive s) = true :=
    (rxcEnabled_iff _).mpr ⟨rfl, fun hatomic => congrArg insideDrain (hfree hatomic)⟩
  have hrxc := step_rxc (raiseReceive s) b rest
  rw [if_pos hon] at hrxc
  rw [runSteps_succ _ hraise, runSteps_succ _ hrxc]

/-- What some arrivals leave of a state with `c` bytes stored: the count, the flag, the events and the buffer's bytes. -/
def ArrivalsStored (bytes : List Byte) (s t : State) : Prop :=
  t.rxCount.toNat = min (s.rxCount.toNat + bytes.length) 256 ∧ (t.rxReady = true ∨ t.rxReady = s.rxReady ∧ bytes = []) ∧
    t.trace = s.trace ++ bytes.map .uRx ∧
    ∀ k, k < t.rxCount.toNat →
      t.rxBuf[k]? = if k < s.rxCount.toNat then s.rxBuf[k]? else bytes[k - s.rxCount.toNat]?

theorem ArrivalsStored.nil {s : State} (h : s.rxCount.toNat ≤ 256) : ArrivalsStored [] s s := by
  refine ⟨by simpa using h, .inr ⟨rfl, rfl⟩, by simp, fun k hk => (if_pos hk).symm⟩

/-- R89: the first of some arrivals is appended, then the others. -/
theorem ArrivalsStored.cons {b : Byte} {bytes : List Byte} {s t : State} (hs : s.rxCount.toNat ≤ 256)
    (h : ArrivalsStored bytes (rxcAppend b s) t) : ArrivalsStored (b :: bytes) s t := by
  obtain ⟨hcount, hready, htrace, hbuf⟩ := h
  rw [rxcAppend_rxCount_toNat b hs] at hcount hbuf
  refine ⟨by simp only [List.length_cons]; omega, .inl ?_, by simpa using htrace, fun k hk => ?_⟩
  · rcases hready with hready | ⟨hready, -⟩
    · exact hready
    · exact hready
  · rw [hbuf k hk, rxcAppend_getElem? b s (by omega)]
    rcases Nat.lt_trichotomy k s.rxCount.toNat with hlt | heq | hgt
    · rw [if_pos (by omega), if_neg (by omega), if_pos hlt]
    · rw [if_pos (by omega), if_pos heq, if_neg (by omega), heq, Nat.sub_self, List.getElem?_cons_zero]
    · rw [if_neg (by omega), if_neg (by omega), show k - s.rxCount.toNat = (k - min (s.rxCount.toNat + 1) 256) + 1 by omega,
        List.getElem?_cons_succ]

/-- R90, from any number of stored bytes. -/
theorem runSteps_arrivals {bytes : List Byte} {s : State} {rest : List Action} (hs : s.rxCount.toNat ≤ 256)
    (hfree : s.cfg.drainAtomic = true → s.seq = .idle) (hagenda : s.agenda = bytes.flatMap arrival ++ rest) :
    ∃ t, runSteps (2 * bytes.length) s = .next t ∧ t.agenda = rest ∧ ArrivalsStored bytes s t := by
  induction bytes generalizing s with
  | nil => exact ⟨s, rfl, hagenda, .nil hs⟩
  | cons b bytes ih =>
    have hrun := runSteps_arrival (2 * bytes.length) hfree
      (hagenda.trans (List.append_assoc (arrival b) (bytes.flatMap arrival) rest))
    have hcount := rxcAppend_rxCount_toNat b (s := raiseReceive s) hs
    obtain ⟨t, hrest, hagenda', hstored⟩ := ih
      (s := { rxcAppend b (raiseReceive s) with agenda := bytes.flatMap arrival ++ rest })
      (le_of_eq_of_le hcount (Nat.min_le_right ..)) hfree rfl
    exact ⟨t, hrun.trans hrest, hagenda', .cons (s := raiseReceive s) hs hstored⟩

/-- Settles O17. -/
theorem arrivalsFillTheBuffer : Obligations.ArrivalsFillTheBuffer := by
  unfold Obligations.ArrivalsFillTheBuffer
  intro s bytes rest hempty hne hfree hagenda
  have hzero : s.rxCount.toNat = 0 := by simp [hempty]
  obtain ⟨t, hrun, hrest, hcount, hready, htrace, hbuf⟩ := runSteps_arrivals (by omega) hfree hagenda
  simp only [hzero, Nat.zero_add, Nat.not_lt_zero, if_false, Nat.sub_zero] at hcount hbuf
  exact ⟨t, hrun, hrest, hcount, hready.resolve_right fun h => hne h.right, htrace, hcount ▸ hbuf⟩

end Sys2Proof.Machine
end

section
/-! The numbered steps of each command (R79 to R104, R96): inside its command `exec` is the step of the position's line, and
each line is the rule's. -/

namespace Sys2Proof.Machine

/-! ### Shared lines -/

/-- R76, R77: a line that awaits. -/
theorem awaitSteps_of {i : Instr} {l next : Line} {c : Cond} {k a : Nat} {s : State}
    (h : s.seq = .at i.opcode l .act k a → exec i s = await c (moveTo i.opcode next k a) s) :
    AwaitSteps i l c next k a s := fun hseq => (h hseq).trans (await_eq ..)

/-- R92: a line that waits. -/
theorem waitSteps_of {i : Instr} {l pass fail : Line} {c : Cond} {budget k a : Nat} {s : State}
    (h : ∀ sub, s.seq = .at i.opcode l sub k a →
      exec i s = waitLine c budget i.opcode l sub k a (moveTo i.opcode pass k a) (moveTo i.opcode fail k a) s) :
    WaitSteps i l c budget pass fail k a s := by
  refine ⟨h .act, fun hseq => (h .poll hseq).trans (waitLine_poll ..), fun hseq => ?_⟩
  rw [h .test hseq, waitLine_test]
  split <;> rfl

/-- R99 S1, S11: a line that waits when its parameter is true. -/
theorem guardedWaitSteps_of {enabled : Bool} {i : Instr} {l pass fail : Line} {c : Cond} {budget k a : Nat} {s : State}
    (h : ∀ sub, s.seq = .at i.opcode l sub k a →
      exec i s = waitLineIf enabled c budget i.opcode l sub k a (moveTo i.opcode pass k a) (moveTo i.opcode fail k a) s) :
    GuardedWaitSteps enabled i l c budget pass fail k a s := by
  cases enabled with
  | true => exact waitSteps_of h
  | false => exact fun hseq => (h .act hseq).trans (waitLineIf_off ..)

/-- R75: the two lines of SetDirection. -/
theorem directionSteps_of {i : Instr} {d : Direction} {l₁ l₂ : Line} {after : SeqPos} {k a : Nat} {s : State}
    (h₁ : s.seq = .at i.opcode l₁ .act k a → exec i s = .next (moveTo i.opcode l₂ k a (setDirection d s)))
    (h₂ : s.seq = .at i.opcode l₂ .act k a → exec i s = .next { settle s with seq := after }) :
    DirectionSteps i d l₁ l₂ after k a s := by
  refine ⟨fun hseq => (h₁ hseq).trans ?_, h₂⟩
  rw [← dirLevel_eq_ite]
  rfl

/-- R96: the abort's first two lines. -/
theorem abortSteps_of {i : Instr} {read : Bool} {k a : Nat} {s : State}
    (h₁ : s.seq = .at i.opcode .a1 .act k a → exec i s = abortLines i.opcode read .a1 .act k a s)
    (h₂ : s.seq = .at i.opcode .a2 .act k a → exec i s = abortLines i.opcode read .a2 .act k a s) :
    AbortSteps i read k a s := by
  refine ⟨fun hseq => (h₁ hseq).trans ?_, fun hseq => (h₂ hseq).trans ?_⟩
  · cases hstop : s.cfg.stopOnAbort <;> simp [abortLines, hstop, moveTo, busStop, emit]
  · cases read <;> rfl

/-- R99 S1 to S7: the lines that the transactions share. -/
theorem addressSteps_of {i : Instr} {sa : SlaveAddr} {ra : RegAddr} {next : State → State} {k a : Nat} {s : State}
    (h : ∀ l sub r, s.seq = .at i.opcode l sub k a → addressLines i.opcode sa ra next l sub k a s = some r →
      exec i s = r) : AddressSteps i sa ra k a s :=
  ⟨guardedWaitSteps_of fun _ hseq => h _ _ _ hseq rfl, fun hseq => h _ _ _ hseq rfl,
    waitSteps_of fun _ hseq => h _ _ _ hseq rfl, fun hseq => h _ _ _ hseq rfl,
    waitSteps_of fun _ hseq => h _ _ _ hseq rfl, fun hseq => h _ _ _ hseq rfl⟩

/-- R100 S8 to S11: the lines that the reads share. -/
theorem readAddressSteps_of {i : Instr} {sa : SlaveAddr} {k a : Nat} {s : State}
    (h : ∀ l sub r, s.seq = .at i.opcode l sub k a → readAddressLines i.opcode sa l sub k a s = some r →
      exec i s = r) : ReadAddressSteps i sa k a s :=
  ⟨fun hseq => h _ _ _ hseq rfl, waitSteps_of fun _ hseq => h _ _ _ hseq rfl, fun hseq => h _ _ _ hseq rfl,
    waitSteps_of fun _ hseq => h _ _ _ hseq rfl⟩

/-! ### Direction and transmit commands -/

/-- Settles O21. -/
theorem setdirNumberedSteps : Obligations.SetdirNumberedSteps := by
  unfold Obligations.SetdirNumberedSteps
  intro d s k a
  exact ⟨directionSteps_of (atPosition_at (.setdir d) · _) (atPosition_at (.setdir d) · _), (atPosition_at (.setdir d) · _)⟩

/-- Settles O22. -/
theorem sendbNumberedSteps : Obligations.SendbNumberedSteps := by
  unfold Obligations.SendbNumberedSteps
  intro b s k a
  exact ⟨directionSteps_of (atPosition_at (.sendb b) · _) (atPosition_at (.sendb b) · _),
    awaitSteps_of (atPosition_at (.sendb b) · _), (atPosition_at (.sendb b) · _),
    awaitSteps_of (atPosition_at (.sendb b) · _),
    directionSteps_of (atPosition_at (.sendb b) · _) (atPosition_at (.sendb b) · _), (atPosition_at (.sendb b) · _)⟩

/-- R81, R82: the lines that SENDS and SENDBUF share, for a buffer inside HM. -/
theorem transmitSteps_of {i : Instr} {ptr : Half} {n k a : Nat} {s : State} (hinside : ptr.toNat + n ≤ 0x10000)
    (h : ∀ l, s.seq = .at i.opcode l .act k a → exec i s = transmitLines i.opcode ptr n l .act k a s) :
    TransmitSteps i ptr n k a s := by
  refine ⟨directionSteps_of (h .s1 ·) fun hseq => (h .s2 hseq).trans ?_, awaitSteps_of (h .s3a ·),
    fun hk hseq => (h .s3b hseq).trans ?_, awaitSteps_of (h .s4 ·), directionSteps_of (h .s5 ·) (h .s6 ·), (h .s7 ·)⟩
  · simp only [transmitLines, firstByte]
    split <;> rfl
  · have hbyte : hmLoad s (bufferAddress ptr k) = some (memRead s.hm (ptr.toNat + k)) :=
      hmLoad_inside s (show ptr.toNat + k < 0x10000 by omega)
    simp only [transmitLines, hbyte, nextByte]
    split <;> rfl

/-- R81: SENDS, the length of its string found. -/
theorem exec_sends_at {ptr : Half} {n : Nat} {s : State} {l : Line} {sub : Sub} {k a : Nat}
    (hseq : s.seq = .at 0x3 l sub k a) (hn : stringLength s.hm ptr = some n) :
    exec (.sends ptr) s = transmitLines 0x3 ptr n l sub k a s := by
  refine (atPosition_at (.sends ptr) hseq _).trans ?_
  rw [hn]

/-- Settles O23. -/
theorem bufferTransmitNumberedSteps : Obligations.BufferTransmitNumberedSteps := by
  unfold Obligations.BufferTransmitNumberedSteps
  intro ptr len s k a
  refine ⟨fun hinside => transmitSteps_of hinside fun _ => (atPosition_at (.sendbuf ptr len) · _), fun n hn hzero hbytes => ?_⟩
  have hlen : stringLength s.hm ptr = some n := (stringLength_some_iff s.hm ptr n).mpr ⟨hn, hzero, hbytes⟩
  exact transmitSteps_of (by omega) fun l hseq => exec_sends_at hseq hlen

/-! ### Receive-side commands -/

/-- R84 S3: an iteration that copies, inside the buffer and inside HM. -/
theorem copyByte_inside {ptr : Half} {k a : Nat} {s : State} (hk : k < 256) (hinside : ptr.toNat + k < 0x10000) :
    copyByte ptr k a s = .next
      { s with
        hm := memWrite s.hm (ptr.toNat + k) s.rxBuf[k], nc := BitVec.ofNat 16 (k + 1), seq := .at 0x5 .s3 .act (k + 1) a } := by
  have hbyte : s.rxBuf[k]? = some s.rxBuf[k] := Vector.getElem?_eq_getElem hk
  have hstore := hmStore_inside s s.rxBuf[k] (a := bufferAddress ptr k) hinside
  simp only [copyByte, hbyte, hstore]
  rfl

/-- R84 S3: the bound of the copy loop. -/
theorem copyBound_eq (len : Half) (s : State) :
    copyBound len s = min len.toNat (if s.rbound then s.rxCount.toNat else s.c0.toNat) := by
  unfold copyBound
  split <;> rfl

/-- R84 S3 at a position whose byte is not copied. -/
theorem exec_recv_loop_exit {ptr len : Half} {k a : Nat} {s : State} (hseq : s.seq = .at 0x5 .s3 .act k a)
    (hk : copyBound len s ≤ k) : exec (.recv ptr len) s = .next { s with seq := .at 0x5 .s4 .act k a } :=
  (atPosition_at (.recv ptr len) hseq _).trans (if_pos hk)

/-- R84 S3 at a position whose byte is copied. -/
theorem exec_recv_copy {ptr len : Half} {k a : Nat} {s : State} (hinside : ptr.toNat + len.toNat ≤ 0x10000) (hk : k < 256)
    (hseq : s.seq = .at 0x5 .s3 .act k a) (hbound : k < copyBound len s) :
    exec (.recv ptr len) s = .next
      { s with
        hm := memWrite s.hm (ptr.toNat + k) s.rxBuf[k], nc := BitVec.ofNat 16 (k + 1), seq := .at 0x5 .s3 .act (k + 1) a } := by
  refine ((atPosition_at (.recv ptr len) hseq _).trans (if_neg (by omega))).trans (copyByte_inside hk ?_)
  rw [copyBound_eq] at hbound
  omega

/-- Settles O24. -/
theorem recvNumberedSteps : Obligations.RecvNumberedSteps := by
  unfold Obligations.RecvNumberedSteps
  intro ptr len s k a hinside hwf
  rw [← copyBound_eq]
  refine ⟨fun hseq => ?_, fun hseq => ⟨_, _, _, atPosition_at (.recv ptr len) hseq _⟩, exec_recv_loop_exit,
    fun hk hseq hbound => ⟨_, exec_recv_copy hinside hk hseq hbound, ?_, fun x => memRead_memWrite hwf⟩,
    fun hseq => (atPosition_at (.recv ptr len) hseq _).trans ?_,
    fun hseq => (atPosition_at (.recv ptr len) hseq _).trans ?_, (atPosition_at (.recv ptr len) · _)⟩
  · refine (atPosition_at (.recv ptr len) hseq _).trans ?_
    dsimp only
    split <;> rfl
  · rw [copyBound_eq] at hbound
    exact memWrite_wf (show ptr.toNat + k < 0x10000 by omega) hwf
  · simp only [firstReset]
    split <;> rfl
  · simp only [secondReset]
    split <;> rfl

/-- Settles O25. -/
theorem availAndRxlenNumberedSteps : Obligations.AvailAndRxlenNumberedSteps := by
  unfold Obligations.AvailAndRxlenNumberedSteps
  intro s k a
  refine ⟨fun hseq => (atPosition_at .avail hseq _).trans ?_, (atPosition_at .rxlen · _)⟩
  dsimp only
  cases s.rxReady <;> rfl

/-- Settles O26. -/
theorem clrrxNumberedSteps : Obligations.ClrrxNumberedSteps := by
  unfold Obligations.ClrrxNumberedSteps
  intro s k a
  refine ⟨fun hseq => ⟨Config.drawBit s.draws, s.draws + 1, (atPosition_at .clrrx hseq _).trans ?_⟩,
    fun hseq => (atPosition_at .clrrx hseq _).trans ?_, (atPosition_at .clrrx · _)⟩
  · simp only [drawOrder]
    cases Config.drawBit s.draws <;> rfl
  · simp only [secondReset]
    split <;> rfl

/-! ### Transactions -/

/-- R100: a line of the repeated start is none of the first address part's. -/
theorem addressLines_of_read {op : BitVec 4} {sa : SlaveAddr} {ra : RegAddr} {next : State → State} {l : Line} {sub : Sub}
    {k a : Nat} {s : State} {r : Result} (h : readAddressLines op sa l sub k a s = some r) :
    addressLines op sa ra next l sub k a s = none := by
  unfold readAddressLines at h
  split at h
  · rfl
  · rfl
  · rfl
  · rfl
  · cases h

/-- The tables of a read transaction, asked in turn. -/
theorem getD_readLines {op : BitVec 4} {sa : SlaveAddr} {ra : RegAddr} {next : State → State} {l : Line} {sub : Sub}
    {k a : Nat} {s : State} {r d : Result} (h : readAddressLines op sa l sub k a s = some r) :
    ((addressLines op sa ra next l sub k a s).or (readAddressLines op sa l sub k a s)).getD d = r := by
  rw [addressLines_of_read h, Option.none_or, h, Option.getD_some]

/-- Settles O27. -/
theorem wrbNumberedSteps : Obligations.WrbNumberedSteps := by
  unfold Obligations.WrbNumberedSteps
  intro sa ra v s k a
  have hat {l sub} (hseq : s.seq = .at 0x9 l sub k a) := atPosition_at (.wrb sa ra v) hseq
  exact ⟨addressSteps_of fun _ _ _ hseq hr => (hat hseq _).trans (congrArg (Option.getD · _) hr),
    waitSteps_of fun _ hseq => hat hseq _, (hat · _), waitSteps_of fun _ hseq => hat hseq _, (hat · _),
    guardedWaitSteps_of fun _ hseq => hat hseq _, (hat · _), abortSteps_of (hat · _) (hat · _), (hat · _)⟩

/-- Settles O28. -/
theorem rdbNumberedSteps : Obligations.RdbNumberedSteps := by
  unfold Obligations.RdbNumberedSteps
  intro sa ra s k a
  have hat {l sub} (hseq : s.seq = .at 0xA l sub k a) := atPosition_at (.rdb sa ra) hseq
  exact ⟨addressSteps_of fun _ _ _ hseq hr => (hat hseq _).trans (congrArg (fun o => (Option.or o _).getD _) hr),
    waitSteps_of fun _ hseq => hat hseq _, readAddressSteps_of fun _ _ _ hseq hr => (hat hseq _).trans (getD_readLines hr),
    (hat · _), (hat · _), waitSteps_of fun _ hseq => hat hseq _, (hat · _), (hat · _), (hat · _),
    abortSteps_of (hat · _) (hat · _), fun hseq => ⟨Config.drawByte s.draws, s.draws + 1, hat hseq _⟩⟩

/-- R101 S7: the line after the register address is the stop when there is no byte. -/
theorem firstByte_eq (len : Half) (a : Nat) :
    firstByte 0xB .s8a .s9 len.toNat a = moveTo 0xB (if len = 0 then .s9 else .s8a) 0 a := by
  funext s
  by_cases hlen : len = 0
  · subst hlen
    rfl
  · have hpos : 0 < len.toNat := Nat.pos_of_ne_zero fun h => hlen (BitVec.eq_of_toNat_eq h)
    rw [firstByte, if_pos hpos, if_neg hlen]

/-- R101 S8b: the wait after each data byte. -/
theorem exec_wrbuf_data_wait {sa : SlaveAddr} {ra : RegAddr} {ptr len : Half} {s : State} {sub : Sub} {k a : Nat}
    (hseq : s.seq = .at 0xB .s8b sub k a) :
    exec (.wrbuf sa ra ptr len) s = waitLine .byteTxDone 1000 0xB .s8b sub k a (nextByte 0xB .s8a .s9 len.toNat k a)
      (moveTo 0xB .a1 k a) s := atPosition_at (.wrbuf sa ra ptr len) hseq _

/-- R101 S8a: a data byte inside the buffer. -/
theorem exec_wrbuf_data {sa : SlaveAddr} {ra : RegAddr} {ptr len : Half} {s : State} {k a : Nat}
    (hseq : s.seq = .at 0xB .s8a .act k a) (hinside : ptr.toNat + k < 0x10000) :
    exec (.wrbuf sa ra ptr len) s =
      .next (moveTo 0xB .s8b k a (busSend (memRead s.hm (ptr.toNat + k)) .dataSent s)) := by
  have hbyte : hmLoad s (bufferAddress ptr k) = some (memRead s.hm (ptr.toNat + k)) := hmLoad_inside s hinside
  refine (atPosition_at (.wrbuf sa ra ptr len) hseq _).trans ?_
  simp only [addressLines, Option.getD_none, wrbufLines, hbyte]

/-- Settles O29. -/
theorem wrbufNumberedSteps : Obligations.WrbufNumberedSteps := by
  unfold Obligations.WrbufNumberedSteps
  intro sa ra ptr len s k a hinside
  have hat {l sub} (hseq : s.seq = .at 0xB l sub k a) := atPosition_at (.wrbuf sa ra ptr len) hseq
  refine ⟨addressSteps_of fun _ _ _ hseq hr => (hat hseq _).trans (congrArg (Option.getD · _) hr), fun hk => ?_,
    fun hk hseq => exec_wrbuf_data hseq (by omega), (hat · _), fun hseq => (exec_wrbuf_data_wait hseq).trans (waitLine_poll ..),
    fun hseq => (exec_wrbuf_data_wait hseq).trans ?_, (hat · _),
    guardedWaitSteps_of fun _ hseq => hat hseq _, (hat · _), abortSteps_of (hat · _) (hat · _), (hat · _)⟩
  · subst hk
    refine waitSteps_of fun sub hseq => (hat hseq _).trans ?_
    rw [firstByte_eq]
    rfl
  · rw [waitLine_test]
    simp only [nextByte]
    split
    · split <;> rfl
    · rfl

/-- R102 S13d: a received byte inside the buffer. -/
theorem exec_rdbuf_store {sa : SlaveAddr} {ra : RegAddr} {ptr len : Half} {s : State} {k a : Nat}
    (hseq : s.seq = .at 0xC .s13d .act k a) (hinside : ptr.toNat + k < 0x10000) :
    exec (.rdbuf sa ra ptr len) s =
      .next (nextByte 0xC .s13a .s14 len.toNat k a
        { busRecv s with hm := memWrite s.hm (ptr.toNat + k) s.env.byte }) := by
  have hstore := hmStore_inside (busRecv s) s.env.byte (a := bufferAddress ptr k) hinside
  refine (atPosition_at (.rdbuf sa ra ptr len) hseq _).trans ?_
  simp only [addressLines, readAddressLines, Option.or_none, Option.getD_none, rdbufLines, hstore]
  rfl

/-- Settles O30. -/
theorem rdbufNumberedSteps : Obligations.RdbufNumberedSteps := by
  unfold Obligations.RdbufNumberedSteps
  intro sa ra ptr len s k a hinside hlen hwf
  have hpos : 0 < len.toNat := Nat.pos_of_ne_zero fun h => hlen (BitVec.eq_of_toNat_eq h)
  have hat {l sub} (hseq : s.seq = .at 0xC l sub k a) := atPosition_at (.rdbuf sa ra ptr len) hseq
  refine ⟨addressSteps_of fun _ _ _ hseq hr => (hat hseq _).trans (congrArg (fun o => (Option.or o _).getD _) hr),
    waitSteps_of fun _ hseq => hat hseq _, readAddressSteps_of fun _ _ _ hseq hr => (hat hseq _).trans (getD_readLines hr),
    fun hseq => (hat hseq _).trans ?_, fun hseq => (hat hseq _).trans ?_, fun hseq => (hat hseq _).trans ?_,
    waitSteps_of fun _ hseq => hat hseq _,
    fun hk hseq => ⟨memWrite s.hm (ptr.toNat + k) s.env.byte, (exec_rdbuf_store hseq (by omega)).trans ?_,
      memWrite_wf (show ptr.toNat + k < 0x10000 by omega) hwf, fun x => memRead_memWrite hwf⟩,
    (hat · _), (hat · _), abortSteps_of (hat · _) (hat · _), (hat · _)⟩
  · show Host.Outcome.next (firstByte 0xC .s13a .s14 len.toNat a _) = _
    rw [firstByte, if_pos hpos]
    rfl
  · show Host.Outcome.next (moveTo 0xC .s13b k a (if k + 1 = len.toNat then busAck false s else s)) = _
    split <;> rfl
  · show Host.Outcome.next (moveTo 0xC .s13c k a (if k + 1 = len.toNat then busStop s else s)) = _
    split <;> rfl
  · rw [nextByte]
    split <;> rfl

/-- R104 P4a: the wait for a slave's acknowledgment. -/
theorem exec_scan_ack_wait {s : State} {sub : Sub} {k a : Nat} (hseq : s.seq = .at 0xD .p4a sub k a) :
    exec .scan s = waitLine .addrWAck 100 0xD .p4a sub k a (fun t => moveTo 0xD .p5 k a (markFound a t))
      (moveTo 0xD .p5 k a) s := atPosition_at .scan hseq _

/-- R104 P4a: PRESENT after the wait. -/
theorem present_after_ack (p : BitVec 128) (ok : Bool) {a : Nat} (ha : a < 127) (x : Nat) :
    (if ok then markPresent p a else p).getLsbD x = (p.getLsbD x || (ok && decide (x = a))) := by
  cases ok with
  | false => simp
  | true =>
    by_cases hx : x < 128
    · simpa using markPresent_bit p a hx
    · rw [if_pos rfl, BitVec.getLsbD_of_ge _ _ (by omega), BitVec.getLsbD_of_ge _ _ (by omega)]
      simp
      omega

/-- Settles O31. -/
theorem scanNumberedSteps : Obligations.ScanNumberedSteps := by
  unfold Obligations.ScanNumberedSteps
  refine ⟨fun s k a => ⟨(atPosition_at .scan · _), (atPosition_at .scan · _)⟩, fun s k a _ ha => ?_⟩
  refine ⟨guardedWaitSteps_of fun _ hseq => atPosition_at .scan hseq _, (atPosition_at .scan · _),
    waitSteps_of fun _ hseq => atPosition_at .scan hseq _, (atPosition_at .scan · _), (atPosition_at .scan · _),
    fun hseq => (exec_scan_ack_wait hseq).trans (waitLine_poll ..),
    fun hseq => ⟨if s.wok then markPresent s.present a else s.present, (exec_scan_ack_wait hseq).trans ?_,
      present_after_ack s.present s.wok ha⟩, (atPosition_at .scan · _),
    guardedWaitSteps_of fun _ hseq => atPosition_at .scan hseq _, fun hseq => (atPosition_at .scan hseq _).trans ?_⟩
  · rw [waitLine_test]
    split <;> rfl
  · simp only [nextProbe, Config.scanHi]
    split <;> rfl

end Sys2Proof.Machine
end

section
/-! What a numbered step may write (R3, R33, R38, R47, R60): one relation between the states before and after it, shown once
of every line of every command. -/

namespace Sys2Proof.Machine

/-! ### The relation -/

/-- `s` with the elements that the numbered steps of a command may write as they are in `t`. -/
def written (i : Instr) (s t : State) : State :=
  match i with
  | .setdir _ => { s with dir := t.dir, dirPin := t.dirPin, trace := t.trace, seq := t.seq, status := t.status }
  | .sendb _ => { s with dir := t.dir, dirPin := t.dirPin, trace := t.trace, seq := t.seq, status := t.status }
  | .sends _ => { s with dir := t.dir, dirPin := t.dirPin, trace := t.trace, seq := t.seq, status := t.status }
  | .sendbuf _ _ => { s with dir := t.dir, dirPin := t.dirPin, trace := t.trace, seq := t.seq, status := t.status }
  | .recv _ _ =>
    { s with
      rxCount := t.rxCount, rxReady := t.rxReady, hm := t.hm, c0 := t.c0, nc := t.nc, rorder := t.rorder,
      rbound := t.rbound, draws := t.draws, count := t.count, seq := t.seq, status := t.status }
  | .avail => { s with value := t.value, seq := t.seq, status := t.status }
  | .rxlen => { s with count := t.count, seq := t.seq, status := t.status }
  | .clrrx =>
    { s with
      rxCount := t.rxCount, rxReady := t.rxReady, rorder := t.rorder, draws := t.draws, seq := t.seq, status := t.status }
  | .wrb _ _ _ =>
    { s with trace := t.trace, phase := t.phase, wstart := t.wstart, wok := t.wok, seq := t.seq, status := t.status }
  | .rdb _ _ =>
    { s with
      trace := t.trace, phase := t.phase, wstart := t.wstart, wok := t.wok, seq := t.seq, status := t.status,
      ackEn := t.ackEn, rdByte := t.rdByte, value := t.value, draws := t.draws }
  | .wrbuf _ _ _ _ =>
    { s with trace := t.trace, phase := t.phase, wstart := t.wstart, wok := t.wok, seq := t.seq, status := t.status }
  | .rdbuf _ _ _ _ =>
    { s with
      trace := t.trace, phase := t.phase, wstart := t.wstart, wok := t.wok, seq := t.seq, status := t.status,
      ackEn := t.ackEn, hm := t.hm }
  | .scan =>
    { s with
      trace := t.trace, phase := t.phase, wstart := t.wstart, wok := t.wok, seq := t.seq, status := t.status,
      present := t.present, found := t.found, count := t.count }

/-- The lines that store a byte of HM, with the buffer they store it in (R47). -/
def storesAt : Instr → Line → Option Half
  | .recv ptr _, .s3 => some ptr
  | .rdbuf _ _ ptr _, .s13d => some ptr
  | _, _ => none

/-- The trace of `t` is that of `s`, or that with one event at its end. -/
def AppendsAtMostOne (s t : State) : Prop := t.trace = s.trace ∨ ∃ e, t.trace = s.trace ++ [e]

/-- The command goes on, STATUS as it was, or finishes. -/
def GoesOnOrFinishes (i : Instr) (s t : State) : Prop :=
  (∃ l sub k a, t.seq = .at i.opcode l sub k a) ∧ t.status = s.status ∨
    t.seq = .idle ∧ (t.status = 0x01 ∨ t.status = 0x02 ∧ i.opcode ∈ [0x9, 0xA, 0xB, 0xC])

/-- HM is as it was, but for the byte of a line that stores one. -/
def StoresOwnByte (i : Instr) (l : Line) (k : Nat) (s t : State) : Prop :=
  t.hm = s.hm ∨ ∃ ptr v, storesAt i l = some ptr ∧ t.hm = memWrite s.hm (bufferAddress ptr k) v

/-- What a numbered step of command `i` at line `l` and loop index `k` does, whatever the line. -/
structure NumberedStep (i : Instr) (l : Line) (k : Nat) (s t : State) : Prop where
  writes : t = written i s t
  events : AppendsAtMostOne s t
  goesOn : GoesOnOrFinishes i s t
  stores : StoresOwnByte i l k s t

/-! ### Shapes of lines -/

section Shapes
variable {i : Instr} {l : Line} {k : Nat} {s : State}

/-- A line that moves on. -/
theorem yields_moves {next : Line} {k' a' : Nat} {u : State}
    (hw : moveTo i.opcode next k' a' u = written i s (moveTo i.opcode next k' a' u)) (he : AppendsAtMostOne s u)
    (hstatus : u.status = s.status) (hm : StoresOwnByte i l k s u) :
    Yields (NumberedStep i l k s) (.next (moveTo i.opcode next k' a' u)) :=
  yields_next.mpr ⟨hw, he, .inl ⟨⟨_, _, _, _, rfl⟩, hstatus⟩, hm⟩

/-- A line that finishes with STATUS 0x01. -/
theorem yields_finishes {u : State} (hw : finish true .none u = written i s (finish true .none u))
    (he : u.trace = s.trace) (hm : u.hm = s.hm) : Yields (NumberedStep i l k s) (.next (finish true .none u)) :=
  yields_next.mpr ⟨hw, .inl he, .inr ⟨rfl, .inl statusWord_ok⟩, .inl hm⟩

theorem yields_busFinishes {u : State} (hw : busFinish true .none u = written i s (busFinish true .none u))
    (he : u.trace = s.trace) (hm : u.hm = s.hm) : Yields (NumberedStep i l k s) (.next (busFinish true .none u)) :=
  yields_finishes hw he hm

theorem written_self (i : Instr) (s : State) : s = written i s s := by
  cases i <;> rfl

/-- A line that holds: nothing changes. -/
theorem NumberedStep.hold {sub : Sub} {a : Nat} (hseq : s.seq = .at i.opcode l sub k a) : NumberedStep i l k s s :=
  ⟨written_self i s, .inl rfl, .inl ⟨⟨_, _, _, _, hseq⟩, rfl⟩, .inl rfl⟩

theorem NumberedStep.ite {p : Prop} [Decidable p] {t u : State} (ht : NumberedStep i l k s t)
    (hu : NumberedStep i l k s u) : NumberedStep i l k s (if p then t else u) := by
  split
  · exact ht
  · exact hu

/-- A line that awaits. -/
theorem yields_awaits {c : Cond} {next : Line} {sub : Sub} {a : Nat} (hseq : s.seq = .at i.opcode l sub k a)
    (hw : moveTo i.opcode next k a (emit (.waitOk c) s) = written i s (moveTo i.opcode next k a (emit (.waitOk c) s))) :
    Yields (NumberedStep i l k s) (await c (moveTo i.opcode next k a) s) := by
  rw [await_eq, yields_next]
  exact .ite (yields_next.mp (yields_moves hw (.inr ⟨_, rfl⟩) rfl (.inl rfl))) (.hold hseq)

/-- What the waits and the bus actions of every BM command write (R92, R98). -/
def BusWrites (s t : State) : Prop :=
  t = { s with trace := t.trace, phase := t.phase, wstart := t.wstart, wok := t.wok, seq := t.seq }

theorem BusWrites.written {t : State} (h : BusWrites s t) (hi : i.opcode ∈ [0x9, 0xA, 0xB, 0xC, 0xD]) :
    t = written i s t := by
  rw [BusWrites] at h
  generalize t.trace = trace, t.phase = phase, t.wstart = wstart, t.wok = wok, t.seq = seq at h
  subst h
  cases i <;> first | rfl | exact absurd hi (by simp [Instr.opcode])

/-- A line that waits, in a command that may write what a wait does. -/
theorem yields_waits {c : Cond} {budget : Nat} {sub : Sub} {a : Nat} {passed failed : State → State}
    (hseq : s.seq = .at i.opcode l sub k a) (hbus : i.opcode ∈ [0x9, 0xA, 0xB, 0xC, 0xD])
    (hp : NumberedStep i l k s (passed s)) (hf : NumberedStep i l k s (failed s)) :
    Yields (NumberedStep i l k s) (waitLine c budget i.opcode l sub k a passed failed s) := by
  cases sub with
  | act =>
    rw [waitLine_act, yields_next]
    exact ⟨BusWrites.written rfl hbus, .inl rfl, .inl ⟨⟨_, _, _, _, rfl⟩, rfl⟩, .inl rfl⟩
  | poll =>
    rw [waitLine_poll, yields_next]
    refine .ite ?_ (.ite ?_ (.hold hseq))
    · exact ⟨BusWrites.written rfl hbus, .inr ⟨_, rfl⟩, .inl ⟨⟨_, _, _, _, rfl⟩, rfl⟩, .inl rfl⟩
    · exact ⟨BusWrites.written rfl hbus, .inr ⟨_, rfl⟩, .inl ⟨⟨_, _, _, _, rfl⟩, rfl⟩, .inl rfl⟩
  | test =>
    rw [waitLine_test, yields_next]
    exact .ite hp hf

theorem yields_waitsIf {enabled : Bool} {c : Cond} {budget : Nat} {sub : Sub} {a : Nat} {passed failed : State → State}
    (hseq : s.seq = .at i.opcode l sub k a) (hbus : i.opcode ∈ [0x9, 0xA, 0xB, 0xC, 0xD])
    (hp : NumberedStep i l k s (passed s)) (hf : NumberedStep i l k s (failed s)) :
    Yields (NumberedStep i l k s) (waitLineIf enabled c budget i.opcode l sub k a passed failed s) := by
  unfold waitLineIf
  split
  · exact yields_next.mpr hp
  · exact yields_waits hseq hbus hp hf

/-- Moving on without an event. -/
theorem numberedStep_moveTo {next : Line} {k' a' : Nat} (hbus : i.opcode ∈ [0x9, 0xA, 0xB, 0xC, 0xD]) :
    NumberedStep i l k s (moveTo i.opcode next k' a' s) :=
  ⟨BusWrites.written rfl hbus, .inl rfl, .inl ⟨⟨_, _, _, _, rfl⟩, rfl⟩, .inl rfl⟩

end Shapes

/-- Inside a command its meaning is the step of the position, if the position is one of the command's. -/
theorem yields_atPosition_at {P : State → Prop} {i : Instr} {s : State} {op : BitVec 4} {l : Line} {sub : Sub} {k a : Nat}
    {f : Line → Sub → Nat → Nat → Result} (hseq : s.seq = .at op l sub k a)
    (hf : s.seq = .at i.opcode l sub k a → Yields P (f l sub k a)) : Yields P (atPosition i s f) := by
  unfold atPosition
  rw [hseq]
  dsimp only
  split
  · next hop => exact hf (hop ▸ hseq)
  · exact yields_fault ..

/-! ### Commands of the bus master -/

/-- R97: the acknowledgment of a read. -/
theorem busAck_written {i : Instr} {next : Line} {on : Bool} {k a : Nat} {s : State} (hi : i.opcode ∈ [0xA, 0xC]) :
    moveTo i.opcode next k a (busAck on s) = written i s (moveTo i.opcode next k a (busAck on s)) := by
  cases i <;> first | rfl | exact absurd hi (by simp [Instr.opcode])

/-- R96 A3: the abort's end. -/
theorem abortFinish_written {i : Instr} {read : Bool} {s : State} (hi : i.opcode ∈ [0x9, 0xA, 0xB, 0xC]) :
    let u := busFinish false .timeout
      (if read ∧ i.opcode = 0xA then { s with value := valueOfByte (Config.drawByte s.draws), draws := s.draws + 1 } else s)
    u = written i s u := by
  split
  · next h => cases i <;> first | rfl | exact absurd h.right (by simp [Instr.opcode])
  · cases i <;> first | rfl | exact absurd hi (by simp [Instr.opcode])

section Bus
variable {i : Instr} {l : Line} {sub : Sub} {k a : Nat} {s : State} (hseq : s.seq = .at i.opcode l sub k a)
include hseq

/-- R96: an abort's three lines. Only a read acknowledges there, and only RDB writes VALUE. -/
theorem abortLines_numberedStep {read : Bool} (hread : read = true → i.opcode ∈ [0xA, 0xC])
    (hbus : i.opcode ∈ [0x9, 0xA, 0xB, 0xC]) :
    Yields (NumberedStep i l k s) (abortLines i.opcode read l sub k a s) := by
  have hbus' : i.opcode ∈ [0x9, 0xA, 0xB, 0xC, 0xD] := List.mem_append_left [0xD] hbus
  have hgoes (l') : NumberedStep i l k s (moveTo i.opcode l' k a s) := numberedStep_moveTo hbus'
  unfold abortLines
  split
  · split
    · exact yields_moves (BusWrites.written rfl hbus') (.inr ⟨_, rfl⟩) rfl (.inl rfl)
    · exact yields_next.mpr (hgoes _)
  · split
    · next hack => exact yields_moves (busAck_written (hread hack)) (.inr ⟨_, rfl⟩) rfl (.inl rfl)
    · exact yields_next.mpr (hgoes _)
  · refine yields_next.mpr ⟨?_, ?_, .inr ⟨rfl, .inr ⟨statusWord_timeout, hbus⟩⟩, ?_⟩
    · exact abortFinish_written hbus
    · split <;> exact .inl rfl
    · split <;> exact .inl rfl
  · exact yields_fault ..

theorem addressLines_numberedStep {sa : SlaveAddr} {ra : RegAddr} {next : State → State}
    (hbus : i.opcode ∈ [0x9, 0xA, 0xB, 0xC, 0xD]) (hnext : NumberedStep i l k s (next s)) (r : Result)
    (h : addressLines i.opcode sa ra next l sub k a s = some r) : Yields (NumberedStep i l k s) r := by
  unfold addressLines at h
  split at h <;> cases h
  case h_1 => exact yields_waitsIf hseq hbus (numberedStep_moveTo hbus) (numberedStep_moveTo hbus)
  case h_2 => exact yields_moves (BusWrites.written rfl hbus) (.inr ⟨_, rfl⟩) rfl (.inl rfl)
  case h_3 => exact yields_waits hseq hbus (numberedStep_moveTo hbus) (numberedStep_moveTo hbus)
  case h_4 => exact yields_moves (BusWrites.written rfl hbus) (.inr ⟨_, rfl⟩) rfl (.inl rfl)
  case h_5 => exact yields_waits hseq hbus (numberedStep_moveTo hbus) (numberedStep_moveTo hbus)
  case h_6 => exact yields_moves (BusWrites.written rfl hbus) (.inr ⟨_, rfl⟩) rfl (.inl rfl)
  case h_7 => exact yields_waits hseq hbus hnext (numberedStep_moveTo hbus)

theorem readAddressLines_numberedStep {sa : SlaveAddr} (hbus : i.opcode ∈ [0x9, 0xA, 0xB, 0xC, 0xD]) (r : Result)
    (h : readAddressLines i.opcode sa l sub k a s = some r) : Yields (NumberedStep i l k s) r := by
  unfold readAddressLines at h
  split at h <;> cases h
  case h_1 => exact yields_moves (BusWrites.written rfl hbus) (.inr ⟨_, rfl⟩) rfl (.inl rfl)
  case h_2 => exact yields_waits hseq hbus (numberedStep_moveTo hbus) (numberedStep_moveTo hbus)
  case h_3 => exact yields_moves (BusWrites.written rfl hbus) (.inr ⟨_, rfl⟩) rfl (.inl rfl)
  case h_4 => exact yields_waits hseq hbus (numberedStep_moveTo hbus) (numberedStep_moveTo hbus)

end Bus

section Commands
variable {op : BitVec 4} {l : Line} {sub : Sub} {k a : Nat} {s : State} (hseq : s.seq = .at op l sub k a)
include hseq

theorem execWrb_numberedStep (sa : SlaveAddr) (ra : RegAddr) (v : Byte) :
    Yields (NumberedStep (.wrb sa ra v) l k s) (execWrb sa ra v s) := by
  refine yields_atPosition_at hseq fun hseq => ?_
  have hbus : (Instr.wrb sa ra v).opcode ∈ [0x9, 0xA, 0xB, 0xC, 0xD] := by simp [Instr.opcode]
  have hgoes (l') : NumberedStep (.wrb sa ra v) l k s (moveTo 0x9 l' k a s) := numberedStep_moveTo hbus
  refine yields_getD (addressLines_numberedStep hseq hbus (hgoes _)) ?_
  unfold wrbLines
  split
  · exact yields_moves rfl (.inr ⟨_, rfl⟩) rfl (.inl rfl)
  · exact yields_waits hseq hbus (hgoes _) (hgoes _)
  · exact yields_moves rfl (.inr ⟨_, rfl⟩) rfl (.inl rfl)
  · exact yields_waitsIf hseq hbus (hgoes _) (hgoes _)
  · exact yields_busFinishes rfl rfl rfl
  · exact abortLines_numberedStep hseq (by simp) (by simp [Instr.opcode])

theorem execRdb_numberedStep (sa : SlaveAddr) (ra : RegAddr) :
    Yields (NumberedStep (.rdb sa ra) l k s) (execRdb sa ra s) := by
  refine yields_atPosition_at hseq fun hseq => ?_
  have hbus : (Instr.rdb sa ra).opcode ∈ [0x9, 0xA, 0xB, 0xC, 0xD] := by simp [Instr.opcode]
  have hgoes (l') : NumberedStep (.rdb sa ra) l k s (moveTo 0xA l' k a s) := numberedStep_moveTo hbus
  rw [Option.getD_or]
  refine yields_getD (addressLines_numberedStep hseq hbus (hgoes _)) ?_
  refine yields_getD (readAddressLines_numberedStep hseq hbus) ?_
  unfold rdbLines
  split
  · exact yields_moves rfl (.inr ⟨_, rfl⟩) rfl (.inl rfl)
  · exact yields_moves rfl (.inr ⟨_, rfl⟩) rfl (.inl rfl)
  · exact yields_waits hseq hbus (hgoes _) (hgoes _)
  · exact yields_moves rfl (.inr ⟨_, rfl⟩) rfl (.inl rfl)
  · exact yields_moves rfl (.inr ⟨_, rfl⟩) rfl (.inl rfl)
  · exact yields_busFinishes rfl rfl rfl
  · exact abortLines_numberedStep hseq (by simp [Instr.opcode]) (by simp [Instr.opcode])

theorem execWrbuf_numberedStep (sa : SlaveAddr) (ra : RegAddr) (ptr len : Half) :
    Yields (NumberedStep (.wrbuf sa ra ptr len) l k s) (execWrbuf sa ra ptr len s) := by
  refine yields_atPosition_at hseq fun hseq => ?_
  have hbus : (Instr.wrbuf sa ra ptr len).opcode ∈ [0x9, 0xA, 0xB, 0xC, 0xD] := by simp [Instr.opcode]
  have hgoes (l' k') : NumberedStep (.wrbuf sa ra ptr len) l k s (moveTo 0xB l' k' a s) := numberedStep_moveTo hbus
  refine yields_getD (addressLines_numberedStep hseq hbus (hgoes _ _)) ?_
  unfold wrbufLines
  split
  · split
    · exact yields_moves rfl (.inr ⟨_, rfl⟩) rfl (.inl rfl)
    · exact yields_fault ..
  · exact yields_waits hseq hbus (hgoes _ _) (hgoes _ _)
  · exact yields_moves rfl (.inr ⟨_, rfl⟩) rfl (.inl rfl)
  · exact yields_waitsIf hseq hbus (hgoes _ _) (hgoes _ _)
  · exact yields_busFinishes rfl rfl rfl
  · exact abortLines_numberedStep hseq (by simp) (by simp [Instr.opcode])

theorem execRdbuf_numberedStep (sa : SlaveAddr) (ra : RegAddr) (ptr len : Half) :
    Yields (NumberedStep (.rdbuf sa ra ptr len) l k s) (execRdbuf sa ra ptr len s) := by
  refine yields_atPosition_at hseq fun hseq => ?_
  have hbus : (Instr.rdbuf sa ra ptr len).opcode ∈ [0x9, 0xA, 0xB, 0xC, 0xD] := by simp [Instr.opcode]
  have hgoes (l') : NumberedStep (.rdbuf sa ra ptr len) l k s (moveTo 0xC l' k a s) := numberedStep_moveTo hbus
  rw [Option.getD_or]
  refine yields_getD (addressLines_numberedStep hseq hbus (hgoes _)) ?_
  refine yields_getD (readAddressLines_numberedStep hseq hbus) ?_
  unfold rdbufLines
  split
  · exact yields_moves rfl (.inl rfl) rfl (.inl rfl)
  · split
    · exact yields_moves rfl (.inr ⟨_, rfl⟩) rfl (.inl rfl)
    · exact yields_next.mpr (hgoes _)
  · split
    · exact yields_moves rfl (.inr ⟨_, rfl⟩) rfl (.inl rfl)
    · exact yields_next.mpr (hgoes _)
  · exact yields_waits hseq hbus (hgoes _) (hgoes _)
  · split
    · next t ht =>
      obtain ⟨-, rfl⟩ := hmStore_some ht
      exact yields_moves rfl (.inr ⟨_, rfl⟩) rfl (.inr ⟨ptr, _, rfl, rfl⟩)
    · exact yields_fault ..
  · exact yields_moves rfl (.inr ⟨_, rfl⟩) rfl (.inl rfl)
  · exact yields_busFinishes rfl rfl rfl
  · exact abortLines_numberedStep hseq (by simp [Instr.opcode]) (by simp [Instr.opcode])

theorem execScan_numberedStep : Yields (NumberedStep .scan l k s) (execScan s) := by
  refine yields_atPosition_at hseq fun hseq => ?_
  have hbus : Instr.scan.opcode ∈ [0x9, 0xA, 0xB, 0xC, 0xD] := by simp [Instr.opcode]
  have hgoes (l') : NumberedStep .scan l k s (moveTo 0xD l' k a s) := numberedStep_moveTo hbus
  have hfound : NumberedStep .scan l k s (moveTo 0xD .p5 k a (markFound a s)) :=
    ⟨rfl, .inl rfl, .inl ⟨⟨_, _, _, _, rfl⟩, rfl⟩, .inl rfl⟩
  split
  · exact yields_moves rfl (.inl rfl) rfl (.inl rfl)
  · exact yields_waitsIf hseq hbus (hgoes _) (hgoes _)
  · exact yields_moves rfl (.inr ⟨_, rfl⟩) rfl (.inl rfl)
  · exact yields_waits hseq hbus (hgoes _) (hgoes _)
  · exact yields_moves rfl (.inr ⟨_, rfl⟩) rfl (.inl rfl)
  · exact yields_waits hseq hbus hfound (hgoes _)
  · exact yields_moves rfl (.inr ⟨_, rfl⟩) rfl (.inl rfl)
  · exact yields_waitsIf hseq hbus (hgoes _) (hgoes _)
  · exact yields_moves rfl (.inr ⟨_, rfl⟩) rfl (.inl rfl)
  · exact yields_busFinishes rfl rfl rfl
  · exact yields_fault ..

/-! ### HDX commands -/

theorem execSetdir_numberedStep (d : Direction) : Yields (NumberedStep (.setdir d) l k s) (execSetdir d s) := by
  refine yields_atPosition_at hseq fun hseq => ?_
  split
  · exact yields_moves rfl (.inr ⟨_, rfl⟩) rfl (.inl rfl)
  · exact yields_moves rfl (.inr ⟨_, rfl⟩) rfl (.inl rfl)
  · exact yields_finishes rfl rfl rfl
  · exact yields_fault ..

theorem execSendb_numberedStep (b : Byte) : Yields (NumberedStep (.sendb b) l k s) (execSendb b s) := by
  refine yields_atPosition_at hseq fun hseq => ?_
  split
  · exact yields_moves rfl (.inr ⟨_, rfl⟩) rfl (.inl rfl)
  · exact yields_moves rfl (.inr ⟨_, rfl⟩) rfl (.inl rfl)
  · exact yields_awaits hseq rfl
  · exact yields_moves rfl (.inr ⟨_, rfl⟩) rfl (.inl rfl)
  · exact yields_awaits hseq rfl
  · exact yields_moves rfl (.inr ⟨_, rfl⟩) rfl (.inl rfl)
  · exact yields_moves rfl (.inr ⟨_, rfl⟩) rfl (.inl rfl)
  · exact yields_finishes rfl rfl rfl
  · exact yields_fault ..

omit hseq in
/-- R81, R82: the lines that SENDS and SENDBUF share. -/
theorem transmitLines_numberedStep {i : Instr} {ptr : Half} {n : Nat} (hseq : s.seq = .at i.opcode l sub k a)
    (hi : ∀ t, t = { s with dir := t.dir, dirPin := t.dirPin, trace := t.trace, seq := t.seq, status := t.status } →
      t = written i s t) : Yields (NumberedStep i l k s) (transmitLines i.opcode ptr n l sub k a s) := by
  unfold transmitLines
  split
  · exact yields_moves (hi _ rfl) (.inr ⟨_, rfl⟩) rfl (.inl rfl)
  · exact yields_moves (hi _ rfl) (.inr ⟨_, rfl⟩) rfl (.inl rfl)
  · exact yields_awaits hseq (hi _ rfl)
  · split
    · exact yields_moves (hi _ rfl) (.inr ⟨_, rfl⟩) rfl (.inl rfl)
    · exact yields_fault ..
  · exact yields_awaits hseq (hi _ rfl)
  · exact yields_moves (hi _ rfl) (.inr ⟨_, rfl⟩) rfl (.inl rfl)
  · exact yields_moves (hi _ rfl) (.inr ⟨_, rfl⟩) rfl (.inl rfl)
  · exact yields_finishes (hi _ rfl) rfl rfl
  · exact yields_fault ..

theorem execSends_numberedStep (ptr : Half) : Yields (NumberedStep (.sends ptr) l k s) (execSends ptr s) := by
  refine yields_atPosition_at hseq fun hseq => ?_
  split
  · exact transmitLines_numberedStep hseq fun _ => id
  · exact yields_fault ..

theorem execSendbuf_numberedStep (ptr len : Half) :
    Yields (NumberedStep (.sendbuf ptr len) l k s) (execSendbuf ptr len s) :=
  yields_atPosition_at hseq fun hseq => transmitLines_numberedStep hseq fun _ => id

omit hseq in
/-- R84 S3: the byte that is copied is stored in the command's buffer. -/
theorem copyByte_numberedStep (ptr len : Half) :
    Yields (NumberedStep (.recv ptr len) .s3 k s) (copyByte ptr k a s) := by
  unfold copyByte
  split
  · split
    · next t ht =>
      obtain ⟨-, rfl⟩ := hmStore_some ht
      exact yields_moves rfl (.inl rfl) rfl (.inr ⟨ptr, _, rfl, rfl⟩)
    · exact yields_fault ..
  · exact yields_fault ..

theorem execRecv_numberedStep (ptr len : Half) : Yields (NumberedStep (.recv ptr len) l k s) (execRecv ptr len s) := by
  refine yields_atPosition_at hseq fun hseq => ?_
  split
  · split
    · exact yields_moves rfl (.inl rfl) rfl (.inl rfl)
    · exact yields_finishes rfl rfl rfl
  · exact yields_moves rfl (.inl rfl) rfl (.inl rfl)
  · split
    · exact yields_moves rfl (.inl rfl) rfl (.inl rfl)
    · exact copyByte_numberedStep ptr len
  · exact yields_moves rfl (.inl rfl) rfl (.inl rfl)
  · exact yields_moves rfl (.inl rfl) rfl (.inl rfl)
  · exact yields_finishes rfl rfl rfl
  · exact yields_fault ..

theorem execAvail_numberedStep : Yields (NumberedStep .avail l k s) (execAvail s) := by
  refine yields_atPosition_at hseq fun hseq => ?_
  split
  · exact yields_finishes rfl rfl rfl
  · exact yields_fault ..

theorem execRxlen_numberedStep : Yields (NumberedStep .rxlen l k s) (execRxlen s) := by
  refine yields_atPosition_at hseq fun hseq => ?_
  split
  · exact yields_finishes rfl rfl rfl
  · exact yields_fault ..

theorem execClrrx_numberedStep : Yields (NumberedStep .clrrx l k s) (execClrrx s) := by
  refine yields_atPosition_at hseq fun hseq => ?_
  split
  · exact yields_moves rfl (.inl rfl) rfl (.inl rfl)
  · exact yields_moves rfl (.inl rfl) rfl (.inl rfl)
  · exact yields_finishes rfl rfl rfl
  · exact yields_fault ..

/-- Every numbered step of every command. -/
theorem exec_numberedStep (i : Instr) : Yields (NumberedStep i l k s) (exec i s) := by
  cases i with
  | setdir d => exact execSetdir_numberedStep hseq d
  | sendb b => exact execSendb_numberedStep hseq b
  | sends ptr => exact execSends_numberedStep hseq ptr
  | sendbuf ptr len => exact execSendbuf_numberedStep hseq ptr len
  | recv ptr len => exact execRecv_numberedStep hseq ptr len
  | avail => exact execAvail_numberedStep hseq
  | rxlen => exact execRxlen_numberedStep hseq
  | clrrx => exact execClrrx_numberedStep hseq
  | wrb sa ra v => exact execWrb_numberedStep hseq sa ra v
  | rdb sa ra => exact execRdb_numberedStep hseq sa ra
  | wrbuf sa ra ptr len => exact execWrbuf_numberedStep hseq sa ra ptr len
  | rdbuf sa ra ptr len => exact execRdbuf_numberedStep hseq sa ra ptr len
  | scan => exact execScan_numberedStep hseq

end Commands

/-! ### Steps of the machine -/

/-- A command that answers a next state inside a command runs at its own position. -/
theorem opcode_of_exec {i : Instr} {op : BitVec 4} {l : Line} {sub : Sub} {k a : Nat} {s t : State}
    (hseq : s.seq = .at op l sub k a) (h : exec i s = .next t) : op = i.opcode := by
  have hpos : ∃ f, exec i s = atPosition i s f := by cases i <;> exact ⟨_, rfl⟩
  obtain ⟨f, hf⟩ := hpos
  by_contra hop
  rw [hf, atPosition, hseq] at h
  dsimp only at h
  rw [if_neg hop] at h
  cases h

/-- Choosing the next agent touches only the model's own fields. -/
theorem nextAction_state (s : State) : ∃ agenda draws, (nextAction s).2 = { s with agenda := agenda, draws := draws } := by
  unfold nextAction
  split
  · exact ⟨_, _, rfl⟩
  · exact ⟨_, _, rfl⟩

/-- SEQ's step of a running command is a numbered step of the command in `cmd`. -/
theorem step_numberedStep {s t : State} {op : BitVec 4} {l : Line} {sub : Sub} {k a : Nat} {answer : Answer}
    (hseq : s.seq = .at op l sub k a) (hact : (nextAction s).1 = .seq answer) (hstep : step s = .next t) :
    ∃ i agenda draws, decode s.cmd = .ok i ∧ op = i.opcode ∧
      exec i { s with agenda := agenda, draws := draws, env := answer } = .next t ∧
      NumberedStep i l k { s with agenda := agenda, draws := draws, env := answer } t := by
  obtain ⟨agenda, draws, hstate⟩ := nextAction_state s
  rw [step, hact, hstate, perform] at hstep
  have hrun : s.seq ≠ .idle := by simp [hseq]
  cases hdec : decode s.cmd with
  | error e => simp [seqStep, seqIdle_of_running, hrun, hdec] at hstep
  | ok i =>
    have hexec := (seqStep_running (s := { s with agenda := agenda, draws := draws }) answer hrun hdec).symm.trans hstep
    exact ⟨i, agenda, draws, rfl, opcode_of_exec (s := { s with agenda := agenda, draws := draws, env := answer }) hseq hexec, hexec,
      yields_iff.mp (exec_numberedStep (s := { s with agenda := agenda, draws := draws, env := answer }) hseq i) t hexec⟩

/-- Settles O57: STATUS is written by `finish` alone, the other results by the commands that have them. -/
theorem stepsWriteOnlyTheirResults : Obligations.StepsWriteOnlyTheirResults := by
  unfold Obligations.StepsWriteOnlyTheirResults
  intro s t op l sub k a answer hseq hact hstep
  obtain ⟨i, agenda, draws, -, rfl, -, hwrites, -, hgoesOn, -⟩ := step_numberedStep hseq hact hstep
  refine ⟨fun hne => ?_, ?_, ?_, ?_, fun hidle => ?_⟩
  · rcases hgoesOn with ⟨-, hstatus⟩ | ⟨hidle, -⟩
    · exact absurd hstatus hne
    · exact hidle
  · rw [hwrites]
    cases i <;> simp [written, Instr.opcode]
  · rw [hwrites]
    cases i <;> simp [written, Instr.opcode]
  · rw [hwrites]
    cases i <;> simp [written, Instr.opcode]
  · rcases hgoesOn with ⟨⟨l', sub', k', a', hseq'⟩, -⟩ | ⟨-, hstatus⟩
    · simp [hseq'] at hidle
    · exact hstatus

/-- Settles O58. -/
theorem unitsWriteOnlyTheirOwnState : Obligations.UnitsWriteOnlyTheirOwnState := by
  unfold Obligations.UnitsWriteOnlyTheirOwnState
  intro s t op l sub k a answer hseq hact hstep
  obtain ⟨i, agenda, draws, -, rfl, -, hwrites, -⟩ := step_numberedStep hseq hact hstep
  rw [hwrites]
  cases i <;> simp [written, sameHdx, sameBm, Instr.opcode]

/-- Settles O59: the one byte stored is the one at PTR + k. -/
theorem stepsStoreOnlyTheirBufferByte : Obligations.StepsStoreOnlyTheirBufferByte := by
  unfold Obligations.StepsStoreOnlyTheirBufferByte
  intro s t op l sub k a answer y hwf hseq hact hstep hne
  obtain ⟨i, agenda, draws, hdec, rfl, -, -, -, -, hstores⟩ := step_numberedStep hseq hact hstep
  rcases hstores with hkept | ⟨ptr, v, hline, hstored⟩
  · rw [hkept] at hne
    contradiction
  · have hy : y = bufferAddress ptr k := by
      by_contra hy
      rw [hstored, memRead_memWrite hwf, if_neg hy] at hne
      contradiction
    unfold storesAt at hline
    split at hline
    · cases hline
      exact .inl ⟨_, _, hdec, rfl, hy⟩
    · cases hline
      exact .inr ⟨_, _, _, _, hdec, rfl, hy⟩
    · cases hline

/-! ### The trace -/

/-- Issuing appends no event (R109). -/
theorem issue_trace (i : Instr) (s : State) : Yields (AppendsAtMostOne s) (issue i s) := by
  rw [issue_eq, yields_next]
  split
  · exact .inl rfl
  · exact .inl rfl

/-- Every meaning, at Idle and inside a command. -/
theorem exec_trace (i : Instr) (s : State) : Yields (AppendsAtMostOne s) (exec i s) := by
  match hseq : s.seq with
  | .idle => rw [exec_idle i hseq]; exact issue_trace i s
  | .at op l sub k a => exact (exec_numberedStep hseq i).mono fun _ h => h.events

theorem hostWriteStep_trace (off width : Nat) (v : Word) (s : State) :
    Yields (AppendsAtMostOne s) (hostWriteStep off width v s) := by
  unfold hostWriteStep
  split
  · exact yields_next.mpr (.inl rfl)
  · split
    · exact yields_refused ..
    · split
      · exact yields_next.mpr (.inl rfl)
      · split
        · unfold issueDescriptor
          dsimp only
          split
          · exact exec_trace _ _
          · exact yields_next.mpr (.inl rfl)
        · exact yields_refused ..

/-- R38: the step of every agent but Reset. -/
theorem perform_trace {act : Action} (s : State) (hact : act ≠ .reset) : Yields (AppendsAtMostOne s) (perform act s) := by
  cases act with
  | seq answer =>
    rw [perform, seqStep]
    split
    · exact yields_next.mpr (.inl rfl)
    · split
      · exact exec_trace _ _
      · exact yields_fault ..
  | rxc b =>
    rw [perform, yields_next]
    split
    · exact .inr ⟨_, rfl⟩
    · exact .inl rfl
  | tick => exact yields_next.mpr (.inl rfl)
  | raise => exact yields_next.mpr (.inl rfl)
  | hostWrite off width v => exact hostWriteStep_trace off width v s
  | hostRead off width =>
    refine yields_iff.mpr fun t h => ?_
    rw [hostReadStep_next h]
    exact .inl rfl
  | hmWrite a v =>
    rw [perform, yields_next, hmWriteStep]
    split <;> exact .inl rfl
  | hmRead a =>
    rw [perform, yields_next, hmReadStep]
    split <;> exact .inl rfl
  | reset => contradiction

/-- Settles O54. -/
theorem stepsAppendAtMostOneEvent : Obligations.StepsAppendAtMostOneEvent := by
  unfold Obligations.StepsAppendAtMostOneEvent
  intro s t hact hstep
  obtain ⟨agenda, draws, hstate⟩ := nextAction_state s
  have htrace := yields_iff.mp (perform_trace (nextAction s).2 hact) t hstep
  rwa [hstate] at htrace

/-! ### Count and flag (R23) -/

/-- Count and flag tell the same. -/
def CountAndFlag (s : State) : Prop := s.rxReady = !decide (s.rxCount = 0)

/-- At a position that is not between the two resets, `drainTogether` is that count and flag tell the same. -/
theorem drainTogether_outside {s : State}
    (h : ∀ op l sub k a, s.seq = .at op l sub k a → ¬ (op = 0x5 ∧ l = .s5 ∨ op = 0x8 ∧ l = .s2)) :
    drainTogether s = true ↔ CountAndFlag s := by
  unfold drainTogether CountAndFlag
  split
  · next op l sub k a hseq => rw [if_neg (h op l sub k a hseq), beq_iff_eq]
  · rw [beq_iff_eq]

/-- Between the two resets, the one drawn first is done. -/
theorem drainTogether_between {s : State} {op : BitVec 4} {l : Line} {sub : Sub} {k a : Nat}
    (hseq : s.seq = .at op l sub k a) (h : op = 0x5 ∧ l = .s5 ∨ op = 0x8 ∧ l = .s2) :
    drainTogether s = true ↔ if s.rorder then s.rxReady = false else s.rxCount = 0 := by
  unfold drainTogether
  rw [hseq]
  dsimp only
  rw [if_pos h]
  cases s.rorder <;> simp

/-- R84 S5, R88 S2: after the second reset both are reset. -/
theorem secondReset_countAndFlag {s : State} (h : if s.rorder then s.rxReady = false else s.rxCount = 0) :
    CountAndFlag (secondReset s.rorder s) := by
  unfold CountAndFlag
  cases horder : s.rorder <;> simp_all

theorem drainTogether_at {s : State} {op : BitVec 4} {l : Line} {sub : Sub} {k a : Nat} (hseq : s.seq = .at op l sub k a)
    (h : ¬ (op = 0x5 ∧ l = .s5 ∨ op = 0x8 ∧ l = .s2)) : drainTogether s = true ↔ CountAndFlag s :=
  drainTogether_outside fun _ _ _ _ _ hseq' => by
    obtain ⟨rfl, rfl, -⟩ := SeqPos.at.inj (hseq.symm.trans hseq')
    exact h

/-- A step to a line that is not between the two resets. -/
theorem drainTogether_moveTo {op : BitVec 4} {l : Line} {k a : Nat} {s : State}
    (h : ¬ (op = 0x5 ∧ l = .s5 ∨ op = 0x8 ∧ l = .s2)) (hs : CountAndFlag s) : drainTogether (moveTo op l k a s) = true :=
  (drainTogether_at rfl h).mpr hs

theorem drainTogether_idle {s : State} (hidle : s.seq = .idle) : drainTogether s = true ↔ CountAndFlag s :=
  drainTogether_outside fun _ _ _ _ _ hseq => by simp [hidle] at hseq

/-- R84 S4, R88 S1: after the first reset the one drawn first is reset. -/
theorem drainTogether_firstReset {op : BitVec 4} {l : Line} {k a : Nat} {s : State}
    (h : op = 0x5 ∧ l = .s5 ∨ op = 0x8 ∧ l = .s2) : drainTogether (moveTo op l k a (firstReset s.rorder s)) = true := by
  rw [drainTogether_between rfl h]
  cases horder : s.rorder <;> simp [horder]

section Drain
variable {l : Line} {sub : Sub} {k a : Nat} {s : State} (hs : drainTogether s = true)
include hs

/-- RECV (R84): the bytes are copied before the first reset. -/
theorem execRecv_drainTogether {ptr len : Half} (hseq : s.seq = .at 0x5 l sub k a) :
    Yields (drainTogether · = true) (execRecv ptr len s) := by
  refine yields_atPosition_at hseq fun _ => ?_
  have hout (h : l ≠ .s5) : CountAndFlag s := (drainTogether_at hseq (by simp [h])).mp hs
  split
  · split
    · exact yields_next.mpr (drainTogether_moveTo (by decide) (hout (by decide)))
    · exact yields_next.mpr ((drainTogether_idle rfl).mpr (hout (by decide)))
  · exact yields_next.mpr (drainTogether_moveTo (s := latchDrain s) (by decide) (hout (by decide)))
  · split
    · exact yields_next.mpr (drainTogether_moveTo (by decide) (hout (by decide)))
    · unfold copyByte
      split
      · split
        · next t ht =>
          obtain ⟨-, rfl⟩ := hmStore_some ht
          refine yields_next.mpr (drainTogether_moveTo (by decide) ?_)
          exact hout (by decide)
        · exact yields_fault ..
      · exact yields_fault ..
  · exact yields_next.mpr (drainTogether_firstReset (by decide))
  · exact yields_next.mpr (drainTogether_moveTo (by decide)
      (secondReset_countAndFlag ((drainTogether_between hseq (by decide)).mp hs)))
  · exact yields_next.mpr ((drainTogether_idle rfl).mpr (hout (by decide)))
  · exact yields_fault ..

/-- CLRRX (R88): its first step draws the order and makes the first reset. -/
theorem execClrrx_drainTogether (hseq : s.seq = .at 0x8 l sub k a) : Yields (drainTogether · = true) (execClrrx s) := by
  refine yields_atPosition_at hseq fun _ => ?_
  split
  · exact yields_next.mpr (drainTogether_firstReset (s := { s with rorder := Config.drawBit s.draws, draws := s.draws + 1 })
      (by decide))
  · exact yields_next.mpr (drainTogether_moveTo (by decide)
      (secondReset_countAndFlag ((drainTogether_between hseq (by decide)).mp hs)))
  · have hs' : CountAndFlag s := (drainTogether_at hseq (by decide)).mp hs
    exact yields_next.mpr ((drainTogether_idle rfl).mpr hs')
  · exact yields_fault ..

/-- A command that is neither RECV nor CLRRX touches neither count nor flag. -/
theorem drainTogether_of_numberedStep {i : Instr} {t : State} (hseq : s.seq = .at i.opcode l sub k a)
    (hop : i.opcode ≠ 0x5 ∧ i.opcode ≠ 0x8) (h : NumberedStep i l k s t) : drainTogether t = true := by
  have hout (l' : Line) : ¬ (i.opcode = 0x5 ∧ l' = .s5 ∨ i.opcode = 0x8 ∧ l' = .s2) :=
    not_or.mpr ⟨fun h => hop.left h.left, fun h => hop.right h.left⟩
  have hs' : CountAndFlag s := (drainTogether_at hseq (hout l)).mp hs
  have hkept : t.rxCount = s.rxCount ∧ t.rxReady = s.rxReady := by
    rw [h.writes]
    cases i <;> first | exact ⟨rfl, rfl⟩ | simp [Instr.opcode] at hop
  have ht : CountAndFlag t := by rwa [CountAndFlag, hkept.1, hkept.2]
  rcases h.goesOn with ⟨⟨l', sub', k', a', hat⟩, -⟩ | ⟨hidle, -⟩
  · exact (drainTogether_at hat (hout l')).mpr ht
  · exact (drainTogether_idle hidle).mpr ht

theorem exec_running_drainTogether {op : BitVec 4} (i : Instr) (hseq : s.seq = .at op l sub k a) :
    Yields (drainTogether · = true) (exec i s) := by
  refine yields_iff.mpr fun t h => ?_
  obtain rfl := opcode_of_exec hseq h
  have hstep : NumberedStep i l k s t := yields_iff.mp (exec_numberedStep hseq i) t h
  cases i with
  | recv ptr len => exact yields_iff.mp (execRecv_drainTogether hs hseq) t h
  | clrrx => exact yields_iff.mp (execClrrx_drainTogether hs hseq) t h
  | _ => exact drainTogether_of_numberedStep hs hseq (by simp [Instr.opcode]) hstep

/-- Issuing leaves the buffer alone, and no command starts between the two resets (R109). -/
theorem exec_drainTogether (i : Instr) : Yields (drainTogether · = true) (exec i s) := by
  match hseq : s.seq with
  | .at op l sub k a => exact exec_running_drainTogether hs i hseq
  | .idle =>
    have hs' : CountAndFlag s := (drainTogether_idle hseq).mp hs
    rw [exec_idle i hseq, issue_eq, yields_next]
    split
    · exact drainTogether_moveTo (by simp) hs'
    · exact (drainTogether_idle rfl).mpr hs'

omit hs in
/-- R89: an append sets the flag and leaves the count above 0; with DRAIN_ATOMIC it is not taken between the resets. -/
theorem rxcAppend_drainTogether (b : Byte) (hatomic : s.cfg.drainAtomic = true) (hon : rxcEnabled s = true) :
    drainTogether (rxcAppend b s) = true := by
  have hfree : insideDrain s.seq = false := ((rxcEnabled_iff s).mp hon).right hatomic
  refine (drainTogether_outside fun op l sub k a hseq hbetween => ?_).mpr ?_
  · have hin : insideDrain s.seq = true :=
      (insideDrain_iff s.seq).mpr ⟨op, l, sub, k, a, hseq, hbetween.imp And.left And.left⟩
    exact absurd (hin.symm.trans hfree) (by decide)
  · have hcount : (rxcAppend b s).rxCount ≠ 0 := by
      rw [rxcAppend_rxCount]
      split
      · next hroom =>
        rw [rxRoom_iff] at hroom
        bv_omega
      · next hfull =>
        rw [rxRoom_iff] at hfull
        bv_omega
    rw [CountAndFlag, decide_eq_false hcount]
    rfl

theorem issueDescriptor_drainTogether (hi : Word) (hidle : s.seq = .idle) :
    Yields (drainTogether · = true) (issueDescriptor hi s) := by
  unfold issueDescriptor
  dsimp only
  split
  · exact exec_drainTogether (s := { s with cmdHi := hi, cmd := descriptorOf s.cmdLo hi }) hs _
  · exact yields_next.mpr ((drainTogether_idle rfl).mpr ((drainTogether_idle hidle).mp hs))

theorem hostWriteStep_drainTogether (off width : Nat) (v : Word) :
    Yields (drainTogether · = true) (hostWriteStep off width v s) := by
  unfold hostWriteStep
  split
  · exact yields_next.mpr hs
  · next hidle =>
    have hidle : s.seq = .idle := by simpa [seqIdle] using hidle
    split
    · exact yields_refused ..
    · split
      · exact yields_next.mpr hs
      · split
        · exact issueDescriptor_drainTogether hs v hidle
        · exact yields_refused ..

/-- R23: every agent's step. -/
theorem perform_drainTogether (act : Action) (hatomic : s.cfg.drainAtomic = true) :
    Yields (drainTogether · = true) (perform act s) := by
  cases act with
  | seq answer =>
    rw [perform, seqStep]
    split
    · exact yields_next.mpr hs
    · split
      · exact exec_drainTogether (s := { s with env := answer }) hs _
      · exact yields_fault ..
  | rxc b =>
    rw [perform, yields_next]
    split
    · next hon => exact rxcAppend_drainTogether b hatomic hon
    · exact hs
  | tick => exact yields_next.mpr hs
  | raise => exact yields_next.mpr hs
  | hostWrite off width v => exact hostWriteStep_drainTogether hs off width v
  | hostRead off width =>
    refine yields_iff.mpr fun t h => ?_
    rw [hostReadStep_next h]
    exact hs
  | hmWrite a v =>
    rw [perform, yields_next, hmWriteStep]
    split <;> exact hs
  | hmRead a =>
    rw [perform, yields_next, hmReadStep]
    split <;> exact hs
  | reset => rfl

end Drain

/-- Settles O56. -/
theorem atomicDrainKeepsFlagWithCount : Obligations.AtomicDrainKeepsFlagWithCount := by
  unfold Obligations.AtomicDrainKeepsFlagWithCount
  intro s t hatomic hs hstep
  obtain ⟨agenda, draws, hstate⟩ := nextAction_state s
  rw [step, hstate] at hstep
  exact yields_iff.mp (perform_drainTogether (s := { s with agenda := agenda, draws := draws }) hs _ hatomic) t hstep

end Sys2Proof.Machine
end

section
/-! Completed runs (R12, R16, R130): what the other agents can do while a command runs, and the induction over the steps up to
its `finish`. -/

namespace Sys2Proof.Machine

/-! ### The other agents during a command -/

/-- What any agent but SEQ, the scheduler and ENV's answers can change while a command runs: the receive buffer with its count,
flag and request (but not with DRAIN_ATOMIC inside RECV and CLRRX), the clock, `URx` events, and the model's own fields. -/
structure Interrupted (s t : State) : Prop where
  frame : t = { s with
    rxBuf := t.rxBuf, rxCount := t.rxCount, rxReady := t.rxReady, rxPend := t.rxPend, tick := t.tick, trace := t.trace,
    env := t.env, agenda := t.agenda, draws := t.draws }
  events : seqEvents t = seqEvents s
  drain : s.cfg.drainAtomic = true → insideDrain s.seq = true →
    t.rxBuf = s.rxBuf ∧ t.rxCount = s.rxCount ∧ t.rxReady = s.rxReady

theorem Interrupted.refl (s : State) : Interrupted s s := ⟨rfl, rfl, fun _ _ => ⟨rfl, rfl, rfl⟩⟩

theorem Interrupted.seq {s t : State} (h : Interrupted s t) : t.seq = s.seq := by rw [h.frame]

theorem Interrupted.cmd {s t : State} (h : Interrupted s t) : t.cmd = s.cmd := by rw [h.frame]

/-- The scheduler's fields and ENV's answers are no part of what the agents see of each other. -/
theorem Interrupted.of_scheduled {s t : State} {agenda : List Action} {draws : Nat} {env : Answer}
    (h : Interrupted { s with agenda := agenda, draws := draws, env := env } t) : Interrupted s t :=
  ⟨h.frame, h.events, h.drain⟩

/-- R89, R114: an append is an event of RXC's, and with DRAIN_ATOMIC none is taken inside RECV and CLRRX. -/
theorem rxcAppend_interrupted (b : Byte) {s : State} (hon : rxcEnabled s = true) : Interrupted s (rxcAppend b s) := by
  refine ⟨rfl, by simp [seqEvents, isSeqEvent], fun hatomic hin => ?_⟩
  have hfree : insideDrain s.seq = false := ((rxcEnabled_iff s).mp hon).right hatomic
  exact absurd (hin.symm.trans hfree) (by decide)

/-- R129: while a command runs every action but SEQ's and Reset is an interrupt step or passed over. -/
theorem perform_interrupted {act : Action} {s : State} (hrun : s.seq ≠ .idle) (hact : act ≠ .reset)
    (hseq : ∀ answer, act ≠ .seq answer) : Yields (Interrupted s) (perform act s) := by
  have hhost (h : isHostAction act = true) : Yields (Interrupted s) (perform act s) :=
    (perform_host_running hrun h).symm ▸ yields_next.mpr (.refl s)
  cases act with
  | seq answer => exact absurd rfl (hseq answer)
  | rxc b =>
    rw [perform, yields_next]
    split
    · next hon => exact rxcAppend_interrupted b hon
    · exact .refl s
  | tick => exact yields_next.mpr ⟨rfl, rfl, fun _ _ => ⟨rfl, rfl, rfl⟩⟩
  | raise => exact yields_next.mpr ⟨rfl, rfl, fun _ _ => ⟨rfl, rfl, rfl⟩⟩
  | hostWrite offset width v => exact hhost rfl
  | hostRead offset width => exact hhost rfl
  | hmWrite a v => exact hhost rfl
  | hmRead a => exact hhost rfl
  | reset => contradiction

/-- A step while a command runs: another agent's, or the command's numbered step. -/
theorem step_while_running {i : Instr} {s t : State} (hrun : s.seq ≠ .idle) (hi : decode s.cmd = .ok i)
    (hact : (nextAction s).1 ≠ .reset) (h : step s = .next t) :
    Interrupted s t ∨ ∃ u, Interrupted s u ∧ exec i u = .next t := by
  obtain ⟨agenda, draws, hstate⟩ := nextAction_state s
  rw [step, hstate] at h
  by_cases hseq : ∃ answer, (nextAction s).1 = .seq answer
  · obtain ⟨answer, hanswer⟩ := hseq
    rw [hanswer, perform, seqStep_running (s := { s with agenda := agenda, draws := draws }) answer hrun hi] at h
    exact .inr ⟨_, .of_scheduled (.refl _), h⟩
  · have hother : Interrupted { s with agenda := agenda, draws := draws } t :=
      yields_iff.mp (perform_interrupted (s := { s with agenda := agenda, draws := draws }) hrun hact
        fun answer hanswer => hseq ⟨answer, hanswer⟩) t h
    exact .inl (.of_scheduled (env := s.env) hother)

/-! ### What a whole command leaves alone -/

/-- `s` with all that can change while command `i` runs put to its reset value. -/
def outside (i : Instr) (s : State) : State :=
  { written i s State.reset with
    rxBuf := State.reset.rxBuf, rxCount := 0, rxReady := false, rxPend := false, tick := 0, trace := [],
    env := State.reset.env, agenda := [], draws := 0 }

theorem Interrupted.outside {s t : State} (h : Interrupted s t) (i : Instr) : outside i t = outside i s := by
  rw [h.frame]
  cases i <;> rfl

theorem NumberedStep.outside {i : Instr} {l : Line} {k : Nat} {s t : State} (h : NumberedStep i l k s t) :
    outside i t = outside i s := by
  rw [h.writes]
  cases i <;> rfl

/-- An element that the command and the interrupts leave alone. -/
theorem eq_of_outside {α : Type} {i : Instr} {s t : State} (h : outside i t = outside i s) (f : State → α)
    (hf : ∀ w, f (Machine.outside i w) = f w) : f t = f s :=
  (hf t).symm.trans ((congrArg f h).trans (hf s))

theorem cmd_of_outside {i : Instr} {s t : State} (h : outside i t = outside i s) : t.cmd = s.cmd := by
  have hcmd := congrArg State.cmd h
  cases i <;> exact hcmd

theorem cfg_of_outside {i : Instr} {s t : State} (h : outside i t = outside i s) : t.cfg = s.cfg := by
  have hcfg := congrArg State.cfg h
  cases i <;> exact hcfg

/-- A running command's step leaves alone what its numbered steps do not write. -/
theorem exec_outside {i : Instr} {s t : State} (hrun : s.seq ≠ .idle) (h : exec i s = .next t) :
    outside i t = outside i s := by
  match hseq : s.seq with
  | .idle => contradiction
  | .at op l sub k a => exact (yields_iff.mp (exec_numberedStep hseq i) t h).outside

/-- The induction over a completed run: what holds at issue, is kept by the other agents and by the command's numbered steps,
holds at the end. Each numbered step may use what the command leaves alone. -/
theorem completion_invariant {i : Instr} {s : State} {P : State → Prop} 
    (hint : ∀ u w, Interrupted u w → u.seq ≠ .idle → P u → P w)
    (hexec : ∀ u, P u → u.seq ≠ .idle → outside i u = outside i s → Yields P (exec i u)) {n : Nat} {u t : State}
    (hi : decode s.cmd = .ok i) (hout : outside i u = outside i s) (hu : P u) (h : completion n u = some t) :
    P t ∧ t.seq = .idle ∧ outside i t = outside i s := by
  induction n generalizing u with
  | zero =>
    obtain ⟨hidle, rfl⟩ := completion_zero h
    exact ⟨hu, hidle, hout⟩
  | succ n ih =>
    obtain ⟨hrun, hact, w, hw, hrest⟩ := completion_succ h
    have hdec : decode u.cmd = .ok i := (cmd_of_outside hout).symm ▸ hi
    rcases step_while_running hrun hdec hact hw with hother | ⟨v, hother, hv⟩
    · exact ih ((hother.outside i).trans hout) (hint u w hother hrun hu) hrest
    · have hout' : outside i v = outside i s := (hother.outside i).trans hout
      have hrun' : v.seq ≠ .idle := hother.seq ▸ hrun
      have hP : P w := yields_iff.mp (hexec v (hint u v hother hrun hu) hrun' hout') w hv
      exact ih ((exec_outside hrun' hv).trans hout') hP hrest

/-- The induction from the issue of a command. -/
theorem issued_invariant {i : Instr} {s : State} {P : State → Prop} (hissued : Issued i s)
    (hint : ∀ u w, Interrupted u w → u.seq ≠ .idle → P u → P w)
    (hexec : ∀ u, P u → u.seq ≠ .idle → outside i u = outside i s → Yields P (exec i u)) (hs : P s) {n : Nat} {t : State}
    (h : completion n s = some t) : P t ∧ t.seq = .idle ∧ outside i t = outside i s := by
  obtain ⟨-, hi, -⟩ := hissued
  exact completion_invariant hint hexec hi rfl hs h

end Sys2Proof.Machine
end

section
/-! Commands that append a fixed sequence of events, unless a wait of theirs times out (R80 to R82, R96, R99 to R102): the
relation between the events appended so far and the SEQ position, kept by every agent. -/

namespace Sys2Proof.Machine

/-- What such a command is to append: `full` for the bytes that it receives, `total` of them in all, and `rest` from each line
with its loop index on, for the bytes still to come. The waits are for `cond`, and those not `enabled` by a parameter are
left out. What the state holds once some bytes are received: `holds` at a line,
`left` during an abort, `final` after `finish` and `failed` after an abort's. `read` tells whether an abort acknowledges. -/
structure Script where
  cfg : Params
  read : Bool
  cond : Line → Cond
  enabled : Line → Bool
  total : Nat
  full : List Byte → List Event
  rest : Line → Nat → List Byte → List Event
  holds : List Byte → Line → Nat → State → Prop
  left : List Byte → Memory → Prop
  final : List Byte → State → Prop
  failed : List Byte → State → Prop

/-- An event of SEQ's becomes the last of them. -/
theorem seqEvents_emit {e : Event} (s : State) (he : isSeqEvent e = true) : seqEvents (emit e s) = seqEvents s ++ [e] := by
  simp [seqEvents, he]

namespace Script

/-- The bytes `got` are received and the events `done` appended after `before`, then `extra`; whatever bytes are still to
come, the rest of the script is that of the line. -/
structure Underway (C : Script) (before : List Event) (got : List Byte) (l : Line) (k : Nat) (extra done : List Event)
    (u : State) : Prop where
  events : seqEvents u = before ++ done ++ extra
  rest : ∀ future, got.length + future.length = C.total → done ++ C.rest l k future = C.full (got ++ future)
  received : done.countP isRx = got.length
  room : got.length ≤ C.total
  holds : C.holds got l k u

/-- The bytes `got` are received, a wait of the script timed out after the events `done`, and the events `after` followed. -/
structure TimedOut (C : Script) (before after : List Event) (got : List Byte) (done : List Event) (c : Cond) (u : State) :
    Prop where
  events : seqEvents u = before ++ done ++ [.waitTimeout c] ++ after
  rest : ∃ future, got.length + future.length = C.total ∧ done ++ [.waitOk c] <+: C.full (got ++ future)
  received : done.countP isRx = got.length

/-- The event with which a wait ends. -/
def waitEvent (ok : Bool) (c : Cond) : Event := if ok then .waitOk c else .waitTimeout c

theorem isSeqEvent_waitEvent (ok : Bool) (c : Cond) : isSeqEvent (waitEvent ok c) = true := by
  cases ok <;> rfl

/-- R96: the abort's events before one of its lines, none at a line that is not the abort's. -/
def abortedAt (C : Script) : Line → Option (List Event)
  | .a1 => some []
  | .a2 => some (if C.cfg.stopOnAbort then [.stop] else [])
  | .a3 => some (abortEvents C.cfg C.read)
  | _ => none

/-- What holds at a position of the command. -/
def At (C : Script) (before : List Event) (l : Line) (sub : Sub) (k : Nat) (u : State) : Prop :=
  match C.abortedAt l with
  | some after => (∃ got done c, C.TimedOut before after got done c u ∧ C.left got u.hm) ∧
      (l = .a3 → C.read = true → u.ackEn = true)
  | none => (sub = .act ∨ C.enabled l = true) ∧ ∃ got done,
      C.Underway before got l k (if sub = .test then [waitEvent u.wok (C.cond l)] else []) done u

/-- What holds after the command's `finish`. -/
def Ended (C : Script) (before : List Event) (u : State) : Prop :=
  (u.status = 0x01 ∧ ∃ bytes, bytes.length = C.total ∧ seqEvents u = before ++ C.full bytes ∧ C.final bytes u) ∨
    (u.status = 0x02 ∧ ∃ got done c, C.TimedOut before (abortEvents C.cfg C.read) got done c u ∧ C.failed got u)

/-- What holds during a run of the command. -/
def Kept (C : Script) (before : List Event) (u : State) : Prop :=
  match u.seq with
  | .idle => C.Ended before u
  | .at _ l sub k _ => C.At before l sub k u

/-- The elements that `holds` may speak of. -/
def SameData (u w : State) : Prop :=
  w.hm = u.hm ∧ w.rdByte = u.rdByte ∧ w.ackEn = u.ackEn ∧ w.dir = u.dir ∧ w.dirPin = u.dirPin

/-- `holds` speaks of no other elements. -/
def Stable (C : Script) : Prop := ∀ u w got l k, SameData u w → C.holds got l k u → C.holds got l k w

section Rules
variable {C : Script} {before : List Event} {got : List Byte} {l l' : Line} {k k' : Nat} {done : List Event} {u w : State}

/-- A line that appends an event which is no received byte. -/
theorem Underway.event {e : Event} (h : C.Underway before got l k [] done u)
    (hrest : ∀ future, got.length + future.length = C.total → C.rest l k future = e :: C.rest l' k' future)
    (hevents : seqEvents w = seqEvents u ++ [e]) (hrx : isRx e = false) (hholds : C.holds got l' k' w) :
    C.Underway before got l' k' [] (done ++ [e]) w where
  events := by rw [hevents, h.events]; simp
  rest future hlen := by rw [← h.rest future hlen, hrest future hlen]; simp
  received := by rw [List.countP_append, h.received]; simp [hrx]
  room := h.room
  holds := hholds

/-- A line that appends nothing. -/
theorem Underway.silent (h : C.Underway before got l k [] done u)
    (hrest : ∀ future, got.length + future.length = C.total → C.rest l k future = C.rest l' k' future)
    (hevents : seqEvents w = seqEvents u) (hholds : C.holds got l' k' w) : C.Underway before got l' k' [] done w where
  events := hevents.trans h.events
  rest future hlen := by rw [← h.rest future hlen, hrest future hlen]
  received := h.received
  room := h.room
  holds := hholds

/-- A line that receives a byte. -/
theorem Underway.receive {b : Byte} (h : C.Underway before got l k [] done u) (hroom : got.length < C.total)
    (hrest : ∀ future, got.length + 1 + future.length = C.total →
      C.rest l k (b :: future) = .rx b :: C.rest l' k' future)
    (hevents : seqEvents w = seqEvents u ++ [.rx b]) (hholds : C.holds (got ++ [b]) l' k' w) :
    C.Underway before (got ++ [b]) l' k' [] (done ++ [.rx b]) w where
  events := by rw [hevents, h.events]; simp
  rest future hlen := by
    rw [List.length_append, List.length_singleton] at hlen
    rw [List.append_assoc got, List.singleton_append, ← h.rest (b :: future) (by rw [List.length_cons]; omega),
      hrest future hlen]
    simp
  received := by rw [List.countP_append, h.received]; simp [isRx]
  room := by rw [List.length_append, List.length_singleton]; omega
  holds := hholds

/-- The step after a wait that succeeded. -/
theorem Underway.passed {c : Cond} (h : C.Underway before got l k [.waitOk c] done u)
    (hrest : ∀ future, got.length + future.length = C.total → C.rest l k future = .waitOk c :: C.rest l' k' future)
    (hevents : seqEvents w = seqEvents u) (hholds : C.holds got l' k' w) :
    C.Underway before got l' k' [] (done ++ [.waitOk c]) w where
  events := by rw [hevents, h.events]; simp
  rest future hlen := by rw [← h.rest future hlen, hrest future hlen]; simp
  received := by rw [List.countP_append, h.received]; simp [isRx]
  room := h.room
  holds := hholds

/-- The step after a wait that timed out: what was still to come does not matter, so it may have been any bytes. -/
theorem Underway.timedOut {c : Cond} {next : List Byte → List Event} (h : C.Underway before got l k [.waitTimeout c] done u)
    (hrest : ∀ future, got.length + future.length = C.total → C.rest l k future = .waitOk c :: next future)
    (hevents : seqEvents w = seqEvents u) : C.TimedOut before [] got done c w where
  events := by rw [hevents, h.events]; simp
  rest := by
    have hlen : got.length + (List.replicate (C.total - got.length) (0 : Byte)).length = C.total := by
      rw [List.length_replicate]
      exact Nat.add_sub_cancel' h.room
    refine ⟨_, hlen, ⟨next (List.replicate (C.total - got.length) 0), ?_⟩⟩
    rw [← h.rest _ hlen, hrest _ hlen]
    simp
  received := h.received

/-- A line of the abort that appends some events. -/
theorem TimedOut.append {after more : List Event} {c : Cond} (h : C.TimedOut before after got done c u)
    (hevents : seqEvents w = seqEvents u ++ more) : C.TimedOut before (after ++ more) got done c w where
  events := by rw [hevents, h.events]; simp
  rest := h.rest
  received := h.received

/-- The line that finishes with nothing left of the script. -/
theorem Underway.finish (h : C.Underway before got l k [] done u) (htotal : got.length = C.total)
    (hrest : C.rest l k [] = []) (hevents : seqEvents w = seqEvents u) (hstatus : w.status = 0x01)
    (hfinal : C.final got w) : C.Ended before w := by
  have hdone : done = C.full got := by simpa [hrest] using h.rest [] (by simpa using htotal)
  exact .inl ⟨hstatus, got, htotal, by rw [hevents, h.events, hdone]; simp, hfinal⟩

/-- Nothing but the position, the model's own fields and what `holds` does not speak of has changed. -/
theorem Underway.congr {extra : List Event} (hstable : C.Stable) (h : C.Underway before got l k extra done u)
    (hdata : SameData u w) (hevents : seqEvents w = seqEvents u) : C.Underway before got l k extra done w :=
  { h with events := hevents.trans h.events, holds := hstable u w got l k hdata h.holds }

theorem kept_of_interrupted (hstable : C.Stable) (h : Interrupted u w) (hrun : u.seq ≠ .idle) (hu : C.Kept before u) :
    C.Kept before w := by
  have hdata : SameData u w := by rw [h.frame]; exact ⟨rfl, rfl, rfl, rfl, rfl⟩
  have hwok : w.wok = u.wok := by rw [h.frame]
  have ⟨hhm, _, hack, _, _⟩ := hdata
  unfold Kept at hu ⊢
  rw [h.seq]
  split at hu
  · contradiction
  · unfold At at hu ⊢
    split at hu
    · obtain ⟨⟨got, done, c, htimeout, hleft⟩, hacked⟩ := hu
      exact ⟨⟨got, done, c, { htimeout with events := h.events.trans htimeout.events }, hhm ▸ hleft⟩, hack ▸ hacked⟩
    · obtain ⟨hon, got, done, hunder⟩ := hu
      exact ⟨hon, got, done, hwok ▸ hunder.congr hstable hdata h.events⟩

/-- At a line of the rule, not the abort's. -/
theorem at_of_underway {sub : Sub} (hl : C.abortedAt l = none) (hon : sub = .act ∨ C.enabled l = true)
    (h : C.Underway before got l k (if sub = .test then [waitEvent u.wok (C.cond l)] else []) done u) :
    C.At before l sub k u := by
  unfold At
  rw [hl]
  exact ⟨hon, got, done, h⟩

theorem underway_of_at {sub : Sub} (hl : C.abortedAt l = none) (h : C.At before l sub k u) :
    (sub = .act ∨ C.enabled l = true) ∧ ∃ got done,
    C.Underway before got l k (if sub = .test then [waitEvent u.wok (C.cond l)] else []) done u := by
  unfold At at h
  rwa [hl] at h

/-- A position that a step moves to. -/
theorem kept_of_at {op : BitVec 4} {sub : Sub} {a : Nat} (hseq : w.seq = .at op l sub k a) (h : C.At before l sub k w) :
    C.Kept before w := by
  unfold Kept
  rwa [hseq]

/-- A line that moves on to another of the rule. -/
theorem kept_moveTo {op : BitVec 4} {a : Nat} (hl : C.abortedAt l' = none)
    (h : C.Underway before got l' k' [] done (moveTo op l' k' a w)) : C.Kept before (moveTo op l' k' a w) :=
  kept_of_at rfl (at_of_underway (sub := .act) hl (.inl rfl) h)

/-- A wait (R92): the way on is taken after WaitOk, the abort's after WaitTimeout. -/
theorem yields_wait {c : Cond} {budget : Nat} {op : BitVec 4} {sub : Sub} {a : Nat} {passed failed : State → State}
    (hstable : C.Stable) (hseq : u.seq = .at op l sub k a) (hl : C.abortedAt l = none) (hc : C.cond l = c)
    (hon : C.enabled l = true)     (h : C.At before l sub k u)
    (hpass : ∀ got done, C.Underway before got l k [.waitOk c] done u → C.Kept before (passed u))
    (hfail : ∀ got done, C.Underway before got l k [.waitTimeout c] done u → C.Kept before (failed u)) :
    Yields (C.Kept before) (waitLine c budget op l sub k a passed failed u) := by
  obtain ⟨-, got, done, hunder⟩ := underway_of_at hl h
  have hdata {w : State} (hw : w = { u with trace := w.trace, wstart := w.wstart, wok := w.wok, seq := w.seq }) :
      SameData u w := by rw [hw]; exact ⟨rfl, rfl, rfl, rfl, rfl⟩
  subst hc
  cases sub with
  | act =>
    rw [waitLine_act, yields_next]
    exact kept_of_at rfl (at_of_underway (sub := .poll) hl (.inr hon) (hunder.congr hstable (hdata rfl) rfl))
  | poll =>
    have hended (ok : Bool) {w : State}
        (hw : w = { emit (waitEvent ok (C.cond l)) u with wok := ok, seq := .at op l .test k a }) : C.Kept before w := by
      subst hw
      refine kept_of_at rfl (at_of_underway (got := got) (done := done) (sub := .test) hl (.inr hon) ?_)
      refine { hunder with events := ?_, holds := hstable u _ got l k (hdata rfl) hunder.holds }
      have hemit := seqEvents_emit u (isSeqEvent_waitEvent ok (C.cond l))
      have hevents := hunder.events
      rw [if_neg (by decide), List.append_nil] at hevents
      rw [if_pos rfl, ← hevents]
      exact hemit
    rw [waitLine_poll, yields_next]
    split
    · exact hended true rfl
    · split
      · exact hended false rfl
      · exact kept_of_at hseq h
  | test =>
    rw [waitLine_test, yields_next]
    cases hok : u.wok with
    | true => exact hpass got done (by simpa [hok, waitEvent] using hunder)
    | false => exact hfail got done (by simpa [hok, waitEvent] using hunder)

/-- A wait that a parameter selects: when it does not, the line is left in one step. -/
theorem yields_waitIf {enabled : Bool} {c : Cond} {budget : Nat} {op : BitVec 4} {sub : Sub} {a : Nat}
    {passed failed : State → State} (hstable : C.Stable) (hseq : u.seq = .at op l sub k a) (hl : C.abortedAt l = none)
    (hc : C.cond l = c) (hon : C.enabled l = enabled) (h : C.At before l sub k u)
    (hskip : enabled = false → sub = .act → C.Kept before (passed u))
    (hpass : enabled = true → ∀ got done, C.Underway before got l k [.waitOk c] done u → C.Kept before (passed u))
    (hfail : enabled = true → ∀ got done, C.Underway before got l k [.waitTimeout c] done u → C.Kept before (failed u)) :
    Yields (C.Kept before) (waitLineIf enabled c budget op l sub k a passed failed u) := by
  unfold waitLineIf
  split
  · next hoff => exact yields_next.mpr (hskip hoff.left hoff.right)
  · next hwaits =>
    have henabled : enabled = true := by
      obtain ⟨hact | henabled, -⟩ := underway_of_at hl h
      · exact Bool.eq_true_of_not_eq_false fun hoff => hwaits ⟨hoff, hact⟩
      · exact hon.symm.trans henabled
    exact yields_wait hstable hseq hl hc (hon.trans henabled) h (hpass henabled) (hfail henabled)

/-- The way from a wait of the rule to the abort. -/
theorem kept_fail {c : Cond} {op : BitVec 4} {a : Nat} {next : List Byte → List Event}
    (hrest : ∀ got future, C.holds got l k u → got.length + future.length = C.total →
      C.rest l k future = .waitOk c :: next future)
    (hleft : ∀ got, C.holds got l k u → C.left got u.hm) (got : List Byte) (done : List Event)
    (h : C.Underway before got l k [.waitTimeout c] done u) : C.Kept before (moveTo op .a1 k a u) :=
  kept_of_at (sub := .act) rfl
    ⟨⟨got, done, c, h.timedOut (fun future hlen => hrest got future h.holds hlen) rfl, hleft got h.holds⟩, nofun⟩

/-- The way from a wait of the rule to its next line. -/
theorem kept_pass {c : Cond} {op : BitVec 4} {a : Nat} (hl' : C.abortedAt l' = none)
    (hrest : ∀ got future, C.holds got l k u → got.length + future.length = C.total →
      C.rest l k future = .waitOk c :: C.rest l' k' future)
    (hholds : ∀ got, C.holds got l k u → C.holds got l' k' (moveTo op l' k' a u)) (got : List Byte) (done : List Event)
    (h : C.Underway before got l k [.waitOk c] done u) : C.Kept before (moveTo op l' k' a u) :=
  kept_moveTo hl' (h.passed (w := moveTo op l' k' a u) (fun future hlen => hrest got future h.holds hlen) rfl
    (hholds got h.holds))

/-- A line that appends an event which is no received byte, and moves on. -/
theorem yields_event {e : Event} {op : BitVec 4} {a : Nat} (h : C.At before l .act k u) (hl : C.abortedAt l = none)
    (hl' : C.abortedAt l' = none) (hw : w.trace = u.trace ++ [e]) (he : isSeqEvent e = true) (hrx : isRx e = false)
    (hrest : ∀ got future, C.holds got l k u → got.length + future.length = C.total →
      C.rest l k future = e :: C.rest l' k' future)
    (hholds : ∀ got, C.holds got l k u → C.holds got l' k' (moveTo op l' k' a w)) :
    Yields (C.Kept before) (.next (moveTo op l' k' a w)) := by
  obtain ⟨-, got, done, hunder⟩ := underway_of_at hl h
  have hevents : seqEvents (moveTo op l' k' a w) = seqEvents u ++ [e] := by simp [seqEvents, hw, he]
  exact yields_next.mpr (kept_moveTo hl' (hunder.event (fun future hlen => hrest got future hunder.holds hlen) hevents hrx
    (hholds got hunder.holds)))

/-- A line that appends nothing, and moves on. -/
theorem kept_silent {op : BitVec 4} {a : Nat} (h : C.At before l .act k u) (hl : C.abortedAt l = none)
    (hl' : C.abortedAt l' = none) (hw : w.trace = u.trace)
    (hrest : ∀ got future, C.holds got l k u → got.length + future.length = C.total →
      C.rest l k future = C.rest l' k' future)
    (hholds : ∀ got, C.holds got l k u → C.holds got l' k' (moveTo op l' k' a w)) :
    C.Kept before (moveTo op l' k' a w) := by
  obtain ⟨-, got, done, hunder⟩ := underway_of_at hl h
  have hevents : seqEvents (moveTo op l' k' a w) = seqEvents u := congrArg (List.filter isSeqEvent) hw
  exact kept_moveTo hl' (hunder.silent (fun future hlen => hrest got future hunder.holds hlen) hevents
    (hholds got hunder.holds))

/-- A line that appends such an event when a condition holds, and moves on. -/
theorem yields_eventIf {c : Prop} [Decidable c] {e : Event} {op : BitVec 4} {a : Nat} (h : C.At before l .act k u)
    (hl : C.abortedAt l = none) (hl' : C.abortedAt l' = none) (hw : w.trace = u.trace ++ [e]) (he : isSeqEvent e = true)
    (hrx : isRx e = false)
    (hrest : ∀ got future, C.holds got l k u → got.length + future.length = C.total →
      C.rest l k future = (if c then [e] else []) ++ C.rest l' k' future)
    (hacted : ∀ got, C.holds got l k u → C.holds got l' k' (moveTo op l' k' a w))
    (hkept : ∀ got, C.holds got l k u → C.holds got l' k' (moveTo op l' k' a u)) :
    Yields (C.Kept before) (.next (moveTo op l' k' a (if c then w else u))) := by
  by_cases hc : c
  · rw [if_pos hc]
    rw [if_pos hc] at hrest
    exact yields_event h hl hl' hw he hrx hrest hacted
  · rw [if_neg hc]
    rw [if_neg hc] at hrest
    exact yields_next.mpr (kept_silent h hl hl' rfl hrest hkept)

/-- A line that receives a byte, and moves on. -/
theorem yields_receive {b : Byte} {op : BitVec 4} {a : Nat} (h : C.At before l .act k u) (hl : C.abortedAt l = none)
    (hl' : C.abortedAt l' = none) (hw : w.trace = u.trace ++ [.rx b])
    (hroom : ∀ got, C.holds got l k u → got.length < C.total)
    (hrest : ∀ got future, C.holds got l k u → got.length + 1 + future.length = C.total →
      C.rest l k (b :: future) = .rx b :: C.rest l' k' future)
    (hholds : ∀ got, C.holds got l k u → C.holds (got ++ [b]) l' k' (moveTo op l' k' a w)) :
    Yields (C.Kept before) (.next (moveTo op l' k' a w)) := by
  obtain ⟨-, got, done, hunder⟩ := underway_of_at hl h
  have hevents : seqEvents (moveTo op l' k' a w) = seqEvents u ++ [.rx b] := by simp [seqEvents, hw, isSeqEvent]
  exact yields_next.mpr (kept_moveTo hl' (hunder.receive (hroom got hunder.holds)
    (fun future hlen => hrest got future hunder.holds hlen) hevents (hholds got hunder.holds)))

/-- The last line. -/
theorem kept_end (h : C.At before l .act k u) (hl : C.abortedAt l = none)
    (hw : w.trace = u.trace) (hseq : w.seq = .idle) (hstatus : w.status = 0x01)
    (hrest : ∀ got, C.holds got l k u → got.length ≤ C.total → got.length = C.total ∧ C.rest l k [] = [] ∧ C.final got w) :
    C.Kept before w := by
  obtain ⟨-, got, done, hunder⟩ := underway_of_at hl h
  obtain ⟨htotal, hnil, hfinal⟩ := hrest got hunder.holds hunder.room
  unfold Kept
  rw [hseq]
  exact hunder.finish htotal hnil (congrArg (List.filter isSeqEvent) hw) hstatus hfinal

/-- The abort's lines (R96). -/
theorem yields_abort {op : BitVec 4} {sub : Sub} {a : Nat} (h : C.At before l sub k u) (hcfg : u.cfg = C.cfg)
    (hfailed : ∀ got, C.left got u.hm → (C.read = true → u.ackEn = true) →
      C.failed got (busFinish false .timeout
        (if C.read ∧ op = 0xA then { u with value := valueOfByte (Config.drawByte u.draws), draws := u.draws + 1 } else u))) :
    Yields (C.Kept before) (abortLines op C.read l sub k a u) := by
  unfold abortLines
  split
  · obtain ⟨⟨got, done, c, htimeout, hleft⟩, -⟩ := h
    refine yields_next.mpr (kept_of_at (sub := .act) rfl ⟨⟨got, done, c, ?_, ?_⟩, nofun⟩)
    · refine htimeout.append (more := if C.cfg.stopOnAbort then [.stop] else []) ?_
      rw [hcfg]
      split <;> simp [seqEvents, isSeqEvent]
    · split <;> exact hleft
  · obtain ⟨⟨got, done, c, htimeout, hleft⟩, -⟩ := h
    refine yields_next.mpr (kept_of_at (sub := .act) rfl ⟨⟨got, done, c, ?_, ?_⟩, fun _ hread => ?_⟩)
    · refine htimeout.append (more := if C.read then [.ack true] else []) ?_
      split <;> simp [seqEvents, isSeqEvent]
    · split <;> exact hleft
    · rw [if_pos hread]
      rfl
  · obtain ⟨⟨got, done, c, htimeout, hleft⟩, hacked⟩ := h
    refine yields_next.mpr (.inr ⟨statusWord_timeout, got, done, c, ?_, hfailed got hleft (hacked rfl)⟩)
    refine { htimeout with events := Eq.trans ?_ htimeout.events }
    split <;> rfl
  · exact yields_fault ..

/-- R99 S11, R101 S10: the wait after the stop of a write transaction, the script's last line with an event. -/
theorem yields_stopGate {op : BitVec 4} {sub : Sub} {a : Nat} (hstable : C.Stable) (hseq : u.seq = .at op l sub k a)
    (hcfg : u.cfg = C.cfg) (hl : C.abortedAt l = none) (hl' : C.abortedAt l' = none) (hc : C.cond l = .stopDone)
    (hon : C.enabled l = C.cfg.stopDoneWait) (h : C.At before l sub k u)
    (hrest : ∀ future, C.rest l k future = gateEvents C.cfg.stopDoneWait .stopDone ∧ C.rest l' k future = [])
    (hholds : ∀ got, C.holds got l k u → C.holds got l' k (moveTo op l' k a u))
    (hleft : ∀ got, C.holds got l k u → C.left got u.hm) : Yields (C.Kept before) (stopGate op l sub k a l' u) := by
  unfold stopGate
  rw [hcfg]
  have hgate (future : List Byte) : C.rest l k future = gateEvents C.cfg.stopDoneWait .stopDone := (hrest future).left
  refine yields_waitIf hstable hseq hl hc hon h (fun hoff hact => ?_) (fun hwait => ?_) fun hwait => ?_
  · subst hact
    refine kept_silent h hl hl' rfl (fun _ future _ _ => ?_) hholds
    rw [hgate, (hrest future).right, hoff]
    rfl
  · refine kept_pass hl' (fun _ future _ _ => ?_) hholds
    rw [hgate, (hrest future).right, hwait]
    rfl
  · refine kept_fail (next := fun _ => []) (fun _ future _ _ => ?_) hleft
    rw [hgate, hwait]
    rfl

/-- What holds right after the issue. -/
theorem kept_issued {op : BitVec 4} (hseq : u.seq = .at op .s1 .act 0 0)
    (hrest : ∀ future, future.length = C.total → C.rest .s1 0 future = C.full future) (hholds : C.holds [] .s1 0 u) :
    C.Kept (seqEvents u) u := by
  refine kept_of_at hseq (at_of_underway (got := []) (done := []) rfl (.inl rfl) ⟨?_, fun future hlen => ?_, rfl, ?_, hholds⟩)
  · simp
  · rw [List.nil_append, List.nil_append]
    exact hrest future ((Nat.zero_add _).symm.trans hlen)
  · exact Nat.zero_le _

/-- What holds once SEQ is Idle. -/
theorem ended_of_kept (hidle : u.seq = .idle) (h : C.Kept before u) : C.Ended before u := by
  unfold Kept at h
  rwa [hidle] at h

end Rules

end Script

end Sys2Proof.Machine
end

section
/-! The transactions under every interleaving (R99 to R102, R96): each runs its script or times out at one of its waits. -/

namespace Sys2Proof.Machine

/-! ### The address part -/

/-- R99 S1 to S7: the events still to come at a line, before those of `tail`. -/
def addressRest (p : Params) (sa : SlaveAddr) (ra : RegAddr) (tail : List Event) : Line → List Event
  | .s1 => addressEvents p sa ra ++ tail
  | .s2 => .start :: .waitOk .startDone :: .tx (addrByte sa false) :: .waitOk .addrWAck :: .tx ra :: .waitOk .byteTxDone :: tail
  | .s3 => .waitOk .startDone :: .tx (addrByte sa false) :: .waitOk .addrWAck :: .tx ra :: .waitOk .byteTxDone :: tail
  | .s4 => .tx (addrByte sa false) :: .waitOk .addrWAck :: .tx ra :: .waitOk .byteTxDone :: tail
  | .s5 => .waitOk .addrWAck :: .tx ra :: .waitOk .byteTxDone :: tail
  | .s6 => .tx ra :: .waitOk .byteTxDone :: tail
  | .s7 => .waitOk .byteTxDone :: tail
  | _ => tail

/-- R99 S1: with the wait for a free bus, or without. -/
theorem addressRest_s1 (p : Params) (sa : SlaveAddr) (ra : RegAddr) (tail : List Event) :
    addressRest p sa ra tail .s1 = gateEvents p.busFreeWait .busFree ++ addressRest p sa ra tail .s2 := by
  simp [addressRest, addressEvents]

/-- The lines of the address part. -/
def addressPart : List Line := [.s1, .s2, .s3, .s4, .s5, .s6, .s7]

/-- A script that begins with the address part, where what it holds does not depend on the line. -/
structure AddressScript (C : Script) (sa : SlaveAddr) (ra : RegAddr) (tail : List Byte → List Event) : Prop where
  stable : C.Stable
  rest : ∀ l ∈ addressPart, ∀ k future, C.rest l k future = addressRest C.cfg sa ra (tail future) l
  cond : C.cond .s1 = .busFree ∧ C.cond .s3 = .startDone ∧ C.cond .s5 = .addrWAck ∧ C.cond .s7 = .byteTxDone
  enabled : C.enabled .s1 = C.cfg.busFreeWait ∧ C.enabled .s3 = true ∧ C.enabled .s5 = true ∧ C.enabled .s7 = true
  holds : ∀ l ∈ addressPart, ∀ l' ∈ addressPart, ∀ got k u, C.holds got l k u → C.holds got l' k u
  left : ∀ l ∈ addressPart, ∀ got k u, C.holds got l k u → C.left got u.hm

section Address
variable {C : Script} {sa : SlaveAddr} {ra : RegAddr} {tail : List Byte → List Event} {before : List Event}
  {op : BitVec 4} {l : Line} {sub : Sub} {k a : Nat} {u : State} (hC : AddressScript C sa ra tail)
include hC

/-- A wait of the address part that passes on to its next line. -/
theorem AddressScript.pass {l l' : Line} {c : Cond} (hl : l ∈ addressPart) (hl' : l' ∈ addressPart)
    (hlive : C.abortedAt l' = none)
    (hrest : ∀ tail, addressRest C.cfg sa ra tail l = .waitOk c :: addressRest C.cfg sa ra tail l') (got : List Byte)
    (done : List Event) (h : C.Underway before got l k [.waitOk c] done u) : C.Kept before (moveTo op l' k a u) := by
  refine Script.kept_pass hlive (fun _ future _ _ => ?_) (fun got hholds => ?_) got done h
  · rw [hC.rest l hl, hC.rest l' hl', hrest]
  · exact hC.stable u _ got l' k ⟨rfl, rfl, rfl, rfl, rfl⟩ (hC.holds l hl l' hl' got k u hholds)

/-- A wait of the address part that times out. -/
theorem AddressScript.fail {l : Line} {c : Cond} {next : List Event → List Event} (hl : l ∈ addressPart)
    (hrest : ∀ tail, addressRest C.cfg sa ra tail l = .waitOk c :: next tail) (got : List Byte)
    (done : List Event) (h : C.Underway before got l k [.waitTimeout c] done u) : C.Kept before (moveTo op .a1 k a u) :=
  Script.kept_fail (next := fun future => next (tail future)) (fun _ future _ _ => by rw [hC.rest l hl, hrest])
    (fun got => hC.left l hl got k u) got done h

/-- A line of the address part that appends an event. -/
theorem AddressScript.act {l l' : Line} {e : Event} {w : State} (hl : l ∈ addressPart) (hl' : l' ∈ addressPart)
    (hlive : C.abortedAt l = none) (hlive' : C.abortedAt l' = none) (h : C.At before l .act k u)
    (hw : w.trace = u.trace ++ [e]) (hdata : Script.SameData u w) (he : isSeqEvent e = true) (hrx : isRx e = false)
    (hrest : ∀ tail, addressRest C.cfg sa ra tail l = e :: addressRest C.cfg sa ra tail l') :
    Yields (C.Kept before) (.next (moveTo op l' k a w)) := by
  refine Script.yields_event h hlive hlive' hw he hrx (fun _ future _ _ => ?_) fun got hholds => ?_
  · rw [hC.rest l hl, hC.rest l' hl', hrest]
  · exact hC.stable u _ got l' k hdata (hC.holds l hl l' hl' got k u hholds)

/-- The lines S1 to S7 of a transaction. -/
theorem AddressScript.yields {next : State → State} (hseq : u.seq = .at op l sub k a) (hcfg : u.cfg = C.cfg)
    (h : C.At before l sub k u)
    (hnext : l = .s7 → ∀ got done, C.Underway before got .s7 k [.waitOk .byteTxDone] done u → C.Kept before (next u))
    (r : Result) (hr : addressLines op sa ra next l sub k a u = some r) : Yields (C.Kept before) r := by
  obtain ⟨hc1, hc3, hc5, hc7⟩ := hC.cond
  obtain ⟨he1, he3, he5, he7⟩ := hC.enabled
  unfold addressLines at hr
  split at hr <;> cases hr
  case h_1 =>
    rw [hcfg]
    refine Script.yields_waitIf hC.stable hseq rfl hc1 he1 h (fun hoff hact => ?_) (fun hon => ?_) fun hon => ?_
    · subst hact
      refine Script.kept_silent h rfl rfl rfl (fun _ future _ _ => ?_) fun got hholds => ?_
      · rw [hC.rest .s1 (by decide), hC.rest .s2 (by decide), addressRest_s1, hoff]
        rfl
      · exact hC.stable u _ got .s2 k ⟨rfl, rfl, rfl, rfl, rfl⟩ (hC.holds .s1 (by decide) .s2 (by decide) got k u hholds)
    · refine hC.pass (l := .s1) (by decide) (by decide) rfl fun tail => ?_
      rw [addressRest_s1, hon]
      rfl
    · refine hC.fail (l := .s1) (next := (addressRest C.cfg sa ra · .s2)) (by decide) fun tail => ?_
      rw [addressRest_s1, hon]
      rfl
  case h_2 => exact hC.act (by decide) (by decide) rfl rfl h rfl ⟨rfl, rfl, rfl, rfl, rfl⟩ rfl rfl fun _ => rfl
  case h_3 =>
    exact Script.yields_wait hC.stable hseq rfl hc3 he3 h (hC.pass (by decide) (by decide) rfl fun _ => rfl)
      (hC.fail (next := (addressRest C.cfg sa ra · .s4)) (by decide) fun _ => rfl)
  case h_4 => exact hC.act (by decide) (by decide) rfl rfl h rfl ⟨rfl, rfl, rfl, rfl, rfl⟩ rfl rfl fun _ => rfl
  case h_5 =>
    exact Script.yields_wait hC.stable hseq rfl hc5 he5 h (hC.pass (by decide) (by decide) rfl fun _ => rfl)
      (hC.fail (next := (addressRest C.cfg sa ra · .s6)) (by decide) fun _ => rfl)
  case h_6 => exact hC.act (by decide) (by decide) rfl rfl h rfl ⟨rfl, rfl, rfl, rfl, rfl⟩ rfl rfl fun _ => rfl
  case h_7 =>
    exact Script.yields_wait hC.stable hseq rfl hc7 he7 h (hnext rfl) (hC.fail (next := id) (by decide) fun _ => rfl)

end Address

/-! ### WRB -/

/-- R99 S8 to S12: the events still to come at a line. -/
def wrbRest (p : Params) (sa : SlaveAddr) (ra : RegAddr) (v : Byte) : Line → List Event
  | .s8 => .tx v :: .waitOk .byteTxDone :: .stop :: gateEvents p.stopDoneWait .stopDone
  | .s9 => .waitOk .byteTxDone :: .stop :: gateEvents p.stopDoneWait .stopDone
  | .s10 => .stop :: gateEvents p.stopDoneWait .stopDone
  | .s11 => gateEvents p.stopDoneWait .stopDone
  | .s12 => []
  | l => addressRest p sa ra (.tx v :: .waitOk .byteTxDone :: .stop :: gateEvents p.stopDoneWait .stopDone) l

/-- WRB's script (R99). -/
def wrbScript (p : Params) (sa : SlaveAddr) (ra : RegAddr) (v : Byte) : Script where
  cfg := p
  read := false
  cond := condAt (.wrb sa ra v)
  enabled := fun
    | .s1 => p.busFreeWait
    | .s11 => p.stopDoneWait
    | _ => true
  total := 0
  full _ := writeEvents p sa ra [v]
  rest l _ _ := wrbRest p sa ra v l
  holds _ _ _ _ := True
  left _ _ := True
  final _ u := u.phase = .idle
  failed _ u := u.phase = .idle

theorem wrbScript_address (p : Params) (sa : SlaveAddr) (ra : RegAddr) (v : Byte) :
    AddressScript (wrbScript p sa ra v) sa ra
      fun _ => .tx v :: .waitOk .byteTxDone :: .stop :: gateEvents p.stopDoneWait .stopDone where
  stable _ _ _ _ _ _ := id
  rest l hl _ _ := by
    simp only [addressPart, List.mem_cons, List.not_mem_nil, or_false] at hl
    rcases hl with rfl | rfl | rfl | rfl | rfl | rfl | rfl <;> rfl
  cond := ⟨rfl, rfl, rfl, rfl⟩
  enabled := ⟨rfl, rfl, rfl, rfl⟩
  holds _ _ _ _ _ _ _ := id
  left _ _ _ _ _ := id

/-- WRB's numbered steps keep to its script. -/
theorem execWrb_kept {sa : SlaveAddr} {ra : RegAddr} {v : Byte} {before : List Event} {u : State} {p : Params}
    (hrun : u.seq ≠ .idle) (hcfg : u.cfg = p) (h : (wrbScript p sa ra v).Kept before u) :
    Yields ((wrbScript p sa ra v).Kept before) (execWrb sa ra v u) := by
  match hseq : u.seq with
  | .idle => contradiction
  | .at op l sub k a =>
  refine yields_atPosition_at hseq fun hseq => ?_
  have hat : (wrbScript p sa ra v).At before l sub k u := by
    unfold Script.Kept at h
    rwa [hseq] at h
  have hstable : (wrbScript p sa ra v).Stable := (wrbScript_address p sa ra v).stable
  refine yields_getD ((wrbScript_address p sa ra v).yields hseq hcfg hat fun hs7 => ?_) ?_
  · subst hs7
    exact Script.kept_pass rfl (fun _ _ _ _ => rfl) fun _ => id
  · unfold wrbLines
    split
    · exact Script.yields_event hat rfl rfl rfl rfl rfl (fun _ _ _ _ => rfl) fun _ => id
    · exact Script.yields_wait hstable hseq rfl rfl rfl hat (Script.kept_pass rfl (fun _ _ _ _ => rfl) fun _ => id)
        (Script.kept_fail (next := fun _ => wrbRest p sa ra v .s10) (fun _ _ _ _ => rfl) fun _ => id)
    · exact Script.yields_event hat rfl rfl rfl rfl rfl (fun _ _ _ _ => rfl) fun _ => id
    · exact Script.yields_stopGate hstable hseq hcfg rfl rfl rfl rfl hat (fun _ => ⟨rfl, rfl⟩) (fun _ => id) fun _ => id
    · exact yields_next.mpr (Script.kept_end hat rfl rfl rfl statusWord_ok fun _ _ hroom =>
        ⟨Nat.le_zero.mp hroom, rfl, rfl⟩)
    · exact Script.yields_abort hat hcfg fun _ _ _ => rfl

/-- What a write transaction's script leaves: it ran whole, or timed out at one of its waits. -/
theorem Script.writeOutcome {C : Script} {before events : List Event} {u : State} (hfull : ∀ got, C.full got = events)
    (hfinal : ∀ got, C.final got u → u.phase = .idle) (hfailed : ∀ got, C.failed got u → u.phase = .idle)
    (h : C.Ended before u) :
    (u.status = 0x01 ∧ seqEvents u = before ++ events ∨
      u.status = 0x02 ∧ ∃ done c, done ++ [.waitOk c] <+: events ∧
        seqEvents u = before ++ done ++ [.waitTimeout c] ++ abortEvents C.cfg C.read) ∧ u.phase = .idle := by
  rcases h with ⟨hstatus, bytes, -, hevents, hend⟩ | ⟨hstatus, got, done, c, htimeout, hend⟩
  · exact ⟨.inl ⟨hstatus, hfull bytes ▸ hevents⟩, hfinal bytes hend⟩
  · obtain ⟨future, -, hprefix⟩ := htimeout.rest
    exact ⟨.inr ⟨hstatus, done, c, hfull _ ▸ hprefix, htimeout.events⟩, hfailed got hend⟩

/-- Settles O41: at its `finish` WRB has run its script, or timed out at one of its waits and run the abort. -/
theorem completedWrbSucceededOrTimedOut : Obligations.CompletedWrbSucceededOrTimedOut := by
  intro sa ra v n s t hissued h
  have ⟨hseq, _, _⟩ := hissued
  have hstart : (wrbScript s.cfg sa ra v).Kept (seqEvents s) s := by
    refine Script.kept_issued hseq (fun future _ => ?_) trivial
    simp [wrbScript, wrbRest, addressRest, writeEvents]
  obtain ⟨hkept, hidle, hout⟩ := issued_invariant hissued
    (fun u w hother hrun => Script.kept_of_interrupted (wrbScript_address s.cfg sa ra v).stable hother hrun)
    (fun u hu hrun hout => execWrb_kept hrun (cfg_of_outside hout) hu) hstart h
  have hrest : t.ackEn = s.ackEn ∧ t.value = s.value ∧ t.count = s.count ∧ t.present = s.present ∧ t.dir = s.dir ∧
      t.hm = s.hm :=
    ⟨eq_of_outside hout State.ackEn fun _ => rfl, eq_of_outside hout State.value fun _ => rfl, eq_of_outside hout State.count fun _ => rfl, eq_of_outside hout State.present fun _ => rfl,
      eq_of_outside hout State.dir fun _ => rfl, eq_of_outside hout State.hm fun _ => rfl⟩
  have ⟨hevents, hphase⟩ := Script.writeOutcome (fun _ => rfl) (fun _ => id) (fun _ => id) (Script.ended_of_kept hidle hkept)
  exact ⟨hevents, hphase, hrest⟩

end Sys2Proof.Machine
end

section
/-! WRBUF under every interleaving (R101, R96). -/

namespace Sys2Proof.Machine

/-! ### WRBUF -/

/-- The events of sending data bytes in a write transaction (R101 S8). -/
def dataEvents (bytes : List Byte) : List Event := bytes.flatMap fun b => [.tx b, .waitOk .byteTxDone]

/-- R101 S8 to S11: the events still to come at a line, with the loop index `k`. -/
def wrbufRest (p : Params) (sa : SlaveAddr) (ra : RegAddr) (bytes : List Byte) (k : Nat) : Line → List Event
  | .s8a => dataEvents (bytes.drop k) ++ .stop :: gateEvents p.stopDoneWait .stopDone
  | .s8b => .waitOk .byteTxDone :: dataEvents (bytes.drop (k + 1)) ++ .stop :: gateEvents p.stopDoneWait .stopDone
  | .s9 => .stop :: gateEvents p.stopDoneWait .stopDone
  | .s10 => gateEvents p.stopDoneWait .stopDone
  | .s11 => []
  | l => addressRest p sa ra (dataEvents bytes ++ .stop :: gateEvents p.stopDoneWait .stopDone) l

/-- WRBUF's script for the bytes that its buffer has at issue (R101). -/
def wrbufScript (p : Params) (sa : SlaveAddr) (ra : RegAddr) (bytes : List Byte) : Script where
  cfg := p
  read := false
  cond l := condAt.condOfWrite l .s8b .s10
  enabled := fun
    | .s1 => p.busFreeWait
    | .s10 => p.stopDoneWait
    | _ => true
  total := 0
  full _ := writeEvents p sa ra bytes
  rest l k _ := wrbufRest p sa ra bytes k l
  holds _ l k _ := l ∈ [.s8a, .s8b] → k < bytes.length
  left _ _ := True
  final _ u := u.phase = .idle
  failed _ u := u.phase = .idle

theorem wrbufScript_address (p : Params) (sa : SlaveAddr) (ra : RegAddr) (bytes : List Byte) :
    AddressScript (wrbufScript p sa ra bytes) sa ra
      fun _ => dataEvents bytes ++ .stop :: gateEvents p.stopDoneWait .stopDone where
  stable _ _ _ _ _ _ := id
  rest l hl _ _ := by
    simp only [addressPart, List.mem_cons, List.not_mem_nil, or_false] at hl
    rcases hl with rfl | rfl | rfl | rfl | rfl | rfl | rfl <;> rfl
  cond := ⟨rfl, rfl, rfl, rfl⟩
  enabled := ⟨rfl, rfl, rfl, rfl⟩
  holds l _ l' hl' _ _ _ _ hdata := by
    simp only [addressPart, List.mem_cons, List.not_mem_nil, or_false] at hl'
    rcases hl' with rfl | rfl | rfl | rfl | rfl | rfl | rfl <;> simp at hdata
  left _ _ _ _ _ _ := trivial

/-- The data loop's entry: its first byte, or the stop when there is none. -/
theorem wrbufRest_first (p : Params) (sa : SlaveAddr) (ra : RegAddr) (bytes : List Byte) :
    wrbufRest p sa ra bytes 0 (if 0 < bytes.length then .s8a else .s9) =
      dataEvents bytes ++ .stop :: gateEvents p.stopDoneWait .stopDone := by
  cases bytes <;> rfl

/-- The data loop's next byte, or the stop after the last one. -/
theorem wrbufRest_next (p : Params) (sa : SlaveAddr) (ra : RegAddr) (bytes : List Byte) (k : Nat) :
    wrbufRest p sa ra bytes (if k + 1 < bytes.length then k + 1 else k)
        (if k + 1 < bytes.length then .s8a else .s9) =
      dataEvents (bytes.drop (k + 1)) ++ .stop :: gateEvents p.stopDoneWait .stopDone := by
  by_cases hnext : k + 1 < bytes.length
  · simp only [hnext, if_true]
    rfl
  · simp only [hnext, if_false]
    rw [List.drop_eq_nil_of_le (Nat.le_of_not_lt hnext)]
    rfl

/-- The data loop's byte `k`. -/
theorem wrbufRest_byte (p : Params) (sa : SlaveAddr) (ra : RegAddr) {bytes : List Byte} {k : Nat} {v : Byte}
    (hv : bytes[k]? = some v) : wrbufRest p sa ra bytes k .s8a = .tx v :: wrbufRest p sa ra bytes k .s8b := by
  obtain ⟨hk, rfl⟩ := List.getElem?_eq_some_iff.mp hv
  rw [wrbufRest, List.drop_eq_getElem_cons hk]
  rfl

theorem bufferBytes_getElem? {m : Memory} {ptr : Half} {n k : Nat} (hk : k < n) :
    (bufferBytes m ptr n)[k]? = some (memRead m (bufferAddress ptr k)) := by
  simp [bufferBytes, hk]

/-- WRBUF's numbered steps keep to its script. -/
theorem execWrbuf_kept {sa : SlaveAddr} {ra : RegAddr} {ptr len : Half} {bytes : List Byte} {before : List Event}
    {u : State} {p : Params} (hbytes : bytes = bufferBytes u.hm ptr len.toNat) (hrun : u.seq ≠ .idle) (hcfg : u.cfg = p)
    (h : (wrbufScript p sa ra bytes).Kept before u) :
    Yields ((wrbufScript p sa ra bytes).Kept before) (execWrbuf sa ra ptr len u) := by
  have hlen : bytes.length = len.toNat := by rw [hbytes]; simp [bufferBytes]
  match hseq : u.seq with
  | .idle => contradiction
  | .at op l sub k a =>
  refine yields_atPosition_at hseq fun hseq => ?_
  have hat : (wrbufScript p sa ra bytes).At before l sub k u := by
    unfold Script.Kept at h
    rwa [hseq] at h
  have haddress := wrbufScript_address p sa ra bytes
  refine yields_getD (haddress.yields hseq hcfg hat fun hs7 => ?_) ?_
  · subst hs7
    unfold firstByte
    rw [← hlen]
    refine Script.kept_pass (by split <;> rfl) (fun _ _ _ _ => ?_) fun _ _ hdata => ?_
    · exact congrArg (Event.waitOk .byteTxDone :: ·) (wrbufRest_first p sa ra bytes).symm
    · by_contra hnone
      simp [hnone] at hdata
  · unfold wrbufLines
    split
    · split
      · next v hv =>
        refine Script.yields_event hat rfl rfl rfl rfl rfl (fun _ _ hk _ => wrbufRest_byte p sa ra ?_) fun _ hk _ =>
          hk (by decide)
        rw [hbytes, (hmLoad_some hv).right, bufferBytes_getElem? (hlen ▸ hk (by decide))]
      · exact yields_fault ..
    · refine Script.yields_wait haddress.stable hseq rfl rfl rfl hat ?_
        (Script.kept_fail (next := fun _ => dataEvents (bytes.drop (k + 1)) ++ .stop :: gateEvents p.stopDoneWait .stopDone)
          (fun _ _ _ _ => rfl) fun _ _ => trivial)
      unfold nextByte
      rw [← hlen]
      refine Script.kept_pass (by split <;> rfl) (fun _ _ _ _ => ?_) fun _ _ hdata => ?_
      · exact congrArg (Event.waitOk .byteTxDone :: ·) (wrbufRest_next p sa ra bytes k).symm
      · by_cases hnext : k + 1 < bytes.length
        · simp [hnext]
        · simp [hnext] at hdata
    · exact Script.yields_event hat rfl rfl rfl rfl rfl (fun _ _ _ _ => rfl) fun _ _ hdata => absurd hdata (by decide)
    · exact Script.yields_stopGate haddress.stable hseq hcfg rfl rfl rfl rfl hat (fun _ => ⟨rfl, rfl⟩)
        (fun _ _ hdata => absurd hdata (by decide)) fun _ _ => trivial
    · exact yields_next.mpr (Script.kept_end hat rfl rfl rfl statusWord_ok fun _ _ hroom =>
        ⟨Nat.le_zero.mp hroom, rfl, rfl⟩)
    · exact Script.yields_abort hat hcfg fun _ _ _ => rfl

/-- Settles O43: at its `finish` WRBUF has run its script, or timed out at one of its waits and run the abort. -/
theorem completedWrbufSucceededOrTimedOut : Obligations.CompletedWrbufSucceededOrTimedOut := by
  intro sa ra ptr len n s t hissued h
  have ⟨hseq, _, _⟩ := hissued
  generalize hbytes : bufferBytes s.hm ptr len.toNat = bytes
  have hstart : (wrbufScript s.cfg sa ra bytes).Kept (seqEvents s) s := by
    refine Script.kept_issued hseq (fun future _ => ?_) fun hdata => absurd hdata (by decide)
    simp [wrbufScript, wrbufRest, addressRest, writeEvents, dataEvents]
  have hkeeps (u : State) (hu : (wrbufScript s.cfg sa ra bytes).Kept (seqEvents s) u) (hrun : u.seq ≠ .idle)
      (hout : outside (.wrbuf sa ra ptr len) u = outside (.wrbuf sa ra ptr len) s) :
      Yields ((wrbufScript s.cfg sa ra bytes).Kept (seqEvents s)) (exec (.wrbuf sa ra ptr len) u) := by
    have hhm : u.hm = s.hm := eq_of_outside hout State.hm fun _ => rfl
    exact execWrbuf_kept (hhm.symm ▸ hbytes.symm) hrun (cfg_of_outside hout) hu
  obtain ⟨hkept, hidle, hout⟩ := issued_invariant hissued
    (fun u w hother hrun => Script.kept_of_interrupted (wrbufScript_address s.cfg sa ra bytes).stable hother hrun)
    hkeeps hstart h
  have hrest : t.ackEn = s.ackEn ∧ t.value = s.value ∧ t.count = s.count ∧ t.present = s.present ∧ t.dir = s.dir ∧
      t.hm = s.hm :=
    ⟨eq_of_outside hout State.ackEn fun _ => rfl, eq_of_outside hout State.value fun _ => rfl,
      eq_of_outside hout State.count fun _ => rfl, eq_of_outside hout State.present fun _ => rfl,
      eq_of_outside hout State.dir fun _ => rfl, eq_of_outside hout State.hm fun _ => rfl⟩
  have ⟨hevents, hphase⟩ := Script.writeOutcome (fun _ => rfl) (fun _ => id) (fun _ => id) (Script.ended_of_kept hidle hkept)
  exact ⟨hevents, hphase, hrest⟩

end Sys2Proof.Machine
end

section
/-! The read transactions RDB and RDBUF under every interleaving (R100, R102, R103, R96, R97). -/

namespace Sys2Proof.Machine

/-! ### The repeated start and the read address -/

/-- R100 S8 to S11: the events still to come at a line, before those of `tail`. -/
def readAddressRest (sa : SlaveAddr) (tail : List Event) : Line → List Event
  | .s8 => readAddressEvents sa ++ tail
  | .s9 => .waitOk .startDone :: .tx (addrByte sa true) :: .waitOk .addrRAck :: tail
  | .s10 => .tx (addrByte sa true) :: .waitOk .addrRAck :: tail
  | .s11 => .waitOk .addrRAck :: tail
  | _ => tail

/-- The lines of the repeated start and the read address, and the one after them. -/
def readAddressPart : List Line := [.s8, .s9, .s10, .s11, .s12]

/-- A script that has the repeated start and the read address, where what it holds does not depend on the line. -/
structure ReadAddressScript (C : Script) (sa : SlaveAddr) (tail : List Byte → List Event) : Prop where
  stable : C.Stable
  rest : ∀ l ∈ readAddressPart, ∀ k future, C.rest l k future = readAddressRest sa (tail future) l
  cond : C.cond .s9 = .startDone ∧ C.cond .s11 = .addrRAck
  enabled : C.enabled .s9 = true ∧ C.enabled .s11 = true
  holds : ∀ l ∈ readAddressPart, ∀ l' ∈ readAddressPart, ∀ got k u, C.holds got l k u → C.holds got l' k u
  left : ∀ l ∈ readAddressPart, ∀ got k u, C.holds got l k u → C.left got u.hm

section ReadAddress
variable {C : Script} {sa : SlaveAddr} {tail : List Byte → List Event} {before : List Event} {op : BitVec 4} {l : Line}
  {sub : Sub} {k a : Nat} {u : State} (hC : ReadAddressScript C sa tail)
include hC

/-- A wait of this part. -/
theorem ReadAddressScript.wait {l l' : Line} {c : Cond} {next : List Event → List Event} (hl : l ∈ readAddressPart)
    (hl' : l' ∈ readAddressPart) (hlive : C.abortedAt l = none) (hlive' : C.abortedAt l' = none) (hc : C.cond l = c)
    (hon : C.enabled l = true) (hseq : u.seq = .at op l sub k a) (h : C.At before l sub k u)
    (hrest : ∀ tail, readAddressRest sa tail l = .waitOk c :: readAddressRest sa tail l')
    (hnext : ∀ tail, readAddressRest sa tail l' = next tail) :
    Yields (C.Kept before) (gate c op l sub k a l' u) := by
  refine Script.yields_wait hC.stable hseq hlive hc hon h (Script.kept_pass hlive' (fun _ future _ _ => ?_) fun got hholds => ?_)
    (Script.kept_fail (next := fun future => next (tail future)) (fun _ future _ _ => ?_) fun got => hC.left l hl got k u)
  · rw [hC.rest l hl, hC.rest l' hl', hrest]
  · exact hC.stable u _ got l' k ⟨rfl, rfl, rfl, rfl, rfl⟩ (hC.holds l hl l' hl' got k u hholds)
  · rw [hC.rest l hl, hrest, hnext]

/-- A line of this part that appends an event. -/
theorem ReadAddressScript.act {l l' : Line} {e : Event} {w : State} (hl : l ∈ readAddressPart) (hl' : l' ∈ readAddressPart)
    (hlive : C.abortedAt l = none) (hlive' : C.abortedAt l' = none) (h : C.At before l .act k u)
    (hw : w.trace = u.trace ++ [e]) (hdata : Script.SameData u w) (he : isSeqEvent e = true) (hrx : isRx e = false)
    (hrest : ∀ tail, readAddressRest sa tail l = e :: readAddressRest sa tail l') :
    Yields (C.Kept before) (.next (moveTo op l' k a w)) := by
  refine Script.yields_event h hlive hlive' hw he hrx (fun _ future _ _ => ?_) fun got hholds => ?_
  · rw [hC.rest l hl, hC.rest l' hl', hrest]
  · exact hC.stable u _ got l' k hdata (hC.holds l hl l' hl' got k u hholds)

/-- The lines S8 to S11 of a read transaction. -/
theorem ReadAddressScript.yields (hseq : u.seq = .at op l sub k a) (h : C.At before l sub k u) (r : Result)
    (hr : readAddressLines op sa l sub k a u = some r) : Yields (C.Kept before) r := by
  obtain ⟨hc9, hc11⟩ := hC.cond
  obtain ⟨he9, he11⟩ := hC.enabled
  unfold readAddressLines at hr
  split at hr <;> cases hr
  case h_1 => exact hC.act (by decide) (by decide) rfl rfl h rfl ⟨rfl, rfl, rfl, rfl, rfl⟩ rfl rfl fun _ => rfl
  case h_2 =>
    exact hC.wait (next := (readAddressRest sa · .s10)) (by decide) (by decide) rfl rfl hc9 he9 hseq h (fun _ => rfl)
      fun _ => rfl
  case h_3 => exact hC.act (by decide) (by decide) rfl rfl h rfl ⟨rfl, rfl, rfl, rfl, rfl⟩ rfl rfl fun _ => rfl
  case h_4 =>
    exact hC.wait (next := id) (by decide) (by decide) rfl rfl hc11 he11 hseq h (fun _ => rfl) fun _ => rfl

end ReadAddress

/-! ### RDB -/

/-- R100 S12 to S17: the events still to come at a line, for the byte still to come. -/
def rdbTail (future : List Byte) : List Event :=
  .ack false :: .stop :: .waitOk .byteRxReady :: future.map .rx ++ [.ack true]

/-- R100: the events still to come at a line. -/
def rdbRest (p : Params) (sa : SlaveAddr) (ra : RegAddr) (future : List Byte) : Line → List Event
  | .s8 => readAddressRest sa (rdbTail future) .s8
  | .s9 => readAddressRest sa (rdbTail future) .s9
  | .s10 => readAddressRest sa (rdbTail future) .s10
  | .s11 => readAddressRest sa (rdbTail future) .s11
  | .s12 => rdbTail future
  | .s13 => .stop :: .waitOk .byteRxReady :: future.map .rx ++ [.ack true]
  | .s14 => .waitOk .byteRxReady :: future.map .rx ++ [.ack true]
  | .s15 => future.map .rx ++ [.ack true]
  | .s16 => [.ack true]
  | .s17 => []
  | l => addressRest p sa ra (readAddressEvents sa ++ rdbTail future) l

/-- What RDB holds at a line: the byte received, which the latch keeps until S17, and acknowledgment at the end. -/
def rdbHolds (got : List Byte) (l : Line) (u : State) : Prop :=
  match l with
  | .s16 => got = [u.rdByte]
  | .s17 => got = [u.rdByte] ∧ u.ackEn = true
  | _ => got = []

/-- RDB's script (R100). -/
def rdbScript (p : Params) (sa : SlaveAddr) (ra : RegAddr) : Script where
  cfg := p
  read := true
  cond := condAt.condOfRead
  enabled := fun
    | .s1 => p.busFreeWait
    | _ => true
  total := 1
  full bytes := readEvents p sa ra bytes
  rest l _ future := rdbRest p sa ra future l
  holds got l _ u := rdbHolds got l u
  left _ _ := True
  final got u := u.phase = .idle ∧ u.ackEn = true ∧ ∃ v : Byte, got = [v] ∧ u.value = v.setWidth 32
  failed _ u := u.phase = .idle ∧ u.ackEn = true ∧ ∃ v : Byte, u.value = v.setWidth 32

theorem rdbScript_stable (p : Params) (sa : SlaveAddr) (ra : RegAddr) : (rdbScript p sa ra).Stable := by
  rintro u w got l k ⟨-, hbyte, hack, -, -⟩ h
  show rdbHolds got l w
  have hholds : rdbHolds got l u := h
  unfold rdbHolds at hholds ⊢
  rw [hbyte, hack]
  exact hholds

theorem rdbScript_address (p : Params) (sa : SlaveAddr) (ra : RegAddr) :
    AddressScript (rdbScript p sa ra) sa ra fun future => readAddressEvents sa ++ rdbTail future where
  stable := rdbScript_stable p sa ra
  rest l hl _ _ := by
    simp only [addressPart, List.mem_cons, List.not_mem_nil, or_false] at hl
    rcases hl with rfl | rfl | rfl | rfl | rfl | rfl | rfl <;> rfl
  cond := ⟨rfl, rfl, rfl, rfl⟩
  enabled := ⟨rfl, rfl, rfl, rfl⟩
  holds l hl l' hl' got k u h := by
    simp only [addressPart, List.mem_cons, List.not_mem_nil, or_false] at hl hl'
    have hnone : got = [] := by rcases hl with rfl | rfl | rfl | rfl | rfl | rfl | rfl <;> exact h
    rcases hl' with rfl | rfl | rfl | rfl | rfl | rfl | rfl <;> exact hnone
  left _ _ _ _ _ _ := trivial

theorem rdbScript_readAddress (p : Params) (sa : SlaveAddr) (ra : RegAddr) :
    ReadAddressScript (rdbScript p sa ra) sa rdbTail where
  stable := rdbScript_stable p sa ra
  rest l hl _ _ := by
    simp only [readAddressPart, List.mem_cons, List.not_mem_nil, or_false] at hl
    rcases hl with rfl | rfl | rfl | rfl | rfl <;> rfl
  cond := ⟨rfl, rfl⟩
  enabled := ⟨rfl, rfl⟩
  holds l hl l' hl' got k u h := by
    simp only [readAddressPart, List.mem_cons, List.not_mem_nil, or_false] at hl hl'
    have hnone : got = [] := by rcases hl with rfl | rfl | rfl | rfl | rfl <;> exact h
    rcases hl' with rfl | rfl | rfl | rfl | rfl <;> exact hnone
  left _ _ _ _ _ _ := trivial

/-- Two alternatives of a command's lines. -/
theorem yields_or {P : State → Prop} {o o' : Option Result} (ho : ∀ r, o = some r → Yields P r)
    (ho' : ∀ r, o' = some r → Yields P r) (r : Result) (h : o.or o' = some r) : Yields P r := by
  cases o with
  | none => exact ho' r h
  | some _ => exact ho r h

/-- RDB's numbered steps keep to its script. -/
theorem execRdb_kept {sa : SlaveAddr} {ra : RegAddr} {before : List Event} {u : State} {p : Params}
    (hrun : u.seq ≠ .idle) (hcfg : u.cfg = p) (h : (rdbScript p sa ra).Kept before u) :
    Yields ((rdbScript p sa ra).Kept before) (execRdb sa ra u) := by
  match hseq : u.seq with
  | .idle => contradiction
  | .at op l sub k a =>
  refine yields_atPosition_at hseq fun hseq => ?_
  have hat : (rdbScript p sa ra).At before l sub k u := by
    unfold Script.Kept at h
    rwa [hseq] at h
  have hstable := rdbScript_stable p sa ra
  refine yields_getD (yields_or ((rdbScript_address p sa ra).yields hseq hcfg hat fun hs7 => ?_)
    ((rdbScript_readAddress p sa ra).yields hseq hat)) ?_
  · subst hs7
    exact Script.kept_pass rfl (fun _ _ _ _ => rfl) fun _ => id
  · unfold rdbLines
    split
    · exact Script.yields_event hat rfl rfl rfl rfl rfl (fun _ _ _ _ => rfl) fun _ => id
    · exact Script.yields_event hat rfl rfl rfl rfl rfl (fun _ _ _ _ => rfl) fun _ => id
    · exact Script.yields_wait hstable hseq rfl rfl rfl hat (Script.kept_pass rfl (fun _ _ _ _ => rfl) fun _ => id)
        (Script.kept_fail (next := fun future => future.map .rx ++ [.ack true]) (fun _ _ _ _ => rfl) fun _ _ => trivial)
    · refine Script.yields_receive hat rfl rfl rfl (fun got hnone => ?_) (fun got future hnone hlen => ?_) fun got hnone => ?_
      · have hgot : got = [] := hnone
        rw [hgot]
        exact Nat.one_pos
      · have hgot : got = [] := hnone
        have hfuture : future = [] := List.eq_nil_of_length_eq_zero (by simpa [hgot, rdbScript] using hlen)
        rw [hfuture]
        rfl
      · have hgot : got = [] := hnone
        rw [hgot]
        rfl
    · exact Script.yields_event hat rfl rfl rfl rfl rfl (fun _ _ _ _ => rfl) fun _ hbyte => ⟨hbyte, rfl⟩
    · refine yields_next.mpr (Script.kept_end hat rfl rfl rfl statusWord_ok fun got hholds _ => ?_)
      obtain ⟨hgot, hack⟩ : got = [u.rdByte] ∧ u.ackEn = true := hholds
      exact ⟨hgot ▸ rfl, rfl, rfl, hack, u.rdByte, hgot, rfl⟩
    · refine Script.yields_abort hat hcfg fun _ _ hack => ?_
      rw [if_pos ⟨rfl, rfl⟩]
      exact ⟨rfl, hack rfl, Config.drawByte u.draws, rfl⟩

/-- Settles O42: at its `finish` RDB has run its script and reports its byte, or timed out at one of its waits and run the
abort. -/
theorem completedRdbSucceededOrTimedOut : Obligations.CompletedRdbSucceededOrTimedOut := by
  intro sa ra n s t hissued h
  have ⟨hseq, _, _⟩ := hissued
  have hstart : (rdbScript s.cfg sa ra).Kept (seqEvents s) s := by
    refine Script.kept_issued hseq (fun future hlen => ?_) rfl
    obtain ⟨v, rfl⟩ := List.length_eq_one_iff.mp hlen
    simp [rdbScript, rdbRest, rdbTail, addressRest, readEvents, receiveEvents]
  obtain ⟨hkept, hidle, hout⟩ := issued_invariant hissued
    (fun u w hother hrun => Script.kept_of_interrupted (rdbScript_stable s.cfg sa ra) hother hrun)
    (fun u hu hrun hout => execRdb_kept hrun (cfg_of_outside hout) hu) hstart h
  have hrest : t.count = s.count ∧ t.present = s.present ∧ t.dir = s.dir ∧ t.hm = s.hm :=
    ⟨eq_of_outside hout State.count fun _ => rfl, eq_of_outside hout State.present fun _ => rfl,
      eq_of_outside hout State.dir fun _ => rfl, eq_of_outside hout State.hm fun _ => rfl⟩
  rcases Script.ended_of_kept hidle hkept with
    ⟨hstatus, bytes, -, hevents, hphase, hack, v, rfl, hvalue⟩ | ⟨hstatus, got, done, c, htimeout, hphase, hack, hvalue⟩
  · exact ⟨.inl ⟨hstatus, v, hvalue, hevents⟩, hphase, hack, hrest⟩
  · obtain ⟨future, hlen, hprefix⟩ := htimeout.rest
    obtain ⟨v, hv⟩ := List.length_eq_one_iff.mp (List.length_append.trans hlen : (got ++ future).length = 1)
    exact ⟨.inr ⟨hstatus, hvalue, v, done, c, hv ▸ hprefix, htimeout.events⟩, hphase, hack, hrest⟩

end Sys2Proof.Machine
end

section
/-! RDBUF under every interleaving (R102, R103, R96, R97). -/

namespace Sys2Proof.Machine

/-- R102: HM is `m`, with the bytes received stored at `ptr` on. -/
structure Received (m : Memory) (ptr : Half) (got : List Byte) (m' : Memory) : Prop where
  wf : Memory.wf m' = true
  read : ∀ y, memRead m' y =
    if ptr.toNat ≤ y ∧ y < ptr.toNat + got.length then got.getD (y - ptr.toNat) 0 else memRead m y

theorem Received.nil {m : Memory} {ptr : Half} (hm : Memory.wf m = true) : Received m ptr [] m where
  wf := hm
  read y := by
    rw [List.length_nil, Nat.add_zero, if_neg fun h => Nat.lt_irrefl _ (Nat.lt_of_le_of_lt h.left h.right)]

/-- R102 S13d: the next byte is stored. -/
theorem Received.store {m m' : Memory} {ptr : Half} {got : List Byte} {b : Byte} (h : Received m ptr got m')
    (ha : bufferAddress ptr got.length < Config.hmSize) :
    Received m ptr (got ++ [b]) (memWrite m' (bufferAddress ptr got.length) b) where
  wf := memWrite_wf ha h.wf
  read y := by
    rw [memRead_memWrite h.wf, h.read y, List.length_append, List.length_singleton]
    unfold bufferAddress
    rcases Nat.lt_trichotomy y (ptr.toNat + got.length) with hlt | heq | hgt
    · rw [if_neg (Nat.ne_of_lt hlt)]
      by_cases hy : ptr.toNat ≤ y
      · rw [if_pos ⟨hy, hlt⟩, if_pos ⟨hy, Nat.lt_succ_of_lt hlt⟩, List.getD_append _ _ _ _ (by omega)]
      · rw [if_neg fun hin => hy hin.left, if_neg fun hin => hy hin.left]
    · rw [if_pos heq, if_pos ⟨by omega, by omega⟩, heq, Nat.add_sub_cancel_left]
      simp
    · rw [if_neg (Nat.ne_of_gt hgt), if_neg (by omega), if_neg (by omega)]

/-! ### The script -/

/-- R102 S13d on: the events still to come from the receipt of a byte on. -/
def receiptRest (future : List Byte) : List Event :=
  (future.take 1).map .rx ++ receiveEvents (future.drop 1) ++ [.ack true]

/-- R102 S12: the events still to come after the read address. -/
def rdbufTail (future : List Byte) : List Event := receiveEvents future ++ [.ack true]

/-- R102: the events still to come at a line, where S13a's and S13b's are for the last of `len` bytes only. -/
def rdbufRest (p : Params) (sa : SlaveAddr) (ra : RegAddr) (len k : Nat) (future : List Byte) : Line → List Event
  | .s8 => readAddressRest sa (rdbufTail future) .s8
  | .s9 => readAddressRest sa (rdbufTail future) .s9
  | .s10 => readAddressRest sa (rdbufTail future) .s10
  | .s11 => readAddressRest sa (rdbufTail future) .s11
  | .s12 => rdbufTail future
  | .s13a => (if k + 1 = len then [.ack false, .stop] else []) ++ .waitOk .byteRxReady :: receiptRest future
  | .s13b => (if k + 1 = len then [.stop] else []) ++ .waitOk .byteRxReady :: receiptRest future
  | .s13c => .waitOk .byteRxReady :: receiptRest future
  | .s13d => receiptRest future
  | .s14 => [.ack true]
  | .s15 => []
  | l => addressRest p sa ra (readAddressEvents sa ++ rdbufTail future) l

/-- How many bytes RDBUF has received at a line with loop index `k`. -/
def receivedAt (len : Nat) (l : Line) (k : Nat) (got : List Byte) : Prop :=
  if l ∈ [.s13a, .s13b, .s13c, .s13d] then got.length = k ∧ k < len
  else if l ∈ [.s14, .s15] then got.length = len
  else got = []

/-- RDBUF's script from the memory `m` at issue (R102). -/
def rdbufScript (p : Params) (sa : SlaveAddr) (ra : RegAddr) (ptr : Half) (len : Nat) (m : Memory) : Script where
  cfg := p
  read := true
  cond := condAt.condOfRead
  enabled := fun
    | .s1 => p.busFreeWait
    | _ => true
  total := len
  full bytes := readEvents p sa ra bytes
  rest l k future := rdbufRest p sa ra len k future l
  holds got l k u := receivedAt len l k got ∧ Received m ptr got u.hm ∧ (l = .s15 → u.ackEn = true)
  left got m' := Received m ptr got m'
  final got u := u.phase = .idle ∧ u.ackEn = true ∧ Received m ptr got u.hm
  failed got u := u.phase = .idle ∧ u.ackEn = true ∧ Received m ptr got u.hm

section Rdbuf
variable (p : Params) (sa : SlaveAddr) (ra : RegAddr) (ptr : Half) (len : Nat) (m : Memory)

theorem rdbufScript_stable : (rdbufScript p sa ra ptr len m).Stable := by
  rintro u w got l k ⟨hhm, -, hack, -, -⟩ ⟨hcount, hreceived, hacked⟩
  exact ⟨hcount, hhm.symm ▸ hreceived, hack.symm ▸ hacked⟩

/-- Before the loop nothing is received. -/
theorem receivedAt_before {len k : Nat} {got : List Byte} {l : Line} (hl : l ∈ addressPart ++ readAddressPart) :
    receivedAt len l k got ↔ got = [] := by
  simp only [addressPart, readAddressPart, List.cons_append, List.nil_append, List.mem_cons, List.not_mem_nil,
    or_false] at hl
  rcases hl with rfl | rfl | rfl | rfl | rfl | rfl | rfl | rfl | rfl | rfl | rfl | rfl <;> exact Iff.rfl

theorem rdbufScript_holds_before {l l' : Line} (hl : l ∈ addressPart ++ readAddressPart)
    (hl' : l' ∈ addressPart ++ readAddressPart) (got : List Byte) (k : Nat) (u : State)
    (h : (rdbufScript p sa ra ptr len m).holds got l k u) : (rdbufScript p sa ra ptr len m).holds got l' k u := by
  obtain ⟨hcount, hreceived, -⟩ := h
  refine ⟨(receivedAt_before hl').mpr ((receivedAt_before hl).mp hcount), hreceived, fun hlast => ?_⟩
  subst hlast
  exact absurd hl' (by decide)

theorem rdbufScript_address : AddressScript (rdbufScript p sa ra ptr len m) sa ra
    fun future => readAddressEvents sa ++ rdbufTail future where
  stable := rdbufScript_stable p sa ra ptr len m
  rest l hl _ _ := by
    simp only [addressPart, List.mem_cons, List.not_mem_nil, or_false] at hl
    rcases hl with rfl | rfl | rfl | rfl | rfl | rfl | rfl <;> rfl
  cond := ⟨rfl, rfl, rfl, rfl⟩
  enabled := ⟨rfl, rfl, rfl, rfl⟩
  holds l hl l' hl' := rdbufScript_holds_before p sa ra ptr len m (List.mem_append_left _ hl) (List.mem_append_left _ hl')
  left _ _ _ _ _ := fun ⟨_, hreceived, _⟩ => hreceived

theorem rdbufScript_readAddress : ReadAddressScript (rdbufScript p sa ra ptr len m) sa rdbufTail where
  stable := rdbufScript_stable p sa ra ptr len m
  rest l hl _ _ := by
    simp only [readAddressPart, List.mem_cons, List.not_mem_nil, or_false] at hl
    rcases hl with rfl | rfl | rfl | rfl | rfl <;> rfl
  cond := ⟨rfl, rfl⟩
  enabled := ⟨rfl, rfl⟩
  holds l hl l' hl' := rdbufScript_holds_before p sa ra ptr len m (List.mem_append_right _ hl) (List.mem_append_right _ hl')
  left _ _ _ _ _ := fun ⟨_, hreceived, _⟩ => hreceived

/-- R102 S13: the loop's next byte, or the line after the loop when none is left. -/
theorem rdbufRest_loop {k : Nat} {future : List Byte} (hlen : k + future.length = len) (k' : Nat) :
    rdbufRest p sa ra len (if k < len then k else k') future (if k < len then .s13a else .s14) = rdbufTail future := by
  cases future with
  | nil =>
    have hend : ¬ k < len := by simp at hlen; omega
    rw [if_neg hend, if_neg hend]
    rfl
  | cons b bytes =>
    have hnext : k < len := by simp at hlen; omega
    rw [if_pos hnext, if_pos hnext]
    cases bytes with
    | nil =>
      have hlast : k + 1 = len := by simpa using hlen
      rw [rdbufRest, if_pos hlast]
      rfl
    | cons c bytes =>
      have hmore : k + 1 ≠ len := by simp at hlen; omega
      rw [rdbufRest, if_neg hmore]
      rfl

/-- R102 S13: how many bytes are received at the loop's next byte, or at the line after the loop. -/
theorem receivedAt_loop {len k : Nat} {got : List Byte} (hk : k ≤ len) (hgot : got.length = k) (k' : Nat) :
    receivedAt len (if k < len then .s13a else .s14) (if k < len then k else k') got := by
  by_cases hnext : k < len
  · rw [if_pos hnext, if_pos hnext]
    exact ⟨hgot, hnext⟩
  · rw [if_neg hnext, if_neg hnext]
    exact hgot.trans (Nat.le_antisymm hk (Nat.le_of_not_lt hnext))

/-- R102 S13d: the receipt of a byte. -/
theorem rdbufRest_receipt {k : Nat} {b : Byte} {future : List Byte} (hlen : k + 1 + future.length = len) :
    rdbufRest p sa ra len k (b :: future) .s13d =
      .rx b :: rdbufRest p sa ra len (if k + 1 < len then k + 1 else k) future (if k + 1 < len then .s13a else .s14) := by
  rw [rdbufRest_loop p sa ra len hlen]
  rfl

end Rdbuf

/-! ### The numbered steps -/

/-- RDBUF's numbered steps keep to its script. -/
theorem execRdbuf_kept {sa : SlaveAddr} {ra : RegAddr} {ptr len : Half} {m : Memory} {before : List Event} {u : State}
    {p : Params} (hrun : u.seq ≠ .idle) (hcfg : u.cfg = p)
    (h : (rdbufScript p sa ra ptr len.toNat m).Kept before u) :
    Yields ((rdbufScript p sa ra ptr len.toNat m).Kept before) (execRdbuf sa ra ptr len u) := by
  match hseq : u.seq with
  | .idle => contradiction
  | .at op l sub k a =>
  refine yields_atPosition_at hseq fun hseq => ?_
  have hat : (rdbufScript p sa ra ptr len.toNat m).At before l sub k u := by
    unfold Script.Kept at h
    rwa [hseq] at h
  have hstable := rdbufScript_stable p sa ra ptr len.toNat m
  refine yields_getD (yields_or ((rdbufScript_address p sa ra ptr len.toNat m).yields hseq hcfg hat fun hs7 => ?_)
    ((rdbufScript_readAddress p sa ra ptr len.toNat m).yields hseq hat)) ?_
  · subst hs7
    exact Script.kept_pass rfl (fun _ _ _ _ => rfl) fun got =>
      rdbufScript_holds_before p sa ra ptr len.toNat m (l := .s7) (l' := .s8) (by decide) (by decide) got k u
  · unfold rdbufLines
    split
    · refine yields_next.mpr (Script.kept_silent hat rfl (by split <;> rfl) rfl
        (fun got future ⟨hcount, _, _⟩ hlen => ?_) fun got ⟨hcount, hreceived, _⟩ => ⟨?_, hreceived, fun hlast => ?_⟩)
      · have hgot : got = [] := hcount
        subst hgot
        have hloop := rdbufRest_loop p sa ra len.toNat hlen 0
        rw [List.length_nil, ite_self] at hloop
        exact hloop.symm
      · have hgot : got = [] := hcount
        have hloop := receivedAt_loop (Nat.zero_le len.toNat) (congrArg List.length hgot) 0
        rwa [ite_self] at hloop
      · split at hlast <;> cases hlast
    · refine Script.yields_eventIf hat rfl rfl rfl rfl rfl (fun _ future _ _ => ?_)
        (fun _ ⟨hcount, hreceived, _⟩ => ⟨hcount, hreceived, nofun⟩)
        fun _ ⟨hcount, hreceived, _⟩ => ⟨hcount, hreceived, nofun⟩
      by_cases hlast : k + 1 = len.toNat <;> simp [rdbufScript, rdbufRest, hlast]
    · refine Script.yields_eventIf hat rfl rfl rfl rfl rfl (fun _ future _ _ => ?_)
        (fun _ ⟨hcount, hreceived, _⟩ => ⟨hcount, hreceived, nofun⟩)
        fun _ ⟨hcount, hreceived, _⟩ => ⟨hcount, hreceived, nofun⟩
      by_cases hlast : k + 1 = len.toNat <;> simp [rdbufScript, rdbufRest, hlast]
    · exact Script.yields_wait hstable hseq rfl rfl rfl hat
        (Script.kept_pass rfl (fun _ _ _ _ => rfl) fun _ ⟨hcount, hreceived, _⟩ => ⟨hcount, hreceived, nofun⟩)
        (Script.kept_fail (next := receiptRest) (fun _ _ _ _ => rfl) fun _ ⟨_, hreceived, _⟩ => hreceived)
    · split
      · next w hw =>
        obtain ⟨ha, rfl⟩ := hmStore_some hw
        refine Script.yields_receive hat rfl (by split <;> rfl) rfl (fun got ⟨⟨hgot, hk⟩, _, _⟩ => hgot ▸ hk)
          (fun got future ⟨⟨hgot, _⟩, _, _⟩ hlen => rdbufRest_receipt p sa ra len.toNat (hgot ▸ hlen))
          fun got ⟨⟨hgot, hk⟩, hreceived, _⟩ => ⟨?_, ?_, fun hlast => ?_⟩
        · exact receivedAt_loop hk (by simpa using hgot) k
        · subst hgot
          exact hreceived.store ha
        · split at hlast <;> cases hlast
      · exact yields_fault ..
    · exact Script.yields_event hat rfl rfl rfl rfl rfl (fun _ _ _ _ => rfl) fun _ ⟨hcount, hreceived, _⟩ =>
        ⟨hcount, hreceived, fun _ => rfl⟩
    · exact yields_next.mpr (Script.kept_end hat rfl rfl rfl statusWord_ok fun _ ⟨hcount, hreceived, hack⟩ _ =>
        ⟨hcount, rfl, rfl, hack rfl, hreceived⟩)
    · refine Script.yields_abort hat hcfg fun _ hreceived hack => ?_
      rw [if_neg fun hrdb => absurd hrdb.right (by decide)]
      exact ⟨rfl, hack rfl, hreceived⟩

/-- Settles O44: at its `finish` RDBUF has run its script and stored its bytes, or timed out at one of its waits with those
received before stored. -/
theorem completedRdbufSucceededOrTimedOut : Obligations.CompletedRdbufSucceededOrTimedOut := by
  intro sa ra ptr len n s t hissued hwf h
  have ⟨hseq, _, _⟩ := hissued
  have hstart : (rdbufScript s.cfg sa ra ptr len.toNat s.hm).Kept (seqEvents s) s := by
    refine Script.kept_issued hseq (fun future _ => ?_) ⟨rfl, .nil hwf, nofun⟩
    simp [rdbufScript, rdbufRest, rdbufTail, addressRest, readEvents]
  obtain ⟨hkept, hidle, hout⟩ := issued_invariant hissued
    (fun u w hother hrun => Script.kept_of_interrupted (rdbufScript_stable s.cfg sa ra ptr len.toNat s.hm) hother hrun)
    (fun u hu hrun hout => execRdbuf_kept hrun (cfg_of_outside hout) hu) hstart h
  have hrest : t.value = s.value ∧ t.count = s.count ∧ t.present = s.present ∧ t.dir = s.dir :=
    ⟨eq_of_outside hout State.value fun _ => rfl, eq_of_outside hout State.count fun _ => rfl,
      eq_of_outside hout State.present fun _ => rfl, eq_of_outside hout State.dir fun _ => rfl⟩
  rcases Script.ended_of_kept hidle hkept with
    ⟨hstatus, bytes, hlen, hevents, hphase, hack, hreceived⟩ | ⟨hstatus, got, done, c, htimeout, hphase, hack, hreceived⟩
  · have hlen : bytes.length = len.toNat := hlen
    exact ⟨⟨bytes, hlen, .inl ⟨hstatus, hevents, hlen ▸ hreceived.read⟩⟩, hphase, hack, hrest⟩
  · obtain ⟨future, hlen, hprefix⟩ := htimeout.rest
    refine ⟨⟨got ++ future, List.length_append.trans hlen, .inr ⟨hstatus, done, c, hprefix, htimeout.events, fun y => ?_⟩⟩,
      hphase, hack, hrest⟩
    rw [hreceived.read y, htimeout.received]
    by_cases hin : ptr.toNat ≤ y ∧ y < ptr.toNat + got.length
    · rw [if_pos hin, if_pos hin, List.getD_append _ _ _ _ (by omega)]
    · rw [if_neg hin, if_neg hin]

end Sys2Proof.Machine
end

section
/-! The transmit commands under every interleaving (R80 to R83, R91). -/

namespace Sys2Proof.Machine

namespace Script

/-- R76 T1, R77 D1: a line that awaits a condition is left with WaitOk, or held. -/
theorem yields_await {C : Script} {before : List Event} {c : Cond} {op : BitVec 4} {l l' : Line} {k a : Nat} {u : State}
    (hseq : u.seq = .at op l .act k a) (h : C.At before l .act k u) (hl : C.abortedAt l = none)
    (hl' : C.abortedAt l' = none)
    (hrest : ∀ got future, C.holds got l k u → got.length + future.length = C.total →
      C.rest l k future = .waitOk c :: C.rest l' k future)
    (hholds : ∀ got, C.holds got l k u → C.holds got l' k (moveTo op l' k a (emit (.waitOk c) u))) :
    Yields (C.Kept before) (await c (moveTo op l' k a) u) := by
  unfold await
  split
  · exact yields_event h hl hl' rfl rfl rfl hrest hholds
  · exact yields_next.mpr (kept_of_at hseq h)

end Script

/-- What a transmit command has at its end and after its switch back to Receive (R80 to R83). -/
def backInReceive (p : Params) (u : State) : Prop := u.dir = .receive ∧ u.dirPin = dirLevel p .receive

/-- A script whose waits hold without limit (R78): nothing is received and nothing times out. -/
def holdingScript (p : Params) (bytes : List Byte) (rest : Line → Nat → List Event) (holds : Line → Nat → State → Prop) :
    Script where
  cfg := p
  read := false
  cond _ := .txe
  enabled _ := true
  total := 0
  full _ := transmitEvents p bytes
  rest l k _ := rest l k
  holds _ l k u := holds l k u
  left _ _ := False
  final _ u := backInReceive p u
  failed _ _ := False

/-! ### SENDB -/

/-- R80: the events still to come at a line. -/
def sendbRest (p : Params) (b : Byte) : Line → List Event
  | .s1 => transmitEvents p [b]
  | .s2 => .delayUs p.settleUs :: .waitOk .txe :: .uTx b :: .waitOk .tc :: directionEvents p .receive
  | .s3 => .waitOk .txe :: .uTx b :: .waitOk .tc :: directionEvents p .receive
  | .s4 => .uTx b :: .waitOk .tc :: directionEvents p .receive
  | .s5 => .waitOk .tc :: directionEvents p .receive
  | .s6 => directionEvents p .receive
  | .s7 => [.delayUs p.settleUs]
  | _ => []

/-- SENDB's script (R80). -/
def sendbScript (p : Params) (b : Byte) : Script :=
  holdingScript p [b] (fun l _ => sendbRest p b l) fun l _ u => l ∈ [.s7, .s8] → backInReceive p u

theorem sendbScript_stable (p : Params) (b : Byte) : (sendbScript p b).Stable := by
  rintro u w got l k ⟨-, -, -, hdir, hpin⟩ h hl
  obtain ⟨hback, hlevel⟩ := h hl
  exact ⟨hdir.trans hback, hpin.trans hlevel⟩

/-- SENDB's numbered steps keep to its script. -/
theorem execSendb_kept {b : Byte} {before : List Event} {u : State} {p : Params} (hrun : u.seq ≠ .idle) (hcfg : u.cfg = p)
    (h : (sendbScript p b).Kept before u) : Yields ((sendbScript p b).Kept before) (execSendb b u) := by
  match hseq : u.seq with
  | .idle => contradiction
  | .at op l sub k a =>
  refine yields_atPosition_at hseq fun hseq => ?_
  have hat : (sendbScript p b).At before l sub k u := by
    unfold Script.Kept at h
    rwa [hseq] at h
  subst hcfg
  split
  · exact Script.yields_event hat rfl rfl rfl rfl rfl (fun _ _ _ _ => rfl) fun _ _ hl => absurd hl (by decide)
  · exact Script.yields_event hat rfl rfl rfl rfl rfl (fun _ _ _ _ => rfl) fun _ _ hl => absurd hl (by decide)
  · exact Script.yields_await hseq hat rfl rfl (fun _ _ _ _ => rfl) fun _ _ hl => absurd hl (by decide)
  · exact Script.yields_event hat rfl rfl rfl rfl rfl (fun _ _ _ _ => rfl) fun _ _ hl => absurd hl (by decide)
  · exact Script.yields_await hseq hat rfl rfl (fun _ _ _ _ => rfl) fun _ _ hl => absurd hl (by decide)
  · exact Script.yields_event hat rfl rfl rfl rfl rfl (fun _ _ _ _ => rfl) fun _ _ _ => ⟨rfl, rfl⟩
  · exact Script.yields_event hat rfl rfl rfl rfl rfl (fun _ _ _ _ => rfl) fun _ hback _ => hback (by decide)
  · exact yields_next.mpr (Script.kept_end hat rfl rfl rfl statusWord_ok fun _ hback hroom =>
      ⟨Nat.le_zero.mp hroom, rfl, hback (by decide)⟩)
  · exact yields_fault ..

/-! ### SENDBUF and SENDS -/

/-- R81, R82: the events still to come at a line with the loop index `k`. -/
def transmitRest (p : Params) (bytes : List Byte) (k : Nat) : Line → List Event
  | .s1 => transmitEvents p bytes
  | .s2 => .delayUs p.settleUs :: byteEvents bytes ++ .waitOk .tc :: directionEvents p .receive
  | .s3a => .waitOk .txe :: (bytes.drop k |>.take 1).map .uTx ++ byteEvents (bytes.drop (k + 1)) ++
      .waitOk .tc :: directionEvents p .receive
  | .s3b => (bytes.drop k |>.take 1).map .uTx ++ byteEvents (bytes.drop (k + 1)) ++
      .waitOk .tc :: directionEvents p .receive
  | .s4 => .waitOk .tc :: directionEvents p .receive
  | .s5 => directionEvents p .receive
  | .s6 => [.delayUs p.settleUs]
  | _ => []

/-- The script of SENDBUF and SENDS (R81, R82). -/
def transmitScript (p : Params) (bytes : List Byte) : Script :=
  holdingScript p bytes (fun l k => transmitRest p bytes k l) fun l k u =>
    (l ∈ [.s3a, .s3b] → k < bytes.length) ∧ (l ∈ [.s6, .s7] → backInReceive p u)

theorem transmitScript_stable (p : Params) (bytes : List Byte) : (transmitScript p bytes).Stable := by
  rintro u w got l k ⟨-, -, -, hdir, hpin⟩ ⟨hindex, hback⟩
  refine ⟨hindex, fun hl => ?_⟩
  obtain ⟨hreceive, hlevel⟩ := hback hl
  exact ⟨hdir.trans hreceive, hpin.trans hlevel⟩

/-- The loop's next byte, or the line after the loop when none is left. -/
theorem transmitRest_loop (p : Params) (bytes : List Byte) (k k' : Nat) :
    transmitRest p bytes (if k < bytes.length then k else k') (if k < bytes.length then .s3a else .s4) =
      byteEvents (bytes.drop k) ++ .waitOk .tc :: directionEvents p .receive := by
  by_cases hnext : k < bytes.length
  · rw [if_pos hnext, if_pos hnext, transmitRest, List.drop_eq_getElem_cons hnext]
    rfl
  · rw [if_neg hnext, if_neg hnext, List.drop_eq_nil_of_le (Nat.le_of_not_lt hnext)]
    rfl

/-- R34: the loop index at the loop's next byte or the line after the loop. -/
theorem transmitScript_holds_loop (p : Params) (bytes : List Byte) (got : List Byte) (k k' : Nat) (u : State) :
    (transmitScript p bytes).holds got (if k < bytes.length then .s3a else .s4) (if k < bytes.length then k else k') u := by
  by_cases hnext : k < bytes.length
  · rw [if_pos hnext, if_pos hnext]
    exact ⟨fun _ => hnext, fun hl => absurd hl (by decide)⟩
  · rw [if_neg hnext, if_neg hnext]
    exact ⟨fun hl => absurd hl (by decide), fun hl => absurd hl (by decide)⟩

/-- The numbered steps of SENDBUF and SENDS keep to their script. -/
theorem transmitLines_kept {op : BitVec 4} {ptr : Half} {n k a : Nat} {bytes : List Byte} {before : List Event} {l : Line}
    {sub : Sub} {u : State} {p : Params} (hbytes : bytes = bufferBytes u.hm ptr n) (hseq : u.seq = .at op l sub k a)
    (hcfg : u.cfg = p) (hat : (transmitScript p bytes).At before l sub k u) :
    Yields ((transmitScript p bytes).Kept before) (transmitLines op ptr n l sub k a u) := by
  have hlen : bytes.length = n := by rw [hbytes]; simp [bufferBytes]
  subst hcfg
  have hother {w : State} {got : List Byte} {l' : Line} {k' : Nat} (hl' : l' ∉ [.s3a, .s3b, .s6, .s7]) :
      (transmitScript u.cfg bytes).holds got l' k' w := by
    simp only [List.mem_cons, List.not_mem_nil, or_false, not_or] at hl'
    obtain ⟨h3a, h3b, h6, h7⟩ := hl'
    exact ⟨fun hl => by simp [h3a, h3b] at hl, fun hl => by simp [h6, h7] at hl⟩
  unfold transmitLines
  split
  · refine Script.yields_event hat rfl rfl rfl rfl rfl (fun _ _ _ _ => ?_) fun _ _ => hother (by decide)
    simp [transmitScript, holdingScript, transmitRest, transmitEvents, directionEvents]
  · unfold firstByte
    have hrest := transmitRest_loop u.cfg bytes 0 0
    have hholds (got : List Byte) := transmitScript_holds_loop u.cfg bytes got 0 0
    rw [ite_self] at hrest
    simp only [ite_self] at hholds
    rw [← hlen]
    exact Script.yields_event hat rfl (by split <;> rfl) rfl rfl rfl
      (fun _ _ _ _ => congrArg (Event.delayUs u.cfg.settleUs :: ·) hrest.symm) fun got _ => hholds got _
  · exact Script.yields_await hseq hat rfl rfl (fun _ _ _ _ => rfl) fun _ ⟨hindex, _⟩ =>
      ⟨fun _ => hindex (by decide), fun hl => absurd hl (by decide)⟩
  · split
    · next v hv =>
      unfold nextByte
      rw [← hlen]
      refine Script.yields_event hat rfl (by split <;> rfl) rfl rfl rfl (fun _ _ ⟨hindex, _⟩ _ => ?_)
        fun got _ => transmitScript_holds_loop u.cfg bytes got (k + 1) k _
      have hk : k < bytes.length := hindex (by decide)
      have hbyte : bytes[k] = v := by
        have hread := bufferBytes_getElem? (m := u.hm) (ptr := ptr) (hlen ▸ hk : k < n)
        rw [← hbytes, ← (hmLoad_some hv).right, List.getElem?_eq_getElem hk] at hread
        exact Option.some.inj hread
      show transmitRest u.cfg bytes k .s3b = .uTx v :: transmitRest u.cfg bytes _ _
      rw [transmitRest_loop, transmitRest, List.drop_eq_getElem_cons hk, hbyte]
      rfl
    · exact yields_fault ..
  · exact Script.yields_await hseq hat rfl rfl (fun _ _ _ _ => rfl) fun _ _ => hother (by decide)
  · exact Script.yields_event hat rfl rfl rfl rfl rfl (fun _ _ _ _ => rfl) fun _ _ =>
      ⟨fun hl => absurd hl (by decide), fun _ => ⟨rfl, rfl⟩⟩
  · exact Script.yields_event hat rfl rfl rfl rfl rfl (fun _ _ _ _ => rfl) fun _ ⟨_, hback⟩ =>
      ⟨fun hl => absurd hl (by decide), fun _ => hback (by decide)⟩
  · exact yields_next.mpr (Script.kept_end hat rfl rfl rfl statusWord_ok fun _ ⟨_, hback⟩ hroom =>
      ⟨Nat.le_zero.mp hroom, rfl, hback (by decide)⟩)
  · exact yields_fault ..

/-- A transmit command that keeps to its script and is at its `finish`. -/
theorem transmitOutcome {p : Params} {bytes : List Byte} {rest : Line → Nat → List Event}
    {holds : Line → Nat → State → Prop} {before : List Event} {u : State}
    (h : (holdingScript p bytes rest holds).Ended before u) :
    seqEvents u = before ++ transmitEvents p bytes ∧ u.dir = .receive ∧ u.dirPin = !p.dirTxLevel ∧ u.status = 0x01 := by
  rcases h with ⟨hstatus, _, -, hevents, hdir, hpin⟩ | ⟨-, _, _, _, -, hfalse⟩
  · exact ⟨hevents, hdir, hpin, hstatus⟩
  · exact hfalse.elim

/-- A completed run of a transmit command whose numbered steps keep to a script that holds at issue. -/
theorem completedTransmit {i : Instr} {n : Nat} {s t : State} {bytes : List Byte} {rest : Line → Nat → List Event}
    {holds : Line → Nat → State → Prop} (hissued : Issued i s) (h : completion n s = some t)
    (hstable : (holdingScript s.cfg bytes rest holds).Stable)
    (hexec : ∀ u, (holdingScript s.cfg bytes rest holds).Kept (seqEvents s) u → u.seq ≠ .idle →
      outside i u = outside i s → Yields ((holdingScript s.cfg bytes rest holds).Kept (seqEvents s)) (exec i u))
    (hrest : rest .s1 0 = transmitEvents s.cfg bytes) (hholds : holds .s1 0 s) :
    (seqEvents t = seqEvents s ++ transmitEvents s.cfg bytes ∧ t.dir = .receive ∧ t.dirPin = !s.cfg.dirTxLevel ∧
      t.status = 0x01) ∧ outside i t = outside i s := by
  have ⟨hseq, _, _⟩ := hissued
  obtain ⟨hkept, hidle, hout⟩ := issued_invariant hissued
    (fun u w hother hrun => Script.kept_of_interrupted hstable hother hrun) hexec
    (Script.kept_issued hseq (fun _ _ => hrest) hholds) h
  exact ⟨transmitOutcome (Script.ended_of_kept hidle hkept), hout⟩

/-- SENDBUF's numbered steps keep to its script. -/
theorem execSendbuf_kept {ptr len : Half} {bytes : List Byte} {before : List Event} {u : State} {p : Params}
    (hbytes : bytes = bufferBytes u.hm ptr len.toNat) (hrun : u.seq ≠ .idle) (hcfg : u.cfg = p)
    (h : (transmitScript p bytes).Kept before u) : Yields ((transmitScript p bytes).Kept before) (execSendbuf ptr len u) := by
  match hseq : u.seq with
  | .idle => contradiction
  | .at op l sub k a =>
    refine yields_atPosition_at hseq fun hseq => transmitLines_kept hbytes hseq hcfg ?_
    unfold Script.Kept at h
    rwa [hseq] at h

/-- SENDS's numbered steps keep to its script. -/
theorem execSends_kept {ptr : Half} {bytes : List Byte} {before : List Event} {u : State} {p : Params}
    (hbytes : bytes = bufferBytes u.hm ptr bytes.length) (hstring : stringLength u.hm ptr = some bytes.length)
    (hrun : u.seq ≠ .idle) (hcfg : u.cfg = p) (h : (transmitScript p bytes).Kept before u) :
    Yields ((transmitScript p bytes).Kept before) (execSends ptr u) := by
  match hseq : u.seq with
  | .idle => contradiction
  | .at op l sub k a =>
    refine yields_atPosition_at hseq fun hseq => ?_
    rw [hstring]
    refine transmitLines_kept hbytes hseq hcfg ?_
    unfold Script.Kept at h
    rwa [hseq] at h

/-- R81: the length of a string whose bytes before the first 0x00 are given. -/
theorem stringLength_of_bytes {m : Memory} {ptr : Half} {bytes : List Byte}
    (hbytes : bytes = bufferBytes m ptr bytes.length) (hnonzero : ∀ b ∈ bytes, b ≠ 0x00)
    (hroom : ptr.toNat + bytes.length ≤ 0xFFFF) (hzero : memRead m (ptr.toNat + bytes.length) = 0x00) :
    stringLength m ptr = some bytes.length := by
  refine (stringLength_some_iff m ptr bytes.length).mpr ⟨hroom, hzero, fun j hj => hnonzero _ ?_⟩
  have hread := bufferBytes_getElem? (m := m) (ptr := ptr) hj
  rw [← hbytes] at hread
  exact List.mem_of_getElem? hread

/-- R80 to R83: a transmit command leaves VALUE, COUNT, the bus master and HM alone. -/
theorem transmit_keeps {i : Instr} {s t : State}
    (hi : (∃ b, i = .sendb b) ∨ (∃ ptr len, i = .sendbuf ptr len) ∨ ∃ ptr, i = .sends ptr)
    (hout : outside i t = outside i s) : t.value = s.value ∧ t.count = s.count ∧ sameBm s t ∧ t.hm = s.hm := by
  rcases hi with ⟨b, rfl⟩ | ⟨ptr, len, rfl⟩ | ⟨ptr, rfl⟩ <;>
  exact ⟨eq_of_outside hout State.value fun _ => rfl, eq_of_outside hout State.count fun _ => rfl,
    ⟨eq_of_outside hout State.ackEn fun _ => rfl, eq_of_outside hout State.phase fun _ => rfl,
      eq_of_outside hout State.present fun _ => rfl⟩,
    eq_of_outside hout State.hm fun _ => rfl⟩

/-- R81, R82: the transmit script's start. -/
theorem transmitScript_start (p : Params) (bytes : List Byte) (s : State) :
    (.s1 ∈ [Line.s3a, .s3b] → 0 < bytes.length) ∧ (.s1 ∈ [Line.s6, .s7] → backInReceive p s) :=
  ⟨fun hl => absurd hl (by decide), fun hl => absurd hl (by decide)⟩

/-- Settles O39: the transmit commands keep to their scripts, whose waits hold without limit. -/
theorem completedTransmitSentItsBytes : Obligations.CompletedTransmitSentItsBytes := by
  intro i bytes n s t hissued h hcase
  have ⟨⟨hevents, hdir, hpin, hstatus⟩, hkeeps⟩ :
      (seqEvents t = seqEvents s ++ transmitEvents s.cfg bytes ∧ t.dir = .receive ∧ t.dirPin = !s.cfg.dirTxLevel ∧
        t.status = 0x01) ∧ t.value = s.value ∧ t.count = s.count ∧ sameBm s t ∧ t.hm = s.hm := by
    rcases hcase with ⟨rfl, hlen⟩ | ⟨ptr, len, rfl, hbytes⟩ | ⟨ptr, rfl, hbytes, hnonzero, hroom, hzero⟩
    · obtain ⟨b, rfl⟩ := List.length_eq_one_iff.mp hlen
      refine (completedTransmit hissued h (sendbScript_stable s.cfg b) (fun u hu hrun hout => ?_) rfl
        fun hl => absurd hl (by decide)).imp_right (transmit_keeps (.inl ⟨b, rfl⟩))
      exact execSendb_kept hrun (cfg_of_outside hout) hu
    · refine (completedTransmit hissued h (transmitScript_stable s.cfg bytes) (fun u hu hrun hout => ?_) rfl
        (transmitScript_start s.cfg bytes s)).imp_right (transmit_keeps (.inr (.inl ⟨ptr, len, rfl⟩)))
      have hhm : u.hm = s.hm := eq_of_outside hout State.hm fun _ => rfl
      exact execSendbuf_kept (hhm.symm ▸ hbytes) hrun (cfg_of_outside hout) hu
    · refine (completedTransmit hissued h (transmitScript_stable s.cfg bytes) (fun u hu hrun hout => ?_) rfl
        (transmitScript_start s.cfg bytes s)).imp_right (transmit_keeps (.inr (.inr ⟨ptr, rfl⟩)))
      have hhm : u.hm = s.hm := eq_of_outside hout State.hm fun _ => rfl
      exact execSends_kept (hhm.symm ▸ hbytes) (hhm.symm ▸ stringLength_of_bytes hbytes hnonzero hroom hzero) hrun
        (cfg_of_outside hout) hu
  exact ⟨hevents, hdir, hpin, hstatus, hkeeps⟩

end Sys2Proof.Machine
end

section
/-! SCAN under every interleaving (R104, R105, R32): the probes done so far and the events of the one that is running. -/

namespace Sys2Proof.Machine

/-! ### The events of a probe -/

theorem sentBytes_append (es fs : List Event) : sentBytes (es ++ fs) = sentBytes es ++ sentBytes fs := by
  induction es with
  | nil => rfl
  | cons e es ih => cases e <;> simp [sentBytes, ih]

/-- R105: what the events of a whole probe of address `a` are. -/
structure Probed (a : Nat) (es : List Event) : Prop where
  stops : es.countP (· == .stop) = 1
  delays : es.countP (· == .delayMs 1) = 1
  sent : sentBytes es = [] ∨ sentBytes es = [addrByte (BitVec.ofNat Config.saBits a) false]
  received : es.countP isRx = 0

/-- R104: what the events of a running probe of address `a` are before a line. The address was acknowledged exactly when
P4a's wait has ended with WaitOk, which the step after it reads. -/
structure ProbedTo (a : Nat) (l : Line) (sub : Sub) (wok : Bool) (es : List Event) : Prop where
  stops : es.countP (· == .stop) = if l ∈ [.p6, .p7] then 1 else 0
  delays : es.countP (· == .delayMs 1) = 0
  sent : sentBytes es = [] ∨ sentBytes es = [addrByte (BitVec.ofNat Config.saBits a) false]
  unsent : l ∈ [.p1, .p2, .p3, .p4] → sentBytes es = []
  received : es.countP isRx = 0
  unasked : l ∈ [.p1, .p2, .p3, .p4] → .waitOk .addrWAck ∉ es
  asked : l = .p4a → (.waitOk .addrWAck ∈ es ↔ sub = .test ∧ wok = true)

/-- The lines of a probe whose wait for the address is over. -/
def marked (l : Line) : Bool := l ∈ [.p5, .p6, .p7]

/-- A probe starts with no events. -/
theorem ProbedTo.nil (a : Nat) (wok : Bool) : ProbedTo a .p1 .act wok [] where
  stops := rfl
  delays := rfl
  sent := .inl rfl
  unsent _ := rfl
  received := rfl
  unasked _ := List.not_mem_nil
  asked := nofun

/-- R104 P1, P3, P4a, P6: the entry of a wait. -/
theorem ProbedTo.entered {a : Nat} {l : Line} {es : List Event} {wok wok' : Bool} (h : ProbedTo a l .act wok es) :
    ProbedTo a l .poll wok' es :=
  { h with asked := fun hl => (h.asked hl).trans (by simp) }

/-- R104 P1, P3, P4a, P6: the end of a wait. -/
theorem ProbedTo.polled {a : Nat} {l : Line} {c : Cond} {es : List Event} {wok : Bool} (ok : Bool)
    (hc : c = .addrWAck ↔ l = .p4a) (h : ProbedTo a l .poll wok es) :
    ProbedTo a l .test ok (es ++ [Script.waitEvent ok c]) where
  stops := by rw [List.countP_append, h.stops]; cases ok <;> simp [Script.waitEvent]
  delays := by rw [List.countP_append, h.delays]; cases ok <;> simp [Script.waitEvent]
  sent := by rw [sentBytes_append]; cases ok <;> simpa [Script.waitEvent, sentBytes] using h.sent
  unsent hl := by rw [sentBytes_append, h.unsent hl]; cases ok <;> rfl
  received := by rw [List.countP_append, h.received]; cases ok <;> rfl
  unasked hl := by
    have hne : c ≠ .addrWAck := fun heq => by rw [hc.mp heq] at hl; exact absurd hl (by decide)
    cases ok <;> simp [Script.waitEvent, h.unasked hl, Ne.symm hne]
  asked hl := by
    have hold : .waitOk .addrWAck ∉ es := fun hin => nomatch ((h.asked hl).mp hin).left
    cases ok <;> simp [Script.waitEvent, hold, hc.mpr hl]

/-- R104: the next line after a wait. -/
theorem ProbedTo.moved {a : Nat} {l l' : Line} {sub : Sub} {es : List Event} {wok wok' : Bool}
    (hl : (l, l') ∈ [(.p1, .p2), (.p1, .p5), (.p3, .p4), (.p3, .p5), (.p4a, .p5), (.p6, .p7)])
    (h : ProbedTo a l sub wok es) : ProbedTo a l' .act wok' es := by
  simp only [List.mem_cons, Prod.mk.injEq, List.not_mem_nil, or_false] at hl
  rcases hl with ⟨rfl, rfl⟩ | ⟨rfl, rfl⟩ | ⟨rfl, rfl⟩ | ⟨rfl, rfl⟩ | ⟨rfl, rfl⟩ | ⟨rfl, rfl⟩ <;>
  exact ⟨h.stops, h.delays, h.sent, h.unsent ∘ (by decide), h.received, h.unasked ∘ (by decide), nofun⟩

/-- R104 P2, P5: a line that appends an event which is no wait's. -/
theorem ProbedTo.acted {a : Nat} {l l' : Line} {e : Event} {es : List Event} {wok wok' : Bool}
    (hl : (l, e, l') ∈ [(.p2, .start, .p3), (.p4, .tx (addrByte (BitVec.ofNat Config.saBits a) false), .p4a), (.p5, .stop, .p6)])
    (h : ProbedTo a l .act wok es) : ProbedTo a l' .act wok' (es ++ [e]) := by
  obtain ⟨hstops, hdelays, hsent, hunsent, hreceived, hunasked, hasked⟩ := h
  simp only [List.mem_cons, Prod.mk.injEq, List.not_mem_nil, or_false] at hl
  rcases hl with ⟨rfl, rfl, rfl⟩ | ⟨rfl, rfl, rfl⟩ | ⟨rfl, rfl, rfl⟩ <;>
  constructor <;> simp_all [List.countP_append, sentBytes_append, sentBytes, isRx]

/-- R104 P7: the probe ends with its pacing delay. -/
theorem ProbedTo.paced {a : Nat} {es : List Event} {wok : Bool} (h : ProbedTo a .p7 .act wok es) :
    Probed a (es ++ [.delayMs Config.tPace]) where
  stops := by rw [List.countP_append, h.stops]; rfl
  delays := by rw [List.countP_append, h.delays]; rfl
  sent := by rw [sentBytes_append]; simpa [sentBytes] using h.sent
  received := by rw [List.countP_append, h.received]; rfl

/-! ### The probes done -/

/-- R104: the probes of 1 to `a - 1` are done, with the events, the bits of PRESENT and the number that they give. -/
structure ScannedTo (a : Nat) (probe : Nat → List Event) (events : List Event) (present : BitVec 128) (found : Byte) :
    Prop where
  events : events = (List.range' 1 (a - 1)).flatMap probe
  probes : ∀ b, 1 ≤ b → b < a → Probed b (probe b)
  present : ∀ b, present.getLsbD b = true ↔ 1 ≤ b ∧ b < a ∧ .waitOk .addrWAck ∈ probe b
  found : found.toNat = (List.range' 1 (a - 1)).countP fun b => .waitOk .addrWAck ∈ probe b

theorem ScannedTo.start (probe : Nat → List Event) : ScannedTo 1 probe [] 0 0 where
  events := rfl
  probes b hlo hhi := absurd (Nat.lt_of_le_of_lt hlo hhi) (Nat.lt_irrefl 1)
  present b := by simp; omega
  found := rfl

/-- The probe of address `a` is done too. -/
theorem ScannedTo.next {a : Nat} {probe : Nat → List Event} {events es : List Event} {present : BitVec 128} {found : Byte}
    (hlo : 1 ≤ a) (hhi : a < 127) (h : ScannedTo a probe events present found) (hes : Probed a es) :
    ScannedTo (a + 1) (Function.update probe a es) (events ++ es)
      (if .waitOk .addrWAck ∈ es then markPresent present a else present)
      (if .waitOk .addrWAck ∈ es then found + 1 else found) := by
  have hrange : List.range' 1 (a + 1 - 1) = List.range' 1 (a - 1) ++ [a] := by
    have hlast := List.range'_concat (s := 1) (n := a - 1) (step := 1)
    rw [Nat.sub_add_cancel hlo, Nat.one_mul, Nat.add_sub_cancel' hlo] at hlast
    exact hlast
  have hold {b : Nat} (hb : b ∈ List.range' 1 (a - 1)) : Function.update probe a es b = probe b := by
    have hne : b ≠ a := by rw [List.mem_range'_1] at hb; omega
    exact Function.update_of_ne hne es probe
  constructor
  · rw [hrange, List.flatMap_append, List.flatMap_congr fun b hb => hold hb, ← h.events]
    simp
  · intro b hb hba
    by_cases heq : b = a
    · rw [heq, Function.update_self]
      exact hes
    · rw [Function.update_of_ne heq]
      exact h.probes b hb (by omega)
  · intro b
    have hmark := present_after_ack present (decide (.waitOk .addrWAck ∈ es)) hhi b
    simp only [decide_eq_true_eq] at hmark
    rw [hmark, Bool.or_eq_true, h.present b]
    by_cases heq : b = a
    · subst heq
      simp
      omega
    · rw [Function.update_of_ne heq]
      simp [heq]
      omega
  · rw [hrange, List.countP_append, List.countP_congr (q := fun b => .waitOk .addrWAck ∈ probe b) fun b hb => by rw [hold hb],
      ← h.found, List.countP_singleton, Function.update_self]
    have hcount : found.toNat ≤ a - 1 := by
      rw [h.found]
      exact List.countP_le_length.trans_eq List.length_range'
    split
    · have hone : (1 : Byte).toNat = 1 := rfl
      rw [BitVec.toNat_add, Nat.mod_eq_of_lt (by omega)]
      simp_all
    · simp_all

/-! ### The run of a SCAN -/

/-- What holds at a line of the probe of address `a`: the probes before it are done, and this one has its events so far. -/
structure Probing (before : List Event) (a : Nat) (l : Line) (sub : Sub) (u : State) : Prop where
  low : 1 ≤ a
  high : a < 127
  run : ∃ probe done present found es, ScannedTo a probe done present found ∧ ProbedTo a l sub u.wok es ∧
    seqEvents u = before ++ done ++ es ∧
    u.present = (if marked l = true ∧ .waitOk .addrWAck ∈ es then markPresent present a else present) ∧
    u.found = (if marked l = true ∧ .waitOk .addrWAck ∈ es then found + 1 else found)

/-- What holds during a run of SCAN. -/
def scanKept (before : List Event) (u : State) : Prop :=
  match u.seq with
  | .at _ .s1 _ _ _ => seqEvents u = before
  | .at _ .s3 _ _ _ => ∃ probe done, ScannedTo 127 probe done u.present u.found ∧ seqEvents u = before ++ done
  | .at _ l sub _ a => Probing before a l sub u
  | .idle => u.status = 0x01 ∧ u.phase = .idle ∧ ∃ probe done found, ScannedTo 127 probe done u.present found ∧
      seqEvents u = before ++ done ∧ u.count = countOfFound found

section Scan
variable {before : List Event} {l l' : Line} {sub sub' : Sub} {a : Nat} {u w : State}

/-- Nothing but the position and what a probe does not see has changed. -/
theorem Probing.congr (h : Probing before a l sub u) (hevents : seqEvents w = seqEvents u)
    (hprobe : ∀ es, ProbedTo a l sub u.wok es → ProbedTo a l' sub' w.wok es) (hmarked : marked l' = marked l)
    (hpresent : w.present = u.present) (hfound : w.found = u.found) : Probing before a l' sub' w := by
  obtain ⟨hlow, hhigh, probe, done, present, found, es, hscanned, hes, hall, hbits, hnumber⟩ := h
  refine ⟨hlow, hhigh, probe, done, present, found, es, hscanned, hprobe es hes, hevents.trans hall, ?_, ?_⟩
  · rw [hmarked, hpresent, hbits]
  · rw [hmarked, hfound, hnumber]

/-- A step that appends an event to the running probe's, and marks nothing. -/
theorem Probing.event {e : Event} (h : Probing before a l sub u) (hevents : seqEvents w = seqEvents u ++ [e])
    (hprobe : ∀ es, ProbedTo a l sub u.wok es → ProbedTo a l' sub' w.wok (es ++ [e])) (hmarked : marked l' = marked l)
    (hask : marked l = true → e ≠ .waitOk .addrWAck) (hpresent : w.present = u.present) (hfound : w.found = u.found) :
    Probing before a l' sub' w := by
  obtain ⟨hlow, hhigh, probe, done, present, found, es, hscanned, hes, hall, hbits, hnumber⟩ := h
  have hmem : (marked l' = true ∧ .waitOk .addrWAck ∈ es ++ [e]) ↔ (marked l = true ∧ .waitOk .addrWAck ∈ es) := by
    rw [hmarked]
    refine and_congr_right fun hm => ?_
    simp [(hask hm).symm]
  refine ⟨hlow, hhigh, probe, done, present, found, es ++ [e], hscanned, hprobe es hes, ?_, ?_, ?_⟩
  · rw [hevents, hall, List.append_assoc]
  · rw [hpresent, hbits, if_congr hmem rfl rfl]
  · rw [hfound, hnumber, if_congr hmem rfl rfl]

/-- The position after a step inside a probe. -/
theorem scanKept_of_probing {op : BitVec 4} {k : Nat} (hseq : w.seq = .at op l sub k a) (hs1 : l ≠ .s1) (hs3 : l ≠ .s3)
    (h : Probing before a l sub w) : scanKept before w := by
  unfold scanKept
  rw [hseq]
  split
  · next heq => cases heq; contradiction
  · next heq => cases heq; contradiction
  · next heq => cases heq; exact h
  · next heq => cases heq

/-- A wait of a probe (R92, R104). -/
theorem yields_probeWait {c : Cond} {budget : Nat} {op : BitVec 4} {k : Nat} {passed failed : State → State}
    (hseq : u.seq = .at op l sub k a) (hl : l ∈ [.p1, .p3, .p4a, .p6]) (hc : c = .addrWAck ↔ l = .p4a)
    (h : Probing before a l sub u) (hpass : sub = .test → u.wok = true → scanKept before (passed u))
    (hfail : sub = .test → u.wok = false → scanKept before (failed u)) :
    Yields (scanKept before) (waitLine c budget op l sub k a passed failed u) := by
  have hs1 : l ≠ .s1 := fun heq => absurd (heq ▸ hl) (by decide)
  have hs3 : l ≠ .s3 := fun heq => absurd (heq ▸ hl) (by decide)
  cases sub with
  | act =>
    rw [waitLine_act, yields_next]
    refine scanKept_of_probing rfl hs1 hs3 (h.congr rfl (fun _ => ProbedTo.entered) rfl rfl rfl)
  | poll =>
    have hended (ok : Bool) {w : State}
        (hw : w = { emit (Script.waitEvent ok c) u with wok := ok, seq := .at op l .test k a }) : scanKept before w := by
      subst hw
      refine scanKept_of_probing rfl hs1 hs3 (h.event (seqEvents_emit u (Script.isSeqEvent_waitEvent ok c))
        (fun es hes => hes.polled ok hc) rfl (fun hm heq => ?_) rfl rfl)
      cases ok with
      | true =>
        have hcond : c = .addrWAck := Event.waitOk.inj heq
        rw [hc.mp hcond] at hm
        exact absurd hm (by decide)
      | false => cases heq
    rw [waitLine_poll, yields_next]
    split
    · exact hended true rfl
    · split
      · exact hended false rfl
      · exact scanKept_of_probing hseq hs1 hs3 h
  | test =>
    rw [waitLine_test, yields_next]
    cases hok : u.wok with
    | true => exact hpass rfl hok
    | false => exact hfail rfl hok

/-- R104 P5: the stop of a probe, entered after the address was asked for, or before. -/
theorem Probing.stopping {acked : Bool} (h : Probing before a l sub u) (hmarked : marked l = false)
    (hprobe : ∀ es, ProbedTo a l sub u.wok es → ProbedTo a .p5 .act w.wok es)
    (hacked : ∀ es, ProbedTo a l sub u.wok es → (.waitOk .addrWAck ∈ es ↔ acked = true)) (hevents : seqEvents w = seqEvents u)
    (hpresent : w.present = if acked then markPresent u.present a else u.present)
    (hfound : w.found = if acked then u.found + 1 else u.found) : Probing before a .p5 .act w := by
  obtain ⟨hlow, hhigh, probe, done, present, found, es, hscanned, hes, hall, hbits, hnumber⟩ := h
  rw [hmarked, if_neg fun hm => nomatch hm.left] at hbits hnumber
  have hmem : (marked .p5 = true ∧ .waitOk .addrWAck ∈ es) ↔ acked = true := by
    rw [← hacked es hes]
    exact and_iff_right rfl
  refine ⟨hlow, hhigh, probe, done, present, found, es, hscanned, hprobe es hes, hevents.trans hall, ?_, ?_⟩
  · rw [hpresent, hbits, if_congr hmem rfl rfl]
  · rw [hfound, hnumber, if_congr hmem rfl rfl]

/-- R104 P7: the probe is done, and the next one starts or the scan ends. -/
theorem Probing.paced (h : Probing before a .p7 .act u) (hevents : seqEvents w = seqEvents u ++ [.delayMs Config.tPace])
    (hpresent : w.present = u.present) (hfound : w.found = u.found) : scanKept before (nextProbe a w) := by
  obtain ⟨hlow, hhigh, probe, done, present, found, es, hscanned, hes, hall, hbits, hnumber⟩ := h
  have hnext := hscanned.next hlow hhigh hes.paced
  have hmem : (marked .p7 = true ∧ .waitOk .addrWAck ∈ es) ↔ .waitOk .addrWAck ∈ es ++ [.delayMs Config.tPace] := by
    simp [marked]
  rw [if_congr hmem rfl rfl, ← hpresent] at hbits
  rw [if_congr hmem rfl rfl, ← hfound] at hnumber
  rw [← hbits, ← hnumber] at hnext
  rw [hall, List.append_assoc, List.append_assoc] at hevents
  unfold nextProbe
  by_cases hmore : a + 1 < Config.scanHi
  · rw [if_pos hmore, if_pos hmore]
    refine scanKept_of_probing (l := .p1) (sub := .act) (a := a + 1) rfl (by decide) (by decide) ⟨by omega, hmore, ?_⟩
    refine ⟨_, _, w.present, w.found, [], hnext, ProbedTo.nil _ _, ?_, rfl, rfl⟩
    rw [List.append_nil]
    exact hevents
  · rw [if_neg hmore, if_neg hmore]
    have hlast : a + 1 = 127 := Nat.le_antisymm hhigh (Nat.le_of_not_lt hmore)
    rw [hlast] at hnext
    exact ⟨_, _, hnext, hevents⟩

/-- R104: the next line of the probe. -/
theorem Probing.kept {k : Nat} (h : Probing before a l sub u) (hs1 : l' ≠ .s1) (hs3 : l' ≠ .s3)
    (hmarked : marked l' = marked l) (hprobe : ∀ es, ProbedTo a l sub u.wok es → ProbedTo a l' .act u.wok es) :
    scanKept before (moveTo 0xD l' k a u) :=
  scanKept_of_probing (sub := .act) rfl hs1 hs3 (h.congr rfl hprobe hmarked rfl rfl)

/-- R104 P1, P3: a wait before the address byte timed out, and the probe goes on to its stop. -/
theorem Probing.gaveUp {k : Nat} (h : Probing before a l sub u) (hl : l ∈ [.p1, .p3]) :
    scanKept before (moveTo 0xD .p5 k a u) := by
  simp only [List.mem_cons, List.not_mem_nil, or_false] at hl
  rcases hl with rfl | rfl <;>
  exact scanKept_of_probing (sub := .act) rfl (by decide) (by decide) (Probing.stopping (acked := false) h rfl
    (fun es hes => hes.moved (by decide)) (fun es hes => iff_of_false (hes.unasked (by decide)) (by decide)) rfl rfl rfl)

/-- R104 P2, P4, P5: a line that appends an event which is no wait's. -/
theorem Probing.acted {k : Nat} {e : Event} (h : Probing before a l .act u)
    (hl : (l, e, l') ∈ [(.p2, .start, .p3), (.p4, .tx (addrByte (BitVec.ofNat Config.saBits a) false), .p4a),
      (.p5, .stop, .p6)])
    (hevents : w.trace = u.trace ++ [e]) (hpresent : w.present = u.present)
    (hfound : w.found = u.found) : scanKept before (moveTo 0xD l' k a w) := by
  have hsame (he : isSeqEvent e = true) : seqEvents (moveTo 0xD l' k a w) = seqEvents u ++ [e] := by
    simp [seqEvents, hevents, he]
  have hprobe (es : List Event) (hes : ProbedTo a l .act u.wok es) : ProbedTo a l' .act w.wok (es ++ [e]) := hes.acted hl
  simp only [List.mem_cons, Prod.mk.injEq, List.not_mem_nil, or_false] at hl
  rcases hl with ⟨rfl, rfl, rfl⟩ | ⟨rfl, rfl, rfl⟩ | ⟨rfl, rfl, rfl⟩ <;>
  exact scanKept_of_probing (sub := .act) rfl (by decide) (by decide)
    (h.event (hsame rfl) hprobe rfl (fun _ => by simp) hpresent hfound)

end Scan

/-- SCAN's numbered steps keep what holds during its run. -/
theorem execScan_kept {before : List Event} {u : State} (hrun : u.seq ≠ .idle) (h : scanKept before u) :
    Yields (scanKept before) (execScan u) := by
  match hseq : u.seq with
  | .idle => contradiction
  | .at op l sub k a =>
  refine yields_atPosition_at hseq fun hseq => ?_
  unfold scanKept at h
  rw [hseq] at h
  split
  · refine yields_next.mpr (scanKept_of_probing (l := .p1) (sub := .act) (a := 1) rfl (by decide) (by decide) ?_)
    refine ⟨Nat.le_refl 1, by decide, fun _ => [], [], 0, 0, [], .start _, .nil _ _, ?_, rfl, rfl⟩
    rw [List.append_nil, List.append_nil]
    exact h
  · unfold waitLineIf
    split
    · next hoff =>
      obtain ⟨-, rfl⟩ := hoff
      exact yields_next.mpr (Probing.kept h (l' := .p2) (by decide) (by decide) rfl fun es hes => hes.moved (by decide))
    · refine yields_probeWait hseq (by decide) (by decide) h (fun htest _ => ?_) fun htest _ => ?_
      · exact Probing.kept h (by decide) (by decide) rfl fun es hes => hes.moved (by decide)
      · exact Probing.gaveUp h (by decide)
  · exact yields_next.mpr (Probing.acted h (by simp) rfl rfl rfl)
  · refine yields_probeWait hseq (by decide) (by decide) h (fun htest _ => ?_) fun htest _ => ?_
    · exact Probing.kept h (by decide) (by decide) rfl fun es hes => hes.moved (by decide)
    · exact Probing.gaveUp h (by decide)
  · exact yields_next.mpr (Probing.acted h (by simp) rfl rfl rfl)
  · refine yields_probeWait hseq (by decide) (by decide) h (fun htest hok => ?_) fun htest hok => ?_
    · refine scanKept_of_probing rfl (by decide) (by decide) (Probing.stopping (acked := true) h rfl
        (fun es hes => hes.moved (by decide)) (fun es hes => ?_) rfl rfl rfl)
      exact (hes.asked rfl).trans (iff_of_true ⟨htest, hok⟩ rfl)
    · refine scanKept_of_probing rfl (by decide) (by decide) (Probing.stopping (acked := false) h rfl
        (fun es hes => hes.moved (by decide)) (fun es hes => ?_) rfl rfl rfl)
      exact (hes.asked rfl).trans (iff_of_false (fun hin => by simp [hok] at hin) (by decide))
  · exact yields_next.mpr (Probing.acted h (by simp) rfl rfl rfl)
  · unfold waitLineIf
    split
    · next hoff =>
      exact yields_next.mpr (Probing.kept h (by decide) (by decide) rfl fun es hes => hes.moved (by decide))
    · refine yields_probeWait hseq (by decide) (by decide) h (fun htest _ => ?_) fun htest _ => ?_ <;>
      exact Probing.kept h (by decide) (by decide) rfl fun es hes => hes.moved (by decide)
  · exact yields_next.mpr (Probing.paced h (seqEvents_emit _ rfl) rfl rfl)
  · obtain ⟨probe, done, hscanned, hevents⟩ := h
    exact yields_next.mpr ⟨statusWord_ok, rfl, probe, done, u.found, hscanned, hevents, rfl⟩
  · exact yields_fault ..

theorem scanKept_of_interrupted {before : List Event} {u w : State} (h : Interrupted u w) (hrun : u.seq ≠ .idle)
    (hu : scanKept before u) : scanKept before w := by
  have hwok : w.wok = u.wok := by rw [h.frame]
  have hpresent : w.present = u.present := by rw [h.frame]
  have hfound : w.found = u.found := by rw [h.frame]
  unfold scanKept at hu ⊢
  rw [h.seq]
  split at hu
  · exact h.events.trans hu
  · obtain ⟨probe, done, hscanned, hevents⟩ := hu
    exact ⟨probe, done, hpresent.symm ▸ hfound.symm ▸ hscanned, h.events.trans hevents⟩
  · exact hu.congr h.events (fun es hes => hwok.symm ▸ hes) rfl hpresent hfound
  · contradiction

/-- Settles O45: when SCAN finishes, the probes of all addresses are done. -/
theorem completedScanProbedEveryAddress : Obligations.CompletedScanProbedEveryAddress := by
  intro n s t hissued h
  have ⟨hseq, _, _⟩ := hissued
  have hstart : scanKept (seqEvents s) s := by
    unfold scanKept
    rw [hseq]
  obtain ⟨hkept, hidle, hout⟩ := issued_invariant hissued (fun _ _ hother hrun => scanKept_of_interrupted hother hrun)
    (fun _ hu hrun _ => execScan_kept hrun hu) hstart h
  unfold scanKept at hkept
  rw [hidle] at hkept
  obtain ⟨hstatus, hphase, probe, done, found, hscanned, hevents, hcount⟩ := hkept
  refine ⟨probe, hscanned.events ▸ hevents, fun a hlow hhigh => ?_, hscanned.present, ?_, hstatus, hphase,
    eq_of_outside hout State.value fun _ => rfl, eq_of_outside hout State.ackEn fun _ => rfl,
    eq_of_outside hout State.dir fun _ => rfl, eq_of_outside hout State.hm fun _ => rfl⟩
  · have hprobed := hscanned.probes a hlow hhigh
    exact ⟨hprobed.stops, hprobed.delays, hprobed.sent, hprobed.received⟩
  · rw [hcount, ← hscanned.found]
    exact (BitVec.ofNat_toNat 32 found).symm

end Sys2Proof.Machine
end

section
/-! RECV with DRAIN_ATOMIC under every interleaving (R84, R85, R114). -/

namespace Sys2Proof.Machine

/-- R84 S3: HM is `m` with the first `n` bytes of the receive buffer copied to `ptr` on. -/
structure Copied (m : Memory) (ptr : Half) (buf : Vector Byte Config.rxCap) (n : Nat) (m' : Memory) : Prop where
  wf : Memory.wf m' = true
  inside : ∀ k, k < n → some (memRead m' (ptr.toNat + k)) = buf[k]?
  outside : ∀ y, (y < ptr.toNat ∨ ptr.toNat + n ≤ y) → memRead m' y = memRead m y

theorem Copied.zero {m : Memory} {ptr : Half} {buf : Vector Byte Config.rxCap} (hm : Memory.wf m = true) :
    Copied m ptr buf 0 m where
  wf := hm
  inside _ hk := absurd hk (Nat.not_lt_zero _)
  outside _ _ := rfl

/-- R84 S3: one more byte is copied. -/
theorem Copied.succ {m m' : Memory} {ptr : Half} {buf : Vector Byte Config.rxCap} {n : Nat} {v : Byte}
    (h : Copied m ptr buf n m') (hv : buf[n]? = some v) (ha : bufferAddress ptr n < Config.hmSize) :
    Copied m ptr buf (n + 1) (memWrite m' (bufferAddress ptr n) v) where
  wf := memWrite_wf ha h.wf
  inside k hk := by
    rw [memRead_memWrite h.wf]
    unfold bufferAddress
    rcases Nat.lt_succ_iff_lt_or_eq.mp hk with hlt | rfl
    · rw [if_neg (by omega)]
      exact h.inside k hlt
    · rw [if_pos rfl, hv]
  outside y hy := by
    rw [memRead_memWrite h.wf, if_neg (by unfold bufferAddress; omega)]
    exact h.outside y (by omega)

/-- R84: how many bytes are copied at a line with the loop index `k`, of `n` in all. -/
def copiedAt (n : Nat) (l : Line) (k : Nat) : Nat :=
  if l ∈ [.s1, .s2] then 0 else if l = .s3 then k else n

/-- What holds at a line of RECV when no byte is appended during it: `s` is the state at issue, and `n` the number to be
copied. -/
structure Draining (s : State) (ptr : Half) (n : Nat) (l : Line) (k : Nat) (u : State) : Prop where
  atomic : u.cfg.drainAtomic = true
  buffer : u.rxBuf = s.rxBuf
  events : seqEvents u = seqEvents s
  ready : l ≠ .s1 → s.rxReady = true
  unread : l = .s1 → u.hm = s.hm
  held : l ∈ [.s1, .s2, .s3, .s4] → u.rxCount = s.rxCount ∧ u.rxReady = s.rxReady
  latched : l = .s3 → u.c0 = s.rxCount
  index : l = .s3 → k ≤ n
  copied : Copied s.hm ptr s.rxBuf (copiedAt n l k) u.hm
  number : l ∉ [.s1, .s2] → u.nc = BitVec.ofNat 16 (copiedAt n l k)
  first : l = .s5 → if u.rorder then u.rxReady = false else u.rxCount = 0
  both : l = .s6 → u.rxCount = 0 ∧ u.rxReady = false

/-- R84: the one outcome. -/
structure Drained (s : State) (ptr : Half) (n : Nat) (u : State) : Prop where
  status : u.status = 0x01
  buffer : u.rxBuf = s.rxBuf
  events : seqEvents u = seqEvents s
  emptied : s.rxReady = true →
    u.rxCount = 0 ∧ u.rxReady = false ∧ u.count = BitVec.ofNat 32 n ∧ Copied s.hm ptr s.rxBuf n u.hm
  nothing : s.rxReady = false → u.rxCount = s.rxCount ∧ u.rxReady = false ∧ u.count = 0 ∧ u.hm = s.hm

/-- What holds during such a run of RECV. -/
def drainKept (s : State) (ptr : Half) (n : Nat) (u : State) : Prop :=
  match u.seq with
  | .idle => Drained s ptr n u
  | .at op l _ k _ => op = 0x5 ∧ Draining s ptr n l k u

theorem drainKept_of_interrupted {s u w : State} {ptr : Half} {n : Nat} (h : Interrupted u w) (hrun : u.seq ≠ .idle)
    (hu : drainKept s ptr n u) : drainKept s ptr n w := by
  unfold drainKept at hu ⊢
  rw [h.seq]
  match hseq : u.seq with
  | .idle => contradiction
  | .at op l sub k a =>
    rw [hseq] at hu
    obtain ⟨rfl, hdrain⟩ := hu
    obtain ⟨hbuf, hcount, hready⟩ := h.drain hdrain.atomic (by rw [hseq]; rfl)
    have hcfg : w.cfg = u.cfg := by rw [h.frame]
    have hhm : w.hm = u.hm := by rw [h.frame]
    have hc0 : w.c0 = u.c0 := by rw [h.frame]
    have hnc : w.nc = u.nc := by rw [h.frame]
    have horder : w.rorder = u.rorder := by rw [h.frame]
    exact ⟨rfl, hcfg ▸ hdrain.atomic, hbuf.trans hdrain.buffer, h.events.trans hdrain.events, hdrain.ready,
      hhm ▸ hdrain.unread, hcount ▸ hready ▸ hdrain.held, hc0 ▸ hdrain.latched, hdrain.index, hhm ▸ hdrain.copied,
      hnc ▸ hdrain.number, hcount ▸ hready ▸ horder ▸ hdrain.first, hcount ▸ hready ▸ hdrain.both⟩

/-- R84 S6: COUNT is the number of bytes copied. -/
theorem countOfCopied_ofNat {n : Nat} (hn : n ≤ 256) : countOfCopied (BitVec.ofNat 16 n) = BitVec.ofNat 32 n := by
  apply BitVec.eq_of_toNat_eq
  simp [countOfCopied]
  omega

/-- RECV's numbered steps keep what holds when no byte is appended. -/
theorem execRecv_kept {s u : State} {ptr len : Half} {n : Nat} (hn : n = min len.toNat s.rxCount.toNat)
    (hcap : s.rxCount.toNat ≤ 256) (hrun : u.seq ≠ .idle) (h : drainKept s ptr n u) :
    Yields (drainKept s ptr n) (execRecv ptr len u) := by
  match hseq : u.seq with
  | .idle => contradiction
  | .at op l sub k a =>
  refine yields_atPosition_at hseq fun hseq => ?_
  unfold drainKept at h
  rw [hseq] at h
  obtain ⟨-, hatomic, hbuf, hevents, hready, hunread, hheld, hlatched, hindex, hcopied, hnumber, hfirst, hboth⟩ := h
  split
  · obtain ⟨hcount, hflag⟩ := hheld (by decide)
    split
    · next hset =>
      exact yields_next.mpr ⟨rfl, hatomic, hbuf, hevents, fun _ => hflag ▸ hset, nofun, fun _ => ⟨hcount, hflag⟩, nofun, nofun,
        hcopied, fun hl => absurd hl (by decide), nofun, nofun⟩
    · next hclear =>
      have hclear : u.rxReady = false := Bool.eq_false_iff.mpr hclear
      exact yields_next.mpr ⟨statusWord_ok, hbuf, hevents, fun hset => absurd (hset.symm.trans (hflag.symm.trans hclear)) (by decide),
        fun _ => ⟨hcount, hclear, rfl, hunread rfl⟩⟩
  · obtain ⟨hcount, hflag⟩ := hheld (by decide)
    exact yields_next.mpr ⟨rfl, hatomic, hbuf, hevents, fun _ => hready nofun, nofun, fun _ => ⟨hcount, hflag⟩,
      fun _ => hcount, fun _ => Nat.zero_le n, hcopied, fun _ => rfl, nofun, nofun⟩
  · obtain ⟨hcount, hflag⟩ := hheld (by decide)
    have hbound : copyBound len u = n := by
      rw [copyBound_eq, hcount, hlatched rfl, ite_self, hn]
    rw [hbound]
    split
    · next hend =>
      have hk : k = n := Nat.le_antisymm (hindex rfl) hend
      exact yields_next.mpr ⟨rfl, hatomic, hbuf, hevents, fun _ => hready nofun, nofun, fun _ => ⟨hcount, hflag⟩, nofun, nofun,
        hk ▸ hcopied, fun _ => hk ▸ hnumber (by decide), nofun, nofun⟩
    · next hmore =>
      unfold copyByte
      split
      · next v hv =>
        split
        · next w hw =>
          obtain ⟨ha, rfl⟩ := hmStore_some hw
          exact yields_next.mpr ⟨rfl, hatomic, hbuf, hevents, fun _ => hready nofun, nofun, fun _ => ⟨hcount, hflag⟩,
            fun _ => hlatched rfl, fun _ => Nat.lt_of_not_le hmore, Copied.succ hcopied (hbuf ▸ hv) ha, fun _ => rfl,
            nofun, nofun⟩
        · exact yields_fault ..
      · exact yields_fault ..
  · refine yields_next.mpr ⟨rfl, hatomic, hbuf, hevents, fun _ => hready nofun, nofun, fun hl => absurd hl (by decide),
      nofun, nofun, hcopied, fun _ => hnumber (by decide), fun _ => ?_, nofun⟩
    show if u.rorder then (firstReset u.rorder u).rxReady = false else (firstReset u.rorder u).rxCount = 0
    cases u.rorder <;> rfl
  · refine yields_next.mpr ⟨rfl, hatomic, hbuf, hevents, fun _ => hready nofun, nofun, fun hl => absurd hl (by decide),
      nofun, nofun, hcopied, fun _ => hnumber (by decide), nofun, fun _ => ?_⟩
    have hone := hfirst rfl
    show (secondReset u.rorder u).rxCount = 0 ∧ (secondReset u.rorder u).rxReady = false
    cases horder : u.rorder with
    | false => exact ⟨by simpa [horder] using hone, rfl⟩
    | true => exact ⟨rfl, by simpa [horder] using hone⟩
  · obtain ⟨hcount, hflag⟩ := hboth rfl
    have hnc : u.nc = BitVec.ofNat 16 n := hnumber (by decide)
    refine yields_next.mpr ⟨statusWord_ok, hbuf, hevents, fun _ => ⟨hcount, hflag, ?_, hcopied⟩, fun hclear => ?_⟩
    · show countOfCopied u.nc = _
      rw [hnc, countOfCopied_ofNat (by omega)]
    · exact absurd ((hready nofun).symm.trans hclear) (by decide)
  · exact yields_fault ..

/-- Settles O40: with DRAIN_ATOMIC no append comes between RECV's steps, so it has one outcome. -/
theorem completedAtomicRecvHasOneOutcome : Obligations.CompletedAtomicRecvHasOneOutcome := by
  intro ptr len n s t hissued hatomic hwf hcap h
  have ⟨hseq, _, _⟩ := hissued
  have hstart : drainKept s ptr (min len.toNat s.rxCount.toNat) s := by
    unfold drainKept
    rw [hseq]
    exact ⟨rfl, hatomic, rfl, rfl, fun hl => absurd rfl hl, fun _ => rfl, fun _ => ⟨rfl, rfl⟩, nofun, nofun, .zero hwf,
      fun hl => absurd hl (by decide), nofun, nofun⟩
  obtain ⟨hkept, hidle, -⟩ := issued_invariant hissued (fun _ _ hother hrun => drainKept_of_interrupted hother hrun)
    (fun _ hu hrun _ => execRecv_kept rfl hcap hrun hu) hstart h
  unfold drainKept at hkept
  rw [hidle] at hkept
  refine ⟨hkept.status, hkept.buffer, hkept.events, fun hset => ?_, hkept.nothing⟩
  obtain ⟨hcount, hflag, hnumber, hcopied⟩ := hkept.emptied hset
  exact ⟨hcount, hflag, hnumber, hcopied.inside, hcopied.outside⟩

end Sys2Proof.Machine
end

section
/-! The invariant (R19, R21, R25, R26, R29 to R32, R34, R83), the arrows of R98, and that no state of the invariant faults:
every numbered step taken from a state of the invariant leads to one. -/

namespace Sys2Proof.Machine

/-! ### The invariant in parts -/

/-- What `dataInv` says, part by part. -/
structure DataInv (s : State) : Prop where
  wf : Memory.wf s.hm = true
  rxCount : s.rxCount.toNat ≤ Config.rxCap
  pin : s.dirPin = dirLevel s.cfg s.dir
  status : s.status ∈ [0x00#32, 0x01#32, 0x02#32, 0x04#32]
  value : s.value.toNat < 2 ^ 8
  count : s.count.toNat < 2 ^ 16
  lowest : s.present.getLsbD 0 = false
  highest : s.present.getLsbD 127 = false
  cfg : s.cfg.wf = true

theorem dataInv_iff (s : State) : dataInv s = true ↔ DataInv s := by
  simp only [dataInv, Bool.and_eq_true, decide_eq_true_eq, Bool.not_eq_true']
  constructor
  · rintro ⟨⟨⟨⟨⟨⟨⟨⟨h1, h2⟩, h3⟩, h4⟩, h5⟩, h6⟩, h7⟩, h8⟩, h9⟩
    exact ⟨h1, h2, h3, h4, h5, h6, h7, h8, h9⟩
  · rintro ⟨h1, h2, h3, h4, h5, h6, h7, h8, h9⟩
    exact ⟨⟨⟨⟨⟨⟨⟨⟨h1, h2⟩, h3⟩, h4⟩, h5⟩, h6⟩, h7⟩, h8⟩, h9⟩

/-- What `seqInv` says of a position of the running command `c`. -/
structure Positioned (c : Instr) (s : State) (l : Line) (sub : Sub) (k a : Nat) : Prop where
  numbered : numbered c l sub = true
  index : indexAt c s.hm l k a = true
  phase : phaseAt c l k s.phase = true
  ack : ackAt c l k s.ackEn = true
  dir : dirAt c l s.dir = true
  latched : c.opcode = 0x5 ∧ l = .s3 → s.c0.toNat ≤ Config.rxCap

theorem seqInv_running {s : State} {op : BitVec 4} {l : Line} {sub : Sub} {k a : Nat} (hseq : s.seq = .at op l sub k a) :
    seqInv s = true ↔ ∃ c, decode s.cmd = .ok c ∧ op = c.opcode ∧ legal c s.hm = true ∧ Positioned c s l sub k a := by
  unfold seqInv
  simp only [hseq]
  cases hdec : decode s.cmd with
  | error e => simp
  | ok c =>
    simp only [Bool.and_eq_true, decide_eq_true_eq, Bool.or_eq_true, Bool.not_eq_true', decide_eq_false_iff_not]
    constructor
    · rintro ⟨⟨⟨⟨⟨⟨⟨rfl, hlegal⟩, hnumbered⟩, hindex⟩, hphase⟩, hack⟩, hdir⟩, hlatched⟩
      exact ⟨c, rfl, rfl, hlegal, hnumbered, hindex, hphase, hack, hdir, fun hrecv =>
        hlatched.resolve_left fun hno => hno hrecv⟩
    · rintro ⟨_, ⟨⟩, rfl, hlegal, hnumbered, hindex, hphase, hack, hdir, hlatched⟩
      exact ⟨⟨⟨⟨⟨⟨⟨rfl, hlegal⟩, hnumbered⟩, hindex⟩, hphase⟩, hack⟩, hdir⟩,
        or_iff_not_imp_left.mpr fun hrecv => hlatched (not_not.mp hrecv)⟩

/-- R98: the arrows of the phase table. -/
def arrows : List (Phase × Phase) :=
  [(.idle, .startAsserted), (.startAsserted, .addressSentForWrite), (.addressSentForWrite, .registerAddressSent),
    (.registerAddressSent, .dataSent), (.dataSent, .stopAsserted), (.registerAddressSent, .stopAsserted),
    (.stopAsserted, .idle), (.registerAddressSent, .startAsserted), (.startAsserted, .addressSentForRead),
    (.addressSentForRead, .receiving), (.receiving, .idle)]

/-- R98, R26: a step outside SCAN leaves `phase`, moves it along an arrow, or ends in an abort. -/
def FollowsArrows (c : Instr) (s t : State) : Prop :=
  t.phase = s.phase ∨ (s.phase, t.phase) ∈ arrows ∨ (t.phase = .idle ∧ t.seq = .idle ∧ t.status = 0x02) ∨ c = .scan

/-- What a numbered step of the command `c` does to a state of the invariant. -/
structure Advances (c : Instr) (s t : State) : Prop where
  data : dataInv t = true
  position : match t.seq with
    | .idle => t.ackEn = true ∧ t.phase = .idle
    | .at op l sub k a => op = c.opcode ∧ Positioned c t l sub k a
  arrow : FollowsArrows c s t

/-- The result is a next state, and that state satisfies `P`. -/
def Proceeds (P : State → Prop) (r : Result) : Prop := ∃ t, r = .next t ∧ P t

theorem proceeds_next {P : State → Prop} {t : State} (h : P t) : Proceeds P (.next t) := ⟨t, rfl, h⟩

section Rules
variable {c : Instr} {s : State} {l : Line} {sub : Sub} {k a : Nat}

/-- A wait (R92) whose two ways on keep the invariant. -/
theorem proceeds_waitLine {cond : Cond} {budget : Nat} {passed failed : State → State} (hdata : dataInv s = true)
    (hseq : s.seq = .at c.opcode l sub k a) (hpos : Positioned c s l sub k a) (hwaits : waitsAt c l = true)
    (hpass : Advances c s (passed s)) (hfail : Advances c s (failed s)) :
    Proceeds (Advances c s) (waitLine cond budget c.opcode l sub k a passed failed s) := by
  obtain ⟨-, hindex, hphase, hack, hdir, hlatched⟩ := hpos
  have hnum (sub : Sub) : numbered c l sub = true := by simp [numbered, hwaits]
  cases sub with
  | act =>
    rw [waitLine_act]
    exact proceeds_next ⟨hdata, ⟨rfl, hnum _, hindex, hphase, hack, hdir, hlatched⟩, .inl rfl⟩
  | poll =>
    rw [waitLine_poll]
    refine proceeds_next ?_
    split
    · exact ⟨hdata, ⟨rfl, hnum _, hindex, hphase, hack, hdir, hlatched⟩, .inl rfl⟩
    · split
      · exact ⟨hdata, ⟨rfl, hnum _, hindex, hphase, hack, hdir, hlatched⟩, .inl rfl⟩
      · refine ⟨hdata, ?_, .inl rfl⟩
        rw [hseq]
        exact ⟨rfl, hnum _, hindex, hphase, hack, hdir, hlatched⟩
  | test =>
    rw [waitLine_test]
    refine proceeds_next ?_
    split
    · exact hpass
    · exact hfail

/-- A wait that a parameter selects. -/
theorem proceeds_waitLineIf {enabled : Bool} {cond : Cond} {budget : Nat} {passed failed : State → State}
    (hdata : dataInv s = true) (hseq : s.seq = .at c.opcode l sub k a) (hpos : Positioned c s l sub k a)
    (hwaits : waitsAt c l = true) (hpass : Advances c s (passed s)) (hfail : Advances c s (failed s)) :
    Proceeds (Advances c s) (waitLineIf enabled cond budget c.opcode l sub k a passed failed s) := by
  unfold waitLineIf
  split
  · exact proceeds_next hpass
  · exact proceeds_waitLine hdata hseq hpos hwaits hpass hfail

/-- A step to another line, which keeps what the invariant reads of the registers, the buffer and HM. -/
theorem Advances.moveTo {l' : Line} {k' a' : Nat} {w : State} (hdata : dataInv w = true)
    (hnumbered : actsAt c l' = true ∨ waitsAt c l' = true) (hindex : indexAt c w.hm l' k' a' = true)
    (hphase : phaseAt c l' k' w.phase = true) (hack : ackAt c l' k' w.ackEn = true) (hdir : dirAt c l' w.dir = true)
    (hlatched : c.opcode = 0x5 ∧ l' = .s3 → w.c0.toNat ≤ Config.rxCap)
    (harrow : w.phase = s.phase ∨ (s.phase, w.phase) ∈ arrows ∨ c = .scan) :
    Advances c s (moveTo c.opcode l' k' a' w) := by
  refine ⟨hdata, ⟨rfl, ?_, hindex, hphase, hack, hdir, hlatched⟩, harrow.imp_right (Or.imp_right .inr)⟩
  rcases hnumbered with hacts | hwaits
  · simp [numbered, hacts]
  · simp [numbered, hwaits]

/-- A `finish`. -/
theorem Advances.finish {w : State} (hdata : dataInv w = true) (hseq : w.seq = .idle) (hack : w.ackEn = true)
    (hphase : w.phase = .idle)
    (harrow : w.phase = s.phase ∨ (s.phase, w.phase) ∈ arrows ∨ w.status = 0x02 ∨ c = .scan) : Advances c s w := by
  refine ⟨hdata, ?_, harrow.imp_right (Or.imp_right (Or.imp_left fun hstatus => ⟨hphase, hseq, hstatus⟩))⟩
  rw [hseq]
  exact ⟨hack, hphase⟩

/-- R29: STATUS after a `finish` is one of its values. -/
theorem dataInv_finish {ok : Bool} {cause : Cause} (hdata : dataInv s = true)
    (hstatus : statusWord ok cause ∈ [0x00#32, 0x01#32, 0x02#32, 0x04#32]) : dataInv (finish ok cause s) = true := by
  have h := (dataInv_iff s).mp hdata
  exact (dataInv_iff _).mpr ⟨h.wf, h.rxCount, h.pin, hstatus, h.value, h.count, h.lowest, h.highest, h.cfg⟩

end Rules

/-! ### The transactions' shared lines -/

/-- The abort's lines. -/
def abortPart : List Line := [.a1, .a2, .a3]

/-- What the invariant says of a transaction at the lines of its address part and of its abort. -/
structure Transacts (c : Instr) (read : Bool) : Prop where
  waits : ∀ l ∈ [Line.s1, .s3, .s5, .s7], waitsAt c l = true
  acts : ∀ l ∈ [Line.s2, .s4, .s6, .a1, .a2, .a3], waitsAt c l = false ∧ actsAt c l = true
  index : ∀ l ∈ addressPart, ∀ l' ∈ addressPart, ∀ m k a, indexAt c m l k a = indexAt c m l' k a
  indexAbort : ∀ l, ∀ l' ∈ abortPart, ∀ m k a, indexAt c m l k a = true → indexAt c m l' k a = true
  phase : ∀ l ∈ addressPart, ∀ k p, phaseAt c l k p = true ↔ some p = addressPhaseAt l
  phaseAbort : ∀ l ∈ abortPart, ∀ k p, phaseAt c l k p = true
  ack : ∀ l ∈ .a3 :: addressPart, ∀ k on, ackAt c l k on = on
  ackAbort : ∀ l, ∀ l' ∈ [Line.a1, .a2], ∀ k on, ackAt c l k on = true → ackAt c l' k on = true
  ackUnread : read = false → ∀ k on, ackAt c .a2 k on = on
  dir : ∀ l d, dirAt c l d = true
  opcode : c.opcode ∈ [0x9#4, 0xA#4, 0xB#4, 0xC#4]

theorem transacts_wrb (sa : SlaveAddr) (ra : RegAddr) (v : Byte) : Transacts (.wrb sa ra v) false where
  waits := by simp [waitsAt]
  acts := by simp [waitsAt, actsAt]
  index _ _ _ _ _ _ _ := rfl
  indexAbort _ _ _ _ _ _ := id
  phase := by simp [addressPart, phaseAt, addressPhaseAt]
  phaseAbort := by simp [abortPart, phaseAt, addressPhaseAt]
  ack _ _ _ _ := rfl
  ackAbort _ _ _ _ _ := id
  ackUnread _ _ _ := rfl
  dir _ _ := rfl
  opcode := (by decide : 0x9#4 ∈ [0x9#4, 0xA#4, 0xB#4, 0xC#4])

theorem transacts_rdb (sa : SlaveAddr) (ra : RegAddr) : Transacts (.rdb sa ra) true where
  waits := by simp [waitsAt]
  acts := by simp [waitsAt, actsAt]
  index _ _ _ _ _ _ _ := rfl
  indexAbort _ _ _ _ _ _ := id
  phase := by simp [addressPart, phaseAt, addressPhaseAt]
  phaseAbort := by simp [abortPart, phaseAt, addressPhaseAt, readPhaseAt]
  ack := by simp [addressPart, ackAt]
  ackAbort := by simp [ackAt]
  ackUnread := nofun
  dir _ _ := rfl
  opcode := (by decide : 0xA#4 ∈ [0x9#4, 0xA#4, 0xB#4, 0xC#4])

/-- R34: a loop's index is one outside the loop too. -/
theorem loopIndexAt_outside {inLoop : Bool} {n k : Nat} (h : loopIndexAt inLoop n k = true) :
    loopIndexAt false n k = true := by
  simp only [loopIndexAt, Bool.or_eq_true, decide_eq_true_eq, Bool.and_eq_true, Bool.not_false, true_and] at h ⊢
  exact h.imp_right And.right

theorem transacts_wrbuf (sa : SlaveAddr) (ra : RegAddr) (ptr len : Half) : Transacts (.wrbuf sa ra ptr len) false where
  waits := by simp [waitsAt]
  acts := by simp [waitsAt, actsAt]
  index := by simp [addressPart, indexAt]
  indexAbort l l' hl' m k a h := by
    have hout : l' ∉ [Line.s8a, .s8b] := fun hin => by revert l'; decide
    simp only [indexAt, Bool.and_eq_true] at h ⊢
    rw [decide_eq_false hout]
    exact h.imp_right loopIndexAt_outside
  phase := by simp [addressPart, phaseAt, addressPhaseAt]
  phaseAbort := by simp [abortPart, phaseAt, addressPhaseAt]
  ack _ _ _ _ := rfl
  ackAbort _ _ _ _ _ := id
  ackUnread _ _ _ := rfl
  dir _ _ := rfl
  opcode := (by decide : 0xB#4 ∈ [0x9#4, 0xA#4, 0xB#4, 0xC#4])

theorem transacts_rdbuf (sa : SlaveAddr) (ra : RegAddr) (ptr len : Half) : Transacts (.rdbuf sa ra ptr len) true where
  waits := by simp [waitsAt]
  acts := by simp [waitsAt, actsAt]
  index := by simp [addressPart, indexAt]
  indexAbort l l' hl' m k a h := by
    have hout : l' ∉ [Line.s13a, .s13b, .s13c, .s13d] := fun hin => by revert l'; decide
    simp only [indexAt, Bool.and_eq_true] at h ⊢
    rw [decide_eq_false hout]
    exact h.imp_right loopIndexAt_outside
  phase := by simp [addressPart, phaseAt, addressPhaseAt]
  phaseAbort := by simp [abortPart, phaseAt, addressPhaseAt, readPhaseAt]
  ack := by simp [addressPart, ackAt]
  ackAbort := by simp [ackAt]
  ackUnread := nofun
  dir _ _ := rfl
  opcode := (by decide : 0xC#4 ∈ [0x9#4, 0xA#4, 0xB#4, 0xC#4])

section Transactions
variable {c : Instr} {read : Bool} {s : State} {l : Line} {sub : Sub} {k a : Nat} (hc : Transacts c read)
include hc

theorem Transacts.not_recv {l : Line} {n : Nat} : c.opcode = 0x5 ∧ l = .s3 → s.c0.toNat ≤ n := fun hrecv => by
  have h := hc.opcode
  rw [hrecv.left] at h
  exact absurd h (by decide)

/-- R96: from any wait of a transaction to its abort. -/
theorem Transacts.abort (hdata : dataInv s = true) (hpos : Positioned c s l sub k a) :
    Advances c s (moveTo c.opcode .a1 k a s) :=
  .moveTo hdata (.inl (hc.acts .a1 (by decide)).right) (hc.indexAbort l .a1 (by decide) _ _ _ hpos.index)
    (hc.phaseAbort .a1 (by decide) _ _) (hc.ackAbort l .a1 (by decide) _ _ hpos.ack) (hc.dir _ _) hc.not_recv (.inl rfl)

/-- A wait of a transaction. -/
theorem Transacts.proceeds_wait {cond : Cond} {next : State → State} (hdata : dataInv s = true)
    (hseq : s.seq = .at c.opcode l sub k a) (hpos : Positioned c s l sub k a) (hwaits : waitsAt c l = true)
    (hpass : Advances c s (next s)) :
    Proceeds (Advances c s) (waitLine cond Config.tOp c.opcode l sub k a next (moveTo c.opcode .a1 k a) s) :=
  proceeds_waitLine hdata hseq hpos hwaits hpass (hc.abort hdata hpos)

/-- R96: the lines of the abort. -/
theorem Transacts.proceeds_abort (hdata : dataInv s = true) (hpos : Positioned c s l sub k a) (hl : l ∈ abortPart) :
    Proceeds (Advances c s) (abortLines c.opcode read l sub k a s) := by
  obtain ⟨hnumbered, hindex, -, hack, -, -⟩ := hpos
  have hsub : sub = .act := by
    have hmem : l ∈ [Line.s2, .s4, .s6] ++ abortPart := List.mem_append_right _ hl
    simpa [numbered, hc.acts l hmem] using hnumbered
  have hindex' {l' : Line} (hl' : l' ∈ abortPart) : indexAt c s.hm l' k a = true := hc.indexAbort l l' hl' _ _ _ hindex
  subst hsub
  simp only [abortPart, List.mem_cons, List.not_mem_nil, or_false] at hl
  rcases hl with rfl | rfl | rfl
  · refine proceeds_next (.moveTo ?_ (.inl (hc.acts .a2 (by decide)).right) ?_ (hc.phaseAbort .a2 (by decide) _ _) ?_
      (hc.dir _ _) hc.not_recv (.inl ?_))
    · split <;> exact hdata
    · split <;> exact hindex' (by decide)
    · split <;> exact hc.ackAbort .a1 .a2 (by decide) _ _ hack
    · split <;> rfl
  · refine proceeds_next (.moveTo ?_ (.inl (hc.acts .a3 (by decide)).right) ?_ (hc.phaseAbort .a3 (by decide) _ _) ?_
      (hc.dir _ _) hc.not_recv (.inl ?_))
    · split <;> exact hdata
    · split <;> exact hindex' (by decide)
    · rw [hc.ack .a3 (by decide)]
      cases read with
      | true => rfl
      | false => exact (hc.ackUnread rfl _ _).symm.trans hack
    · split <;> rfl
  · refine proceeds_next (.finish (dataInv_finish ?_ (by decide)) rfl ?_ rfl (.inr (.inr (.inl statusWord_timeout))))
    · split
      · have h := (dataInv_iff s).mp hdata
        exact (dataInv_iff _).mpr ⟨h.wf, h.rxCount, h.pin, h.status, valueOfByte_lt _, h.count, h.lowest, h.highest, h.cfg⟩
      · exact hdata
    · have hon : s.ackEn = true := (hc.ack .a3 (by decide) _ _).symm.trans hack
      show (State.ackEn (ite _ _ _)) = true
      split <;> exact hon

/-- R99, R100 S1 to S7: a line that acts and goes on to the next one. -/
theorem Transacts.advances_act {l l' : Line} {w : State} (hl : l ∈ addressPart) (hl' : l' ∈ addressPart)
    (hnumbered : actsAt c l' = true ∨ waitsAt c l' = true) (hpos : Positioned c s l sub k a) (hdata : dataInv w = true)
    (hhm : w.hm = s.hm) (hack : w.ackEn = s.ackEn) (hphase : addressPhaseAt l' = some w.phase)
    (harrow : ∃ p, addressPhaseAt l = some p ∧ (w.phase = p ∨ (p, w.phase) ∈ arrows)) :
    Advances c s (moveTo c.opcode l' k a w) := by
  have hold : some s.phase = addressPhaseAt l := (hc.phase l hl _ _).mp hpos.phase
  obtain ⟨p, hp, hstep⟩ := harrow
  obtain rfl : s.phase = p := Option.some.inj (hold.trans hp)
  refine .moveTo hdata hnumbered ?_ ((hc.phase l' hl' _ _).mpr hphase.symm) ?_ (hc.dir _ _) (fun hrecv => ?_)
    (hstep.imp_right .inl)
  · rw [hhm, hc.index l' hl' l hl]
    exact hpos.index
  · rw [hc.ack l' (List.mem_cons_of_mem _ hl'), hack]
    exact (hc.ack l (List.mem_cons_of_mem _ hl) k s.ackEn).symm.trans hpos.ack
  · exact absurd (hrecv.left ▸ hc.opcode) (by decide)

/-- R99, R100 S1 to S7. -/
theorem Transacts.proceeds_address {sa : SlaveAddr} {ra : RegAddr} {next : State → State} (hdata : dataInv s = true)
    (hseq : s.seq = .at c.opcode l sub k a) (hpos : Positioned c s l sub k a) (hl : l ∈ addressPart)
    (hnext : l = .s7 → s.phase = .registerAddressSent → Advances c s (next s)) :
    ∃ r, addressLines c.opcode sa ra next l sub k a s = some r ∧ Proceeds (Advances c s) r := by
  have hphase : addressPhaseAt l = some s.phase := ((hc.phase l hl _ _).mp hpos.phase).symm
  have hsub (hacts : l ∈ [Line.s2, .s4, .s6, .a1, .a2, .a3]) : sub = .act := by
    simpa [numbered, hc.acts l hacts] using hpos.numbered
  have hwaits {l : Line} (hl : l ∈ [Line.s1, .s3, .s5, .s7]) : waitsAt c l = true := hc.waits l hl
  have hacts {l : Line} (hl : l ∈ [Line.s2, .s4, .s6, .a1, .a2, .a3]) : actsAt c l = true := (hc.acts l hl).right
  have hsame : ∃ p, addressPhaseAt l = some p ∧ (s.phase = p ∨ (p, s.phase) ∈ arrows) := ⟨s.phase, hphase, .inl rfl⟩
  simp only [addressPart, List.mem_cons, List.not_mem_nil, or_false] at hl
  rcases hl with rfl | rfl | rfl | rfl | rfl | rfl | rfl
  · exact ⟨_, rfl, proceeds_waitLineIf hdata hseq hpos (hwaits (by decide))
      (hc.advances_act (l := .s1) (by decide) (by decide) (.inl (hacts (by decide))) hpos hdata rfl rfl hphase hsame)
      (hc.abort hdata hpos)⟩
  · obtain rfl := hsub (by decide)
    exact ⟨_, rfl, proceeds_next (hc.advances_act (l := .s2) (by decide) (by decide) (.inr (hwaits (by decide))) hpos hdata rfl
      rfl rfl ⟨.idle, rfl, .inr (by decide : (Phase.idle, Phase.startAsserted) ∈ arrows)⟩)⟩
  · exact ⟨_, rfl, hc.proceeds_wait hdata hseq hpos (hwaits (by decide))
      (hc.advances_act (l := .s3) (by decide) (by decide) (.inl (hacts (by decide))) hpos hdata rfl rfl hphase hsame)⟩
  · obtain rfl := hsub (by decide)
    exact ⟨_, rfl, proceeds_next (hc.advances_act (l := .s4) (by decide) (by decide) (.inr (hwaits (by decide))) hpos hdata rfl
      rfl rfl ⟨.startAsserted, rfl, .inr (by decide : (Phase.startAsserted, Phase.addressSentForWrite) ∈ arrows)⟩)⟩
  · exact ⟨_, rfl, hc.proceeds_wait hdata hseq hpos (hwaits (by decide))
      (hc.advances_act (l := .s5) (by decide) (by decide) (.inl (hacts (by decide))) hpos hdata rfl rfl hphase hsame)⟩
  · obtain rfl := hsub (by decide)
    exact ⟨_, rfl, proceeds_next (hc.advances_act (l := .s6) (by decide) (by decide) (.inr (hwaits (by decide))) hpos hdata rfl
      rfl rfl ⟨.addressSentForWrite, rfl, .inr (by decide : (Phase.addressSentForWrite, Phase.registerAddressSent) ∈ arrows)⟩)⟩
  · exact ⟨_, rfl, hc.proceeds_wait hdata hseq hpos (hwaits (by decide))
      (hnext rfl (Option.some.inj hphase).symm)⟩

end Transactions

end Sys2Proof.Machine
end

section
/-! The numbered steps of the bus commands keep the invariant and follow the arrows of R98. -/

namespace Sys2Proof.Machine

/-! ### The repeated start and the read address -/

/-- What the invariant says of a read transaction at the lines of its second address part. -/
structure ReadTransacts (c : Instr) : Prop extends Transacts c true where
  readWaits : ∀ l ∈ [Line.s9, .s11], waitsAt c l = true
  readActs : ∀ l ∈ [Line.s8, .s10, .s12], waitsAt c l = false ∧ actsAt c l = true
  readIndex : ∀ l ∈ .s7 :: readAddressPart, ∀ l' ∈ readAddressPart, ∀ m k a, indexAt c m l k a = indexAt c m l' k a
  readPhase : ∀ l ∈ readAddressPart, ∀ k p, phaseAt c l k p = true ↔ some p = readPhaseAt l
  readAck : ∀ l ∈ readAddressPart, ∀ k on, ackAt c l k on = on

theorem readTransacts_rdb (sa : SlaveAddr) (ra : RegAddr) : ReadTransacts (.rdb sa ra) where
  toTransacts := transacts_rdb sa ra
  readWaits := by simp [waitsAt]
  readActs := by simp [waitsAt, actsAt]
  readIndex _ _ _ _ _ _ _ := rfl
  readPhase := by simp [readAddressPart, phaseAt, addressPhaseAt, readPhaseAt]
  readAck := by simp [readAddressPart, ackAt]

theorem readTransacts_rdbuf (sa : SlaveAddr) (ra : RegAddr) (ptr len : Half) : ReadTransacts (.rdbuf sa ra ptr len) where
  toTransacts := transacts_rdbuf sa ra ptr len
  readWaits := by simp [waitsAt]
  readActs := by simp [waitsAt, actsAt]
  readIndex := by simp [readAddressPart, indexAt]
  readPhase := by simp [readAddressPart, phaseAt, addressPhaseAt, readPhaseAt]
  readAck := by simp [readAddressPart, ackAt]

section Reads
variable {c : Instr} {s : State} {l : Line} {sub : Sub} {k a : Nat} (hc : ReadTransacts c)
include hc

/-- R99, R100 S7: the way from the address part to the repeated start. -/
theorem ReadTransacts.advances_first (hdata : dataInv s = true) (hpos : Positioned c s .s7 sub k a) :
    Advances c s (moveTo c.opcode .s8 k a s) := by
  have hphase : some s.phase = addressPhaseAt .s7 := (hc.phase .s7 (by decide) _ _).mp hpos.phase
  refine .moveTo hdata (.inl (hc.readActs .s8 (by decide)).right) ?_ ((hc.readPhase .s8 (by decide) _ _).mpr hphase) ?_
    (hc.dir _ _) hc.not_recv (.inl rfl)
  · rw [← hc.readIndex .s7 (by decide) .s8 (by decide)]
    exact hpos.index
  · rw [hc.readAck .s8 (by decide)]
    exact (hc.ack .s7 (by decide) k s.ackEn).symm.trans hpos.ack

/-- A line of this part that goes on to its next one. -/
theorem ReadTransacts.advances_act {l l' : Line} {w : State} (hl : l ∈ readAddressPart) (hl' : l' ∈ readAddressPart)
    (hnumbered : actsAt c l' = true ∨ waitsAt c l' = true) (hpos : Positioned c s l sub k a) (hdata : dataInv w = true)
    (hhm : w.hm = s.hm) (hack : w.ackEn = s.ackEn) (hphase : readPhaseAt l' = some w.phase)
    (harrow : ∃ p, readPhaseAt l = some p ∧ (w.phase = p ∨ (p, w.phase) ∈ arrows)) :
    Advances c s (moveTo c.opcode l' k a w) := by
  have hold : some s.phase = readPhaseAt l := (hc.readPhase l hl _ _).mp hpos.phase
  obtain ⟨p, hp, hstep⟩ := harrow
  obtain rfl : s.phase = p := Option.some.inj (hold.trans hp)
  refine .moveTo hdata hnumbered ?_ ((hc.readPhase l' hl' _ _).mpr hphase.symm) ?_ (hc.dir _ _)
    (fun hrecv => ?_) (hstep.imp_right .inl)
  · rw [hhm, ← hc.readIndex l (List.mem_cons_of_mem _ hl) l' hl']
    exact hpos.index
  · rw [hc.readAck l' hl', hack]
    exact (hc.readAck l hl k s.ackEn).symm.trans hpos.ack
  · exact absurd (hrecv.left ▸ hc.opcode) (by decide)

/-- R100 S8 to S11. -/
theorem ReadTransacts.proceeds {sa : SlaveAddr} (hdata : dataInv s = true) (hseq : s.seq = .at c.opcode l sub k a)
    (hpos : Positioned c s l sub k a) (hl : l ∈ [Line.s8, .s9, .s10, .s11]) :
    ∃ r, readAddressLines c.opcode sa l sub k a s = some r ∧ Proceeds (Advances c s) r := by
  have hmem : l ∈ [Line.s8, .s9, .s10, .s11] ++ [Line.s12] := List.mem_append_left _ hl
  have hphase : readPhaseAt l = some s.phase := ((hc.readPhase l hmem _ _).mp hpos.phase).symm
  have hsub (hacts : l ∈ [Line.s8, .s10, .s12]) : sub = .act := by
    simpa [numbered, hc.readActs l hacts] using hpos.numbered
  have hwaits {l : Line} (hl : l ∈ [Line.s9, .s11]) : waitsAt c l = true := hc.readWaits l hl
  have hacts {l : Line} (hl : l ∈ [Line.s8, .s10, .s12]) : actsAt c l = true := (hc.readActs l hl).right
  have hsame : ∃ p, readPhaseAt l = some p ∧ (s.phase = p ∨ (p, s.phase) ∈ arrows) := ⟨s.phase, hphase, .inl rfl⟩
  simp only [List.mem_cons, List.not_mem_nil, or_false] at hl
  rcases hl with rfl | rfl | rfl | rfl
  · obtain rfl := hsub (by decide)
    exact ⟨_, rfl, proceeds_next (hc.advances_act (l := .s8) (by decide) (by decide) (.inr (hwaits (by decide))) hpos hdata rfl
      rfl rfl ⟨.registerAddressSent, rfl, .inr (by decide : (Phase.registerAddressSent, Phase.startAsserted) ∈ arrows)⟩)⟩
  · exact ⟨_, rfl, hc.proceeds_wait hdata hseq hpos (hwaits (by decide))
      (hc.advances_act (l := .s9) (by decide) (by decide) (.inl (hacts (by decide))) hpos hdata rfl rfl hphase hsame)⟩
  · obtain rfl := hsub (by decide)
    exact ⟨_, rfl, proceeds_next (hc.advances_act (l := .s10) (by decide) (by decide) (.inr (hwaits (by decide))) hpos hdata rfl
      rfl rfl ⟨.startAsserted, rfl, .inr (by decide : (Phase.startAsserted, Phase.addressSentForRead) ∈ arrows)⟩)⟩
  · exact ⟨_, rfl, hc.proceeds_wait hdata hseq hpos (hwaits (by decide))
      (hc.advances_act (l := .s11) (by decide) (by decide) (.inl (hacts (by decide))) hpos hdata rfl rfl hphase hsame)⟩

end Reads

/-! ### WRB -/

/-- R98: `phase` moves from `p` to `q`. -/
theorem follows {s w : State} {p : Phase} (q : Phase) (hp : s.phase = p) (hq : w.phase = q) (h : (p, q) ∈ arrows) :
    (s.phase, w.phase) ∈ arrows := by
  rwa [hp, hq]

section Commands
variable {s : State} {l : Line} {sub : Sub} {k a : Nat} {sa : SlaveAddr} {ra : RegAddr}

/-- R99. -/
theorem wrb_advances {v : Byte} (hdata : dataInv s = true) (hseq : s.seq = .at 0x9 l sub k a)
    (hpos : Positioned (.wrb sa ra v) s l sub k a) : Proceeds (Advances (.wrb sa ra v) s) (exec (.wrb sa ra v) s) := by
  have hc := transacts_wrb sa ra v
  rw [show exec (.wrb sa ra v) s = _ from atPosition_at (.wrb sa ra v) hseq _]
  have ⟨hnumbered, hindex, hphase, hack, _, _⟩ := hpos
  by_cases haddress : l ∈ addressPart
  · obtain ⟨r, hr, hproceeds⟩ := hc.proceeds_address (sa := sa) (ra := ra) (next := moveTo 0x9 .s8 k a) hdata hseq hpos haddress
      fun _ hsent => .moveTo hdata (.inl rfl) hindex (decide_eq_true hsent) hack rfl hc.not_recv (.inl rfl)
    rw [show addressLines 0x9 sa ra (moveTo 0x9 .s8 k a) l sub k a s = some r from hr]
    exact hproceeds
  by_cases habort : l ∈ abortPart
  · have hproceeds := hc.proceeds_abort hdata hpos habort
    simp only [abortPart, List.mem_cons, List.not_mem_nil, or_false] at habort
    rcases habort with rfl | rfl | rfl <;> exact hproceeds
  have hlines : (l = .s9 ∨ l = .s11) ∨ sub = .act ∧ (l = .s8 ∨ l = .s10 ∨ l = .s12) := by
    simp [numbered, waitsAt, actsAt, addressPart, abortPart] at hnumbered haddress habort
    simpa [haddress, habort] using hnumbered
  rcases hlines with (rfl | rfl) | ⟨rfl, rfl | rfl | rfl⟩
  · exact hc.proceeds_wait hdata hseq hpos rfl (.moveTo hdata (.inl rfl) hindex hphase hack rfl hc.not_recv (.inl rfl))
  · exact proceeds_waitLineIf hdata hseq hpos rfl (.moveTo hdata (.inl rfl) hindex hphase hack rfl hc.not_recv (.inl rfl))
      (hc.abort hdata hpos)
  · have hsent : s.phase = .registerAddressSent := of_decide_eq_true hphase
    exact proceeds_next (.moveTo hdata (.inr rfl) hindex rfl hack rfl hc.not_recv
      (.inr (.inl (follows .dataSent hsent rfl (by decide)))))
  · have hdone : s.phase = .dataSent := of_decide_eq_true hphase
    exact proceeds_next (.moveTo hdata (.inr rfl) hindex rfl hack rfl hc.not_recv
      (.inr (.inl (follows .stopAsserted hdone rfl (by decide)))))
  · have hstopped : s.phase = .stopAsserted := of_decide_eq_true hphase
    exact proceeds_next (.finish (dataInv_finish hdata (by decide)) rfl hack rfl
      (.inr (.inl (follows .idle hstopped rfl (by decide)))))

/-- R100. -/
theorem rdb_advances (hdata : dataInv s = true) (hseq : s.seq = .at 0xA l sub k a)
    (hpos : Positioned (.rdb sa ra) s l sub k a) : Proceeds (Advances (.rdb sa ra) s) (exec (.rdb sa ra) s) := by
  have hc := readTransacts_rdb sa ra
  rw [show exec (.rdb sa ra) s = _ from atPosition_at (.rdb sa ra) hseq _]
  have ⟨hnumbered, hindex, hphase, hack, _, _⟩ := hpos
  by_cases haddress : l ∈ addressPart
  · obtain ⟨r, hr, hproceeds⟩ := hc.proceeds_address (sa := sa) (ra := ra) (next := moveTo 0xA .s8 k a) hdata hseq hpos haddress
      fun h7 _ => hc.advances_first hdata (h7 ▸ hpos)
    rw [show addressLines 0xA sa ra (moveTo 0xA .s8 k a) l sub k a s = some r from hr]
    exact hproceeds
  by_cases hread : l ∈ [Line.s8, .s9, .s10, .s11]
  · obtain ⟨r, hr, hproceeds⟩ := hc.proceeds (sa := sa) hdata hseq hpos hread
    have hnone : addressLines 0xA sa ra (moveTo 0xA .s8 k a) l sub k a s = none := by
      simp only [List.mem_cons, List.not_mem_nil, or_false] at hread
      rcases hread with rfl | rfl | rfl | rfl <;> rfl
    rw [hnone, show readAddressLines 0xA sa l sub k a s = some r from hr]
    exact hproceeds
  by_cases habort : l ∈ abortPart
  · have hproceeds := hc.proceeds_abort hdata hpos habort
    simp only [abortPart, List.mem_cons, List.not_mem_nil, or_false] at habort
    rcases habort with rfl | rfl | rfl <;> exact hproceeds
  have hlines : l = .s14 ∨ sub = .act ∧ (l = .s12 ∨ l = .s13 ∨ l = .s15 ∨ l = .s16 ∨ l = .s17) := by
    simp [numbered, waitsAt, actsAt, addressPart, abortPart] at hnumbered haddress hread habort
    simpa [haddress, hread, habort] using hnumbered
  rcases hlines with rfl | ⟨rfl, rfl | rfl | rfl | rfl | rfl⟩
  · exact hc.proceeds_wait hdata hseq hpos rfl (.moveTo hdata (.inl rfl) hindex hphase hack rfl hc.not_recv (.inl rfl))
  · have hsent : s.phase = .addressSentForRead := of_decide_eq_true hphase
    exact proceeds_next (.moveTo hdata (.inl rfl) hindex rfl rfl rfl hc.not_recv
      (.inr (.inl (follows .receiving hsent rfl (by decide)))))
  · exact proceeds_next (.moveTo hdata (.inr rfl) hindex hphase hack rfl hc.not_recv (.inl rfl))
  · exact proceeds_next (.moveTo hdata (.inl rfl) hindex hphase hack rfl hc.not_recv (.inl rfl))
  · exact proceeds_next (.moveTo hdata (.inl rfl) hindex hphase rfl rfl hc.not_recv (.inl rfl))
  · have hreceiving : s.phase = .receiving := of_decide_eq_true hphase
    have h := (dataInv_iff s).mp hdata
    have hvalue : dataInv { s with phase := .idle, value := valueOfByte s.rdByte } = true :=
      (dataInv_iff _).mpr ⟨h.wf, h.rxCount, h.pin, h.status, valueOfByte_lt _, h.count, h.lowest, h.highest, h.cfg⟩
    exact proceeds_next (.finish (dataInv_finish hvalue (by decide)) rfl hack rfl
      (.inr (.inl (follows .idle hreceiving rfl (by decide)))))

/-- R34: inside its loop a buffer command's index is below the length. -/
theorem index_lt_of_loop {n : Nat} (h : (decide (a = 0) && loopIndexAt true n k) = true) : a = 0 ∧ k < n := by
  simpa [loopIndexAt] using h

/-- R34: the index after a loop's iteration, in the loop or at the line after it. -/
theorem index_after_loop {n : Nat} (h : a = 0 ∧ k < n) (inLoop : Bool) :
    (decide (a = 0) && loopIndexAt inLoop n k) = true := by
  obtain ⟨rfl, hk⟩ := h
  simp [loopIndexAt, hk]

/-- R51: a byte of a command's buffer lies in HM. -/
theorem inside_of_legal {ptr len : Half} (h : bufferInside ptr len = true) (hk : k < len.toNat) :
    bufferAddress ptr k < Config.hmSize := by
  have hinside := (bufferInside_iff ptr len).mp h
  show ptr.toNat + k < 0x10000
  omega

/-- R101. -/
theorem wrbuf_advances {ptr len : Half} (hlegal : legal (.wrbuf sa ra ptr len) s.hm = true) (hdata : dataInv s = true)
    (hseq : s.seq = .at 0xB l sub k a) (hpos : Positioned (.wrbuf sa ra ptr len) s l sub k a) :
    Proceeds (Advances (.wrbuf sa ra ptr len) s) (exec (.wrbuf sa ra ptr len) s) := by
  have hc := transacts_wrbuf sa ra ptr len
  rw [show exec (.wrbuf sa ra ptr len) s = _ from atPosition_at (.wrbuf sa ra ptr len) hseq _]
  have ⟨hnumbered, hindex, hphase, hack, _, _⟩ := hpos
  by_cases haddress : l ∈ addressPart
  · have ha : a = 0 := by
      have h := hindex
      simp only [indexAt, Bool.and_eq_true, decide_eq_true_eq] at h
      exact h.left
    obtain ⟨r, hr, hproceeds⟩ := hc.proceeds_address (sa := sa) (ra := ra) (next := firstByte 0xB .s8a .s9 len.toNat a) hdata
      hseq hpos haddress fun _ hsent => by
        unfold firstByte
        by_cases hlen : 0 < len.toNat
        · rw [if_pos hlen]
          exact .moveTo hdata (.inl rfl) (index_after_loop ⟨ha, hlen⟩ true) (decide_eq_true hsent) hack rfl hc.not_recv
            (.inl rfl)
        · rw [if_neg hlen]
          have hzero : len = 0 := BitVec.eq_of_toNat_eq (Nat.eq_zero_of_not_pos hlen)
          refine .moveTo hdata (.inl rfl) ?_ ?_ hack rfl hc.not_recv (.inl rfl)
          · simp [indexAt, loopIndexAt, ha]
          · simp [phaseAt, addressPhaseAt, hzero, hsent]
    rw [show addressLines 0xB sa ra (firstByte 0xB .s8a .s9 len.toNat a) l sub k a s = some r from hr]
    exact hproceeds
  by_cases habort : l ∈ abortPart
  · have hproceeds := hc.proceeds_abort hdata hpos habort
    simp only [abortPart, List.mem_cons, List.not_mem_nil, or_false] at habort
    rcases habort with rfl | rfl | rfl <;> exact hproceeds
  have hlines : (l = .s8b ∨ l = .s10) ∨ sub = .act ∧ (l = .s8a ∨ l = .s9 ∨ l = .s11) := by
    simp [numbered, waitsAt, actsAt, addressPart, abortPart] at hnumbered haddress habort
    simpa [haddress, habort] using hnumbered
  rcases hlines with (rfl | rfl) | ⟨rfl, rfl | rfl | rfl⟩
  · have hk := index_lt_of_loop hindex
    have hsent : s.phase = .dataSent := of_decide_eq_true hphase
    refine hc.proceeds_wait hdata hseq hpos rfl ?_
    unfold nextByte
    by_cases hnext : k + 1 < len.toNat
    · rw [if_pos hnext, if_pos hnext]
      refine .moveTo hdata (.inl rfl) (index_after_loop ⟨hk.left, hnext⟩ true) ?_ hack rfl hc.not_recv (.inl rfl)
      exact decide_eq_true hsent
    · rw [if_neg hnext, if_neg hnext]
      refine .moveTo hdata (.inl rfl) (index_after_loop hk false) ?_ hack rfl hc.not_recv (.inl rfl)
      have hlen : len ≠ 0 := fun hzero => by
        rw [hzero] at hk
        exact Nat.not_lt_zero _ hk.right
      simpa [phaseAt, addressPhaseAt, hsent] using hlen
  · exact proceeds_waitLineIf hdata hseq hpos rfl (.moveTo hdata (.inl rfl) hindex hphase hack rfl hc.not_recv (.inl rfl))
      (hc.abort hdata hpos)
  · have hk := index_lt_of_loop hindex
    have hload := hmLoad_inside s (inside_of_legal (ptr := ptr) (len := len) hlegal hk.right)
    refine ⟨moveTo 0xB .s8b k a (busSend (memRead s.hm (bufferAddress ptr k)) .dataSent s), ?_, ?_⟩
    · simp only [addressLines, wrbufLines, Option.getD_none, hload]
    · refine .moveTo hdata (.inr rfl) hindex rfl hack rfl hc.not_recv ?_
      have hold : s.phase = if k = 0 then .registerAddressSent else .dataSent := of_decide_eq_true hphase
      split at hold
      · exact .inr (.inl (follows .dataSent hold rfl (by decide)))
      · exact .inl hold.symm
  · have hold : s.phase = if len = 0 then .registerAddressSent else .dataSent := of_decide_eq_true hphase
    refine proceeds_next (.moveTo hdata (.inr rfl) hindex rfl hack rfl hc.not_recv (.inr (.inl ?_)))
    split at hold
    · exact follows .stopAsserted hold rfl (by decide)
    · exact follows .stopAsserted hold rfl (by decide)
  · have hstopped : s.phase = .stopAsserted := of_decide_eq_true hphase
    exact proceeds_next (.finish (dataInv_finish hdata (by decide)) rfl hack rfl
      (.inr (.inl (follows .idle hstopped rfl (by decide)))))

/-- R102. -/
theorem rdbuf_advances {ptr len : Half} (hlegal : legal (.rdbuf sa ra ptr len) s.hm = true) (hdata : dataInv s = true)
    (hseq : s.seq = .at 0xC l sub k a) (hpos : Positioned (.rdbuf sa ra ptr len) s l sub k a) :
    Proceeds (Advances (.rdbuf sa ra ptr len) s) (exec (.rdbuf sa ra ptr len) s) := by
  have hc := readTransacts_rdbuf sa ra ptr len
  obtain ⟨hwf, hinside⟩ : decide (len ≠ 0) = true ∧ bufferInside ptr len = true := Bool.and_eq_true_iff.mp hlegal
  have hlen : 0 < len.toNat := Nat.pos_of_ne_zero fun hzero =>
    of_decide_eq_true hwf (BitVec.eq_of_toNat_eq hzero)
  rw [show exec (.rdbuf sa ra ptr len) s = _ from atPosition_at (.rdbuf sa ra ptr len) hseq _]
  have ⟨hnumbered, hindex, hphase, hack, _, _⟩ := hpos
  by_cases haddress : l ∈ addressPart
  · obtain ⟨r, hr, hproceeds⟩ := hc.proceeds_address (sa := sa) (ra := ra) (next := moveTo 0xC .s8 k a) hdata hseq hpos haddress
      fun h7 _ => hc.advances_first hdata (h7 ▸ hpos)
    rw [show addressLines 0xC sa ra (moveTo 0xC .s8 k a) l sub k a s = some r from hr]
    exact hproceeds
  by_cases hread : l ∈ [Line.s8, .s9, .s10, .s11]
  · obtain ⟨r, hr, hproceeds⟩ := hc.proceeds (sa := sa) hdata hseq hpos hread
    have hnone : addressLines 0xC sa ra (moveTo 0xC .s8 k a) l sub k a s = none := by
      simp only [List.mem_cons, List.not_mem_nil, or_false] at hread
      rcases hread with rfl | rfl | rfl | rfl <;> rfl
    rw [hnone, show readAddressLines 0xC sa l sub k a s = some r from hr]
    exact hproceeds
  by_cases habort : l ∈ abortPart
  · have hproceeds := hc.proceeds_abort hdata hpos habort
    simp only [abortPart, List.mem_cons, List.not_mem_nil, or_false] at habort
    rcases habort with rfl | rfl | rfl <;> exact hproceeds
  have hlines : l = .s13c ∨ sub = .act ∧ (l = .s12 ∨ l = .s13a ∨ l = .s13b ∨ l = .s13d ∨ l = .s14 ∨ l = .s15) := by
    simp [numbered, waitsAt, actsAt, addressPart, abortPart] at hnumbered haddress hread habort
    simpa [haddress, hread, habort] using hnumbered
  rcases hlines with rfl | ⟨rfl, rfl | rfl | rfl | rfl | rfl | rfl⟩
  · exact hc.proceeds_wait hdata hseq hpos rfl (.moveTo hdata (.inl rfl) hindex hphase hack rfl hc.not_recv (.inl rfl))
  · have hsent : s.phase = .addressSentForRead := of_decide_eq_true hphase
    have ha : a = 0 := by
      have h := hindex
      simp only [indexAt, Bool.and_eq_true, decide_eq_true_eq] at h
      exact h.left
    refine proceeds_next ?_
    unfold firstByte
    rw [if_pos hlen]
    exact .moveTo hdata (.inl rfl) (index_after_loop ⟨ha, hlen⟩ true) rfl hack rfl hc.not_recv
      (.inr (.inl (follows .receiving hsent rfl (by decide))))
  · have hon : s.ackEn = true := hack
    refine proceeds_next ?_
    by_cases hlast : k + 1 = len.toNat
    · rw [if_pos hlast]
      refine .moveTo hdata (.inl rfl) hindex hphase ?_ rfl hc.not_recv (.inl rfl)
      simp [ackAt, hlast]
    · rw [if_neg hlast]
      refine .moveTo hdata (.inl rfl) hindex hphase ?_ rfl hc.not_recv (.inl rfl)
      simp [ackAt, hlast, hon]
  · refine proceeds_next ?_
    by_cases hlast : k + 1 = len.toNat
    · rw [if_pos hlast]
      exact .moveTo hdata (.inr rfl) hindex hphase hack rfl hc.not_recv (.inl rfl)
    · rw [if_neg hlast]
      exact .moveTo hdata (.inr rfl) hindex hphase hack rfl hc.not_recv (.inl rfl)
  · have hk := index_lt_of_loop hindex
    have hstore := hmStore_inside (busRecv s) s.env.byte (inside_of_legal hinside hk.right)
    have h := (dataInv_iff s).mp hdata
    have hstored : dataInv { busRecv s with hm := memWrite s.hm (bufferAddress ptr k) s.env.byte } = true :=
      (dataInv_iff _).mpr ⟨hmStore_wf (s := busRecv s) h.wf hstore, h.rxCount, h.pin, h.status, h.value, h.count, h.lowest,
        h.highest, h.cfg⟩
    refine ⟨nextByte 0xC .s13a .s14 len.toNat k a
      { busRecv s with hm := memWrite s.hm (bufferAddress ptr k) s.env.byte }, ?_, ?_⟩
    · simp only [addressLines, readAddressLines, rdbufLines, Option.or_none, Option.getD_none, hstore]
      rfl
    · have hon : s.ackEn = decide (k + 1 ≠ len.toNat) := beq_iff_eq.mp hack
      unfold nextByte
      by_cases hnext : k + 1 < len.toNat
      · rw [if_pos hnext, if_pos hnext]
        refine .moveTo hstored (.inl rfl) (index_after_loop ⟨hk.left, hnext⟩ true) hphase ?_ rfl hc.not_recv (.inl rfl)
        exact hon.trans (decide_eq_true (Nat.ne_of_lt hnext))
      · rw [if_neg hnext, if_neg hnext]
        have hlast : k + 1 = len.toNat := Nat.le_antisymm hk.right (Nat.le_of_not_lt hnext)
        refine .moveTo hstored (.inl rfl) (index_after_loop hk false) hphase ?_ rfl hc.not_recv (.inl rfl)
        show (!s.ackEn) = true
        rw [hon]
        simp [hlast]
  · exact proceeds_next (.moveTo hdata (.inl rfl) hindex hphase rfl rfl hc.not_recv (.inl rfl))
  · have hreceiving : s.phase = .receiving := of_decide_eq_true hphase
    exact proceeds_next (.finish (dataInv_finish hdata (by decide)) rfl hack rfl
      (.inr (.inl (follows .idle hreceiving rfl (by decide)))))

/-- R104: a step of SCAN inside a probe. -/
theorem scan_moveTo {l' : Line} {w : State} (hdata : dataInv w = true)
    (hnumbered : actsAt .scan l' = true ∨ waitsAt .scan l' = true) (hindex : indexAt .scan w.hm l' k a = true)
    (hphase : phaseAt .scan l' k w.phase = true) (hack : w.ackEn = true) : Advances .scan s (moveTo 0xD l' k a w) :=
  .moveTo hdata hnumbered hindex hphase hack rfl (fun hrecv => absurd hrecv.left (by decide)) (.inr (.inr rfl))

/-- R32, R104 P4a: marking an address below 127 and above 0 leaves the reserved bits zero. -/
theorem dataInv_markFound {a : Nat} (hlow : 1 ≤ a) (hhigh : a < 127) (hdata : dataInv s = true) :
    dataInv (markFound a s) = true := by
  have h := (dataInv_iff s).mp hdata
  refine (dataInv_iff _).mpr ⟨h.wf, h.rxCount, h.pin, h.status, h.value, h.count, ?_, ?_, h.cfg⟩
  · show (markPresent s.present a).getLsbD 0 = false
    rw [markPresent_bit _ _ (by decide), h.lowest]
    simp
    omega
  · show (markPresent s.present a).getLsbD 127 = false
    rw [markPresent_bit _ _ (by decide), h.highest]
    simp
    omega

/-- R104. -/
theorem scan_advances (hdata : dataInv s = true) (hseq : s.seq = .at 0xD l sub k a)
    (hpos : Positioned .scan s l sub k a) : Proceeds (Advances .scan s) (exec .scan s) := by
  rw [show exec .scan s = _ from atPosition_at .scan hseq _]
  have ⟨hnumbered, hindex, hphase, hack, _, _⟩ := hpos
  have hlines : (l = .p1 ∨ l = .p3 ∨ l = .p4a ∨ l = .p6) ∨
      sub = .act ∧ (l = .s1 ∨ l = .p2 ∨ l = .p4 ∨ l = .p5 ∨ l = .p7 ∨ l = .s3) := by
    simpa [numbered, waitsAt, actsAt] using hnumbered
  have hrange (hl : l ≠ .s1) : k = 0 ∧ 1 ≤ a ∧ a < 127 := by
    simpa [indexAt, hl, Config.scanLo, Config.scanHi] using hindex
  rcases hlines with (rfl | rfl | rfl | rfl) | ⟨rfl, rfl | rfl | rfl | rfl | rfl | rfl⟩
  · have hidle : s.phase = .idle := of_decide_eq_true hphase
    exact proceeds_waitLineIf hdata hseq hpos rfl (scan_moveTo hdata (.inl rfl) hindex hphase hack)
      (scan_moveTo hdata (.inl rfl) hindex (by simp [phaseAt, hidle]) hack)
  · have hstarted : s.phase = .startAsserted := of_decide_eq_true hphase
    exact proceeds_waitLine hdata hseq hpos rfl (scan_moveTo hdata (.inl rfl) hindex hphase hack)
      (scan_moveTo hdata (.inl rfl) hindex (by simp [phaseAt, hstarted]) hack)
  · have hsent : s.phase = .addressSentForWrite := of_decide_eq_true hphase
    obtain ⟨-, hlow, hhigh⟩ := hrange (by decide)
    exact proceeds_waitLine hdata hseq hpos rfl
      (scan_moveTo (dataInv_markFound hlow hhigh hdata) (.inl rfl) hindex (by simp [phaseAt, hsent, markFound]) hack)
      (scan_moveTo hdata (.inl rfl) hindex (by simp [phaseAt, hsent]) hack)
  · exact proceeds_waitLineIf hdata hseq hpos rfl (scan_moveTo hdata (.inl rfl) hindex hphase hack)
      (scan_moveTo hdata (.inl rfl) hindex hphase hack)
  · have h := (dataInv_iff s).mp hdata
    have hcleared : dataInv { s with present := 0, found := 0 } = true :=
      (dataInv_iff _).mpr ⟨h.wf, h.rxCount, h.pin, h.status, h.value, h.count, by simp, by simp, h.cfg⟩
    exact proceeds_next (scan_moveTo hcleared (.inr rfl) rfl hphase hack)
  · exact proceeds_next (scan_moveTo hdata (.inr rfl) hindex rfl hack)
  · exact proceeds_next (scan_moveTo hdata (.inr rfl) hindex rfl hack)
  · exact proceeds_next (scan_moveTo hdata (.inr rfl) hindex rfl hack)
  · obtain ⟨rfl, hlow, hhigh⟩ := hrange (by decide)
    refine proceeds_next ?_
    unfold nextProbe
    by_cases hnext : a + 1 < Config.scanHi
    · rw [if_pos hnext, if_pos hnext]
      refine scan_moveTo hdata (.inr rfl) ?_ rfl hack
      simpa [indexAt] using hnext
    · rw [if_neg hnext, if_neg hnext]
      exact scan_moveTo hdata (.inl rfl) hindex rfl hack
  · have h := (dataInv_iff s).mp hdata
    have hcounted : dataInv { s with phase := .idle, count := countOfFound s.found } = true :=
      (dataInv_iff _).mpr ⟨h.wf, h.rxCount, h.pin, h.status, h.value, countOfFound_lt _, h.lowest, h.highest, h.cfg⟩
    exact proceeds_next (.finish (dataInv_finish hcounted (by decide)) rfl hack rfl (.inr (.inr (.inr rfl))))

end Commands

end Sys2Proof.Machine
end

section
/-! The numbered steps of the half-duplex commands keep the invariant; every agent's step does; no state of it faults. -/

namespace Sys2Proof.Machine

section Commands
variable {c : Instr} {s : State} {l : Line} {sub : Sub} {k a : Nat}

/-- R91: the half-duplex commands leave the bus master alone, `phase` at Idle and acknowledgment enabled. -/
structure HalfDuplex (c : Instr) : Prop where
  phase : ∀ l k p, phaseAt c l k p = decide (p = .idle)
  ack : ∀ l k on, ackAt c l k on = on

theorem halfDuplex_of_opcode (hc : c.opcode.toNat ≤ 8) : HalfDuplex c := by
  cases c with
  | wrb sa ra v => exact absurd hc (by decide : ¬ (0x9#4).toNat ≤ 8)
  | rdb sa ra => exact absurd hc (by decide : ¬ (0xA#4).toNat ≤ 8)
  | wrbuf sa ra ptr len => exact absurd hc (by decide : ¬ (0xB#4).toNat ≤ 8)
  | rdbuf sa ra ptr len => exact absurd hc (by decide : ¬ (0xC#4).toNat ≤ 8)
  | scan => exact absurd hc (by decide : ¬ (0xD#4).toNat ≤ 8)
  | setdir d => exact ⟨fun _ _ _ => rfl, fun _ _ _ => rfl⟩
  | sendb b => exact ⟨fun _ _ _ => rfl, fun _ _ _ => rfl⟩
  | sends ptr => exact ⟨fun _ _ _ => rfl, fun _ _ _ => rfl⟩
  | sendbuf ptr len => exact ⟨fun _ _ _ => rfl, fun _ _ _ => rfl⟩
  | recv ptr len => exact ⟨fun _ _ _ => rfl, fun _ _ _ => rfl⟩
  | avail => exact ⟨fun _ _ _ => rfl, fun _ _ _ => rfl⟩
  | rxlen => exact ⟨fun _ _ _ => rfl, fun _ _ _ => rfl⟩
  | clrrx => exact ⟨fun _ _ _ => rfl, fun _ _ _ => rfl⟩

/-- A step of a half-duplex command to another of its lines. -/
theorem HalfDuplex.moveTo {l' : Line} {k' a' : Nat} {w : State} (hc : HalfDuplex c) (hpos : Positioned c s l sub k a)
    (hdata : dataInv w = true) (hnumbered : actsAt c l' = true) (hindex : indexAt c w.hm l' k' a' = true)
    (hdir : dirAt c l' w.dir = true) (hphase : w.phase = s.phase) (hack : w.ackEn = s.ackEn)
    (hlatched : c.opcode = 0x5 ∧ l' = .s3 → w.c0.toNat ≤ Config.rxCap) : Advances c s (moveTo c.opcode l' k' a' w) := by
  refine .moveTo hdata (.inl hnumbered) hindex ?_ ?_ hdir hlatched (.inl hphase)
  · rw [hc.phase, hphase, ← hc.phase l k]
    exact hpos.phase
  · rw [hc.ack, hack, ← hc.ack l k s.ackEn]
    exact hpos.ack

/-- The end of a half-duplex command. -/
theorem HalfDuplex.finish {w : State} (hc : HalfDuplex c) (hpos : Positioned c s l sub k a) (hdata : dataInv w = true)
    (hphase : w.phase = s.phase) (hack : w.ackEn = s.ackEn) : Advances c s (finish true .none w) := by
  refine .finish (dataInv_finish hdata (by decide)) rfl ?_ ?_ (.inl hphase)
  · exact hack.trans ((hc.ack l k s.ackEn).symm.trans hpos.ack)
  · exact hphase.trans (of_decide_eq_true ((hc.phase l k s.phase).symm.trans hpos.phase))

/-- R76 T1, R77 D1: a wait without limit. -/
theorem proceeds_await {cond : Cond} {next : State → State} (hdata : dataInv s = true)
    (hseq : s.seq = .at c.opcode l sub k a) (hpos : Positioned c s l sub k a)
    (hnext : Advances c s (next (emit (.waitOk cond) s))) : Proceeds (Advances c s) (await cond next s) := by
  unfold await
  split
  · exact proceeds_next hnext
  · refine proceeds_next ⟨hdata, ?_, .inl rfl⟩
    rw [hseq]
    exact ⟨rfl, hpos⟩

/-- R19: the two steps of SetDirection keep the pin at the level of the direction. -/
theorem dataInv_setDirection (d : Direction) (hdata : dataInv s = true) : dataInv (setDirection d s) = true := by
  have h := (dataInv_iff s).mp hdata
  exact (dataInv_iff _).mpr ⟨h.wf, h.rxCount, rfl, h.status, h.value, h.count, h.lowest, h.highest, h.cfg⟩

/-- Only RECV's copy loop uses the latched count. -/
theorem unlatched {l' : Line} {P : Prop} (hc : c.opcode ≠ 0x5) (h : c.opcode = 0x5 ∧ l' = .s3) : P := absurd h.left hc

/-- R79. -/
theorem setdir_advances {d : Direction} (hdata : dataInv s = true) (hseq : s.seq = .at 0x1 l sub k a)
    (hpos : Positioned (.setdir d) s l sub k a) : Proceeds (Advances (.setdir d) s) (exec (.setdir d) s) := by
  have hc : HalfDuplex (.setdir d) := halfDuplex_of_opcode (by decide : (0x1#4).toNat ≤ 8)
  have hother : (Instr.setdir d).opcode ≠ 0x5 := (by decide : 0x1#4 ≠ 0x5#4)
  rw [show exec (.setdir d) s = _ from atPosition_at (.setdir d) hseq _]
  have ⟨hnumbered, hindex, _, _, hdir, _⟩ := hpos
  obtain ⟨rfl, rfl | rfl | rfl⟩ : sub = .act ∧ (l = .s1 ∨ l = .s2 ∨ l = .s3) := by
    simpa [numbered, waitsAt, actsAt] using hnumbered
  · exact proceeds_next (hc.moveTo hpos (dataInv_setDirection d hdata) rfl hindex (by simp [dirAt, setDirection]) rfl rfl
      (unlatched hother))
  · exact proceeds_next (hc.moveTo hpos hdata rfl hindex hdir rfl rfl (unlatched hother))
  · exact proceeds_next (hc.finish hpos hdata rfl rfl)

/-- R80. -/
theorem sendb_advances {b : Byte} (hdata : dataInv s = true) (hseq : s.seq = .at 0x2 l sub k a)
    (hpos : Positioned (.sendb b) s l sub k a) : Proceeds (Advances (.sendb b) s) (exec (.sendb b) s) := by
  have hc : HalfDuplex (.sendb b) := halfDuplex_of_opcode (by decide : (0x2#4).toNat ≤ 8)
  have hother : (Instr.sendb b).opcode ≠ 0x5 := (by decide : 0x2#4 ≠ 0x5#4)
  rw [show exec (.sendb b) s = _ from atPosition_at (.sendb b) hseq _]
  have ⟨hnumbered, hindex, _, _, hdir, _⟩ := hpos
  obtain ⟨rfl, rfl | rfl | rfl | rfl | rfl | rfl | rfl | rfl⟩ : sub = .act ∧
      (l = .s1 ∨ l = .s2 ∨ l = .s3 ∨ l = .s4 ∨ l = .s5 ∨ l = .s6 ∨ l = .s7 ∨ l = .s8) := by
    simpa [numbered, waitsAt, actsAt] using hnumbered
  · exact proceeds_next (hc.moveTo hpos (dataInv_setDirection .transmit hdata) rfl hindex rfl rfl rfl (unlatched hother))
  · exact proceeds_next (hc.moveTo hpos hdata rfl hindex hdir rfl rfl (unlatched hother))
  · exact proceeds_await hdata hseq hpos (hc.moveTo hpos hdata rfl hindex hdir rfl rfl (unlatched hother))
  · exact proceeds_next (hc.moveTo hpos hdata rfl hindex hdir rfl rfl (unlatched hother))
  · exact proceeds_await hdata hseq hpos (hc.moveTo hpos hdata rfl hindex hdir rfl rfl (unlatched hother))
  · exact proceeds_next (hc.moveTo hpos (dataInv_setDirection .receive hdata) rfl hindex rfl rfl rfl (unlatched hother))
  · exact proceeds_next (hc.moveTo hpos hdata rfl hindex hdir rfl rfl (unlatched hother))
  · exact proceeds_next (hc.finish hpos hdata rfl rfl)

/-- What the invariant says at the lines that SENDBUF and SENDS share, for `n` bytes at `ptr`. -/
structure Transmits (c : Instr) (m : Memory) (ptr : Half) (n : Nat) : Prop extends HalfDuplex c where
  other : c.opcode ≠ 0x5
  numbered : ∀ l sub, numbered c l sub = true ↔
    sub = .act ∧ (l = .s1 ∨ l = .s2 ∨ l = .s3a ∨ l = .s3b ∨ l = .s4 ∨ l = .s5 ∨ l = .s6 ∨ l = .s7)
  acts : ∀ l ∈ [Line.s1, .s2, .s3a, .s3b, .s4, .s5, .s6, .s7], actsAt c l = true
  index : ∀ l k a, indexAt c m l k a = (decide (a = 0) && loopIndexAt (l ∈ [.s3a, .s3b]) n k)
  dir : ∀ l d, dirAt c l d = (decide (l = .s1) || decide (d = if l ∈ [.s6, .s7] then .receive else .transmit))
  inside : ∀ k, k < n → bufferAddress ptr k < Config.hmSize

theorem transmits_sendbuf {ptr len : Half} {m : Memory} (hlegal : legal (.sendbuf ptr len) m = true) :
    Transmits (.sendbuf ptr len) m ptr len.toNat where
  toHalfDuplex := halfDuplex_of_opcode (by decide : (0x4#4).toNat ≤ 8)
  other := (by decide : 0x4#4 ≠ 0x5#4)
  numbered := by simp [Machine.numbered, waitsAt, actsAt]
  acts := by simp [actsAt]
  index _ _ _ := rfl
  dir _ _ := rfl
  inside _ hk := inside_of_legal hlegal hk

theorem transmits_sends {ptr : Half} {m : Memory} {n : Nat} (hstring : stringLength m ptr = some n) :
    Transmits (.sends ptr) m ptr n where
  toHalfDuplex := halfDuplex_of_opcode (by decide : (0x3#4).toNat ≤ 8)
  other := (by decide : 0x3#4 ≠ 0x5#4)
  numbered := by simp [Machine.numbered, waitsAt, actsAt]
  acts := by simp [actsAt]
  index _ _ _ := by rw [indexAt, hstring, Option.any_some]
  dir _ _ := rfl
  inside k hk := by
    obtain ⟨hroom, -, -⟩ := (stringLength_some_iff m ptr n).mp hstring
    show ptr.toNat + k < 0x10000
    omega

/-- R81, R82. -/
theorem transmit_advances {ptr : Half} {n : Nat} (hc : Transmits c s.hm ptr n) (hdata : dataInv s = true)
    (hseq : s.seq = .at c.opcode l sub k a) (hpos : Positioned c s l sub k a) :
    Proceeds (Advances c s) (transmitLines c.opcode ptr n l sub k a s) := by
  have ⟨hnumbered, hindex, _, _, hdir, _⟩ := hpos
  have hmove {l' : Line} {w : State} (hl' : l' ∈ [Line.s1, .s2, .s3a, .s3b, .s4, .s5, .s6, .s7]) (hdata : dataInv w = true)
      (hindex : indexAt c w.hm l' k a = true) (hdir : dirAt c l' w.dir = true) (hphase : w.phase = s.phase)
      (hack : w.ackEn = s.ackEn) : Advances c s (moveTo c.opcode l' k a w) :=
    hc.moveTo hpos hdata (hc.acts l' hl') hindex hdir hphase hack (unlatched hc.other)
  rw [hc.index] at hindex
  rw [hc.dir] at hdir
  have hsame {l' : Line} (hl' : decide (l' ∈ [Line.s3a, .s3b]) = decide (l ∈ [Line.s3a, .s3b])) :
      indexAt c s.hm l' k a = true := by rw [hc.index, hl', hindex]
  obtain ⟨rfl, rfl | rfl | rfl | rfl | rfl | rfl | rfl | rfl⟩ := (hc.numbered l sub).mp hnumbered
  · exact proceeds_next (hmove (by decide) (dataInv_setDirection .transmit hdata) (hsame rfl) (by rw [hc.dir]; rfl) rfl rfl)
  · have ha : a = 0 := of_decide_eq_true (Bool.and_eq_true_iff.mp hindex).left
    refine proceeds_next ?_
    unfold firstByte
    by_cases hn : 0 < n
    · rw [if_pos hn]
      refine hc.moveTo hpos hdata (hc.acts .s3a (by decide)) ?_ (by rw [hc.dir]; exact hdir) rfl rfl (unlatched hc.other)
      exact (hc.index _ _ _).trans (index_after_loop ⟨ha, hn⟩ true)
    · rw [if_neg hn]
      refine hc.moveTo hpos hdata (hc.acts .s4 (by decide)) ?_ (by rw [hc.dir]; exact hdir) rfl rfl (unlatched hc.other)
      refine (hc.index _ _ _).trans ?_
      simp [loopIndexAt, ha]
  · exact proceeds_await hdata hseq hpos (hmove (by decide) hdata (hsame rfl) (by rw [hc.dir]; exact hdir) rfl rfl)
  · have hk := index_lt_of_loop hindex
    have hload := hmLoad_inside s (hc.inside k hk.right)
    refine ⟨nextByte c.opcode .s3a .s4 n k a (uartWrite (memRead s.hm (bufferAddress ptr k)) s), ?_, ?_⟩
    · simp only [transmitLines, hload]
    · unfold nextByte
      by_cases hnext : k + 1 < n
      · rw [if_pos hnext, if_pos hnext]
        refine hc.moveTo hpos hdata (hc.acts .s3a (by decide)) ?_ (by rw [hc.dir]; exact hdir) rfl rfl (unlatched hc.other)
        exact (hc.index _ _ _).trans (index_after_loop ⟨hk.left, hnext⟩ true)
      · rw [if_neg hnext, if_neg hnext]
        refine hc.moveTo hpos hdata (hc.acts .s4 (by decide)) ?_ (by rw [hc.dir]; exact hdir) rfl rfl (unlatched hc.other)
        exact (hc.index _ _ _).trans (index_after_loop hk false)
  · exact proceeds_await hdata hseq hpos (hmove (by decide) hdata (hsame rfl) (by rw [hc.dir]; exact hdir) rfl rfl)
  · exact proceeds_next (hmove (by decide) (dataInv_setDirection .receive hdata) (hsame rfl) (by rw [hc.dir]; rfl) rfl rfl)
  · exact proceeds_next (hmove (by decide) hdata (hsame rfl) (by rw [hc.dir]; exact hdir) rfl rfl)
  · exact proceeds_next (hc.finish hpos hdata rfl rfl)

/-- R82. -/
theorem sendbuf_advances {ptr len : Half} (hlegal : legal (.sendbuf ptr len) s.hm = true) (hdata : dataInv s = true)
    (hseq : s.seq = .at 0x4 l sub k a) (hpos : Positioned (.sendbuf ptr len) s l sub k a) :
    Proceeds (Advances (.sendbuf ptr len) s) (exec (.sendbuf ptr len) s) := by
  rw [show exec (.sendbuf ptr len) s = _ from atPosition_at (.sendbuf ptr len) hseq _]
  exact transmit_advances (transmits_sendbuf hlegal) hdata hseq hpos

/-- R81. -/
theorem sends_advances {ptr : Half} (hlegal : legal (.sends ptr) s.hm = true) (hdata : dataInv s = true)
    (hseq : s.seq = .at 0x3 l sub k a) (hpos : Positioned (.sends ptr) s l sub k a) :
    Proceeds (Advances (.sends ptr) s) (exec (.sends ptr) s) := by
  obtain ⟨n, hstring⟩ := Option.isSome_iff_exists.mp (show (stringLength s.hm ptr).isSome = true from hlegal)
  rw [exec_sends_at hseq hstring]
  exact transmit_advances (transmits_sends hstring) hdata hseq hpos

/-- R21: the two resets keep the count within the capacity. -/
theorem dataInv_firstReset (order : Bool) (hdata : dataInv s = true) : dataInv (firstReset order s) = true := by
  have h := (dataInv_iff s).mp hdata
  refine (dataInv_iff _).mpr ⟨h.wf, ?_, h.pin, h.status, h.value, h.count, h.lowest, h.highest, h.cfg⟩
  cases order with
  | false => exact Nat.zero_le _
  | true => exact h.rxCount

theorem dataInv_secondReset (order : Bool) (hdata : dataInv s = true) : dataInv (secondReset order s) = true := by
  have h := (dataInv_iff s).mp hdata
  refine (dataInv_iff _).mpr ⟨h.wf, ?_, h.pin, h.status, h.value, h.count, h.lowest, h.highest, h.cfg⟩
  cases order with
  | false => exact h.rxCount
  | true => exact Nat.zero_le _

/-- R84. -/
theorem recv_advances {ptr len : Half} (hlegal : legal (.recv ptr len) s.hm = true) (hdata : dataInv s = true)
    (hseq : s.seq = .at 0x5 l sub k a) (hpos : Positioned (.recv ptr len) s l sub k a) :
    Proceeds (Advances (.recv ptr len) s) (exec (.recv ptr len) s) := by
  have hc : HalfDuplex (.recv ptr len) := halfDuplex_of_opcode (by decide : (0x5#4).toNat ≤ 8)
  have hinside : ptr.toNat + len.toNat ≤ 0x10000 := (bufferInside_iff ptr len).mp hlegal
  have h := (dataInv_iff s).mp hdata
  have ⟨hnumbered, hindex, _, _, _, hlatched⟩ := hpos
  obtain ⟨rfl, hk⟩ : a = 0 ∧ k ≤ min len.toNat Config.rxCap := by simpa [indexAt] using hindex
  have helse {l' : Line} (hl' : l' ≠ .s3) {P : Prop} (hrecv : (Instr.recv ptr len).opcode = 0x5 ∧ l' = .s3) : P :=
    absurd hrecv.right hl'
  have hcounted (n : Word) (hn : n.toNat < 2 ^ 16) : dataInv { s with count := n } = true :=
    (dataInv_iff _).mpr ⟨h.wf, h.rxCount, h.pin, h.status, h.value, hn, h.lowest, h.highest, h.cfg⟩
  obtain ⟨rfl, rfl | rfl | rfl | rfl | rfl | rfl⟩ : sub = .act ∧
      (l = .s1 ∨ l = .s2 ∨ l = .s3 ∨ l = .s4 ∨ l = .s5 ∨ l = .s6) := by
    simpa [numbered, waitsAt, actsAt] using hnumbered
  · rw [show exec (.recv ptr len) s = _ from atPosition_at (.recv ptr len) hseq _]
    dsimp only
    split
    · exact proceeds_next (hc.moveTo hpos hdata rfl hindex rfl rfl rfl (helse (by decide)))
    · exact proceeds_next (hc.finish hpos (hcounted 0 (by decide)) rfl rfl)
  · rw [show exec (.recv ptr len) s = _ from atPosition_at (.recv ptr len) hseq _]
    exact proceeds_next (hc.moveTo hpos hdata rfl rfl rfl rfl rfl fun _ => h.rxCount)
  · by_cases hend : copyBound len s ≤ k
    · rw [exec_recv_loop_exit hseq hend]
      exact proceeds_next (hc.moveTo hpos hdata rfl hindex rfl rfl rfl (helse (by decide)))
    · have hbound : k < copyBound len s := Nat.lt_of_not_le hend
      have hmax : copyBound len s ≤ min len.toNat Config.rxCap := by
        have hc0 := hlatched ⟨rfl, rfl⟩
        have hcount := h.rxCount
        rw [copyBound_eq]
        split <;> omega
      have hcap : k < 256 := Nat.lt_of_lt_of_le hbound (hmax.trans (Nat.min_le_right _ _))
      rw [exec_recv_copy hinside hcap hseq hbound]
      refine proceeds_next (hc.moveTo (l' := .s3) (k' := k + 1) (a' := 0)
        (w := { s with hm := memWrite s.hm (ptr.toNat + k) s.rxBuf[k], nc := BitVec.ofNat 16 (k + 1) })
        hpos ?_ rfl ?_ rfl rfl rfl fun _ => hlatched ⟨rfl, rfl⟩)
      · refine (dataInv_iff _).mpr ⟨memWrite_wf ?_ h.wf, h.rxCount, h.pin, h.status, h.value, h.count, h.lowest, h.highest,
          h.cfg⟩
        show ptr.toNat + k < 0x10000
        omega
      · simp only [indexAt, decide_true, Bool.true_and, decide_eq_true_eq]
        exact hbound.trans_le hmax
  · rw [show exec (.recv ptr len) s = _ from atPosition_at (.recv ptr len) hseq _]
    exact proceeds_next (hc.moveTo hpos (dataInv_firstReset _ hdata) rfl hindex rfl rfl rfl (helse (by decide)))
  · rw [show exec (.recv ptr len) s = _ from atPosition_at (.recv ptr len) hseq _]
    exact proceeds_next (hc.moveTo hpos (dataInv_secondReset _ hdata) rfl hindex rfl rfl rfl (helse (by decide)))
  · rw [show exec (.recv ptr len) s = _ from atPosition_at (.recv ptr len) hseq _]
    exact proceeds_next (hc.finish hpos (hcounted _ (countOfCopied_lt _)) rfl rfl)

/-- R86. -/
theorem avail_advances (hdata : dataInv s = true) (hseq : s.seq = .at 0x6 l sub k a) (hpos : Positioned .avail s l sub k a) :
    Proceeds (Advances .avail s) (exec .avail s) := by
  have hc : HalfDuplex .avail := halfDuplex_of_opcode (by decide : (0x6#4).toNat ≤ 8)
  have h := (dataInv_iff s).mp hdata
  obtain ⟨rfl, rfl⟩ : sub = .act ∧ l = .s1 := by simpa [numbered, waitsAt, actsAt] using hpos.numbered
  rw [show exec .avail s = _ from atPosition_at .avail hseq _]
  have hvalue : dataInv { s with value := valueOfFlag s.rxReady } = true :=
    (dataInv_iff _).mpr ⟨h.wf, h.rxCount, h.pin, h.status, (valueOfFlag_lt _), h.count, h.lowest, h.highest, h.cfg⟩
  exact proceeds_next (hc.finish hpos hvalue rfl rfl)

/-- R87. -/
theorem rxlen_advances (hdata : dataInv s = true) (hseq : s.seq = .at 0x7 l sub k a) (hpos : Positioned .rxlen s l sub k a) :
    Proceeds (Advances .rxlen s) (exec .rxlen s) := by
  have hc : HalfDuplex .rxlen := halfDuplex_of_opcode (by decide : (0x7#4).toNat ≤ 8)
  have h := (dataInv_iff s).mp hdata
  obtain ⟨rfl, rfl⟩ : sub = .act ∧ l = .s1 := by simpa [numbered, waitsAt, actsAt] using hpos.numbered
  rw [show exec .rxlen s = _ from atPosition_at .rxlen hseq _]
  have hcount : dataInv { s with count := countOfRxCount s.rxCount } = true :=
    (dataInv_iff _).mpr ⟨h.wf, h.rxCount, h.pin, h.status, h.value, countOfRxCount_lt _, h.lowest, h.highest, h.cfg⟩
  exact proceeds_next (hc.finish hpos hcount rfl rfl)

/-- R88. -/
theorem clrrx_advances (hdata : dataInv s = true) (hseq : s.seq = .at 0x8 l sub k a) (hpos : Positioned .clrrx s l sub k a) :
    Proceeds (Advances .clrrx s) (exec .clrrx s) := by
  have hc : HalfDuplex .clrrx := halfDuplex_of_opcode (by decide : (0x8#4).toNat ≤ 8)
  have hother : Instr.clrrx.opcode ≠ 0x5 := (by decide : 0x8#4 ≠ 0x5#4)
  rw [show exec .clrrx s = _ from atPosition_at .clrrx hseq _]
  obtain ⟨rfl, rfl | rfl | rfl⟩ : sub = .act ∧ (l = .s1 ∨ l = .s2 ∨ l = .s3) := by
    simpa [numbered, waitsAt, actsAt] using hpos.numbered
  · exact proceeds_next (hc.moveTo hpos (dataInv_firstReset (s := { s with rorder := _, draws := _ }) _ hdata) rfl hpos.index rfl
      rfl rfl (unlatched hother))
  · exact proceeds_next (hc.moveTo hpos (dataInv_secondReset _ hdata) rfl hpos.index rfl rfl rfl (unlatched hother))
  · exact proceeds_next (hc.finish hpos hdata rfl rfl)

end Commands

/-- Every numbered step taken from a state of the invariant is one of the model's and keeps the invariant. -/
theorem exec_advances {c : Instr} {s : State} {l : Line} {sub : Sub} {k a : Nat} (hlegal : legal c s.hm = true)
    (hdata : dataInv s = true) (hseq : s.seq = .at c.opcode l sub k a) (hpos : Positioned c s l sub k a) :
    Proceeds (Advances c s) (exec c s) := by
  cases c with
  | setdir d => exact setdir_advances hdata hseq hpos
  | sendb b => exact sendb_advances hdata hseq hpos
  | sends ptr => exact sends_advances hlegal hdata hseq hpos
  | sendbuf ptr len => exact sendbuf_advances hlegal hdata hseq hpos
  | recv ptr len => exact recv_advances hlegal hdata hseq hpos
  | avail => exact avail_advances hdata hseq hpos
  | rxlen => exact rxlen_advances hdata hseq hpos
  | clrrx => exact clrrx_advances hdata hseq hpos
  | wrb sa ra v => exact wrb_advances hdata hseq hpos
  | rdb sa ra => exact rdb_advances hdata hseq hpos
  | wrbuf sa ra ptr len => exact wrbuf_advances hlegal hdata hseq hpos
  | rdbuf sa ra ptr len => exact rdbuf_advances hlegal hdata hseq hpos
  | scan => exact scan_advances hdata hseq hpos

/-- R60: only SENDS's check reads HM, and SENDS changes none of it. -/
theorem legal_of_written {c : Instr} {s t : State} (h : t = written c s t) : legal c t.hm = legal c s.hm := by
  cases c with
  | recv ptr len => rfl
  | rdbuf sa ra ptr len => rfl
  | setdir d => rfl
  | sendb b => rfl
  | sends ptr => rw [h]; rfl
  | sendbuf ptr len => rfl
  | avail => rfl
  | rxlen => rfl
  | clrrx => rfl
  | wrb sa ra v => rfl
  | rdb sa ra => rfl
  | wrbuf sa ra ptr len => rfl
  | scan => rfl

/-- A numbered step keeps the invariant. -/
theorem exec_inv {c : Instr} {s : State} (hrun : s.seq ≠ .idle) (hc : decode s.cmd = .ok c) (h : Inv s = true) :
    Proceeds (fun t => Inv t = true ∧ FollowsArrows c s t) (exec c s) := by
  obtain ⟨hdata, hseqInv⟩ := Bool.and_eq_true_iff.mp h
  match hseq : s.seq with
  | .idle => contradiction
  | .at op l sub k a =>
    obtain ⟨c', hc', rfl, hlegal, hpos⟩ := (seqInv_running hseq).mp hseqInv
    obtain rfl : c' = c := Except.ok.inj (hc'.symm.trans hc)
    obtain ⟨t, ht, hadvances⟩ := exec_advances hlegal hdata hseq hpos
    have hwrites := (yields_iff.mp (exec_numberedStep hseq c') t ht).writes
    refine ⟨t, ht, ?_, hadvances.arrow⟩
    have hposition := hadvances.position
    refine Bool.and_eq_true_iff.mpr ⟨hadvances.data, ?_⟩
    match hnext : t.seq with
    | .idle =>
      rw [hnext] at hposition
      exact (seqInv_idle hnext).mpr hposition
    | .at op' l' sub' k' a' =>
      rw [hnext] at hposition
      obtain ⟨rfl, hpos'⟩ := hposition
      have hcmd : t.cmd = s.cmd := by rw [hwrites]; cases c' <;> rfl
      exact (seqInv_running hnext).mpr ⟨c', hcmd.symm ▸ hc, rfl, (legal_of_written hwrites).trans hlegal, hpos'⟩

/-- R109: a legal command is issued at the first step of its rule, where the invariant holds. -/
theorem inv_issued {c : Instr} {s : State} (hdata : dataInv s = true) (hc : decode s.cmd = .ok c)
    (hlegal : legal c s.hm = true) (hack : s.ackEn = true) (hphase : s.phase = .idle) :
    Inv { s with seq := .at c.opcode .s1 .act 0 0 } = true := by
  refine Bool.and_eq_true_iff.mpr ⟨hdata, (seqInv_running rfl).mpr ⟨c, hc, rfl, hlegal, ?_, ?_, ?_, ?_, ?_, ?_⟩⟩
  · cases c <;> simp [numbered, waitsAt, actsAt]
  · cases c with
    | sends ptr =>
      obtain ⟨n, hstring⟩ := Option.isSome_iff_exists.mp (show (stringLength s.hm ptr).isSome = true from hlegal)
      simp [indexAt, hstring, loopIndexAt]
    | _ => simp [indexAt, loopIndexAt]
  · rw [show ({ s with seq := .at c.opcode .s1 .act 0 0 } : State).phase = .idle from hphase]
    cases c <;> rfl
  · rw [show ({ s with seq := .at c.opcode .s1 .act 0 0 } : State).ackEn = true from hack]
    cases c <;> rfl
  · cases c <;> rfl
  · exact fun hrecv => absurd hrecv.right (by decide)

/-! ### Every agent's step -/

/-- R52: an access of the register block that has no meaning, while SEQ is Idle. -/
def BadAccess (act : Action) (s : State) : Prop :=
  s.seq = .idle ∧
    ((∃ off width v, act = .hostWrite off width v ∧ (width ≠ 4 ∨ off ∉ [0x00, 0x04])) ∨
      ∃ off width, act = .hostRead off width ∧
        (width ≠ 4 ∨ off ∉ [0x00, 0x04, 0x08, 0x0C, 0x10, 0x20, 0x24, 0x28, 0x2C]))

/-- What an agent's step does to a state of the invariant: a bad access is refused, and any other step keeps it. -/
def KeepsInv (act : Action) (s : State) (r : Result) : Prop :=
  (BadAccess act s ∧ ∃ x, r = .refused x) ∨ (¬ BadAccess act s ∧ ∃ t, r = .next t ∧ Inv t = true)

/-- A step whose action is no access of the register block. -/
theorem keepsInv_next {act : Action} {s t : State} (hact : ∀ off width v, act ≠ .hostWrite off width v)
    (hact' : ∀ off width, act ≠ .hostRead off width) (ht : Inv t = true) : KeepsInv act s (.next t) := by
  refine .inr ⟨?_, t, rfl, ht⟩
  rintro ⟨-, ⟨off, width, v, heq, -⟩ | ⟨off, width, heq, -⟩⟩
  · exact hact off width v heq
  · exact hact' off width heq

/-- The invariant while SEQ is Idle. -/
theorem inv_of_idle {s : State} (hdata : DataInv s) (hidle : s.seq = .idle) (hack : s.ackEn = true) (hphase : s.phase = .idle) :
    Inv s = true :=
  Bool.and_eq_true_iff.mpr ⟨(dataInv_iff s).mpr hdata, (seqInv_idle hidle).mpr ⟨hack, hphase⟩⟩

section Agents
variable {s : State} (h : Inv s = true)
include h

/-- R129: an issue. -/
theorem issueDescriptor_inv (hidle : s.seq = .idle) (hi : Word) : ∃ t, issueDescriptor hi s = .next t ∧ Inv t = true := by
  obtain ⟨hdata, hseq⟩ := Bool.and_eq_true_iff.mp h
  obtain ⟨hack, hphase⟩ := (seqInv_idle hidle).mp hseq
  have hissue (i : Instr) (hi' : decode (hi ++ s.cmdLo) = .ok i) (hlegal : legal i s.hm = true) :
      ∃ t, issueDescriptor hi s = .next t ∧ Inv t = true :=
    ⟨_, issueDescriptor_of_legal hidle hi' hlegal,
      inv_issued (s := { s with cmdHi := hi, cmd := hi ++ s.cmdLo }) hdata hi' hlegal hack hphase⟩
  by_cases hlegal : ∃ i, decode (hi ++ s.cmdLo) = .ok i ∧ legal i s.hm = true
  · obtain ⟨i, hi', hlegal⟩ := hlegal
    exact hissue i hi' hlegal
  · refine ⟨_, issueDescriptor_of_illegal hidle fun i hi' hin => hlegal ⟨i, hi', hin⟩, ?_⟩
    have hd := (dataInv_iff s).mp hdata
    refine inv_of_idle ⟨hd.wf, hd.rxCount, hd.pin, ?_, hd.value, hd.count, hd.lowest, hd.highest, hd.cfg⟩ hidle hack hphase
    exact (by decide : 0x04#32 ∈ [0x00#32, 0x01#32, 0x02#32, 0x04#32])

/-- R28, R52: a host write of the register block. -/
theorem hostWrite_keepsInv (off width : Nat) (v : Word) :
    KeepsInv (.hostWrite off width v) s (hostWriteStep off width v s) := by
  by_cases hidle : s.seq = .idle
  · by_cases hgood : width = 4 ∧ off ∈ [0x00, 0x04]
    · refine .inr ⟨?_, ?_⟩
      · rintro ⟨-, ⟨off', width', v', heq, hbad⟩ | ⟨_, _, heq, -⟩⟩
        · cases heq
          exact hbad.elim (fun hw => hw hgood.left) fun ho => ho hgood.right
        · cases heq
      · obtain ⟨rfl, hoff⟩ := hgood
        simp only [List.mem_cons, List.not_mem_nil, or_false] at hoff
        rcases hoff with rfl | rfl
        · rw [hostWriteStep_cmdLo v hidle]
          exact ⟨_, rfl, h⟩
        · rw [hostWriteStep_cmdHi v hidle]
          exact issueDescriptor_inv h hidle v
    · have hbad : width ≠ 4 ∨ off ∉ [0x00, 0x04] := not_and_or.mp hgood
      refine .inl ⟨⟨hidle, .inl ⟨off, width, v, rfl, hbad⟩⟩, ?_⟩
      cases haccess : accessRefusal s off width with
      | some r => exact ⟨r, hostWriteStep_refused v hidle haccess⟩
      | none =>
        obtain ⟨rfl, -⟩ := (accessRefusal_none_iff s off width).mp haccess
        have hoff : off ∉ [0x00, 0x04] := hbad.resolve_left fun hne => hne rfl
        exact ⟨_, hostWriteStep_readOnly v hidle haccess (fun heq => hoff (by simp [heq])) fun heq => hoff (by simp [heq])⟩
  · refine .inr ⟨fun hbad => hidle hbad.left, s, ?_, h⟩
    exact perform_host_running (act := .hostWrite off width v) hidle rfl

/-- R27, R52: a host read of the register block. -/
theorem hostRead_keepsInv (off width : Nat) : KeepsInv (.hostRead off width) s (hostReadStep off width s) := by
  by_cases hidle : s.seq = .idle
  · cases haccess : accessRefusal s off width with
    | some r =>
      refine .inl ⟨⟨hidle, .inr ⟨off, width, rfl, ?_⟩⟩, r, hostReadStep_refused hidle haccess⟩
      refine not_and_or.mp fun hgood => ?_
      rw [(accessRefusal_none_iff s off width).mpr hgood] at haccess
      cases haccess
    | none =>
      obtain ⟨hwidth, hoff⟩ := (accessRefusal_none_iff s off width).mp haccess
      refine .inr ⟨?_, { s with hostData := (registerAt s off).getD 0 }, ?_, h⟩
      · rintro ⟨-, ⟨_, _, _, heq, -⟩ | ⟨off', width', heq, hbad⟩⟩
        · cases heq
        · cases heq
          exact hbad.elim (fun hw => hw hwidth) fun ho => ho hoff
      · simp [hostReadStep, seqIdle_of_idle hidle, haccess]
  · refine .inr ⟨fun hbad => hidle hbad.left, s, ?_, h⟩
    exact perform_host_running (act := .hostRead off width) hidle rfl

/-- R129: the host's own write of HM. -/
theorem hmWriteStep_inv (a : Half) (v : Byte) : Inv (hmWriteStep a v s) = true := by
  obtain ⟨hdata, hseq⟩ := Bool.and_eq_true_iff.mp h
  by_cases hidle : s.seq = .idle
  · rw [hmWriteStep_of_idle a v hidle]
    have hd := (dataInv_iff s).mp hdata
    obtain ⟨hack, hphase⟩ := (seqInv_idle hidle).mp hseq
    exact inv_of_idle ⟨memWrite_wf a.isLt hd.wf, hd.rxCount, hd.pin, hd.status, hd.value, hd.count, hd.lowest, hd.highest,
      hd.cfg⟩ hidle hack hphase
  · unfold hmWriteStep
    rw [seqIdle_of_running hidle]
    exact h

/-- R131: Reset. -/
theorem resetEvent_inv : Inv (resetEvent s) = true := by
  obtain ⟨hdata, -⟩ := Bool.and_eq_true_iff.mp h
  have hd := (dataInv_iff s).mp hdata
  have hr := (dataInv_iff State.reset).mp (Bool.and_eq_true_iff.mp resetSatisfiesTheInvariant).left
  exact inv_of_idle ⟨hd.wf, hr.rxCount, rfl, hr.status, hr.value, hr.count, hr.lowest, hr.highest, hd.cfg⟩ rfl rfl rfl

/-- R16: a step of any agent. -/
theorem perform_keepsInv (act : Action) : KeepsInv act s (perform act s) := by
  cases act with
  | seq answer =>
    by_cases hidle : s.seq = .idle
    · rw [perform, seqStep, seqIdle_of_idle hidle, if_pos rfl]
      exact keepsInv_next nofun nofun h
    · obtain ⟨-, hseq⟩ := Bool.and_eq_true_iff.mp h
      match hpos : s.seq with
      | .idle => contradiction
      | .at op l sub k a =>
        obtain ⟨c, hc, -⟩ := (seqInv_running hpos).mp hseq
        obtain ⟨t, ht, hinv, -⟩ := exec_inv (s := { s with env := answer }) hidle hc h
        rw [perform, seqStep_running answer hidle hc, ht]
        exact keepsInv_next nofun nofun hinv
  | rxc b =>
    rw [perform]
    refine keepsInv_next nofun nofun ?_
    split
    · obtain ⟨hdata, hseq⟩ := Bool.and_eq_true_iff.mp h
      have hd := (dataInv_iff s).mp hdata
      exact Bool.and_eq_true_iff.mpr ⟨(dataInv_iff _).mpr ⟨hd.wf, rxcAppend_count_le b hd.rxCount, hd.pin, hd.status, hd.value,
        hd.count, hd.lowest, hd.highest, hd.cfg⟩, hseq⟩
    · exact h
  | tick => exact keepsInv_next nofun nofun h
  | raise => exact keepsInv_next nofun nofun h
  | hostWrite off width v => exact hostWrite_keepsInv h off width v
  | hostRead off width => exact hostRead_keepsInv h off width
  | hmWrite a v => exact keepsInv_next nofun nofun (hmWriteStep_inv h a v)
  | hmRead a =>
    refine keepsInv_next nofun nofun ?_
    unfold hmReadStep
    split
    · exact h
    · exact h
  | reset => exact keepsInv_next nofun nofun (resetEvent_inv h)

/-- R16: one step of the machine. -/
theorem step_keepsInv : KeepsInv (nextAction s).1 s (step s) := by
  obtain ⟨agenda, draws, hstate⟩ := nextAction_state s
  rw [step, hstate]
  exact perform_keepsInv (s := { s with agenda := agenda, draws := draws }) h _

end Agents

/-- Settles O50: a step that gives a next state is no bad access. -/
theorem everyStepKeepsTheInvariant : Obligations.EveryStepKeepsTheInvariant := by
  intro s t h ht
  rcases step_keepsInv h with ⟨-, r, hr⟩ | ⟨-, u, hu, hinv⟩
  · cases ht.symm.trans hr
  · obtain rfl := Host.Outcome.next.inj (hu.symm.trans ht)
    exact hinv

/-- Settles O52: a step of a state of the invariant gives a next state unless it is a bad access. -/
theorem onlyBadHostAccessesStop : Obligations.OnlyBadHostAccessesStop := by
  intro s h
  rcases step_keepsInv h with ⟨hbad, r, hr⟩ | ⟨hgood, u, hu, -⟩
  · exact ⟨fun f hf => absurd (hf.symm.trans hr) nofun, fun _ => hbad, fun _ => ⟨r, hr⟩⟩
  · exact ⟨fun f hf => absurd (hf.symm.trans hu) nofun, fun ⟨r, hr⟩ => absurd (hr.symm.trans hu) nofun, fun hbad => absurd hbad hgood⟩

/-- Settles O55: SEQ's turn is the command's numbered step. -/
theorem phaseFollowsTheArrows : Obligations.PhaseFollowsTheArrows := by
  intro s t c answer h hc hop hrun hact ht hne
  obtain ⟨agenda, draws, hstate⟩ := nextAction_state s
  rw [step, hact, hstate, perform, seqStep_running (s := { s with agenda := agenda, draws := draws }) answer hrun hc] at ht
  obtain ⟨u, hu, -, harrow⟩ :=
    exec_inv (s := { s with agenda := agenda, draws := draws, env := answer }) hrun hc h
  obtain rfl := Host.Outcome.next.inj (hu.symm.trans ht)
  rcases harrow with hsame | harrow | habort | rfl
  · exact absurd hsame hne
  · exact .inl harrow
  · exact .inr habort
  · exact absurd hop (by decide)

end Sys2Proof.Machine
end

section
/-! The values R131 leaves open are unobservable (R133): a run and the run with other latches, receive-buffer contents and
clock go the same way, because each latch is written before a step reads it. -/

namespace Sys2Proof.Machine

/-- `s` with the receive buffer's contents, the latches and the clock of `x`. -/
def latched (s x : State) : State :=
  { s with
    rxBuf := x.rxBuf, cmd := x.cmd, wstart := x.wstart, wok := x.wok, c0 := x.c0, nc := x.nc, rorder := x.rorder,
    rbound := x.rbound, found := x.found, rdByte := x.rdByte, tick := x.tick }

/-- The latches that the step at a line, or a later one, reads before they are written are the same in `x` as in `s`. -/
structure SameLatches (op : BitVec 4) (l : Line) (sub : Sub) (s x : State) : Prop where
  cmd : x.cmd = s.cmd
  poll : sub = .poll → x.tick - x.wstart = s.tick - s.wstart
  test : sub = .test → x.wok = s.wok
  drain : op = 0x5 ∧ l ∈ [.s3, .s4, .s5, .s6] →
    x.c0 = s.c0 ∧ x.nc = s.nc ∧ x.rorder = s.rorder ∧ x.rbound = s.rbound ∧ (l = .s3 → s.c0.toNat ≤ s.rxCount.toNat)
  clear : op = 0x8 ∧ l = .s2 → x.rorder = s.rorder
  scan : op = 0xD ∧ l ≠ .s1 → x.found = s.found
  read : op = 0xA ∧ l ∈ [.s16, .s17] → x.rdByte = s.rdByte

/-- What of `x` cannot differ from `s`: the bytes in the receive buffer, and the latches in use. -/
structure Agrees (s x : State) : Prop where
  buffer : ∀ k, k < s.rxCount.toNat → x.rxBuf[k]? = s.rxBuf[k]?
  position : match s.seq with
    | .idle => True
    | .at op l sub _ _ => SameLatches op l sub s x

/-- If the first result is a next state, so is the second, which differs from it in what is unobservable only. -/
def Parallel (r r' : Result) : Prop := ∀ t, r = .next t → ∃ y, r' = .next (latched t y) ∧ Agrees t y

theorem parallel_next {t : State} (y : State) (h : Agrees t y) : Parallel (.next t) (.next (latched t y)) := by
  rintro _ ⟨⟩
  exact ⟨y, rfl, h⟩

theorem parallel_fault (f : Fault) (r : Result) : Parallel (.fault f) r := by
  intro t h
  cases h

theorem parallel_refused (x : Refusal) (r : Result) : Parallel (.refused x) r := by
  intro t h
  cases h

section Rules
variable {s x : State} {op : BitVec 4} {l : Line} {sub : Sub} {k a : Nat}

/-- The latches in use at a line of `op` at which none of them is. -/
theorem sameLatches_act {w y : State} {l' : Line} (hcmd : y.cmd = w.cmd) (hdrain : op = 0x5 → l' ∉ [.s3, .s4, .s5, .s6])
    (hclear : op = 0x8 → l' ≠ .s2) (hscan : op ≠ 0xD) (hread : op = 0xA → l' ∉ [.s16, .s17]) :
    SameLatches op l' .act w y :=
  ⟨hcmd, nofun, nofun, fun h => absurd h.right (hdrain h.left), fun h => absurd h.right (hclear h.left),
    fun h => absurd h.left hscan, fun h => absurd h.right (hread h.left)⟩

/-- A wait: its entry latches the clock, a poll reads how much has elapsed, and the step after it how it ended. -/
theorem parallel_waitLine {cond : Cond} {budget : Nat} {passed failed passed' failed' : State → State} (h : Agrees s x)
    (hseq : s.seq = .at op l sub k a) (hlatch : SameLatches op l .act s x)
    (hpass : Parallel (.next (passed s)) (.next (passed' (latched s x))))
    (hfail : Parallel (.next (failed s)) (.next (failed' (latched s x)))) :
    Parallel (waitLine cond budget op l sub k a passed failed s) (waitLine cond budget op l sub k a passed' failed' (latched s x)) := by
  have hpos := h.position
  rw [hseq] at hpos
  obtain ⟨hcmd, -, -, hdrain, hclear, hscan, hread⟩ := hlatch
  cases sub with
  | act =>
    rw [waitLine_act, waitLine_act]
    exact parallel_next { x with wstart := x.tick } ⟨h.buffer, hcmd, fun _ => by simp, nofun, hdrain, hclear, hscan, hread⟩
  | poll =>
    rw [waitLine_poll, waitLine_poll]
    have helapsed : elapsed (latched s x) = elapsed s := congrArg BitVec.toNat (hpos.poll rfl)
    rw [helapsed]
    have hended (ok : Bool) : Parallel
        (.next { emit (Script.waitEvent ok cond) s with wok := ok, seq := .at op l .test k a })
        (.next { emit (Script.waitEvent ok cond) (latched s x) with wok := ok, seq := .at op l .test k a }) :=
      parallel_next { x with wok := ok } ⟨h.buffer, hcmd, nofun, fun _ => rfl, hdrain, hclear, hscan, hread⟩
    have henv : (latched s x).env = s.env := rfl
    rw [henv]
    split
    · exact hended true
    · split
      · exact hended false
      · refine parallel_next x ⟨h.buffer, ?_⟩
        rw [hseq]
        exact hpos
  | test =>
    rw [waitLine_test, waitLine_test, show (latched s x).wok = s.wok from hpos.test rfl]
    split
    · exact hpass
    · exact hfail

/-- A wait that a parameter selects. -/
theorem parallel_waitLineIf {enabled : Bool} {cond : Cond} {budget : Nat} {passed failed passed' failed' : State → State}
    (h : Agrees s x) (hseq : s.seq = .at op l sub k a) (hlatch : SameLatches op l .act s x)
    (hpass : Parallel (.next (passed s)) (.next (passed' (latched s x))))
    (hfail : Parallel (.next (failed s)) (.next (failed' (latched s x)))) :
    Parallel (waitLineIf enabled cond budget op l sub k a passed failed s)
      (waitLineIf enabled cond budget op l sub k a passed' failed' (latched s x)) := by
  unfold waitLineIf
  split
  · exact hpass
  · exact parallel_waitLine h hseq hlatch hpass hfail

/-- A step to another line. -/
theorem parallel_moveTo {l' : Line} {k' a' : Nat} {w : State} (y : State)
    (hbuf : ∀ k, k < w.rxCount.toNat → y.rxBuf[k]? = w.rxBuf[k]?) (hlatch : SameLatches op l' .act w y) :
    Parallel (.next (moveTo op l' k' a' w)) (.next (moveTo op l' k' a' (latched w y))) :=
  parallel_next y ⟨hbuf, hlatch.cmd, nofun, nofun, hlatch.drain, hlatch.clear, hlatch.scan, hlatch.read⟩

/-- A step to a line at which no latch is in use, which changes none of the receive buffer and its count. -/
theorem parallel_free {l' : Line} {k' a' : Nat} {w : State} (h : Agrees s x) (hcmd : x.cmd = s.cmd)
    (hdrain : op = 0x5 → l' ∉ [.s3, .s4, .s5, .s6]) (hclear : op = 0x8 → l' ≠ .s2) (hscan : op ≠ 0xD)
    (hread : op = 0xA → l' ∉ [.s16, .s17])
    (hw : w.rxCount = s.rxCount ∧ w.rxBuf = s.rxBuf ∧ w.cmd = s.cmd) :
    Parallel (.next (moveTo op l' k' a' w)) (.next (moveTo op l' k' a' (latched w x))) := by
  obtain ⟨hcount, hbuf, hsame⟩ := hw
  exact parallel_moveTo x (hcount ▸ hbuf ▸ h.buffer)
    (sameLatches_act (hcmd.trans hsame.symm) hdrain hclear hscan hread)

/-- A step that ends the command. -/
theorem parallel_finish {w : State} (y : State) (hseq : w.seq = .idle)
    (hbuf : ∀ k, k < w.rxCount.toNat → y.rxBuf[k]? = w.rxBuf[k]?) : Parallel (.next w) (.next (latched w y)) := by
  refine parallel_next y ⟨hbuf, ?_⟩
  rw [hseq]
  trivial

/-- A wait without limit. -/
theorem parallel_await {cond : Cond} {next : State → State} (h : Agrees s x)
    (hnext : Parallel (.next (next (emit (.waitOk cond) s))) (.next (next (emit (.waitOk cond) (latched s x))))) :
    Parallel (await cond next s) (await cond next (latched s x)) := by
  rw [await_eq, await_eq, show (latched s x).env = s.env from rfl]
  split
  · exact hnext
  · exact parallel_next x h

/-- The position at which a running command's step is taken is the same in both. -/
theorem parallel_atPosition {i : Instr} {f f' : Line → Sub → Nat → Nat → Result} (hseq : s.seq = .at op l sub k a)
    (hf : s.seq = .at i.opcode l sub k a → Parallel (f l sub k a) (f' l sub k a)) :
    Parallel (atPosition i s f) (atPosition i (latched s x) f') := by
  unfold atPosition
  rw [show (latched s x).seq = s.seq from rfl, hseq]
  dsimp only
  split
  · next hop => exact hf (hop ▸ hseq)
  · exact parallel_fault _ _

/-- Two tables of lines that may be silent. -/
def ParallelLines : Option Result → Option Result → Prop
  | some r, some r' => Parallel r r'
  | none, none => True
  | some _, none => False
  | none, some _ => False

theorem parallel_getD {o o' : Option Result} {d d' : Result} (ho : ParallelLines o o') (hd : Parallel d d') :
    Parallel (o.getD d) (o'.getD d') := by
  cases o <;> cases o' <;> first | exact ho | exact hd | exact ho.elim

theorem parallelLines_or {o o' p p' : Option Result} (ho : ParallelLines o o') (hp : ParallelLines p p') :
    ParallelLines (o.or p) (o'.or p') := by
  cases o <;> cases o' <;> first | exact ho | exact hp | exact ho.elim

/-- The lines of the address part. -/
theorem addressLines_parallel {sa : SlaveAddr} {ra : RegAddr} {next : State → State} (h : Agrees s x)
    (hseq : s.seq = .at op l sub k a) (hop : op ≠ 0x5 ∧ op ≠ 0x8 ∧ op ≠ 0xD)
    (hnext : l = .s7 → Parallel (.next (next s)) (.next (next (latched s x)))) :
    ParallelLines (addressLines op sa ra next l sub k a s) (addressLines op sa ra next l sub k a (latched s x)) := by
  have hpos := h.position
  rw [hseq] at hpos
  obtain ⟨hrecv, hclrrx, hscan⟩ := hop
  have hfree {l' : Line} (hl' : l' ∉ [.s16, .s17]) : SameLatches op l' .act s x :=
    sameLatches_act hpos.cmd (fun heq => absurd heq hrecv) (fun heq => absurd heq hclrrx) hscan fun _ => hl'
  have hmove {l' : Line} {w : State} (hl' : l' ∉ [.s16, .s17]) (hw : w.rxCount = s.rxCount ∧ w.rxBuf = s.rxBuf ∧ w.cmd = s.cmd) :
      Parallel (.next (moveTo op l' k a w)) (.next (moveTo op l' k a (latched w x))) :=
    parallel_free h hpos.cmd (fun heq => absurd heq hrecv) (fun heq => absurd heq hclrrx) hscan (fun _ => hl') hw
  unfold addressLines
  split
  · exact parallel_waitLineIf h hseq (hfree (by decide)) (hmove (by decide) ⟨rfl, rfl, rfl⟩) (hmove (by decide) ⟨rfl, rfl, rfl⟩)
  · exact hmove (by decide) ⟨rfl, rfl, rfl⟩
  · exact parallel_waitLine h hseq (hfree (by decide)) (hmove (by decide) ⟨rfl, rfl, rfl⟩) (hmove (by decide) ⟨rfl, rfl, rfl⟩)
  · exact hmove (by decide) ⟨rfl, rfl, rfl⟩
  · exact parallel_waitLine h hseq (hfree (by decide)) (hmove (by decide) ⟨rfl, rfl, rfl⟩) (hmove (by decide) ⟨rfl, rfl, rfl⟩)
  · exact hmove (by decide) ⟨rfl, rfl, rfl⟩
  · exact parallel_waitLine h hseq (hfree (by decide)) (hnext rfl) (hmove (by decide) ⟨rfl, rfl, rfl⟩)
  · trivial

/-- The lines of the repeated start and the read address. -/
theorem readAddressLines_parallel {sa : SlaveAddr} (h : Agrees s x) (hseq : s.seq = .at op l sub k a)
    (hop : op ≠ 0x5 ∧ op ≠ 0x8 ∧ op ≠ 0xD) :
    ParallelLines (readAddressLines op sa l sub k a s) (readAddressLines op sa l sub k a (latched s x)) := by
  have hpos := h.position
  rw [hseq] at hpos
  obtain ⟨hrecv, hclrrx, hscan⟩ := hop
  have hfree {l' : Line} (hl' : l' ∉ [.s16, .s17]) : SameLatches op l' .act s x :=
    sameLatches_act hpos.cmd (fun heq => absurd heq hrecv) (fun heq => absurd heq hclrrx) hscan fun _ => hl'
  have hmove {l' : Line} {w : State} (hl' : l' ∉ [.s16, .s17]) (hw : w.rxCount = s.rxCount ∧ w.rxBuf = s.rxBuf ∧ w.cmd = s.cmd) :
      Parallel (.next (moveTo op l' k a w)) (.next (moveTo op l' k a (latched w x))) :=
    parallel_free h hpos.cmd (fun heq => absurd heq hrecv) (fun heq => absurd heq hclrrx) hscan (fun _ => hl') hw
  unfold readAddressLines
  split
  · exact hmove (by decide) ⟨rfl, rfl, rfl⟩
  · exact parallel_waitLine h hseq (hfree (by decide)) (hmove (by decide) ⟨rfl, rfl, rfl⟩) (hmove (by decide) ⟨rfl, rfl, rfl⟩)
  · exact hmove (by decide) ⟨rfl, rfl, rfl⟩
  · exact parallel_waitLine h hseq (hfree (by decide)) (hmove (by decide) ⟨rfl, rfl, rfl⟩) (hmove (by decide) ⟨rfl, rfl, rfl⟩)
  · trivial

/-- The lines of the abort. -/
theorem abortLines_parallel {read : Bool} (h : Agrees s x) (hseq : s.seq = .at op l sub k a)
    (hop : op ≠ 0x5 ∧ op ≠ 0x8 ∧ op ≠ 0xD) :
    Parallel (abortLines op read l sub k a s) (abortLines op read l sub k a (latched s x)) := by
  have hpos := h.position
  rw [hseq] at hpos
  obtain ⟨hrecv, hclrrx, hscan⟩ := hop
  have hmove {l' : Line} {w : State} (hl' : l' ∉ [.s16, .s17]) (hw : w.rxCount = s.rxCount ∧ w.rxBuf = s.rxBuf ∧ w.cmd = s.cmd) :
      Parallel (.next (moveTo op l' k a w)) (.next (moveTo op l' k a (latched w x))) :=
    parallel_free h hpos.cmd (fun heq => absurd heq hrecv) (fun heq => absurd heq hclrrx) hscan (fun _ => hl') hw
  unfold abortLines
  split
  · rw [show (latched s x).cfg = s.cfg from rfl]
    split
    · exact hmove (by decide) ⟨rfl, rfl, rfl⟩
    · exact hmove (by decide) ⟨rfl, rfl, rfl⟩
  · split
    · exact hmove (by decide) ⟨rfl, rfl, rfl⟩
    · exact hmove (by decide) ⟨rfl, rfl, rfl⟩
  · split
    · exact parallel_finish x rfl h.buffer
    · exact parallel_finish x rfl h.buffer
  · exact parallel_fault _ _

end Rules

/-! ### The numbered steps -/

/-- The receive buffer's bytes below a count that is not above the present one. -/
theorem Agrees.buffer_of_le {s x w : State} (h : Agrees s x) (hle : w.rxCount.toNat ≤ s.rxCount.toNat)
    (hbuf : w.rxBuf = s.rxBuf) (k : Nat) (hk : k < w.rxCount.toNat) : x.rxBuf[k]? = w.rxBuf[k]? := by
  rw [hbuf]
  exact h.buffer k (Nat.lt_of_lt_of_le hk hle)

section Commands
variable {s x : State} {op : BitVec 4} {l : Line} {sub : Sub} {k a : Nat} (h : Agrees s x)
  (hseq : s.seq = .at op l sub k a)
include h hseq

theorem sameLatches_of_agrees : SameLatches op l sub s x := by
  have hpos := h.position
  rwa [hseq] at hpos

theorem execSetdir_parallel (d : Direction) : Parallel (execSetdir d s) (execSetdir d (latched s x)) := by
  refine parallel_atPosition hseq fun hseq => ?_
  have hmove {l' : Line} {w : State} (hw : w.rxCount = s.rxCount ∧ w.rxBuf = s.rxBuf ∧ w.cmd = s.cmd) :
      Parallel (.next (moveTo 0x1 l' k a w)) (.next (moveTo 0x1 l' k a (latched w x))) :=
    parallel_free h (sameLatches_of_agrees h hseq).cmd nofun nofun nofun nofun hw
  split
  · exact hmove ⟨rfl, rfl, rfl⟩
  · exact hmove ⟨rfl, rfl, rfl⟩
  · exact parallel_finish x rfl h.buffer
  · exact parallel_fault _ _

theorem execSendb_parallel (b : Byte) : Parallel (execSendb b s) (execSendb b (latched s x)) := by
  refine parallel_atPosition hseq fun hseq => ?_
  have hmove {l' : Line} {w : State} (hw : w.rxCount = s.rxCount ∧ w.rxBuf = s.rxBuf ∧ w.cmd = s.cmd) :
      Parallel (.next (moveTo 0x2 l' k a w)) (.next (moveTo 0x2 l' k a (latched w x))) :=
    parallel_free h (sameLatches_of_agrees h hseq).cmd nofun nofun nofun nofun hw
  split
  · exact hmove ⟨rfl, rfl, rfl⟩
  · exact hmove ⟨rfl, rfl, rfl⟩
  · exact parallel_await h (hmove ⟨rfl, rfl, rfl⟩)
  · exact hmove ⟨rfl, rfl, rfl⟩
  · exact parallel_await h (hmove ⟨rfl, rfl, rfl⟩)
  · exact hmove ⟨rfl, rfl, rfl⟩
  · exact hmove ⟨rfl, rfl, rfl⟩
  · exact parallel_finish x rfl h.buffer
  · exact parallel_fault _ _

theorem transmitLines_parallel (ptr : Half) (n : Nat) (hop : op = 0x3 ∨ op = 0x4) :
    Parallel (transmitLines op ptr n l sub k a s) (transmitLines op ptr n l sub k a (latched s x)) := by
  have hmove {l' : Line} {k' : Nat} {w : State} (hw : w.rxCount = s.rxCount ∧ w.rxBuf = s.rxBuf ∧ w.cmd = s.cmd) :
      Parallel (.next (moveTo op l' k' a w)) (.next (moveTo op l' k' a (latched w x))) := by
    refine parallel_free h (sameLatches_of_agrees h hseq).cmd ?_ ?_ ?_ ?_ hw <;> rcases hop with rfl | rfl <;> nofun
  unfold transmitLines
  split
  · exact hmove ⟨rfl, rfl, rfl⟩
  · exact hmove ⟨rfl, rfl, rfl⟩
  · exact parallel_await h (hmove ⟨rfl, rfl, rfl⟩)
  · rw [show hmLoad (latched s x) (bufferAddress ptr k) = hmLoad s (bufferAddress ptr k) from rfl]
    split
    · exact hmove ⟨rfl, rfl, rfl⟩
    · exact parallel_fault _ _
  · exact parallel_await h (hmove ⟨rfl, rfl, rfl⟩)
  · exact hmove ⟨rfl, rfl, rfl⟩
  · exact hmove ⟨rfl, rfl, rfl⟩
  · exact parallel_finish x rfl h.buffer
  · exact parallel_fault _ _

theorem execSendbuf_parallel (ptr len : Half) : Parallel (execSendbuf ptr len s) (execSendbuf ptr len (latched s x)) :=
  parallel_atPosition hseq fun hseq => transmitLines_parallel h hseq ptr len.toNat (.inr rfl)

theorem execSends_parallel (ptr : Half) : Parallel (execSends ptr s) (execSends ptr (latched s x)) := by
  refine parallel_atPosition hseq fun hseq => ?_
  rw [show (latched s x).hm = s.hm from rfl]
  split
  · exact transmitLines_parallel h hseq ptr _ (.inl rfl)
  · exact parallel_fault _ _

theorem execRecv_parallel (ptr len : Half) : Parallel (execRecv ptr len s) (execRecv ptr len (latched s x)) := by
  refine parallel_atPosition hseq fun hseq => ?_
  have hlatch := sameLatches_of_agrees h hseq
  split
  · rw [show (latched s x).rxReady = s.rxReady from rfl]
    split
    · exact parallel_free h hlatch.cmd (fun _ => by decide) nofun nofun nofun ⟨rfl, rfl, rfl⟩
    · exact parallel_finish x rfl h.buffer
  · exact parallel_moveTo
      { x with c0 := s.rxCount, nc := 0, rorder := Config.drawBit s.draws, rbound := Config.drawBit (s.draws + 1) } h.buffer
      ⟨hlatch.cmd, nofun, nofun, fun _ => ⟨rfl, rfl, rfl, rfl, fun _ => Nat.le_refl _⟩, nofun, nofun, nofun⟩
  · obtain ⟨hc0, hnc, horder, hbound, hgrown⟩ := hlatch.drain ⟨rfl, by decide⟩
    have hsame : copyBound len (latched s x) = copyBound len s := by
      rw [copyBound_eq, copyBound_eq]
      exact congrArg _ (by rw [show (latched s x).rbound = s.rbound from hbound, show (latched s x).c0 = s.c0 from hc0]; rfl)
    rw [hsame]
    split
    · exact parallel_moveTo x h.buffer
        ⟨hlatch.cmd, nofun, nofun, fun _ => ⟨hc0, hnc, horder, hbound, nofun⟩, nofun, nofun, nofun⟩
    · next hmore =>
      have hk : k < s.rxCount.toNat := by
        have hgrown := hgrown rfl
        rw [copyBound_eq] at hmore
        split at hmore <;> omega
      unfold copyByte
      rw [show (latched s x).rxBuf[k]? = s.rxBuf[k]? from h.buffer k hk]
      split
      · next v hv =>
        rw [show hmStore (latched s x) (bufferAddress ptr k) v =
          (hmStore s (bufferAddress ptr k) v).map (latched · x) by unfold hmStore; split <;> rfl]
        split
        · next t ht =>
          obtain ⟨-, rfl⟩ := hmStore_some ht
          rw [ht]
          exact parallel_moveTo { x with nc := BitVec.ofNat 16 (k + 1) } h.buffer
            ⟨hlatch.cmd, nofun, nofun, fun _ => ⟨hc0, rfl, horder, hbound, fun _ => hgrown rfl⟩, nofun, nofun, nofun⟩
        · exact parallel_fault _ _
      · exact parallel_fault _ _
  · obtain ⟨hc0, hnc, horder, hbound, -⟩ := hlatch.drain ⟨rfl, by decide⟩
    rw [show (latched s x).rorder = s.rorder from horder]
    refine parallel_moveTo x (h.buffer_of_le ?_ rfl)
      ⟨hlatch.cmd, nofun, nofun, fun _ => ⟨hc0, hnc, horder, hbound, nofun⟩, nofun, nofun, nofun⟩
    unfold firstReset
    cases s.rorder with
    | false => exact Nat.zero_le _
    | true => exact Nat.le_refl _
  · obtain ⟨hc0, hnc, horder, hbound, -⟩ := hlatch.drain ⟨rfl, by decide⟩
    rw [show (latched s x).rorder = s.rorder from horder]
    refine parallel_moveTo x (h.buffer_of_le ?_ rfl)
      ⟨hlatch.cmd, nofun, nofun, fun _ => ⟨hc0, hnc, horder, hbound, nofun⟩, nofun, nofun, nofun⟩
    unfold secondReset
    cases s.rorder with
    | false => exact Nat.le_refl _
    | true => exact Nat.zero_le _
  · obtain ⟨-, hnc, -, -, -⟩ := hlatch.drain ⟨rfl, by decide⟩
    rw [show (latched s x).nc = s.nc from hnc]
    exact parallel_finish { x with nc := s.nc } rfl h.buffer
  · exact parallel_fault _ _

theorem execAvail_parallel : Parallel (execAvail s) (execAvail (latched s x)) := by
  refine parallel_atPosition hseq fun hseq => ?_
  split
  · exact parallel_finish x rfl h.buffer
  · exact parallel_fault _ _

theorem execRxlen_parallel : Parallel (execRxlen s) (execRxlen (latched s x)) := by
  refine parallel_atPosition hseq fun hseq => ?_
  split
  · exact parallel_finish x rfl h.buffer
  · exact parallel_fault _ _

theorem execClrrx_parallel : Parallel (execClrrx s) (execClrrx (latched s x)) := by
  refine parallel_atPosition hseq fun hseq => ?_
  have hlatch := sameLatches_of_agrees h hseq
  split
  · refine parallel_moveTo { x with rorder := Config.drawBit s.draws } (h.buffer_of_le ?_ rfl)
      ⟨hlatch.cmd, nofun, nofun, nofun, fun _ => rfl, nofun, nofun⟩
    unfold drawOrder firstReset
    cases Config.drawBit s.draws with
    | false => exact Nat.zero_le _
    | true => exact Nat.le_refl _
  · have horder := hlatch.clear ⟨rfl, rfl⟩
    rw [show (latched s x).rorder = s.rorder from horder]
    refine parallel_moveTo x (h.buffer_of_le ?_ rfl) (sameLatches_act hlatch.cmd nofun (fun _ => by decide) nofun nofun)
    unfold secondReset
    cases s.rorder with
    | false => exact Nat.le_refl _
    | true => exact Nat.zero_le _
  · exact parallel_finish x rfl h.buffer
  · exact parallel_fault _ _

theorem execWrb_parallel (sa : SlaveAddr) (ra : RegAddr) (v : Byte) :
    Parallel (execWrb sa ra v s) (execWrb sa ra v (latched s x)) := by
  refine parallel_atPosition hseq fun hseq => ?_
  have hlatch := sameLatches_of_agrees h hseq
  have hop : (0x9#4) ≠ 0x5 ∧ (0x9#4) ≠ 0x8 ∧ (0x9#4) ≠ 0xD := by decide
  have hfree {l' : Line} : SameLatches 0x9 l' .act s x := sameLatches_act hlatch.cmd nofun nofun nofun nofun
  have hmove {l' : Line} {w : State} (hw : w.rxCount = s.rxCount ∧ w.rxBuf = s.rxBuf ∧ w.cmd = s.cmd) :
      Parallel (.next (moveTo 0x9 l' k a w)) (.next (moveTo 0x9 l' k a (latched w x))) :=
    parallel_free h hlatch.cmd nofun nofun nofun nofun hw
  refine parallel_getD (addressLines_parallel h hseq hop fun _ => hmove ⟨rfl, rfl, rfl⟩) ?_
  unfold wrbLines
  split
  · exact hmove ⟨rfl, rfl, rfl⟩
  · exact parallel_waitLine h hseq hfree (hmove ⟨rfl, rfl, rfl⟩) (hmove ⟨rfl, rfl, rfl⟩)
  · exact hmove ⟨rfl, rfl, rfl⟩
  · exact parallel_waitLineIf h hseq hfree (hmove ⟨rfl, rfl, rfl⟩) (hmove ⟨rfl, rfl, rfl⟩)
  · exact parallel_finish x rfl h.buffer
  · exact abortLines_parallel h hseq hop

theorem execRdb_parallel (sa : SlaveAddr) (ra : RegAddr) : Parallel (execRdb sa ra s) (execRdb sa ra (latched s x)) := by
  refine parallel_atPosition hseq fun hseq => ?_
  have hlatch := sameLatches_of_agrees h hseq
  have hop : (0xA#4) ≠ 0x5 ∧ (0xA#4) ≠ 0x8 ∧ (0xA#4) ≠ 0xD := by decide
  have hfree {l' : Line} (hl' : l' ∉ [.s16, .s17]) : SameLatches 0xA l' .act s x :=
    sameLatches_act hlatch.cmd nofun nofun nofun fun _ => hl'
  have hmove {l' : Line} {w : State} (hl' : l' ∉ [.s16, .s17]) (hw : w.rxCount = s.rxCount ∧ w.rxBuf = s.rxBuf ∧ w.cmd = s.cmd) :
      Parallel (.next (moveTo 0xA l' k a w)) (.next (moveTo 0xA l' k a (latched w x))) :=
    parallel_free h hlatch.cmd nofun nofun nofun (fun _ => hl') hw
  refine parallel_getD (parallelLines_or (addressLines_parallel h hseq hop fun _ => hmove (by decide) ⟨rfl, rfl, rfl⟩)
    (readAddressLines_parallel h hseq hop)) ?_
  unfold rdbLines
  split
  · exact hmove (by decide) ⟨rfl, rfl, rfl⟩
  · exact hmove (by decide) ⟨rfl, rfl, rfl⟩
  · exact parallel_waitLine h hseq (hfree (by decide)) (hmove (by decide) ⟨rfl, rfl, rfl⟩) (hmove (by decide) ⟨rfl, rfl, rfl⟩)
  · exact parallel_moveTo { x with rdByte := s.env.byte } h.buffer
      ⟨hlatch.cmd, nofun, nofun, nofun, nofun, nofun, fun _ => rfl⟩
  · exact parallel_moveTo x h.buffer
      ⟨hlatch.cmd, nofun, nofun, nofun, nofun, nofun, fun _ => hlatch.read ⟨rfl, by decide⟩⟩
  · rw [show (latched s x).rdByte = s.rdByte from hlatch.read ⟨rfl, by decide⟩]
    exact parallel_finish { x with rdByte := s.rdByte } rfl h.buffer
  · exact abortLines_parallel h hseq hop

theorem execWrbuf_parallel (sa : SlaveAddr) (ra : RegAddr) (ptr len : Half) :
    Parallel (execWrbuf sa ra ptr len s) (execWrbuf sa ra ptr len (latched s x)) := by
  refine parallel_atPosition hseq fun hseq => ?_
  have hlatch := sameLatches_of_agrees h hseq
  have hop : (0xB#4) ≠ 0x5 ∧ (0xB#4) ≠ 0x8 ∧ (0xB#4) ≠ 0xD := by decide
  have hfree {l' : Line} : SameLatches 0xB l' .act s x := sameLatches_act hlatch.cmd nofun nofun nofun nofun
  have hmove {l' : Line} {k' : Nat} {w : State} (hw : w.rxCount = s.rxCount ∧ w.rxBuf = s.rxBuf ∧ w.cmd = s.cmd) :
      Parallel (.next (moveTo 0xB l' k' a w)) (.next (moveTo 0xB l' k' a (latched w x))) :=
    parallel_free h hlatch.cmd nofun nofun nofun nofun hw
  refine parallel_getD (addressLines_parallel h hseq hop fun _ => hmove ⟨rfl, rfl, rfl⟩) ?_
  unfold wrbufLines
  split
  · rw [show hmLoad (latched s x) (bufferAddress ptr k) = hmLoad s (bufferAddress ptr k) from rfl]
    split
    · exact hmove ⟨rfl, rfl, rfl⟩
    · exact parallel_fault _ _
  · exact parallel_waitLine h hseq hfree (hmove ⟨rfl, rfl, rfl⟩) (hmove ⟨rfl, rfl, rfl⟩)
  · exact hmove ⟨rfl, rfl, rfl⟩
  · exact parallel_waitLineIf h hseq hfree (hmove ⟨rfl, rfl, rfl⟩) (hmove ⟨rfl, rfl, rfl⟩)
  · exact parallel_finish x rfl h.buffer
  · exact abortLines_parallel h hseq hop

theorem execRdbuf_parallel (sa : SlaveAddr) (ra : RegAddr) (ptr len : Half) :
    Parallel (execRdbuf sa ra ptr len s) (execRdbuf sa ra ptr len (latched s x)) := by
  refine parallel_atPosition hseq fun hseq => ?_
  have hlatch := sameLatches_of_agrees h hseq
  have hop : (0xC#4) ≠ 0x5 ∧ (0xC#4) ≠ 0x8 ∧ (0xC#4) ≠ 0xD := by decide
  have hfree {l' : Line} : SameLatches 0xC l' .act s x := sameLatches_act hlatch.cmd nofun nofun nofun nofun
  have hmove {l' : Line} {k' : Nat} {w : State} (hw : w.rxCount = s.rxCount ∧ w.rxBuf = s.rxBuf ∧ w.cmd = s.cmd) :
      Parallel (.next (moveTo 0xC l' k' a w)) (.next (moveTo 0xC l' k' a (latched w x))) :=
    parallel_free h hlatch.cmd nofun nofun nofun nofun hw
  refine parallel_getD (parallelLines_or (addressLines_parallel h hseq hop fun _ => hmove ⟨rfl, rfl, rfl⟩)
    (readAddressLines_parallel h hseq hop)) ?_
  unfold rdbufLines
  split
  · exact hmove ⟨rfl, rfl, rfl⟩
  · split
    · exact hmove ⟨rfl, rfl, rfl⟩
    · exact hmove ⟨rfl, rfl, rfl⟩
  · split
    · exact hmove ⟨rfl, rfl, rfl⟩
    · exact hmove ⟨rfl, rfl, rfl⟩
  · exact parallel_waitLine h hseq hfree (hmove ⟨rfl, rfl, rfl⟩) (hmove ⟨rfl, rfl, rfl⟩)
  · rw [show hmStore (busRecv (latched s x)) (bufferAddress ptr k) (latched s x).env.byte =
      (hmStore (busRecv s) (bufferAddress ptr k) s.env.byte).map (latched · x) by unfold hmStore; split <;> rfl]
    split
    · next t ht =>
      obtain ⟨-, rfl⟩ := hmStore_some ht
      rw [ht]
      exact hmove ⟨rfl, rfl, rfl⟩
    · exact parallel_fault _ _
  · exact hmove ⟨rfl, rfl, rfl⟩
  · exact parallel_finish x rfl h.buffer
  · exact abortLines_parallel h hseq hop

theorem execScan_parallel : Parallel (execScan s) (execScan (latched s x)) := by
  refine parallel_atPosition hseq fun hseq => ?_
  have hlatch := sameLatches_of_agrees h hseq
  have hstart {l' : Line} {k' a' : Nat} {w : State} (y : State) (hw : w.rxCount = s.rxCount ∧ w.rxBuf = s.rxBuf)
      (hy : y.cmd = w.cmd ∧ y.rxBuf = x.rxBuf ∧ y.found = w.found) :
      Parallel (.next (moveTo 0xD l' k' a' w)) (.next (moveTo 0xD l' k' a' (latched w y))) := by
    obtain ⟨hcmd, hybuf, hfound⟩ := hy
    obtain ⟨hcount, hbuf⟩ := hw
    exact parallel_moveTo y (hcount ▸ hbuf ▸ hybuf ▸ h.buffer) ⟨hcmd, nofun, nofun, nofun, nofun, fun _ => hfound, nofun⟩
  have hfree (hl : l ≠ .s1) {l' : Line} : SameLatches 0xD l' .act s x :=
    ⟨hlatch.cmd, nofun, nofun, nofun, nofun, fun _ => hlatch.scan ⟨rfl, hl⟩, nofun⟩
  have hmove (hl : l ≠ .s1) {l' : Line} {k' a' : Nat} {w : State}
      (hw : w.rxCount = s.rxCount ∧ w.rxBuf = s.rxBuf ∧ w.cmd = s.cmd ∧ w.found = s.found) :
      Parallel (.next (moveTo 0xD l' k' a' w)) (.next (moveTo 0xD l' k' a' (latched w x))) := by
    obtain ⟨hcount, hbuf, hcmd, hfound⟩ := hw
    exact hstart x ⟨hcount, hbuf⟩ ⟨hlatch.cmd.trans hcmd.symm, rfl, (hlatch.scan ⟨rfl, hl⟩).trans hfound.symm⟩
  split
  · exact hstart { x with found := 0 } ⟨rfl, rfl⟩ ⟨hlatch.cmd, rfl, rfl⟩
  · exact parallel_waitLineIf h hseq (hfree nofun) (hmove nofun ⟨rfl, rfl, rfl, rfl⟩) (hmove nofun ⟨rfl, rfl, rfl, rfl⟩)
  · exact hmove nofun ⟨rfl, rfl, rfl, rfl⟩
  · exact parallel_waitLine h hseq (hfree nofun) (hmove nofun ⟨rfl, rfl, rfl, rfl⟩) (hmove nofun ⟨rfl, rfl, rfl, rfl⟩)
  · exact hmove nofun ⟨rfl, rfl, rfl, rfl⟩
  · exact parallel_waitLine h hseq (hfree nofun)
      (hstart { x with found := x.found + 1 } ⟨rfl, rfl⟩ ⟨hlatch.cmd, rfl, congrArg (· + 1) (hlatch.scan ⟨rfl, nofun⟩)⟩)
      (hmove nofun ⟨rfl, rfl, rfl, rfl⟩)
  · exact hmove nofun ⟨rfl, rfl, rfl, rfl⟩
  · exact parallel_waitLineIf h hseq (hfree nofun) (hmove nofun ⟨rfl, rfl, rfl, rfl⟩) (hmove nofun ⟨rfl, rfl, rfl, rfl⟩)
  · exact hmove nofun ⟨rfl, rfl, rfl, rfl⟩
  · rw [show (latched s x).found = s.found from hlatch.scan ⟨rfl, nofun⟩]
    exact parallel_finish { x with found := s.found } rfl h.buffer
  · exact parallel_fault _ _

/-- Every running command's numbered step. -/
theorem exec_parallel (i : Instr) : Parallel (exec i s) (exec i (latched s x)) := by
  cases i with
  | setdir d => exact execSetdir_parallel h hseq d
  | sendb b => exact execSendb_parallel h hseq b
  | sends ptr => exact execSends_parallel h hseq ptr
  | sendbuf ptr len => exact execSendbuf_parallel h hseq ptr len
  | recv ptr len => exact execRecv_parallel h hseq ptr len
  | avail => exact execAvail_parallel h hseq
  | rxlen => exact execRxlen_parallel h hseq
  | clrrx => exact execClrrx_parallel h hseq
  | wrb sa ra v => exact execWrb_parallel h hseq sa ra v
  | rdb sa ra => exact execRdb_parallel h hseq sa ra
  | wrbuf sa ra ptr len => exact execWrbuf_parallel h hseq sa ra ptr len
  | rdbuf sa ra ptr len => exact execRdbuf_parallel h hseq sa ra ptr len
  | scan => exact execScan_parallel h hseq

end Commands

/-! ### The agents -/

/-- While SEQ is not Idle it is at a position. -/
theorem exists_position {s : State} (hrun : s.seq ≠ .idle) : ∃ op l sub k a, s.seq = .at op l sub k a := by
  match hseq : s.seq with
  | .idle => contradiction
  | .at op l sub k a => exact ⟨op, l, sub, k, a, rfl⟩

section Agents
variable {s x : State} (h : Agrees s x)
include h

/-- While SEQ is Idle only the bytes in the receive buffer have to agree. -/
theorem Agrees.next_of_idle {t : State} (y : State) (hidle : t.seq = .idle) (hcount : t.rxCount = s.rxCount)
    (hbuf : t.rxBuf = s.rxBuf) (hy : y.rxBuf = x.rxBuf) : Parallel (.next t) (.next (latched t y)) :=
  parallel_finish y hidle (hcount ▸ hbuf ▸ hy ▸ h.buffer)

/-- ENV's answers, the receive request, the scheduler and the host's own element are no part of what has to agree. -/
theorem Agrees.scheduled {t : State}
    (ht : t = { s with rxPend := t.rxPend, env := t.env, agenda := t.agenda, draws := t.draws, hostData := t.hostData }) :
    Agrees t x := by
  rw [ht]
  refine ⟨h.buffer, ?_⟩
  have hpos := h.position
  match hseq : s.seq with
  | .idle => trivial
  | .at op l sub k a =>
    rw [hseq] at hpos
    exact ⟨hpos.cmd, hpos.poll, hpos.test, hpos.drain, hpos.clear, hpos.scan, hpos.read⟩

theorem seqStep_parallel (answer : Answer) : Parallel (seqStep answer s) (seqStep answer (latched s x)) := by
  by_cases hidle : s.seq = .idle
  · unfold seqStep
    rw [show seqIdle (latched s x) = seqIdle s from rfl, seqIdle_of_idle hidle]
    exact parallel_next x h
  · obtain ⟨op, l, sub, k, a, hpos⟩ := exists_position hidle
    have hcmd : decode (latched s x).cmd = decode s.cmd := congrArg decode (sameLatches_of_agrees h hpos).cmd
    unfold seqStep
    rw [show seqIdle (latched s x) = seqIdle s from rfl, seqIdle_of_running hidle, if_neg (by decide), if_neg (by decide), hcmd]
    split
    · exact exec_parallel (s := { s with env := answer }) (h.scheduled rfl) hpos _
    · exact parallel_fault _ _

/-- R129: a descriptor latches the same command in both, and its issue check reads HM alone. -/
theorem issueDescriptor_parallel (hidle : s.seq = .idle) (hi : Word) :
    Parallel (issueDescriptor hi s) (issueDescriptor hi (latched s x)) := by
  by_cases hlegal : ∃ i, decode (hi ++ s.cmdLo) = .ok i ∧ legal i s.hm = true
  · obtain ⟨i, hdec, hlegal⟩ := hlegal
    rw [issueDescriptor_of_legal hidle hdec hlegal, issueDescriptor_of_legal (s := latched s x) hidle hdec hlegal]
    refine parallel_next { x with cmd := hi ++ s.cmdLo } ⟨h.buffer, ?_⟩
    exact ⟨rfl, nofun, nofun, fun hl => absurd hl.right (by decide), fun hl => absurd hl.right (by decide),
      fun hl => absurd rfl hl.right, fun hl => absurd hl.right (by decide)⟩
  · have hbad (i : Instr) (hdec : decode (hi ++ s.cmdLo) = .ok i) (hin : legal i s.hm = true) : False :=
      hlegal ⟨i, hdec, hin⟩
    rw [issueDescriptor_of_illegal hidle hbad, issueDescriptor_of_illegal (s := latched s x) hidle hbad]
    exact h.next_of_idle { x with cmd := hi ++ s.cmdLo } hidle rfl rfl rfl

theorem hostWriteStep_parallel (off width : Nat) (v : Word) :
    Parallel (hostWriteStep off width v s) (hostWriteStep off width v (latched s x)) := by
  unfold hostWriteStep
  rw [show seqIdle (latched s x) = seqIdle s from rfl,
    show accessRefusal (latched s x) off width = accessRefusal s off width from rfl]
  split
  · exact parallel_next x h
  · next hidle =>
    have hidle : s.seq = .idle := by simpa [seqIdle] using hidle
    split
    · exact parallel_refused _ _
    · split
      · exact h.next_of_idle x hidle rfl rfl rfl
      · split
        · exact issueDescriptor_parallel h hidle v
        · exact parallel_refused _ _

theorem hostReadStep_parallel (off width : Nat) :
    Parallel (hostReadStep off width s) (hostReadStep off width (latched s x)) := by
  unfold hostReadStep
  rw [show seqIdle (latched s x) = seqIdle s from rfl,
    show accessRefusal (latched s x) off width = accessRefusal s off width from rfl]
  split
  · exact parallel_next x h
  · split
    · exact parallel_refused _ _
    · exact parallel_next x (h.scheduled rfl)

/-- R89: an append stores the same byte at the same index. -/
theorem rxcAppend_agrees (b : Byte) :
    Agrees (rxcAppend b s) { x with rxBuf := if rxRoom s then x.rxBuf.setIfInBounds s.rxCount.toNat b else x.rxBuf } := by
  refine ⟨fun k hk => ?_, ?_⟩
  · have hk : k < (if rxRoom s then s.rxCount + 1 else s.rxCount).toNat := hk
    show (if rxRoom s then x.rxBuf.setIfInBounds s.rxCount.toNat b else x.rxBuf)[k]? =
      (if rxRoom s then s.rxBuf.setIfInBounds s.rxCount.toNat b else s.rxBuf)[k]?
    cases hroom : rxRoom s with
    | false =>
      rw [hroom] at hk
      exact h.buffer k hk
    | true =>
      have hlt := (rxRoom_iff s).mp hroom
      rw [hroom, if_pos rfl, BitVec.toNat_add, Nat.mod_eq_of_lt (by simp; omega)] at hk
      have hk : k < s.rxCount.toNat + 1 := hk
      rw [if_pos rfl, if_pos rfl, setIfInBounds_getElem? _ _ _ (show k < 256 by omega),
        setIfInBounds_getElem? _ _ _ (show k < 256 by omega)]
      split
      · rfl
      · exact h.buffer k (by omega)
  · have hpos := h.position
    show match s.seq with
      | .idle => True
      | .at op l sub _ _ => SameLatches op l sub (rxcAppend b s) { x with rxBuf := _ }
    split
    · trivial
    · next op l sub k a hseq =>
      rw [hseq] at hpos
      refine ⟨hpos.cmd, hpos.poll, hpos.test, fun hl => ?_, hpos.clear, hpos.scan, hpos.read⟩
      obtain ⟨hc0, hnc, horder, hbound, hgrown⟩ := hpos.drain hl
      refine ⟨hc0, hnc, horder, hbound, fun h3 => (hgrown h3).trans ?_⟩
      show s.rxCount.toNat ≤ (if rxRoom s then s.rxCount + 1 else s.rxCount).toNat
      split
      · next hroom =>
        have hlt := (rxRoom_iff s).mp hroom
        rw [BitVec.toNat_add, Nat.mod_eq_of_lt (by simp; omega)]
        exact Nat.le_add_right _ _
      · exact Nat.le_refl _

/-- R121: the clock moves on in both, so as much has elapsed. -/
theorem tickStep_agrees : Agrees (tickStep s) { x with tick := x.tick + 1 } := by
  refine ⟨h.buffer, ?_⟩
  have hpos := h.position
  show match s.seq with
    | .idle => True
    | .at op l sub _ _ => SameLatches op l sub (tickStep s) { x with tick := x.tick + 1 }
  split
  · trivial
  · next op l sub k a hseq =>
    rw [hseq] at hpos
    refine ⟨hpos.cmd, fun hp => ?_, hpos.test, hpos.drain, hpos.clear, hpos.scan, hpos.read⟩
    have helapsed := hpos.poll hp
    show x.tick + 1 - x.wstart = s.tick + 1 - s.wstart
    bv_omega

/-- R15: every agent's step. -/
theorem perform_parallel (act : Action) : Parallel (perform act s) (perform act (latched s x)) := by
  cases act with
  | seq answer => exact seqStep_parallel h answer
  | rxc b =>
    rw [perform, perform, show rxcEnabled (latched s x) = rxcEnabled s from rfl]
    split
    · exact parallel_next { x with rxBuf := _ } (rxcAppend_agrees h b)
    · exact parallel_next x h
  | tick => exact parallel_next { x with tick := x.tick + 1 } (tickStep_agrees h)
  | raise => exact parallel_next x (h.scheduled rfl)
  | hostWrite off width v => exact hostWriteStep_parallel h off width v
  | hostRead off width => exact hostReadStep_parallel h off width
  | hmWrite a v =>
    rw [perform, perform, hmWriteStep, hmWriteStep, show seqIdle (latched s x) = seqIdle s from rfl]
    split
    · next hidle => exact h.next_of_idle x (by simpa [seqIdle] using hidle) rfl rfl rfl
    · exact parallel_next x h
  | hmRead a =>
    rw [perform, perform, hmReadStep, hmReadStep, show seqIdle (latched s x) = seqIdle s from rfl]
    split
    · exact parallel_next x (h.scheduled rfl)
    · exact parallel_next x h
  | reset => exact parallel_finish (resetEvent s) rfl fun k hk => absurd hk (Nat.not_lt_zero k)

/-- R16: every step. -/
theorem step_parallel : Parallel (step s) (step (latched s x)) := by
  unfold step nextAction
  rw [show (latched s x).agenda = s.agenda from rfl]
  split
  · next act rest _ => exact perform_parallel (s := { s with agenda := rest }) (h.scheduled rfl) act
  · exact perform_parallel (s := { s with draws := s.draws + 1 }) (h.scheduled rfl) _

/-- Every run. -/
theorem runSteps_parallel (n : Nat) : Parallel (runSteps n s) (runSteps n (latched s x)) := by
  induction n generalizing s x with
  | zero => exact parallel_next x h
  | succ n ih =>
    intro t ht
    cases hstep : step s with
    | next u =>
      obtain ⟨y, hy, hagrees⟩ := step_parallel h u hstep
      rw [runSteps_succ n hstep] at ht
      rw [runSteps_succ n hy]
      exact ih hagrees t ht
    | fault f => simp [runSteps, hstep] at ht
    | refused r => simp [runSteps, hstep] at ht

end Agents

/-- Settles O60: two resets that differ in the open values agree, and what differs in a run from them is not observed. -/
theorem openResetValuesAreUnobservable : Obligations.OpenResetValuesAreUnobservable := by
  intro s n buf buf' cmd cmd' wstart wstart' wok wok' c0 c0' nc nc' rorder rorder' rbound rbound' found found' rdByte rdByte' tick
    tick' t ht
  have hagrees : Agrees (resetWith buf cmd wstart wok c0 nc rorder rbound found rdByte tick s)
      (resetWith buf' cmd' wstart' wok' c0' nc' rorder' rbound' found' rdByte' tick' s) :=
    ⟨fun k hk => absurd hk (Nat.not_lt_zero k), trivial⟩
  obtain ⟨y, hy, -⟩ := runSteps_parallel hagrees n t ht
  exact ⟨latched t y, hy, rfl⟩

end Sys2Proof.Machine
end

section
/-! Whole commands run by SEQ alone (95_test_vectors.md part 2): runs that use up a list of actions, their composition, and
the bus commands WRB and RDB under the environment E0. -/

namespace Sys2Proof.Machine

/-! ### Runs of given actions -/

/-- With these actions first on the agenda, the machine goes from `s` to `t` and has used them up. -/
def Runs (acts : List Action) (s t : State) : Prop :=
  ∀ rest, runSteps acts.length { s with agenda := acts ++ rest } = .next { t with agenda := rest }

theorem Runs.nil (s : State) : Runs [] s s := fun _ => rfl

theorem Runs.trans {acts acts' : List Action} {s u t : State} (h : Runs acts s u) (h' : Runs acts' u t) :
    Runs (acts ++ acts') s t := by
  intro rest
  rw [List.length_append, List.append_assoc, runSteps_add _ _ (h (acts' ++ rest))]
  exact h' rest

theorem Runs.of_eq {acts acts' : List Action} {s t t' : State} (h : Runs acts s t) (ha : acts = acts') (ht : t = t') :
    Runs acts' s t' := ha ▸ ht ▸ h

/-- A run of the whole agenda's beginning. -/
theorem Runs.runSteps {acts rest : List Action} {s t : State} (h : Runs acts s t) (hs : s.agenda = acts ++ rest) :
    runSteps acts.length s = .next { t with agenda := rest } := by
  have hrun := h rest
  rw [← hs] at hrun
  exact hrun

/-- SEQ's turn. -/
theorem Runs.seq {i : Instr} {answer : Answer} {s t : State} (hrun : s.seq ≠ .idle) (hi : decode s.cmd = .ok i)
    (hexec : ∀ rest, exec i { s with agenda := rest, env := answer } = .next { t with agenda := rest }) :
    Runs [.seq answer] s t := by
  intro rest
  have hstep := step_of_seq (s := { s with agenda := [.seq answer] ++ rest }) rfl hrun hi
  exact runSteps_succ 0 (hstep.trans (hexec rest))

/-- ENV's answer before SEQ's turn does not matter. -/
theorem Runs.of_env {i : Instr} {answer : Answer} {acts : List Action} {s t : State} (hrun : s.seq ≠ .idle)
    (hi : decode s.cmd = .ok i) (h : Runs (.seq answer :: acts) { s with env := answer } t) :
    Runs (.seq answer :: acts) s t := by
  intro rest
  have hstep : step { s with agenda := .seq answer :: acts ++ rest } =
      step { s with env := answer, agenda := .seq answer :: acts ++ rest } :=
    (step_of_seq (s := { s with agenda := .seq answer :: acts ++ rest }) rfl hrun hi).trans
      (step_of_seq (s := { s with env := answer, agenda := .seq answer :: acts ++ rest }) rfl hrun hi).symm
  have hrest := h rest
  rw [List.length_cons] at hrest ⊢
  unfold Machine.runSteps at hrest ⊢
  rw [hstep]
  exact hrest

/-- `n` turns of SEQ under the environment E0. -/
abbrev Ideal (n : Nat) (x : Byte) (s t : State) : Prop := Runs (ideal n x) s t

theorem Ideal.trans {m n : Nat} {x : Byte} {s u t : State} (h : Ideal m x s u) (h' : Ideal n x u t) :
    Ideal (m + n) x s t :=
  (Runs.trans h h').of_eq List.replicate_append_replicate rfl

/-- One turn under E0, from a state that has ENV's answer already. -/
theorem Ideal.one {i : Instr} {x : Byte} {s t : State} (hi : decode s.cmd = .ok i) (hrun : s.seq ≠ .idle)
    (henv : s.env = ⟨true, x⟩) (hexec : ∀ rest, exec i { s with agenda := rest } = .next { t with agenda := rest }) :
    Ideal 1 x s t := by
  refine Runs.seq hrun hi fun rest => ?_
  rw [← henv]
  exact hexec rest

/-! ### Bus commands under E0 -/

/-- A running bus command at a line: the trace, `phase` and `ack_en` it has there, after a wait that has succeeded. -/
def busAt (s : State) (tr : List Event) (p : Phase) (ack : Bool) (op : BitVec 4) (l : Line) (k a : Nat) : State :=
  { s with trace := tr, phase := p, ackEn := ack, wstart := s.tick, wok := true, seq := .at op l .act k a }

section Bus
variable {i : Instr} {x : Byte} {s t : State} {tr : List Event} {p : Phase} {ack : Bool} {op : BitVec 4} {l : Line}
  {k a : Nat} (hi : decode s.cmd = .ok i) (henv : s.env = ⟨true, x⟩)
include hi henv

/-- A line that acts. -/
theorem ideal_act (hexec : ∀ rest, exec i { busAt s tr p ack op l k a with agenda := rest } = .next { t with agenda := rest }) :
    Ideal 1 x (busAt s tr p ack op l k a) t :=
  Ideal.one (s := busAt s tr p ack op l k a) hi nofun henv hexec

/-- A wait that ends at its first poll: its entry, the poll, and the step that reads `wok`. -/
theorem ideal_wait_entered {c : Cond} {budget : Nat} {pass fail : State → State} {u : State} (hcmd : u.cmd = s.cmd)
    (hcfg : u.cfg = s.cfg) (henv' : u.env = s.env) (hseq : u.seq = .at op l .act k a)
    (hexec : ∀ sub w, w.cfg = s.cfg → w.seq = .at op l sub k a → exec i w = waitLine c budget op l sub k a pass fail w)
    (hpass : ∀ rest, pass { u with
      agenda := rest, trace := u.trace ++ [.waitOk c], wstart := u.tick, wok := true, seq := .at op l .test k a } =
        { t with agenda := rest }) : Ideal 3 x u t := by
  have hi' : decode u.cmd = .ok i := hcmd ▸ hi
  have henv' : u.env = ⟨true, x⟩ := henv'.trans henv
  have hentry : Ideal 1 x u { u with wstart := u.tick, seq := .at op l .poll k a } :=
    Ideal.one hi' (by rw [hseq]; nofun) henv' fun rest => (hexec .act { u with agenda := rest } hcfg hseq).trans (waitLine_act ..)
  have hpoll : Ideal 1 x { u with wstart := u.tick, seq := .at op l .poll k a }
      { u with trace := u.trace ++ [.waitOk c], wstart := u.tick, wok := true, seq := .at op l .test k a } := by
    refine Ideal.one hi' nofun henv' fun rest => (hexec .poll _ (by exact hcfg) rfl).trans ?_
    rw [waitLine_poll, henv']
    rfl
  have htest : Ideal 1 x
      { u with trace := u.trace ++ [.waitOk c], wstart := u.tick, wok := true, seq := .at op l .test k a } t := by
    refine Ideal.one hi' nofun henv' fun rest => (hexec .test _ (by exact hcfg) rfl).trans ?_
    rw [waitLine_test]
    exact congrArg _ (hpass rest)
  exact (hentry.trans hpoll).trans htest

/-- A wait of a running bus command. -/
theorem ideal_wait {c : Cond} {budget : Nat} {pass fail : State → State}
    (hexec : ∀ sub w, w.cfg = s.cfg → w.seq = .at op l sub k a → exec i w = waitLine c budget op l sub k a pass fail w)
    (hpass : ∀ rest, pass { busAt s (tr ++ [.waitOk c]) p ack op l k a with
      agenda := rest, seq := .at op l .test k a } = { t with agenda := rest }) :
    Ideal 3 x (busAt s tr p ack op l k a) t :=
  ideal_wait_entered (s := s) (u := busAt s tr p ack op l k a) hi henv rfl rfl rfl rfl hexec hpass

/-- A wait that a parameter selects. -/
theorem ideal_waitIf {enabled : Bool} {c : Cond} {budget : Nat} {l' : Line} {fail : State → State}
    (hexec : ∀ sub w, w.cfg = s.cfg → w.seq = .at op l sub k a →
      exec i w = waitLineIf enabled c budget op l sub k a (moveTo op l' k a) fail w) :
    Ideal (lineSteps enabled) x (busAt s tr p ack op l k a) (busAt s (tr ++ gateEvents enabled c) p ack op l' k a) := by
  cases enabled with
  | true =>
    exact ideal_wait hi henv (fun sub w hcfg hseq => (hexec sub w hcfg hseq).trans (waitLineIf_on ..)) fun rest => rfl
  | false =>
    rw [show tr ++ gateEvents false c = tr from List.append_nil _]
    exact ideal_act hi henv fun rest => hexec .act _ rfl rfl

/-- R99 S11, R101 S10: the wait after a write transaction's stop. -/
theorem ideal_stopGate {l' : Line} (hexec : ∀ sub w, w.seq = .at op l sub k a → exec i w = stopGate op l sub k a l' w) :
    Ideal (lineSteps s.cfg.stopDoneWait) x (busAt s tr p ack op l k a)
      (busAt s (tr ++ gateEvents s.cfg.stopDoneWait .stopDone) p ack op l' k a) :=
  ideal_waitIf hi henv fun sub w hcfg hw => (hexec sub w hw).trans (by rw [stopGate, hcfg])

/-- R99 S1 to S3, R104 P1 to P3: the wait for a free bus, the start and its wait, from a state with any wait latches. -/
theorem ideal_start {l₁ l₂ l₃ l₄ : Line} {budget : Nat} {fail fail' : State → State}
    (hseq : s.seq = .at op l₁ .act k a)
    (hfree : ∀ sub w, w.cfg = s.cfg → w.seq = .at op l₁ sub k a →
      exec i w = waitLineIf s.cfg.busFreeWait .busFree budget op l₁ sub k a (moveTo op l₂ k a) fail w)
    (hstart : ∀ w, w.seq = .at op l₂ .act k a → exec i w = .next (moveTo op l₃ k a (busStart w)))
    (hdone : ∀ sub w, w.cfg = s.cfg → w.seq = .at op l₃ sub k a →
      exec i w = waitLine .startDone budget op l₃ sub k a (moveTo op l₄ k a) fail' w) :
    Ideal (lineSteps s.cfg.busFreeWait + 4) x s
      (busAt s (s.trace ++ gateEvents s.cfg.busFreeWait .busFree ++ [.start, .waitOk .startDone]) .startAsserted s.ackEn op l₄
        k a) := by
  have hrest (w : State)
      (hw : w = { s with
        wstart := w.wstart, wok := w.wok, trace := s.trace ++ gateEvents s.cfg.busFreeWait .busFree,
        seq := .at op l₂ .act k a }) :
      Ideal (1 + 3) x w (busAt s (s.trace ++ gateEvents s.cfg.busFreeWait .busFree ++ [.start, .waitOk .startDone])
        .startAsserted s.ackEn op l₄ k a) := by
    have hact : Ideal 1 x w (moveTo op l₃ k a (busStart w)) := by
      rw [hw]
      exact Ideal.one hi nofun henv fun rest => hstart _ rfl
    refine hact.trans (ideal_wait_entered (s := s) hi henv ?_ ?_ ?_ rfl hdone fun rest => ?_)
    · rw [hw]; rfl
    · rw [hw]; rfl
    · rw [hw]; rfl
    · rw [hw]
      simp [busAt, moveTo, busStart, emit]
  refine Ideal.trans ?_ (hrest { s with
    wstart := if s.cfg.busFreeWait then s.tick else s.wstart, wok := if s.cfg.busFreeWait then true else s.wok,
    trace := s.trace ++ gateEvents s.cfg.busFreeWait .busFree, seq := .at op l₂ .act k a } rfl)
  cases hon : s.cfg.busFreeWait with
  | true =>
    rw [hon] at hfree
    exact ideal_wait_entered (s := s) hi henv rfl rfl rfl hseq
      (fun sub w hcfg hseq => (hfree sub w hcfg hseq).trans (waitLineIf_on ..)) fun rest => rfl
  | false =>
    rw [hon] at hfree
    rw [show s.trace ++ gateEvents false .busFree = s.trace from List.append_nil _]
    exact Ideal.one hi (by rw [hseq]; nofun) henv fun rest => hfree .act { s with agenda := rest } rfl hseq

/-- R99 S1 to S6: the address part up to its last wait. -/
theorem ideal_address {sa : SlaveAddr} {ra : RegAddr} {next : State → State} (hseq : s.seq = .at i.opcode .s1 .act k a)
    (hlines : ∀ l sub w r, w.seq = .at i.opcode l sub k a → addressLines i.opcode sa ra next l sub k a w = some r →
      exec i w = r) :
    Ideal (lineSteps s.cfg.busFreeWait + 9) x s
      (busAt s (s.trace ++ gateEvents s.cfg.busFreeWait .busFree ++
        [.start, .waitOk .startDone, .tx (addrByte sa false), .waitOk .addrWAck, .tx ra]) .registerAddressSent s.ackEn i.opcode
          .s7 k a) := by
  have hbegin := ideal_start hi henv hseq (l₁ := .s1) (l₂ := .s2) (l₃ := .s3) (l₄ := .s4)
    (fun sub w hcfg hw => hlines .s1 sub w _ hw (by rw [addressLines, hcfg]))
    (fun w hw => hlines .s2 .act w _ hw rfl) (fun sub w _ hw => hlines .s3 sub w _ hw rfl)
  have hsend (tr : List Event) : Ideal 1 x (busAt s tr .startAsserted s.ackEn i.opcode .s4 k a)
      (busAt s (tr ++ [.tx (addrByte sa false)]) .addressSentForWrite s.ackEn i.opcode .s5 k a) :=
    ideal_act hi henv fun rest => hlines .s4 .act _ _ rfl rfl
  have hack (tr : List Event) : Ideal 3 x (busAt s tr .addressSentForWrite s.ackEn i.opcode .s5 k a)
      (busAt s (tr ++ [.waitOk .addrWAck]) .addressSentForWrite s.ackEn i.opcode .s6 k a) :=
    ideal_wait hi henv (fun sub w _ hw => hlines .s5 sub w _ hw rfl) fun rest => rfl
  have hreg (tr : List Event) : Ideal 1 x (busAt s tr .addressSentForWrite s.ackEn i.opcode .s6 k a)
      (busAt s (tr ++ [.tx ra]) .registerAddressSent s.ackEn i.opcode .s7 k a) :=
    ideal_act hi henv fun rest => hlines .s6 .act _ _ rfl rfl
  exact (((hbegin.trans (hsend _)).trans (hack _)).trans (hreg _)).of_eq rfl (by simp)

end Bus

/-- A command that is run from its issue under E0. -/
theorem Ideal.runSteps_of_issued {i : Instr} {n : Nat} {x : Byte} {rest : List Action} {s t : State} (hissued : Issued i s)
    (hn : 0 < n) (h : Ideal n x { s with env := ⟨true, x⟩ } t) (hagenda : s.agenda = ideal n x ++ rest) :
    runSteps n s = .next { t with agenda := rest } := by
  obtain ⟨hseq, hi, -⟩ := hissued
  obtain ⟨m, rfl⟩ := Nat.exists_eq_succ_of_ne_zero (Nat.ne_of_gt hn)
  have hrun : Ideal (m + 1) x s t := Runs.of_env (by rw [hseq]; nofun) hi h
  have hsteps := hrun.runSteps hagenda
  rwa [ideal, List.length_replicate] at hsteps

/-! ### WRB -/

/-- R99 from its issue to its end, under E0. -/
theorem ideal_wrb {sa : SlaveAddr} {ra : RegAddr} {v : Byte} {s : State} {x : Byte} (hseq : s.seq = .at 0x9 .s1 .act 0 0)
    (hi : decode s.cmd = .ok (.wrb sa ra v)) (henv : s.env = ⟨true, x⟩) :
    Ideal (18 + lineSteps s.cfg.busFreeWait + lineSteps s.cfg.stopDoneWait) x s
      { s with
        trace := s.trace ++ writeEvents s.cfg sa ra [v], phase := .idle, wstart := s.tick, wok := true, status := 0x01,
        seq := .idle } := by
  have hexec (l : Line) (sub : Sub) (w : State) (hw : w.seq = .at 0x9 l sub 0 0) :
      exec (.wrb sa ra v) w =
        (addressLines 0x9 sa ra (moveTo 0x9 .s8 0 0) l sub 0 0 w).getD (wrbLines v l sub 0 0 w) :=
    atPosition_at (.wrb sa ra v) hw _
  have haddress := ideal_address (sa := sa) (ra := ra) (next := moveTo 0x9 .s8 0 0) hi henv hseq
    fun l sub w r hw (hr : addressLines 0x9 sa ra _ l sub 0 0 w = some r) =>
      (hexec l sub w hw).trans (by rw [hr, Option.getD_some])
  have h7 (tr : List Event) : Ideal 3 x (busAt s tr .registerAddressSent s.ackEn 0x9 .s7 0 0)
      (busAt s (tr ++ [.waitOk .byteTxDone]) .registerAddressSent s.ackEn 0x9 .s8 0 0) :=
    ideal_wait hi henv (fun sub w _ hw => hexec .s7 sub w hw) fun rest => rfl
  have h8 (tr : List Event) : Ideal 1 x (busAt s tr .registerAddressSent s.ackEn 0x9 .s8 0 0)
      (busAt s (tr ++ [.tx v]) .dataSent s.ackEn 0x9 .s9 0 0) :=
    ideal_act hi henv fun rest => hexec .s8 .act _ rfl
  have h9 (tr : List Event) : Ideal 3 x (busAt s tr .dataSent s.ackEn 0x9 .s9 0 0)
      (busAt s (tr ++ [.waitOk .byteTxDone]) .dataSent s.ackEn 0x9 .s10 0 0) :=
    ideal_wait hi henv (fun sub w _ hw => hexec .s9 sub w hw) fun rest => rfl
  have h10 (tr : List Event) : Ideal 1 x (busAt s tr .dataSent s.ackEn 0x9 .s10 0 0)
      (busAt s (tr ++ [.stop]) .stopAsserted s.ackEn 0x9 .s11 0 0) :=
    ideal_act hi henv fun rest => hexec .s10 .act _ rfl
  have h11 (tr : List Event) : Ideal (lineSteps s.cfg.stopDoneWait) x (busAt s tr .stopAsserted s.ackEn 0x9 .s11 0 0)
      (busAt s (tr ++ gateEvents s.cfg.stopDoneWait .stopDone) .stopAsserted s.ackEn 0x9 .s12 0 0) :=
    ideal_stopGate hi henv fun sub w hw => hexec .s11 sub w hw
  have h12 (tr : List Event) : Ideal 1 x (busAt s tr .stopAsserted s.ackEn 0x9 .s12 0 0)
      (busFinish true .none (busAt s tr .stopAsserted s.ackEn 0x9 .s12 0 0)) :=
    ideal_act hi henv fun rest => hexec .s12 .act _ rfl
  have hall := (((((haddress.trans (h7 _)).trans (h8 _)).trans (h9 _)).trans (h10 _)).trans (h11 _)).trans (h12 _)
  refine hall.of_eq (congrArg (ideal · x) (by omega)) ?_
  simp [busAt, busFinish, finish, writeEvents, addressEvents]

/-- Settles O34. -/
theorem wrbRunsToCompletion : Obligations.WrbRunsToCompletion := by
  intro sa ra v s x rest hissued hagenda
  have ⟨hseq, hi, _⟩ := hissued
  exact Ideal.runSteps_of_issued hissued (by omega) (ideal_wrb (s := { s with env := ⟨true, x⟩ }) hseq hi rfl) hagenda

end Sys2Proof.Machine
end

section
/-! RDB, WRBUF and RDBUF run by SEQ alone (95_test_vectors.md part 2). -/

namespace Sys2Proof.Machine

section Bus
variable {i : Instr} {x : Byte} {s : State} {tr : List Event} {ack : Bool} {k a : Nat} (hi : decode s.cmd = .ok i)
  (henv : s.env = ⟨true, x⟩)
include hi henv

/-- R100 S8 to S11. -/
theorem ideal_readAddress {sa : SlaveAddr}
    (hlines : ∀ l sub w r, w.seq = .at i.opcode l sub k a → readAddressLines i.opcode sa l sub k a w = some r →
      exec i w = r) :
    Ideal 8 x (busAt s tr .registerAddressSent ack i.opcode .s8 k a)
      (busAt s (tr ++ readAddressEvents sa) .addressSentForRead ack i.opcode .s12 k a) := by
  have h8 : Ideal 1 x (busAt s tr .registerAddressSent ack i.opcode .s8 k a)
      (busAt s (tr ++ [.start]) .startAsserted ack i.opcode .s9 k a) :=
    ideal_act hi henv fun rest => hlines .s8 .act _ _ rfl rfl
  have h9 (tr : List Event) : Ideal 3 x (busAt s tr .startAsserted ack i.opcode .s9 k a)
      (busAt s (tr ++ [.waitOk .startDone]) .startAsserted ack i.opcode .s10 k a) :=
    ideal_wait hi henv (fun sub w _ hw => hlines .s9 sub w _ hw rfl) fun rest => rfl
  have h10 (tr : List Event) : Ideal 1 x (busAt s tr .startAsserted ack i.opcode .s10 k a)
      (busAt s (tr ++ [.tx (addrByte sa true)]) .addressSentForRead ack i.opcode .s11 k a) :=
    ideal_act hi henv fun rest => hlines .s10 .act _ _ rfl rfl
  have h11 (tr : List Event) : Ideal 3 x (busAt s tr .addressSentForRead ack i.opcode .s11 k a)
      (busAt s (tr ++ [.waitOk .addrRAck]) .addressSentForRead ack i.opcode .s12 k a) :=
    ideal_wait hi henv (fun sub w _ hw => hlines .s11 sub w _ hw rfl) fun rest => rfl
  exact (((h8.trans (h9 _)).trans (h10 _)).trans (h11 _)).of_eq rfl (by simp [readAddressEvents])

end Bus

/-! ### RDB -/

/-- R100 from its issue to its end, under E0. -/
theorem ideal_rdb {sa : SlaveAddr} {ra : RegAddr} {s : State} {x : Byte} (hseq : s.seq = .at 0xA .s1 .act 0 0)
    (hi : decode s.cmd = .ok (.rdb sa ra)) (henv : s.env = ⟨true, x⟩) :
    Ideal (28 + lineSteps s.cfg.busFreeWait) x s
      { s with
        trace := s.trace ++ readEvents s.cfg sa ra [x], ackEn := true, phase := .idle, wstart := s.tick, wok := true,
        rdByte := x, value := x.setWidth 32, status := 0x01, seq := .idle } := by
  have hexec (l : Line) (sub : Sub) (w : State) (hw : w.seq = .at 0xA l sub 0 0) :
      exec (.rdb sa ra) w =
        ((addressLines 0xA sa ra (moveTo 0xA .s8 0 0) l sub 0 0 w).or (readAddressLines 0xA sa l sub 0 0 w)).getD
          (rdbLines l sub 0 0 w) :=
    atPosition_at (.rdb sa ra) hw _
  have haddress := ideal_address (sa := sa) (ra := ra) (next := moveTo 0xA .s8 0 0) hi henv hseq
    fun l sub w r hw (hr : addressLines 0xA sa ra _ l sub 0 0 w = some r) =>
      (hexec l sub w hw).trans (by rw [hr, Option.some_or, Option.getD_some])
  have h7 (tr : List Event) : Ideal 3 x (busAt s tr .registerAddressSent s.ackEn 0xA .s7 0 0)
      (busAt s (tr ++ [.waitOk .byteTxDone]) .registerAddressSent s.ackEn 0xA .s8 0 0) :=
    ideal_wait hi henv (fun sub w _ hw => hexec .s7 sub w hw) fun rest => rfl
  have hread (tr : List Event) := ideal_readAddress (sa := sa) (tr := tr) (ack := s.ackEn) (k := 0) (a := 0) hi henv
    fun l sub w r hw (hr : readAddressLines 0xA sa l sub 0 0 w = some r) => (hexec l sub w hw).trans (by
      have hnone : addressLines 0xA sa ra (moveTo 0xA .s8 0 0) l sub 0 0 w = none := addressLines_of_read hr
      rw [hnone, hr, Option.none_or, Option.getD_some])
  have h12 (tr : List Event) : Ideal 1 x (busAt s tr .addressSentForRead s.ackEn 0xA .s12 0 0)
      (busAt s (tr ++ [.ack false]) .receiving false 0xA .s13 0 0) :=
    ideal_act hi henv fun rest => hexec .s12 .act _ rfl
  have h13 (tr : List Event) : Ideal 1 x (busAt s tr .receiving false 0xA .s13 0 0)
      (busAt s (tr ++ [.stop]) .receiving false 0xA .s14 0 0) :=
    ideal_act hi henv fun rest => hexec .s13 .act _ rfl
  have h14 (tr : List Event) : Ideal 3 x (busAt s tr .receiving false 0xA .s14 0 0)
      (busAt s (tr ++ [.waitOk .byteRxReady]) .receiving false 0xA .s15 0 0) :=
    ideal_wait hi henv (fun sub w _ hw => hexec .s14 sub w hw) fun rest => rfl
  have h15 (tr : List Event) : Ideal 1 x (busAt s tr .receiving false 0xA .s15 0 0)
      (busAt { s with rdByte := x } (tr ++ [.rx x]) .receiving false 0xA .s16 0 0) :=
    ideal_act hi henv fun rest => (hexec .s15 .act _ rfl).trans (by
      simp [addressLines, readAddressLines, rdbLines, busAt, busRecv, emit, moveTo, henv])
  have h16 (tr : List Event) : Ideal 1 x (busAt { s with rdByte := x } tr .receiving false 0xA .s16 0 0)
      (busAt { s with rdByte := x } (tr ++ [.ack true]) .receiving true 0xA .s17 0 0) :=
    ideal_act (s := { s with rdByte := x }) hi henv fun rest => hexec .s16 .act _ rfl
  have h17 (tr : List Event) : Ideal 1 x (busAt { s with rdByte := x } tr .receiving true 0xA .s17 0 0)
      (busFinish true .none { busAt { s with rdByte := x } tr .receiving true 0xA .s17 0 0 with value := valueOfByte x }) :=
    ideal_act (s := { s with rdByte := x }) hi henv fun rest => hexec .s17 .act _ rfl
  have hall := (((((((haddress.trans (h7 _)).trans (hread _)).trans (h12 _)).trans (h13 _)).trans (h14 _)).trans (h15 _)).trans
    (h16 _)).trans (h17 _)
  refine hall.of_eq (congrArg (ideal · x) (by omega)) ?_
  simp [busAt, busFinish, finish, readEvents, addressEvents, receiveEvents, valueOfByte]

/-- Settles O35. -/
theorem rdbRunsToCompletion : Obligations.RdbRunsToCompletion := by
  intro sa ra s x rest hissued hagenda
  have ⟨hseq, hi, _⟩ := hissued
  exact Ideal.runSteps_of_issued hissued (by omega) (ideal_rdb (s := { s with env := ⟨true, x⟩ }) hseq hi rfl) hagenda

/-! ### WRBUF -/

/-- R47: the bytes of a buffer from byte `k` on. -/
theorem drop_bufferBytes {m : Memory} {ptr : Half} {n k : Nat} (hk : k < n) :
    (bufferBytes m ptr n).drop k = memRead m (bufferAddress ptr k) :: (bufferBytes m ptr n).drop (k + 1) := by
  have hlt : k < (bufferBytes m ptr n).length := by simpa [bufferBytes] using hk
  have hread := bufferBytes_getElem? (m := m) (ptr := ptr) hk
  rw [List.getElem?_eq_getElem hlt] at hread
  rw [List.drop_eq_getElem_cons hlt, Option.some.inj hread]

section Wrbuf
variable {sa : SlaveAddr} {ra : RegAddr} {ptr len : Half} {s : State} {x : Byte}
  (hi : decode s.cmd = .ok (.wrbuf sa ra ptr len)) (henv : s.env = ⟨true, x⟩)
include hi henv

/-- R101 S8: the loop from byte `k` on. -/
theorem ideal_wrbuf_loop (hinside : bufferInside ptr len = true) (m : Nat) : ∀ (k : Nat) (p : Phase) (tr : List Event), 0 < m →
    k + m = len.toNat → Ideal (4 * m) x (busAt s tr p s.ackEn 0xB .s8a k 0)
      (busAt s (tr ++ dataEvents ((bufferBytes s.hm ptr len.toNat).drop k)) .dataSent s.ackEn 0xB .s9 (len.toNat - 1) 0) := by
  have hexec (l : Line) (sub : Sub) (k : Nat) (w : State) (hw : w.seq = .at 0xB l sub k 0) :
      exec (.wrbuf sa ra ptr len) w =
        (addressLines 0xB sa ra (firstByte 0xB .s8a .s9 len.toNat 0) l sub k 0 w).getD (wrbufLines ptr len l sub k 0 w) :=
    atPosition_at (.wrbuf sa ra ptr len) hw _
  induction m with
  | zero => exact fun _ _ _ hpos => absurd hpos (Nat.lt_irrefl 0)
  | succ m ih =>
    intro k p tr _ hlen
    have hk : k < len.toNat := by omega
    have hsend : Ideal 1 x (busAt s tr p s.ackEn 0xB .s8a k 0)
        (busAt s (tr ++ [.tx (memRead s.hm (bufferAddress ptr k))]) .dataSent s.ackEn 0xB .s8b k 0) := by
      refine ideal_act hi henv fun rest => (hexec .s8a .act k _ rfl).trans ?_
      simp only [addressLines, Option.getD_none, wrbufLines,
        hmLoad_inside { busAt s tr p s.ackEn 0xB .s8a k 0 with agenda := rest } (inside_of_legal hinside hk)]
      rfl
    have hwait (tr : List Event) : Ideal 3 x (busAt s tr .dataSent s.ackEn 0xB .s8b k 0)
        (nextByte 0xB .s8a .s9 len.toNat k 0 (busAt s (tr ++ [.waitOk .byteTxDone]) .dataSent s.ackEn 0xB .s8b k 0)) :=
      ideal_wait hi henv (fun sub w _ hw => hexec .s8b sub k w hw) fun rest => rfl
    have hbytes : dataEvents ((bufferBytes s.hm ptr len.toNat).drop k) =
        [.tx (memRead s.hm (bufferAddress ptr k)), .waitOk .byteTxDone] ++
          dataEvents ((bufferBytes s.hm ptr len.toNat).drop (k + 1)) := by
      rw [drop_bufferBytes hk]
      rfl
    have hone := hsend.trans (hwait _)
    unfold nextByte at hone
    rw [hbytes]
    by_cases hnext : k + 1 < len.toNat
    · rw [if_pos hnext, if_pos hnext] at hone
      have hrest := ih (k + 1) .dataSent (tr ++ [.tx (memRead s.hm (bufferAddress ptr k))] ++ [.waitOk .byteTxDone])
        (by omega) (by omega)
      exact (hone.trans hrest).of_eq (congrArg (ideal · x) (by omega)) (by simp)
    · rw [if_neg hnext, if_neg hnext] at hone
      have hlast : m = 0 := by omega
      subst hlast
      refine hone.of_eq rfl ?_
      rw [List.drop_eq_nil_of_le (by simp [bufferBytes]; omega), show len.toNat - 1 = k by omega]
      simp [moveTo, busAt, dataEvents]

/-- R101 S7 to S9: from the last wait of the address part to the stop, with no byte or some. -/
theorem ideal_wrbuf_data (hinside : bufferInside ptr len = true) (tr : List Event) : ∃ p k,
    Ideal (3 + 4 * len.toNat) x (busAt s tr .registerAddressSent s.ackEn 0xB .s7 0 0)
      (busAt s (tr ++ .waitOk .byteTxDone :: dataEvents (bufferBytes s.hm ptr len.toNat)) p s.ackEn 0xB .s9 k 0) := by
  have hwait : Ideal 3 x (busAt s tr .registerAddressSent s.ackEn 0xB .s7 0 0)
      (firstByte 0xB .s8a .s9 len.toNat 0
        (busAt s (tr ++ [.waitOk .byteTxDone]) .registerAddressSent s.ackEn 0xB .s7 0 0)) :=
    ideal_wait hi henv (fun sub w _ hw => atPosition_at (.wrbuf sa ra ptr len) hw _) fun rest => rfl
  unfold firstByte at hwait
  by_cases hlen : 0 < len.toNat
  · rw [if_pos hlen] at hwait
    have hloop := ideal_wrbuf_loop hi henv hinside len.toNat 0 .registerAddressSent (tr ++ [.waitOk .byteTxDone]) hlen
      (Nat.zero_add _)
    exact ⟨.dataSent, len.toNat - 1, (hwait.trans hloop).of_eq rfl (by simp)⟩
  · rw [if_neg hlen] at hwait
    have hzero : len.toNat = 0 := Nat.eq_zero_of_not_pos hlen
    rw [hzero]
    exact ⟨_, _, hwait⟩

/-- R101 from its issue to its end, under E0. -/
theorem ideal_wrbuf (hinside : bufferInside ptr len = true) (hseq : s.seq = .at 0xB .s1 .act 0 0) :
    Ideal (14 + lineSteps s.cfg.busFreeWait + lineSteps s.cfg.stopDoneWait + 4 * len.toNat) x s
      { s with
        trace := s.trace ++ writeEvents s.cfg sa ra (bufferBytes s.hm ptr len.toNat), phase := .idle, wstart := s.tick,
        wok := true, status := 0x01, seq := .idle } := by
  have hexec (l : Line) (sub : Sub) (k : Nat) (w : State) (hw : w.seq = .at 0xB l sub k 0) :
      exec (.wrbuf sa ra ptr len) w =
        (addressLines 0xB sa ra (firstByte 0xB .s8a .s9 len.toNat 0) l sub k 0 w).getD (wrbufLines ptr len l sub k 0 w) :=
    atPosition_at (.wrbuf sa ra ptr len) hw _
  have haddress := ideal_address (sa := sa) (ra := ra) (next := firstByte 0xB .s8a .s9 len.toNat 0) hi henv hseq
    fun l sub w r hw (hr : addressLines 0xB sa ra _ l sub 0 0 w = some r) =>
      (hexec l sub 0 w hw).trans (by rw [hr, Option.getD_some])
  obtain ⟨p, k, hdata⟩ := ideal_wrbuf_data hi henv hinside (s.trace ++ gateEvents s.cfg.busFreeWait .busFree ++
    [.start, .waitOk .startDone, .tx (addrByte sa false), .waitOk .addrWAck, .tx ra])
  have h9 (tr : List Event) : Ideal 1 x (busAt s tr p s.ackEn 0xB .s9 k 0)
      (busAt s (tr ++ [.stop]) .stopAsserted s.ackEn 0xB .s10 k 0) :=
    ideal_act hi henv fun rest => hexec .s9 .act k _ rfl
  have h10 (tr : List Event) : Ideal (lineSteps s.cfg.stopDoneWait) x (busAt s tr .stopAsserted s.ackEn 0xB .s10 k 0)
      (busAt s (tr ++ gateEvents s.cfg.stopDoneWait .stopDone) .stopAsserted s.ackEn 0xB .s11 k 0) :=
    ideal_stopGate hi henv fun sub w hw => hexec .s10 sub k w hw
  have h11 (tr : List Event) : Ideal 1 x (busAt s tr .stopAsserted s.ackEn 0xB .s11 k 0)
      (busFinish true .none (busAt s tr .stopAsserted s.ackEn 0xB .s11 k 0)) :=
    ideal_act hi henv fun rest => hexec .s11 .act k _ rfl
  have hall := (((haddress.trans hdata).trans (h9 _)).trans (h10 _)).trans (h11 _)
  refine hall.of_eq (congrArg (ideal · x) (by omega)) ?_
  simp [busAt, busFinish, finish, writeEvents, addressEvents, dataEvents]

end Wrbuf

/-- Settles O36. -/
theorem wrbufRunsToCompletion : Obligations.WrbufRunsToCompletion := by
  intro sa ra ptr len s x rest hissued hagenda
  have ⟨hseq, hi, hlegal⟩ := hissued
  exact Ideal.runSteps_of_issued hissued (by omega)
    (ideal_wrbuf (s := { s with env := ⟨true, x⟩ }) hi rfl hlegal hseq) hagenda

end Sys2Proof.Machine
end

section
/-! RDBUF run by SEQ alone, with the bytes that ENV delivers (95_test_vectors.md part 2). -/

namespace Sys2Proof.Machine

/-- R103: the events before a byte, which is the last one or not. -/
def beforeLast (last : Bool) : List Event := if last then [.ack false, .stop] else []

theorem receiveEvents_cons (b : Byte) (bytes : List Byte) :
    receiveEvents (b :: bytes) = beforeLast bytes.isEmpty ++ [.waitOk .byteRxReady, .rx b] ++ receiveEvents bytes := by
  cases bytes <;> rfl

/-- A run with another answer of ENV before it. -/
theorem Ideal.of_env {i : Instr} {n : Nat} {x : Byte} {s t : State} (hn : 0 < n) (hrun : s.seq ≠ .idle)
    (hi : decode s.cmd = .ok i) (h : Ideal n x { s with env := ⟨true, x⟩ } t) : Ideal n x s t := by
  obtain ⟨m, rfl⟩ := Nat.exists_eq_succ_of_ne_zero (Nat.ne_of_gt hn)
  exact Runs.of_env hrun hi h

section Rdbuf
variable {sa : SlaveAddr} {ra : RegAddr} {ptr len : Half}

/-- RDBUF's numbered steps. -/
theorem exec_rdbuf_at (l : Line) (sub : Sub) (k : Nat) (w : State) (hw : w.seq = .at 0xC l sub k 0) :
    exec (.rdbuf sa ra ptr len) w =
      ((addressLines 0xC sa ra (moveTo 0xC .s8 k 0) l sub k 0 w).or (readAddressLines 0xC sa l sub k 0 w)).getD
        (rdbufLines ptr len l sub k 0 w) :=
  atPosition_at (.rdbuf sa ra ptr len) hw _

/-- R102 S13: the steps for byte `k`. -/
theorem ideal_rdbuf_byte {s : State} {b : Byte} {k : Nat} (hi : decode s.cmd = .ok (.rdbuf sa ra ptr len))
    (henv : s.env = ⟨true, b⟩) (hinside : bufferInside ptr len = true) (hk : k < len.toNat) (tr : List Event) (ack : Bool) :
    Ideal 6 b (busAt s tr .receiving ack 0xC .s13a k 0)
      (nextByte 0xC .s13a .s14 len.toNat k 0
        (busAt { s with hm := memWrite s.hm (bufferAddress ptr k) b }
          (tr ++ beforeLast (decide (k + 1 = len.toNat)) ++ [.waitOk .byteRxReady, .rx b]) .receiving
          (ack && !decide (k + 1 = len.toNat)) 0xC .s13d k 0)) := by
  have hbefore : Ideal 2 b (busAt s tr .receiving ack 0xC .s13a k 0)
      (busAt s (tr ++ beforeLast (decide (k + 1 = len.toNat))) .receiving (ack && !decide (k + 1 = len.toNat)) 0xC .s13c k 0) := by
    by_cases hlast : k + 1 = len.toNat
    · have h13a : Ideal 1 b (busAt s tr .receiving ack 0xC .s13a k 0)
          (busAt s (tr ++ [.ack false]) .receiving false 0xC .s13b k 0) :=
        ideal_act hi henv fun rest => (exec_rdbuf_at .s13a .act k _ rfl).trans (by
          simp only [addressLines, readAddressLines, Option.or_none, Option.getD_none, rdbufLines, if_pos hlast]
          rfl)
      have h13b (tr : List Event) : Ideal 1 b (busAt s tr .receiving false 0xC .s13b k 0)
          (busAt s (tr ++ [.stop]) .receiving false 0xC .s13c k 0) :=
        ideal_act hi henv fun rest => (exec_rdbuf_at .s13b .act k _ rfl).trans (by
          simp only [addressLines, readAddressLines, Option.or_none, Option.getD_none, rdbufLines, if_pos hlast]
          rfl)
      exact (h13a.trans (h13b _)).of_eq rfl (by simp [hlast, beforeLast])
    · have h13a : Ideal 1 b (busAt s tr .receiving ack 0xC .s13a k 0) (busAt s tr .receiving ack 0xC .s13b k 0) :=
        ideal_act hi henv fun rest => (exec_rdbuf_at .s13a .act k _ rfl).trans (by
          simp only [addressLines, readAddressLines, Option.or_none, Option.getD_none, rdbufLines, if_neg hlast]
          rfl)
      have h13b : Ideal 1 b (busAt s tr .receiving ack 0xC .s13b k 0) (busAt s tr .receiving ack 0xC .s13c k 0) :=
        ideal_act hi henv fun rest => (exec_rdbuf_at .s13b .act k _ rfl).trans (by
          simp only [addressLines, readAddressLines, Option.or_none, Option.getD_none, rdbufLines, if_neg hlast]
          rfl)
      exact (h13a.trans h13b).of_eq rfl (by simp [hlast, beforeLast])
  have hwait (tr : List Event) (ack : Bool) : Ideal 3 b (busAt s tr .receiving ack 0xC .s13c k 0)
      (busAt s (tr ++ [.waitOk .byteRxReady]) .receiving ack 0xC .s13d k 0) :=
    ideal_wait hi henv (fun sub w _ hw => exec_rdbuf_at .s13c sub k w hw) fun rest => rfl
  have hstore (tr : List Event) (ack : Bool) : Ideal 1 b (busAt s tr .receiving ack 0xC .s13d k 0)
      (nextByte 0xC .s13a .s14 len.toNat k 0
        (busAt { s with hm := memWrite s.hm (bufferAddress ptr k) b } (tr ++ [.rx b]) .receiving ack 0xC .s13d k 0)) := by
    refine ideal_act hi henv fun rest => (exec_rdbuf_at .s13d .act k _ rfl).trans ?_
    simp only [addressLines, readAddressLines, Option.or_none, Option.getD_none, rdbufLines]
    rw [hmStore_inside _ _ (inside_of_legal hinside hk)]
    by_cases hnext : k + 1 < len.toNat <;> simp [nextByte, hnext, busRecv, emit, moveTo, busAt, henv, bufferAddress]
  exact ((hbefore.trans (hwait _ _)).trans (hstore _ _)).of_eq rfl (by simp)

/-- R102 S13: the loop from a byte on, with the bytes still to come. -/
theorem runs_rdbuf_loop {m : Memory} (hinside : bufferInside ptr len = true) (bytes : List Byte) :
    ∀ (s : State) (got : List Byte) (tr : List Event) (ack : Bool), decode s.cmd = .ok (.rdbuf sa ra ptr len) →
      Received m ptr got s.hm → bytes ≠ [] → got.length + bytes.length = len.toNat →
      ∃ m' e, Received m ptr (got ++ bytes) m' ∧
        Runs (bytes.flatMap (ideal 6)) (busAt s tr .receiving ack 0xC .s13a got.length 0)
          (busAt { s with env := e, hm := m' } (tr ++ receiveEvents bytes) .receiving false 0xC .s14 (len.toNat - 1) 0) := by
  induction bytes with
  | nil => exact fun _ _ _ _ _ _ hne => absurd rfl hne
  | cons b bytes ih =>
    intro s got tr ack hi hreceived _ hlen
    rw [List.length_cons] at hlen
    have hk : got.length < len.toNat := by omega
    have hone : Ideal 6 b (busAt s tr .receiving ack 0xC .s13a got.length 0) _ :=
      Ideal.of_env (by decide) nofun hi
        (ideal_rdbuf_byte (s := { s with env := ⟨true, b⟩ }) hi rfl hinside hk tr ack)
    have hstored : Received m ptr (got ++ [b]) (memWrite s.hm (bufferAddress ptr got.length) b) :=
      hreceived.store (inside_of_legal hinside hk)
    rw [List.flatMap_cons, receiveEvents_cons]
    unfold nextByte at hone
    by_cases hnext : got.length + 1 < len.toNat
    · have hmore : bytes ≠ [] := fun hnil => by rw [hnil, List.length_nil] at hlen; omega
      rw [if_pos hnext, if_pos hnext, decide_eq_false (Nat.ne_of_lt hnext)] at hone
      obtain ⟨m', e, hend, hrest⟩ := ih
        { s with env := ⟨true, b⟩, hm := memWrite s.hm (bufferAddress ptr got.length) b } (got ++ [b])
        (tr ++ beforeLast false ++ [.waitOk .byteRxReady, .rx b]) (ack && !false) hi hstored hmore (by simp; omega)
      rw [List.append_assoc] at hend
      refine ⟨m', e, hend, ?_⟩
      rw [List.length_append] at hrest
      have hempty : bytes.isEmpty = false := by simpa using hmore
      exact (Runs.trans hone hrest).of_eq rfl (by simp [hempty])
    · have hnil : bytes = [] := List.eq_nil_of_length_eq_zero (by omega)
      have hlast : got.length + 1 = len.toNat := by omega
      subst hnil
      rw [if_neg hnext, if_neg hnext, decide_eq_true hlast] at hone
      refine ⟨_, ⟨true, b⟩, hstored, ?_⟩
      refine (Runs.trans hone (Runs.nil _)).of_eq rfl ?_
      simp [busAt, moveTo, receiveEvents, ← hlast]

/-- R102 S1 to S12, under E0. -/
theorem ideal_rdbuf_start {s : State} {x : Byte} (hi : decode s.cmd = .ok (.rdbuf sa ra ptr len)) (henv : s.env = ⟨true, x⟩)
    (hlen : 0 < len.toNat) (hseq : s.seq = .at 0xC .s1 .act 0 0) :
    Ideal (21 + lineSteps s.cfg.busFreeWait) x s
      (busAt s (s.trace ++ addressEvents s.cfg sa ra ++ readAddressEvents sa) .receiving s.ackEn 0xC .s13a 0 0) := by
  have haddress := ideal_address (sa := sa) (ra := ra) (next := moveTo 0xC .s8 0 0) hi henv hseq
    fun l sub w r hw (hr : addressLines 0xC sa ra _ l sub 0 0 w = some r) =>
      (exec_rdbuf_at l sub 0 w hw).trans (by rw [hr, Option.some_or, Option.getD_some])
  have h7 (tr : List Event) : Ideal 3 x (busAt s tr .registerAddressSent s.ackEn 0xC .s7 0 0)
      (busAt s (tr ++ [.waitOk .byteTxDone]) .registerAddressSent s.ackEn 0xC .s8 0 0) :=
    ideal_wait hi henv (fun sub w _ hw => exec_rdbuf_at .s7 sub 0 w hw) fun rest => rfl
  have hread (tr : List Event) := ideal_readAddress (sa := sa) (tr := tr) (ack := s.ackEn) (k := 0) (a := 0) hi henv
    fun l sub w r hw (hr : readAddressLines 0xC sa l sub 0 0 w = some r) => (exec_rdbuf_at l sub 0 w hw).trans (by
      have hnone : addressLines 0xC sa ra (moveTo 0xC .s8 0 0) l sub 0 0 w = none := addressLines_of_read hr
      rw [hnone, hr, Option.none_or, Option.getD_some])
  have h12 (tr : List Event) : Ideal 1 x (busAt s tr .addressSentForRead s.ackEn 0xC .s12 0 0)
      (busAt s tr .receiving s.ackEn 0xC .s13a 0 0) :=
    ideal_act hi henv fun rest => (exec_rdbuf_at .s12 .act 0 _ rfl).trans (by
      simp only [addressLines, readAddressLines, Option.or_none, Option.getD_none, rdbufLines, firstByte, if_pos hlen]
      rfl)
  have hall := ((haddress.trans (h7 _)).trans (hread _)).trans (h12 _)
  exact hall.of_eq (congrArg (ideal · x) (by omega)) (by simp [addressEvents])

/-- R102 S14, S15, under E0. -/
theorem ideal_rdbuf_end {s : State} {x : Byte} {k : Nat} (hi : decode s.cmd = .ok (.rdbuf sa ra ptr len))
    (henv : s.env = ⟨true, x⟩) (tr : List Event) :
    Ideal 2 x (busAt s tr .receiving false 0xC .s14 k 0)
      (busFinish true .none (busAt s (tr ++ [.ack true]) .receiving true 0xC .s15 k 0)) := by
  have h14 : Ideal 1 x (busAt s tr .receiving false 0xC .s14 k 0)
      (busAt s (tr ++ [.ack true]) .receiving true 0xC .s15 k 0) :=
    ideal_act hi henv fun rest => exec_rdbuf_at .s14 .act k _ rfl
  exact h14.trans (ideal_act hi henv fun rest => exec_rdbuf_at .s15 .act k _ rfl)

/-- R102 from its issue to its end. -/
theorem runs_rdbuf {s : State} {x : Byte} {bytes : List Byte} (hissued : Issued (.rdbuf sa ra ptr len) s)
    (hwf : Memory.wf s.hm = true) (hbytes : bytes.length = len.toNat) :
    ∃ m, Received s.hm ptr bytes m ∧
      Runs (ideal (21 + lineSteps s.cfg.busFreeWait) x ++ bytes.flatMap (ideal 6) ++ ideal 2 x) s
        { s with
          env := ⟨true, x⟩, trace := s.trace ++ readEvents s.cfg sa ra bytes, ackEn := true, phase := .idle,
          wstart := s.tick, wok := true, hm := m, status := 0x01, seq := .idle } := by
  have ⟨hseq, hi, hlegal⟩ := hissued
  obtain ⟨hlen, hinside⟩ : decide (len ≠ 0) = true ∧ bufferInside ptr len = true := Bool.and_eq_true_iff.mp hlegal
  have hpos : 0 < len.toNat := Nat.pos_of_ne_zero fun hzero => of_decide_eq_true hlen (BitVec.eq_of_toNat_eq hzero)
  have hne : bytes ≠ [] := fun hnil => by rw [hnil, List.length_nil] at hbytes; omega
  have hstart : Ideal (21 + lineSteps s.cfg.busFreeWait) x s _ :=
    Ideal.of_env (by omega) (by rw [hseq]; nofun) hi
      (ideal_rdbuf_start (s := { s with env := ⟨true, x⟩ }) hi rfl hpos hseq)
  obtain ⟨m, e, hreceived, hloop⟩ := runs_rdbuf_loop hinside bytes { s with env := ⟨true, x⟩ } []
    (s.trace ++ addressEvents s.cfg sa ra ++ readAddressEvents sa) s.ackEn hi (Received.nil hwf) hne (by simpa using hbytes)
  have hend (tr : List Event) :
      Ideal 2 x (busAt { s with env := e, hm := m } tr .receiving false 0xC .s14 (len.toNat - 1) 0) _ :=
    Ideal.of_env (by decide) nofun hi
      (ideal_rdbuf_end (s := { s with env := ⟨true, x⟩, hm := m }) hi rfl tr)
  refine ⟨m, hreceived, (Runs.trans (Runs.trans hstart hloop) (hend _)).of_eq rfl ?_⟩
  simp [busAt, busFinish, finish, readEvents]

end Rdbuf

theorem length_flatMap_ideal (n : Nat) (bytes : List Byte) : (bytes.flatMap (ideal n)).length = n * bytes.length := by
  simp [List.length_flatMap, ideal, Nat.mul_comm]

/-- Settles O37. -/
theorem rdbufRunsToCompletion : Obligations.RdbufRunsToCompletion := by
  intro sa ra ptr len bytes s x rest hissued hwf hbytes hagenda
  obtain ⟨m, hreceived, hrun⟩ := runs_rdbuf (x := x) hissued hwf hbytes
  have hsteps := hrun.runSteps hagenda
  have hlength : (ideal (21 + lineSteps s.cfg.busFreeWait) x ++ bytes.flatMap (ideal 6) ++ ideal 2 x).length =
      23 + lineSteps s.cfg.busFreeWait + 6 * bytes.length := by
    rw [List.length_append, List.length_append, length_flatMap_ideal]
    simp only [ideal, List.length_replicate]
    omega
  rw [hlength] at hsteps
  refine ⟨_, hsteps, rfl, hreceived.wf, fun k hk => ?_, fun y hy => ?_⟩
  · have hread := hreceived.read (ptr.toNat + k)
    rw [if_pos ⟨by omega, by omega⟩, Nat.add_sub_cancel_left] at hread
    rw [hread, List.getD_eq_getElem?_getD, List.getElem?_eq_getElem hk, Option.getD_some]
  · rw [hreceived.read y, if_neg (by omega)]

end Sys2Proof.Machine
end

section
/-! Holds and waits: what SEQ does while ENV answers false (R13, R78, R92 to R95). -/

namespace Sys2Proof.Machine

/-! ### The waits of the transmit commands -/

/-- R13: an `await` that is answered false. -/
theorem await_false {c : Cond} {next : State → State} {s : State} (h : s.env.sample = false) : await c next s = .next s :=
  if_neg (Bool.eq_false_iff.mp h)

/-- R76, R77: the lines of a transmit command that await TXE or TC. -/
theorem exec_transmit_wait {i : Instr} {l : Line} {k a : Nat} {s : State} (hlegal : legal i s.hm = true)
    (hseq : s.seq = .at i.opcode l .act k a) (hwait : (∃ b, i = .sendb b) ∧ l ∈ [.s3, .s5] ∨
      ((∃ ptr, i = .sends ptr) ∨ ∃ ptr len, i = .sendbuf ptr len) ∧ l ∈ [.s3a, .s4]) :
    ∃ c next, exec i s = await c next s := by
  simp only [List.mem_cons, List.not_mem_nil, or_false] at hwait
  rcases hwait with ⟨⟨b, rfl⟩, rfl | rfl⟩ | ⟨⟨ptr, rfl⟩ | ⟨ptr, len, rfl⟩, rfl | rfl⟩
  · exact ⟨_, _, atPosition_at (.sendb b) hseq _⟩
  · exact ⟨_, _, atPosition_at (.sendb b) hseq _⟩
  · obtain ⟨n, hn⟩ := Option.isSome_iff_exists.mp hlegal
    exact ⟨_, _, exec_sends_at hseq hn⟩
  · obtain ⟨n, hn⟩ := Option.isSome_iff_exists.mp hlegal
    exact ⟨_, _, exec_sends_at hseq hn⟩
  · exact ⟨_, _, atPosition_at (.sendbuf ptr len) hseq _⟩
  · exact ⟨_, _, atPosition_at (.sendbuf ptr len) hseq _⟩

/-- R13: a state that a false sample leaves as it is holds through any number of them. -/
theorem runs_hold {i : Instr} {x : Byte} (n : Nat) : ∀ {s : State}, s.seq ≠ .idle → decode s.cmd = .ok i →
    (∀ rest, exec i { s with agenda := rest, env := ⟨false, x⟩ } = .next { s with agenda := rest, env := ⟨false, x⟩ }) →
    Runs (List.replicate n (.seq ⟨false, x⟩)) s { s with env := if n = 0 then s.env else ⟨false, x⟩ } := by
  induction n with
  | zero => exact fun _ _ _ => Runs.nil _
  | succ n ih =>
    intro s hrun hi hexec
    have hone : Runs [.seq ⟨false, x⟩] s { s with env := ⟨false, x⟩ } := Runs.seq hrun hi hexec
    have hrest := ih (s := { s with env := ⟨false, x⟩ }) hrun hi hexec
    exact (Runs.trans hone hrest).of_eq rfl (by simp)

/-- Settles O47. -/
theorem transmitWaitHoldsWithoutLimit : Obligations.TransmitWaitHoldsWithoutLimit := by
  intro n s i l k a x rest hi hlegal hseq hwait hagenda
  have hexec (rest : List Action) :
      exec i { s with agenda := rest, env := ⟨false, x⟩ } = .next { s with agenda := rest, env := ⟨false, x⟩ } := by
    obtain ⟨c, next, hawait⟩ := exec_transmit_wait (s := { s with agenda := rest, env := ⟨false, x⟩ }) hlegal hseq hwait
    exact hawait.trans (await_false rfl)
  have hsteps := (runs_hold n (by rw [hseq]; nofun) hi hexec).runSteps hagenda
  rwa [List.length_replicate] at hsteps

/-! ### The waits of the bus commands -/

/-- R92: a poll. -/
def polled (i : Instr) (l : Line) (k a : Nat) (s : State) : State :=
  if s.env.sample then
    { s with trace := s.trace ++ [.waitOk (condAt i l)], wok := true, seq := .at i.opcode l .test k a }
  else if (s.tick - s.wstart).toNat > budgetOf i then
    { s with trace := s.trace ++ [.waitTimeout (condAt i l)], wok := false, seq := .at i.opcode l .test k a }
  else s

/-- R99 S1: a poll of a wait that a parameter selects. -/
theorem waitLineIf_poll (enabled : Bool) (c : Cond) (budget : Nat) (op : BitVec 4) (l : Line) (k a : Nat)
    (passed failed : State → State) (s : State) :
    waitLineIf enabled c budget op l .poll k a passed failed s = waitLine c budget op l .poll k a passed failed s :=
  if_neg nofun

section Polls
variable {i : Instr} {l : Line} {k a : Nat} {s : State} {c : Cond}

/-- A poll does not read where its wait goes on. -/
theorem exec_polled_of_waitLine (hc : c = condAt i l)
    (h : exec i s = waitLine c (budgetOf i) i.opcode l .poll k a id id s) : exec i s = .next (polled i l k a s) := by
  rw [h, waitLine_poll, hc]
  rfl

theorem exec_polled_of_waitLineIf {enabled : Bool} {passed failed : State → State} (hc : c = condAt i l)
    (h : exec i s = waitLineIf enabled c (budgetOf i) i.opcode l .poll k a passed failed s) :
    exec i s = .next (polled i l k a s) := exec_polled_of_waitLine hc (h.trans (waitLineIf_poll ..))

/-- R94, R98: every wait of the bus commands polls its own condition with its command's budget. -/
theorem exec_polled (hwaits : waitsAt i l = true) (hseq : s.seq = .at i.opcode l .poll k a) :
    exec i s = .next (polled i l k a s) := by
  cases i with
  | wrb sa ra v =>
    have hexec := atPosition_at (.wrb sa ra v) hseq
    simp only [waitsAt, decide_eq_true_eq, List.mem_cons, List.not_mem_nil, or_false] at hwaits
    rcases hwaits with rfl | rfl | rfl | rfl | rfl | rfl
    · exact exec_polled_of_waitLineIf rfl (hexec _)
    · exact exec_polled_of_waitLine rfl (hexec _)
    · exact exec_polled_of_waitLine rfl (hexec _)
    · exact exec_polled_of_waitLine rfl (hexec _)
    · exact exec_polled_of_waitLine rfl (hexec _)
    · exact exec_polled_of_waitLineIf rfl (hexec _)
  | rdb sa ra =>
    have hexec := atPosition_at (.rdb sa ra) hseq
    simp only [waitsAt, decide_eq_true_eq, List.mem_cons, List.not_mem_nil, or_false] at hwaits
    rcases hwaits with rfl | hlater
    · exact exec_polled_of_waitLineIf rfl (hexec _)
    · rcases hlater with rfl | rfl | rfl | rfl | rfl | rfl <;> exact exec_polled_of_waitLine rfl (hexec _)
  | wrbuf sa ra ptr len =>
    have hexec := atPosition_at (.wrbuf sa ra ptr len) hseq
    simp only [waitsAt, decide_eq_true_eq, List.mem_cons, List.not_mem_nil, or_false] at hwaits
    rcases hwaits with rfl | rfl | rfl | rfl | rfl | rfl
    · exact exec_polled_of_waitLineIf rfl (hexec _)
    · exact exec_polled_of_waitLine rfl (hexec _)
    · exact exec_polled_of_waitLine rfl (hexec _)
    · exact exec_polled_of_waitLine rfl (hexec _)
    · exact exec_polled_of_waitLine rfl (hexec _)
    · exact exec_polled_of_waitLineIf rfl (hexec _)
  | rdbuf sa ra ptr len =>
    have hexec := atPosition_at (.rdbuf sa ra ptr len) hseq
    simp only [waitsAt, decide_eq_true_eq, List.mem_cons, List.not_mem_nil, or_false] at hwaits
    rcases hwaits with rfl | hlater
    · exact exec_polled_of_waitLineIf rfl (hexec _)
    · rcases hlater with rfl | rfl | rfl | rfl | rfl | rfl <;> exact exec_polled_of_waitLine rfl (hexec _)
  | scan =>
    have hexec := atPosition_at .scan hseq
    simp only [waitsAt, decide_eq_true_eq, List.mem_cons, List.not_mem_nil, or_false] at hwaits
    rcases hwaits with rfl | rfl | rfl | rfl
    · exact exec_polled_of_waitLineIf rfl (hexec _)
    · exact exec_polled_of_waitLine rfl (hexec _)
    · exact exec_polled_of_waitLine rfl (hexec _)
    · exact exec_polled_of_waitLineIf rfl (hexec _)
  | setdir _ | sendb _ | sends _ | sendbuf _ _ | recv _ _ | avail | rxlen | clrrx => cases hwaits

end Polls

/-- TICK's turn. -/
theorem runs_tick (s : State) : Runs [.tick] s (tickStep s) := fun rest => runSteps_succ 0 (step_tick s rest)

theorem tickStep_tick_add (s : State) (n : Nat) : (tickStep s).tick + BitVec.ofNat 32 n = s.tick + BitVec.ofNat 32 (n + 1) := by
  rw [Nat.add_comm n, BitVec.ofNat_add, ← BitVec.add_assoc]
  rfl

theorem runs_ticks (n : Nat) : ∀ s : State, Runs (List.replicate n .tick) s { s with tick := s.tick + BitVec.ofNat 32 n } := by
  induction n with
  | zero => exact fun s => (Runs.nil s).of_eq rfl (by simp)
  | succ n ih =>
    intro s
    exact (Runs.trans (runs_tick s) (ih _)).of_eq rfl (by rw [tickStep_tick_add]; rfl)

/-- R92: a poll within the budget whose condition is not seen. -/
theorem polled_within {i : Instr} {l : Line} {k a : Nat} {s : State} (hsample : s.env.sample = false)
    (hbudget : (s.tick - s.wstart).toNat ≤ budgetOf i) : polled i l k a s = s := by
  unfold polled
  rw [hsample, if_neg Bool.false_ne_true, if_neg (Nat.not_lt.mpr hbudget)]

/-- R93: a tick that the budget still covers makes the elapsed time one more. -/
theorem elapsed_tick {i : Instr} {s : State} (h : (s.tick - s.wstart).toNat < budgetOf i) :
    (s.tick + 1 - s.wstart).toNat = (s.tick - s.wstart).toNat + 1 := by
  have hbudget : budgetOf i ≤ 1000 := by
    unfold budgetOf
    split <;> decide
  bv_omega

section Waiting
variable {i : Instr} {l : Line} {k a : Nat} (hwaits : waitsAt i l = true)
include hwaits

/-- R92: SEQ's turn at a poll. -/
theorem runs_poll {s : State} {answer : Answer} (hi : decode s.cmd = .ok i) (hseq : s.seq = .at i.opcode l .poll k a) :
    Runs [.seq answer] s (polled i l k a { s with env := answer }) := by
  refine Runs.seq (by rw [hseq]; nofun) hi fun rest =>
    (exec_polled (s := { s with agenda := rest, env := answer }) hwaits hseq).trans ?_
  unfold polled
  split
  · rfl
  · split <;> rfl

/-- R92, R95: within the budget ticks and false polls change nothing but the clock. -/
theorem runs_waiting (acts : List Action) : ∀ s : State, decode s.cmd = .ok i → s.seq = .at i.opcode l .poll k a →
    acts.all isTickOrFalsePoll = true → (s.tick - s.wstart).toNat + acts.countP (· == .tick) ≤ budgetOf i →
    ∃ e, Runs acts s { s with env := e, tick := s.tick + BitVec.ofNat 32 (acts.countP (· == .tick)) } := by
  induction acts with
  | nil => exact fun s _ _ _ _ => ⟨s.env, (Runs.nil s).of_eq rfl (by simp)⟩
  | cons act acts ih =>
    intro s hi hseq hall hbudget
    rw [List.all_cons, Bool.and_eq_true_iff] at hall
    obtain ⟨hact, hall⟩ := hall
    cases act with
    | tick =>
      rw [List.countP_cons_of_pos (by simp)] at hbudget ⊢
      have helapsed := elapsed_tick (i := i) (s := s) (by omega)
      obtain ⟨e, hrest⟩ := ih (tickStep s) hi hseq hall (by
        show (s.tick + 1 - s.wstart).toNat + _ ≤ _
        omega)
      exact ⟨e, (Runs.trans (runs_tick s) hrest).of_eq rfl (by rw [tickStep_tick_add]; rfl)⟩
    | seq answer =>
      rw [List.countP_cons_of_neg (by simp)] at hbudget ⊢
      have hsample : answer.sample = false := by simpa [isTickOrFalsePoll] using hact
      have hone := runs_poll (answer := answer) hwaits hi hseq
      rw [polled_within hsample (by exact (Nat.le_add_right _ _).trans hbudget)] at hone
      obtain ⟨e, hrest⟩ := ih { s with env := answer } hi hseq hall hbudget
      exact ⟨e, Runs.trans hone hrest⟩
    | rxc _ | raise | hostWrite _ _ _ | hostRead _ _ | hmWrite _ _ | hmRead _ | reset => cases hact

/-- R92: a wait whose budget has run out gives up at its next poll. -/
theorem runs_timeout {s : State} (ticks : Nat) (x : Byte) (hi : decode s.cmd = .ok i)
    (hseq : s.seq = .at i.opcode l .poll k a) (hover : budgetOf i < (s.tick - s.wstart).toNat + ticks)
    (hbound : (s.tick - s.wstart).toNat + ticks < 2 ^ 32) :
    Runs (List.replicate ticks .tick ++ [.seq ⟨false, x⟩]) s
      { s with
        env := ⟨false, x⟩, tick := s.tick + BitVec.ofNat 32 ticks, trace := s.trace ++ [.waitTimeout (condAt i l)],
        wok := false, seq := .at i.opcode l .test k a } := by
  have hpoll := runs_poll (s := { s with tick := s.tick + BitVec.ofNat 32 ticks }) (answer := ⟨false, x⟩) hwaits hi hseq
  have helapsed : (s.tick + BitVec.ofNat 32 ticks - s.wstart).toNat > budgetOf i := by bv_omega
  unfold polled at hpoll
  rw [if_neg Bool.false_ne_true, if_pos (by exact helapsed)] at hpoll
  exact Runs.trans (runs_ticks ticks s) hpoll

end Waiting

/-- Settles O48. -/
theorem waitEndsByConditionOrBudget : Obligations.WaitEndsByConditionOrBudget := by
  intro s i l k a hi hwaits hseq
  refine ⟨fun acts rest hall hagenda hbudget => ?_, fun ticks x rest hagenda hover hbound => ?_, fun x rest hagenda => ?_⟩
  · obtain ⟨e, hrun⟩ := runs_waiting hwaits acts s hi hseq hall hbudget
    exact ⟨_, hrun.runSteps hagenda, rfl⟩
  · have hsteps := (runs_timeout hwaits ticks x hi hseq hover hbound).runSteps (by simpa using hagenda)
    rwa [List.length_append, List.length_replicate] at hsteps
  · exact (step_of_seq hagenda (by rw [hseq]; nofun) hi).trans (exec_polled hwaits hseq)

end Sys2Proof.Machine
end

section
/-! The transmit commands run by SEQ alone (R80 to R82, 95_test_vectors.md part 2). -/

namespace Sys2Proof.Machine

/-- A running HDX command at a line: the trace and the direction it has there. -/
def hdxAt (s : State) (tr : List Event) (d : Direction) (op : BitVec 4) (l : Line) (k : Nat) : State :=
  { s with trace := tr, dir := d, dirPin := dirLevel s.cfg d, seq := .at op l .act k 0 }

section Hdx
variable {i : Instr} {x : Byte} {s t : State} {tr : List Event} {d : Direction} {op : BitVec 4} {l l' l'' : Line} {k : Nat}
  (hi : decode s.cmd = .ok i) (henv : s.env = ⟨true, x⟩)
include hi henv

theorem ideal_hdx_act (hexec : ∀ rest, exec i { hdxAt s tr d op l k with agenda := rest } = .next { t with agenda := rest }) :
    Ideal 1 x (hdxAt s tr d op l k) t :=
  Ideal.one (s := hdxAt s tr d op l k) hi nofun henv hexec

/-- R76, R77: an `await` whose sample is true. -/
theorem ideal_await {c : Cond} (hexec : ∀ w, w.seq = .at op l .act k 0 → w.hm = s.hm → exec i w = await c (moveTo op l' k 0) w) :
    Ideal 1 x (hdxAt s tr d op l k) (hdxAt s (tr ++ [.waitOk c]) d op l' k) := by
  refine ideal_hdx_act hi henv fun rest => (hexec { hdxAt s tr d op l k with agenda := rest } rfl rfl).trans ?_
  have hsample : ({ hdxAt s tr d op l k with agenda := rest } : State).env.sample = true := congrArg Answer.sample henv
  rw [await_eq, if_pos hsample]
  rfl

/-- R75: the first step of SetDirection. -/
theorem ideal_setDirection {e : Direction}
    (hexec : ∀ w, w.seq = .at op l .act k 0 → w.hm = s.hm → exec i w = .next (moveTo op l' k 0 (setDirection e w))) :
    Ideal 1 x (hdxAt s tr d op l k) (hdxAt s (tr ++ [.dir (dirLevel s.cfg e)]) e op l' k) :=
  ideal_hdx_act hi henv fun _ => hexec _ rfl rfl

/-- R75: the settling delay. -/
theorem ideal_settle
    (hexec : ∀ w, w.seq = .at op l .act k 0 → w.hm = s.hm → exec i w = .next (moveTo op l' k 0 (settle w))) :
    Ideal 1 x (hdxAt s tr d op l k) (hdxAt s (tr ++ [.delayUs s.cfg.settleUs]) d op l' k) :=
  ideal_hdx_act hi henv fun _ => hexec _ rfl rfl

/-- R75: SetDirection. -/
theorem ideal_direction {e : Direction}
    (hset : ∀ w, w.seq = .at op l .act k 0 → w.hm = s.hm → exec i w = .next (moveTo op l' k 0 (setDirection e w)))
    (hsettle : ∀ w, w.seq = .at op l' .act k 0 → w.hm = s.hm → exec i w = .next (moveTo op l'' k 0 (settle w))) :
    Ideal 2 x (hdxAt s tr d op l k) (hdxAt s (tr ++ directionEvents s.cfg e) e op l'' k) :=
  ((ideal_setDirection hi henv hset).trans (ideal_settle hi henv hsettle)).of_eq rfl (by simp [directionEvents])

/-- R79 to R82: the end of a transmit command, in Receive. -/
theorem ideal_transmit_finish
    (hexec : ∀ w, w.seq = .at op l .act k 0 → w.hm = s.hm → exec i w = .next (finish true .none w)) :
    Ideal 1 x (hdxAt s tr .receive op l k)
      { s with dir := .receive, dirPin := !s.cfg.dirTxLevel, trace := tr, status := 0x01, seq := .idle } :=
  ideal_hdx_act hi henv fun _ => hexec _ rfl rfl

/-- R75: the switch to Transmit that a command begins with, in whatever direction it is issued. -/
theorem ideal_transmit_start (hseq : s.seq = .at op l .act k 0)
    (hset : ∀ w, w.seq = .at op l .act k 0 → w.hm = s.hm → exec i w = .next (moveTo op l' k 0 (setDirection .transmit w))) :
    Ideal 1 x s (hdxAt s (s.trace ++ [.dir (dirLevel s.cfg .transmit)]) .transmit op l' k) :=
  Ideal.one hi (by rw [hseq]; nofun) henv fun rest => hset { s with agenda := rest } hseq rfl

end Hdx

/-! ### SENDB -/

/-- R80 S4. -/
theorem exec_sendb_write {b : Byte} {k a : Nat} {s : State} (hseq : s.seq = .at 0x2 .s4 .act k a) :
    exec (.sendb b) s = .next (moveTo 0x2 .s5 k a (uartWrite b s)) := atPosition_at (.sendb b) hseq _

/-- R80 from its issue to its end, under E0. -/
theorem ideal_sendb {b : Byte} {s : State} {x : Byte} (hseq : s.seq = .at 0x2 .s1 .act 0 0)
    (hi : decode s.cmd = .ok (.sendb b)) (henv : s.env = ⟨true, x⟩) :
    Ideal 8 x s
      { s with
        dir := .receive, dirPin := !s.cfg.dirTxLevel, trace := s.trace ++ transmitEvents s.cfg [b], status := 0x01,
        seq := .idle } := by
  have hexec (w : State) (l : Line) (hw : w.seq = .at 0x2 l .act 0 0) := atPosition_at (.sendb b) hw
  have h1 := ideal_transmit_start hi henv hseq (l' := .s2) fun w hw _ => hexec w .s1 hw _
  have h2 (tr : List Event) : Ideal 1 x (hdxAt s tr .transmit 0x2 .s2 0) _ :=
    ideal_settle hi henv (l' := .s3) fun w hw _ => hexec w .s2 hw _
  have h3 (tr : List Event) : Ideal 1 x (hdxAt s tr .transmit 0x2 .s3 0) _ :=
    ideal_await hi henv (l' := .s4) (c := .txe) fun w hw _ => hexec w .s3 hw _
  have h4 (tr : List Event) : Ideal 1 x (hdxAt s tr .transmit 0x2 .s4 0) (hdxAt s (tr ++ [.uTx b]) .transmit 0x2 .s5 0) :=
    ideal_hdx_act hi henv fun _ => exec_sendb_write rfl
  have h5 (tr : List Event) : Ideal 1 x (hdxAt s tr .transmit 0x2 .s5 0) _ :=
    ideal_await hi henv (l' := .s6) (c := .tc) fun w hw _ => hexec w .s5 hw _
  have h67 (tr : List Event) : Ideal 2 x (hdxAt s tr .transmit 0x2 .s6 0) _ :=
    ideal_direction hi henv (l'' := .s8) (e := .receive) (fun w hw _ => hexec w .s6 hw _) fun w hw _ => hexec w .s7 hw _
  have h8 (tr : List Event) : Ideal 1 x (hdxAt s tr .receive 0x2 .s8 0) _ :=
    ideal_transmit_finish hi henv fun w hw _ => hexec w .s8 hw _
  have hall := (((((h1.trans (h2 _)).trans (h3 _)).trans (h4 _)).trans (h5 _)).trans (h67 _)).trans (h8 _)
  exact hall.of_eq rfl (by simp [transmitEvents, directionEvents, byteEvents])

/-! ### SENDBUF and SENDS -/

section Transmit
variable {i : Instr} {x : Byte} {s : State} {op : BitVec 4} {ptr : Half} {n : Nat} (hi : decode s.cmd = .ok i)
  (henv : s.env = ⟨true, x⟩) (hinside : ptr.toNat + n ≤ 0x10000)
  (hexec : ∀ w l k, w.seq = .at op l .act k 0 → w.hm = s.hm → exec i w = transmitLines op ptr n l .act k 0 w)
include hi henv hinside hexec

/-- R81, R82: the loop from byte `k` on. -/
theorem ideal_transmit_loop (m : Nat) : ∀ (k : Nat) (tr : List Event), 0 < m → k + m = n →
    Ideal (2 * m) x (hdxAt s tr .transmit op .s3a k)
      (hdxAt s (tr ++ byteEvents ((bufferBytes s.hm ptr n).drop k)) .transmit op .s4 (n - 1)) := by
  induction m with
  | zero => exact fun _ _ hpos => absurd hpos (Nat.lt_irrefl 0)
  | succ m ih =>
    intro k tr _ hlen
    have hk : k < n := by omega
    have hawait : Ideal 1 x (hdxAt s tr .transmit op .s3a k) _ :=
      ideal_await hi henv (l' := .s3b) (c := .txe) fun w hw hhm => hexec w .s3a k hw hhm
    have hsend (tr : List Event) : Ideal 1 x (hdxAt s tr .transmit op .s3b k)
        (nextByte op .s3a .s4 n k 0 (hdxAt s (tr ++ [.uTx (memRead s.hm (bufferAddress ptr k))]) .transmit op .s3b k)) := by
      refine ideal_hdx_act hi henv fun rest =>
        (hexec { hdxAt s tr .transmit op .s3b k with agenda := rest } .s3b k rfl rfl).trans ?_
      have hbyte := hmLoad_inside { hdxAt s tr .transmit op .s3b k with agenda := rest }
        (show bufferAddress ptr k < 0x10000 by unfold bufferAddress; omega)
      simp only [transmitLines, hbyte]
      rfl
    have hone := hawait.trans (hsend _)
    unfold nextByte at hone
    have hbytes : byteEvents ((bufferBytes s.hm ptr n).drop k) =
        [.waitOk .txe, .uTx (memRead s.hm (bufferAddress ptr k))] ++ byteEvents ((bufferBytes s.hm ptr n).drop (k + 1)) := by
      rw [drop_bufferBytes hk]
      rfl
    rw [hbytes]
    by_cases hnext : k + 1 < n
    · rw [if_pos hnext, if_pos hnext] at hone
      have hrest := ih (k + 1) (tr ++ [.waitOk .txe] ++ [.uTx (memRead s.hm (bufferAddress ptr k))]) (by omega) (by omega)
      exact (hone.trans hrest).of_eq (congrArg (ideal · x) (by omega)) (by simp)
    · rw [if_neg hnext, if_neg hnext] at hone
      have hlast : m = 0 := by omega
      subst hlast
      refine hone.of_eq rfl ?_
      rw [List.drop_eq_nil_of_le (by simp [bufferBytes]; omega), show n - 1 = k by omega]
      simp [moveTo, hdxAt, byteEvents]

/-- R81, R82: from the settling delay to the wait for TC, with no byte or some. -/
theorem ideal_transmit_data (tr : List Event) : ∃ k,
    Ideal (1 + 2 * n) x (hdxAt s tr .transmit op .s2 0)
      (hdxAt s (tr ++ .delayUs s.cfg.settleUs :: byteEvents (bufferBytes s.hm ptr n)) .transmit op .s4 k) := by
  have hsettle : Ideal 1 x (hdxAt s tr .transmit op .s2 0)
      (firstByte op .s3a .s4 n 0 (hdxAt s (tr ++ [.delayUs s.cfg.settleUs]) .transmit op .s2 0)) :=
    ideal_hdx_act hi henv fun rest => hexec _ .s2 0 rfl rfl
  unfold firstByte at hsettle
  by_cases hn : 0 < n
  · rw [if_pos hn] at hsettle
    have hloop := ideal_transmit_loop hi henv hinside hexec n 0 (tr ++ [.delayUs s.cfg.settleUs]) hn (Nat.zero_add n)
    exact ⟨n - 1, (hsettle.trans hloop).of_eq rfl (by simp)⟩
  · rw [if_neg hn] at hsettle
    have hzero : n = 0 := Nat.eq_zero_of_not_pos hn
    subst hzero
    exact ⟨0, hsettle⟩

/-- R81, R82 from the issue to the end, under E0. -/
theorem ideal_transmit (hseq : s.seq = .at op .s1 .act 0 0) :
    Ideal (6 + 2 * n) x s
      { s with
        dir := .receive, dirPin := !s.cfg.dirTxLevel, trace := s.trace ++ transmitEvents s.cfg (bufferBytes s.hm ptr n),
        status := 0x01, seq := .idle } := by
  have h1 := ideal_transmit_start hi henv hseq (l' := .s2) fun w hw hhm => hexec w .s1 0 hw hhm
  obtain ⟨k, hdata⟩ := ideal_transmit_data hi henv hinside hexec (s.trace ++ [.dir (dirLevel s.cfg .transmit)])
  have h4 (tr : List Event) : Ideal 1 x (hdxAt s tr .transmit op .s4 k) _ :=
    ideal_await hi henv (l' := .s5) (c := .tc) fun w hw hhm => hexec w .s4 k hw hhm
  have h56 (tr : List Event) : Ideal 2 x (hdxAt s tr .transmit op .s5 k) _ :=
    ideal_direction hi henv (l'' := .s7) (e := .receive) (fun w hw hhm => hexec w .s5 k hw hhm)
      fun w hw hhm => hexec w .s6 k hw hhm
  have h7 (tr : List Event) : Ideal 1 x (hdxAt s tr .receive op .s7 k) _ :=
    ideal_transmit_finish hi henv fun w hw hhm => hexec w .s7 k hw hhm
  have hall := (((h1.trans hdata).trans (h4 _)).trans (h56 _)).trans (h7 _)
  exact hall.of_eq (congrArg (ideal · x) (by omega)) (by simp [transmitEvents, directionEvents])

end Transmit

/-- Settles O32. -/
theorem transmitCommandsRunToCompletion : Obligations.TransmitCommandsRunToCompletion := by
  intro i bytes s x rest hissued hcommand
  have ⟨hseq, hi, hlegal⟩ := hissued
  rcases hcommand with ⟨rfl, hlen, hagenda⟩ | ⟨ptr, len, rfl, rfl, hagenda⟩ |
    ⟨ptr, rfl, hbytes, hnonzero, hroom, hzero, hagenda⟩
  · obtain ⟨b, rfl⟩ := List.length_eq_one_iff.mp hlen
    exact Ideal.runSteps_of_issued hissued (by decide) (ideal_sendb (s := { s with env := ⟨true, x⟩ }) hseq hi rfl) hagenda
  · have hn : (bufferBytes s.hm ptr len.toNat).length = len.toNat := by simp [bufferBytes]
    rw [hn] at hagenda ⊢
    exact Ideal.runSteps_of_issued hissued (by omega)
      (ideal_transmit (s := { s with env := ⟨true, x⟩ }) hi rfl ((bufferInside_iff ptr len).mp hlegal)
        (fun w l k hw _ => atPosition_at (.sendbuf ptr len) hw _) hseq) hagenda
  · have hn := stringLength_of_bytes hbytes hnonzero hroom hzero
    have hrun := ideal_transmit (s := { s with env := ⟨true, x⟩ }) hi rfl (show ptr.toNat + bytes.length ≤ 0x10000 by omega)
      (fun w l k hw hhm => exec_sends_at hw (hhm.symm ▸ hn)) hseq
    rw [← hbytes] at hrun
    exact Ideal.runSteps_of_issued hissued (by omega) hrun hagenda

end Sys2Proof.Machine
end

section
/-! RECV run by SEQ alone, and the drain race (R84, R85, R88, 95_test_vectors.md part 2). -/

namespace Sys2Proof.Machine

/-! ### The numbered steps of RECV and CLRRX, by the functions that make them -/

section Steps
variable {ptr len : Half} {s : State} {k a : Nat}

/-- R84 S2. -/
theorem exec_recv_latch (hseq : s.seq = .at 0x5 .s2 .act k a) :
    exec (.recv ptr len) s = .next (moveTo 0x5 .s3 0 a (latchDrain s)) := atPosition_at (.recv ptr len) hseq _

/-- R84 S4. -/
theorem exec_recv_first (hseq : s.seq = .at 0x5 .s4 .act k a) :
    exec (.recv ptr len) s = .next (moveTo 0x5 .s5 k a (firstReset s.rorder s)) := atPosition_at (.recv ptr len) hseq _

/-- R84 S5. -/
theorem exec_recv_second (hseq : s.seq = .at 0x5 .s5 .act k a) :
    exec (.recv ptr len) s = .next (moveTo 0x5 .s6 k a (secondReset s.rorder s)) := atPosition_at (.recv ptr len) hseq _

/-- R84 S6. -/
theorem exec_recv_finish (hseq : s.seq = .at 0x5 .s6 .act k a) :
    exec (.recv ptr len) s = .next (finish true .none { s with count := countOfCopied s.nc }) :=
  atPosition_at (.recv ptr len) hseq _

/-- R88 S1. -/
theorem exec_clrrx_first (hseq : s.seq = .at 0x8 .s1 .act k a) :
    exec .clrrx s = .next (moveTo 0x8 .s2 k a (drawOrder s)) := atPosition_at .clrrx hseq _

/-- R88 S2. -/
theorem exec_clrrx_second (hseq : s.seq = .at 0x8 .s2 .act k a) :
    exec .clrrx s = .next (moveTo 0x8 .s3 k a (secondReset s.rorder s)) := atPosition_at .clrrx hseq _

/-- R88 S3. -/
theorem exec_clrrx_finish (hseq : s.seq = .at 0x8 .s3 .act k a) : exec .clrrx s = .next (finish true .none s) :=
  atPosition_at .clrrx hseq _

end Steps

/-! ### RECV without an arrival -/

/-- RECV after its draws, with HM and the number of bytes copied. -/
def recvAt (s : State) (m : Memory) (nc : BitVec 16) (order bound : Bool) (l : Line) (k : Nat) : State :=
  { s with
    hm := m, c0 := s.rxCount, nc := nc, rorder := order, rbound := bound, draws := s.draws + 2, seq := .at 0x5 l .act k 0 }

section Recv
variable {ptr len : Half} {s : State} {x : Byte} {order bound : Bool} (hi : decode s.cmd = .ok (.recv ptr len))
  (henv : s.env = ⟨true, x⟩)

/-- R84 S3: without an arrival the latched and the live count are the same bound. -/
theorem copyBound_recvAt (m : Memory) (nc : BitVec 16) (l : Line) (k : Nat) (rest : List Action) :
    copyBound len { recvAt s m nc order bound l k with agenda := rest } = min len.toNat s.rxCount.toNat := by
  rw [copyBound_eq]
  cases bound <;> rfl

include hi henv

/-- R84 S3: the loop from byte `k` on, and the step that leaves it. -/
theorem ideal_recv_loop {n : Nat} (hinside : ptr.toNat + len.toNat ≤ 0x10000) (hcap : s.rxCount.toNat ≤ 256)
    (hn : n = min len.toNat s.rxCount.toNat) (m : Nat) : ∀ (k : Nat) (hm : Memory), k + m = n →
      Copied s.hm ptr s.rxBuf k hm → ∃ hm', Copied s.hm ptr s.rxBuf n hm' ∧
        Ideal (m + 1) x (recvAt s hm (BitVec.ofNat 16 k) order bound .s3 k)
          (recvAt s hm' (BitVec.ofNat 16 n) order bound .s4 n) := by
  induction m with
  | zero =>
    intro k hm hk hcopied
    have hlast : k = n := hk
    subst hlast
    refine ⟨hm, hcopied, Ideal.one hi nofun henv fun rest => ?_⟩
    exact exec_recv_loop_exit rfl (by rw [copyBound_recvAt, hn])
  | succ m ih =>
    intro k hm hk hcopied
    have hbuf : k < 256 := by omega
    have hroom : bufferAddress ptr k < Config.hmSize := show ptr.toNat + k < 0x10000 by omega
    have hone : Ideal 1 x (recvAt s hm (BitVec.ofNat 16 k) order bound .s3 k)
        (recvAt s (memWrite hm (bufferAddress ptr k) s.rxBuf[k]) (BitVec.ofNat 16 (k + 1)) order bound .s3 (k + 1)) :=
      Ideal.one hi nofun henv fun rest => exec_recv_copy hinside hbuf rfl (by rw [copyBound_recvAt]; omega)
    obtain ⟨hm', hcopied', hrest⟩ := ih (k + 1) _ (by omega)
      (hcopied.succ (Vector.getElem?_eq_getElem hbuf) hroom)
    exact ⟨hm', hcopied', (hone.trans hrest).of_eq (congrArg (ideal · x) (by omega)) rfl⟩

/-- R84 S4 to S6: count and flag are reset in the drawn order, and COUNT is the number of bytes copied. -/
theorem ideal_recv_end (hm : Memory) (nc : BitVec 16) (k : Nat) :
    Ideal 3 x (recvAt s hm nc order bound .s4 k)
      { s with
        hm := hm, rxCount := 0, rxReady := false, count := countOfCopied nc, status := 0x01, seq := .idle, c0 := s.rxCount,
        nc := nc, rorder := order, rbound := bound, draws := s.draws + 2 } := by
  have h4 : Ideal 1 x (recvAt s hm nc order bound .s4 k) (firstReset order (recvAt s hm nc order bound .s5 k)) :=
    Ideal.one hi nofun henv fun _ => exec_recv_first rfl
  have h5 : Ideal 1 x (firstReset order (recvAt s hm nc order bound .s5 k))
      (secondReset order (firstReset order (recvAt s hm nc order bound .s6 k))) :=
    Ideal.one hi nofun henv fun _ => exec_recv_second rfl
  have h6 : Ideal 1 x (secondReset order (firstReset order (recvAt s hm nc order bound .s6 k)))
      (finish true .none { secondReset order (firstReset order (recvAt s hm nc order bound .s6 k)) with
        count := countOfCopied nc }) :=
    Ideal.one hi nofun henv fun _ => exec_recv_finish rfl
  exact ((h4.trans h5).trans h6).of_eq rfl (by cases order <;> rfl)

/-- R84 from its issue to its end, with the flag set. -/
theorem ideal_recv {n : Nat} (hseq : s.seq = .at 0x5 .s1 .act 0 0) (hinside : ptr.toNat + len.toNat ≤ 0x10000)
    (hwf : Memory.wf s.hm = true) (hcap : s.rxCount.toNat ≤ 256) (hn : n = min len.toNat s.rxCount.toNat)
    (hready : s.rxReady = true) :
    ∃ hm order bound, Copied s.hm ptr s.rxBuf n hm ∧
      Ideal (n + 6) x s
        { s with
          hm := hm, rxCount := 0, rxReady := false, count := BitVec.ofNat 32 n, status := 0x01, seq := .idle,
          c0 := s.rxCount, nc := BitVec.ofNat 16 n, rorder := order, rbound := bound, draws := s.draws + 2 } := by
  have h1 : Ideal 1 x s { s with seq := .at 0x5 .s2 .act 0 0 } :=
    Ideal.one hi (by rw [hseq]; nofun) henv fun rest =>
      (atPosition_at (.recv ptr len) (s := { s with agenda := rest }) hseq _).trans (if_pos hready)
  have h2 : Ideal 1 x { s with seq := .at 0x5 .s2 .act 0 0 }
      (recvAt s s.hm 0 (Config.drawBit s.draws) (Config.drawBit (s.draws + 1)) .s3 0) :=
    Ideal.one hi nofun henv fun _ => exec_recv_latch rfl
  obtain ⟨hm, hcopied, hloop⟩ := ideal_recv_loop (order := Config.drawBit s.draws) (bound := Config.drawBit (s.draws + 1)) hi
    henv hinside hcap hn n 0 s.hm (Nat.zero_add n) (Copied.zero hwf)
  have hend := ideal_recv_end (order := Config.drawBit s.draws) (bound := Config.drawBit (s.draws + 1)) hi henv hm
    (BitVec.ofNat 16 n) n
  rw [countOfCopied_ofNat (by omega)] at hend
  exact ⟨hm, _, _, hcopied, (((h1.trans h2).trans hloop).trans hend).of_eq (congrArg (ideal · x) (by omega)) rfl⟩

end Recv

/-- Settles O33. -/
theorem recvRunsToCompletion : Obligations.RecvRunsToCompletion := by
  intro ptr len s x rest hissued hwf hcap
  have ⟨hseq, hi, hlegal⟩ := hissued
  refine ⟨fun hready hagenda => ?_, fun hready hagenda => ?_⟩
  · obtain ⟨hm, order, bound, hcopied, hrun⟩ := ideal_recv (s := { s with env := ⟨true, x⟩ }) hi rfl hseq
      ((bufferInside_iff ptr len).mp hlegal) hwf hcap rfl hready
    exact ⟨_, Ideal.runSteps_of_issued hissued (by omega) hrun hagenda, rfl, hcopied.wf, hcopied.inside, hcopied.outside⟩
  · have hone : Ideal 1 x { s with env := ⟨true, x⟩ }
        { s with env := ⟨true, x⟩, count := 0, status := 0x01, seq := .idle } :=
      Ideal.one hi (by rw [hseq]; nofun) rfl fun rest' =>
        (atPosition_at (.recv ptr len) (s := { s with env := ⟨true, x⟩, agenda := rest' }) hseq _).trans
          (if_neg (Bool.eq_false_iff.mp hready))
    exact Ideal.runSteps_of_issued hissued (by decide) hone hagenda

end Sys2Proof.Machine
end

section
/-! The drain race (R85, R88, V5): one arrival at each place of RECV and CLRRX, step by step. -/

namespace Sys2Proof.Machine

/-! ### The runs -/

/-- R113, R89: an arrival that nothing holds back. -/
theorem runs_arrival {s : State} {b : Byte} (hfree : s.cfg.drainAtomic = false) :
    Runs (arrival b) s (rxcAppend b (raiseReceive s)) :=
  fun rest => runSteps_arrival (s := { s with agenda := arrival b ++ rest }) 0
    (fun hatomic => absurd (hfree.symm.trans hatomic) Bool.false_ne_true) rfl

section Recv
variable {ptr len : Half} {s : State} {k a : Nat} (hi : decode s.cmd = .ok (.recv ptr len))
include hi

theorem runs_recv_first (x : Answer) (hseq : s.seq = .at 0x5 .s4 .act k a) :
    Runs [.seq x] s (moveTo 0x5 .s5 k a (firstReset s.rorder { s with env := x })) :=
  Runs.seq (by rw [hseq]; nofun) hi fun rest => exec_recv_first (s := { s with agenda := rest, env := x }) hseq

/-- R84 S5, S6. -/
theorem runs_recv_second (y z : Answer) (hseq : s.seq = .at 0x5 .s5 .act k a) :
    Runs [.seq y, .seq z] s
      (finish true .none { secondReset s.rorder { s with env := z } with count := countOfCopied s.nc }) := by
  have hsecond : Runs [.seq y] s (moveTo 0x5 .s6 k a (secondReset s.rorder { s with env := y })) :=
    Runs.seq (by rw [hseq]; nofun) hi fun rest => exec_recv_second (s := { s with agenda := rest, env := y }) hseq
  exact Runs.trans hsecond (Runs.seq nofun hi fun rest => exec_recv_finish rfl)

/-- R84 S4 to S6: what RECV ends with when no byte arrives there. -/
theorem runs_recv_end (x y z : Answer) (hseq : s.seq = .at 0x5 .s4 .act k a) : ∃ t,
    Runs [.seq x, .seq y, .seq z] s t ∧ t.seq = .idle ∧ t.rxCount = 0 ∧ t.rxReady = false ∧ t.hm = s.hm ∧
      t.count = countOfCopied s.nc := by
  refine ⟨_, Runs.trans (runs_recv_first hi x hseq) (runs_recv_second (by exact hi) y z rfl), rfl, ?_, ?_, rfl, rfl⟩
  · cases s.rorder <;> simp [moveTo, finish]
  · cases s.rorder <;> simp [moveTo, finish]

/-- R85: an arrival between the two resets is taken by the state that the first one leaves. -/
theorem runs_recv_race {b : Byte} (x y z : Answer) (hfree : s.cfg.drainAtomic = false)
    (hseq : s.seq = .at 0x5 .s4 .act k a) :
    Runs ([.seq x] ++ arrival b ++ [.seq y, .seq z]) s
      (finish true .none
        { secondReset s.rorder
            { rxcAppend b (raiseReceive (moveTo 0x5 .s5 k a (firstReset s.rorder { s with env := x }))) with env := z } with
          count := countOfCopied s.nc }) :=
  Runs.trans (Runs.trans (runs_recv_first hi x hseq) (runs_arrival hfree)) (runs_recv_second (by exact hi) y z rfl)

end Recv

/-- R89: the first byte after the count was reset. -/
theorem rxcAppend_empty {s : State} (b : Byte) (hempty : s.rxCount = 0) :
    (rxcAppend b s).rxCount = 1 ∧ (rxcAppend b s).rxBuf[0]? = some b := by
  have hroom : rxRoom s = true := (rxRoom_iff s).mpr (by rw [hempty]; decide)
  refine ⟨by rw [rxcAppend_rxCount, if_pos hroom, hempty]; rfl, ?_⟩
  rw [rxcAppend_getElem? b s (by decide), hempty]
  rfl

/-- R85 (d): with the live bound, a byte that arrives when all earlier ones are copied is copied too, and the loop ends. -/
theorem runs_recv_live {ptr len : Half} {s : State} {b : Byte} {k a : Nat} (x y : Answer)
    (hi : decode s.cmd = .ok (.recv ptr len)) (hseq : s.seq = .at 0x5 .s3 .act k a) (hbound : s.rbound = true)
    (hcount : k + 1 = s.rxCount.toNat) (hbyte : s.rxBuf[k]? = some b) (hk : k < 256) (hlen : k < len.toNat)
    (hinside : ptr.toNat + len.toNat ≤ 0x10000) :
    Runs [.seq x, .seq y] s
      { s with
        env := y, hm := memWrite s.hm (ptr.toNat + k) b, nc := BitVec.ofNat 16 (k + 1), seq := .at 0x5 .s4 .act (k + 1) a } := by
  have hcopyBound (w : State) (hw : w.rxCount = s.rxCount) (hlive : w.rbound = s.rbound) : copyBound len w = k + 1 := by
    rw [copyBound_eq, hlive, hbound, if_pos rfl, hw, ← hcount, Nat.min_eq_right hlen]
  have hread : s.rxBuf[k] = b := by
    rw [Vector.getElem?_eq_getElem hk] at hbyte
    exact Option.some.inj hbyte
  have hcopy : Runs [.seq x] s
      { s with
        env := x, hm := memWrite s.hm (ptr.toNat + k) b, nc := BitVec.ofNat 16 (k + 1),
        seq := .at 0x5 .s3 .act (k + 1) a } := by
    refine Runs.seq (by rw [hseq]; nofun) hi fun rest => (exec_recv_copy (s := { s with agenda := rest, env := x })
      hinside hk hseq (Nat.lt_of_lt_of_eq (Nat.lt_succ_self k) (hcopyBound _ rfl rfl).symm)).trans ?_
    rw [← hread]
  refine Runs.trans hcopy (Runs.seq nofun hi fun rest => ?_)
  exact exec_recv_loop_exit rfl (Nat.le_of_eq (hcopyBound _ rfl rfl))

section Clrrx
variable {s : State} {k a : Nat} (hi : decode s.cmd = .ok .clrrx)
include hi

/-- R88 S2, S3. -/
theorem runs_clrrx_second (y z : Answer) (hseq : s.seq = .at 0x8 .s2 .act k a) :
    Runs [.seq y, .seq z] s (finish true .none (secondReset s.rorder { s with env := z })) := by
  have hsecond : Runs [.seq y] s (moveTo 0x8 .s3 k a (secondReset s.rorder { s with env := y })) :=
    Runs.seq (by rw [hseq]; nofun) hi fun rest => exec_clrrx_second (s := { s with agenda := rest, env := y }) hseq
  exact Runs.trans hsecond (Runs.seq nofun hi fun rest => exec_clrrx_finish rfl)

/-- R88: an arrival between the two resets is taken by the state that the drawn first one leaves. -/
theorem runs_clrrx_race {b : Byte} (x y z : Answer) (hfree : s.cfg.drainAtomic = false)
    (hseq : s.seq = .at 0x8 .s1 .act k a) :
    Runs ([.seq x] ++ arrival b ++ [.seq y, .seq z]) s
      (finish true .none (secondReset (Config.drawBit s.draws)
        { rxcAppend b (raiseReceive (moveTo 0x8 .s2 k a (drawOrder { s with env := x }))) with env := z })) := by
  have hfirst : Runs [.seq x] s (moveTo 0x8 .s2 k a (drawOrder { s with env := x })) :=
    Runs.seq (by rw [hseq]; nofun) hi fun rest => exec_clrrx_first (s := { s with agenda := rest, env := x }) hseq
  exact Runs.trans (Runs.trans hfirst (runs_arrival hfree)) (runs_clrrx_second (by exact hi) y z rfl)

end Clrrx

/-! ### The outcomes -/

/-- Settles O49. -/
theorem drainRaceOutcomes : Obligations.DrainRaceOutcomes := by
  intro s b k a x y z w v rest hfree hcap
  refine ⟨fun ptr len hi => ⟨fun hseq hagenda => ?_, fun hseq horder hagenda => ?_, fun hseq horder hagenda => ?_,
    fun hseq hbound hk hlen hinside hwf hagenda => ?_⟩, fun hi hseq hagenda => ?_⟩
  case refine_1 =>
    obtain ⟨t, hrun, hidle, hcount, hready, hhm, hresult⟩ :=
      runs_recv_end (s := rxcAppend b (raiseReceive s)) hi x y z hseq
    exact ⟨_, (Runs.trans (runs_arrival hfree) hrun).runSteps hagenda, hidle, hcount, hready, hhm, hresult⟩
  case refine_2 =>
    have hrun := runs_recv_race (b := b) hi x y z hfree hseq
    obtain ⟨hone, hfirst⟩ := rxcAppend_empty (s := raiseReceive (moveTo 0x5 .s5 k a (firstReset s.rorder { s with env := x })))
      b (by rw [horder]; rfl)
    exact ⟨_, hrun.runSteps hagenda, rfl, by simpa [horder, finish] using hone, by simp [horder, finish],
      by simpa [finish] using hfirst, rfl, rfl⟩
  case refine_3 =>
    have hrun := runs_recv_race (b := b) hi x y z hfree hseq
    exact ⟨_, hrun.runSteps hagenda, rfl, by simp [horder, finish], by simp [horder, finish], rfl, rfl⟩
  case refine_4 =>
    have hcount : k + 1 = (rxcAppend b (raiseReceive s)).rxCount.toNat := by
      rw [rxcAppend_rxCount_toNat (s := raiseReceive s) b (Nat.le_of_lt hcap), hk]
      exact (Nat.min_eq_left hcap).symm
    have hbyte : (rxcAppend b (raiseReceive s)).rxBuf[k]? = some b := by
      rw [rxcAppend_getElem? b _ (hk ▸ hcap)]
      exact if_pos hk
    have hlive := runs_recv_live (s := rxcAppend b (raiseReceive s)) x y hi hseq hbound hcount hbyte (hk ▸ hcap) hlen hinside
    obtain ⟨t, hend, hidle, hzero, hready, hhm, hresult⟩ := runs_recv_end
      (s := { rxcAppend b (raiseReceive s) with
        env := y, hm := memWrite s.hm (ptr.toNat + k) b, nc := BitVec.ofNat 16 (k + 1), seq := .at 0x5 .s4 .act (k + 1) a })
      hi z w v rfl
    refine ⟨_, (Runs.trans (Runs.trans (runs_arrival hfree) hlive) hend).runSteps hagenda, hidle, hzero, hready, ?_, ?_⟩
    · refine (congrArg (memRead · _) hhm).trans ?_
      exact (memRead_memWrite hwf).trans (if_pos rfl)
    · exact hresult.trans (countOfCopied_ofNat (hk ▸ hcap))
  case refine_5 =>
    have hrun := runs_clrrx_race (b := b) hi x y z hfree hseq
    refine ⟨_, hrun.runSteps hagenda, rfl, rfl, rfl, rfl, rfl, rfl, ?_⟩
    cases hdraw : Config.drawBit s.draws with
    | false =>
      obtain ⟨hone, hfirst⟩ := rxcAppend_empty
        (s := raiseReceive (moveTo 0x8 .s2 k a (drawOrder { s with env := x }))) b (by simp [drawOrder, hdraw, moveTo])
      exact .inl ⟨hdraw, hone, rfl, hfirst⟩
    | true => exact .inr ⟨hdraw, rfl, rfl⟩

end Sys2Proof.Machine
end

section
/-! SCAN run by SEQ and TICK, with some slaves that answer (R104, R105, R32, 95_test_vectors.md part 2). -/

namespace Sys2Proof.Machine

/-! ### The numbered steps of a probe -/

section Steps
variable {s : State} {sub : Sub} {k a : Nat}

/-- R104 S1. -/
theorem exec_scan_first (hseq : s.seq = .at 0xD .s1 .act k a) :
    exec .scan s = .next (firstProbe { s with present := 0, found := 0 }) := atPosition_at .scan hseq _

/-- R104 P1. -/
theorem exec_scan_free (hseq : s.seq = .at 0xD .p1 sub k a) :
    exec .scan s = waitLineIf s.cfg.busFreeWait .busFree 100 0xD .p1 sub k a (moveTo 0xD .p2 k a) (moveTo 0xD .p5 k a) s :=
  atPosition_at .scan hseq _

/-- R104 P2. -/
theorem exec_scan_start (hseq : s.seq = .at 0xD .p2 .act k a) : exec .scan s = .next (moveTo 0xD .p3 k a (busStart s)) :=
  atPosition_at .scan hseq _

/-- R104 P3. -/
theorem exec_scan_started (hseq : s.seq = .at 0xD .p3 sub k a) :
    exec .scan s = waitLine .startDone 100 0xD .p3 sub k a (moveTo 0xD .p4 k a) (moveTo 0xD .p5 k a) s :=
  atPosition_at .scan hseq _

/-- R104 P4. -/
theorem exec_scan_send (hseq : s.seq = .at 0xD .p4 .act k a) :
    exec .scan s = .next (moveTo 0xD .p4a k a (busSend (addrByte (BitVec.ofNat Config.saBits a) false) .addressSentForWrite s)) :=
  atPosition_at .scan hseq _

/-- R104 P5. -/
theorem exec_scan_stop (hseq : s.seq = .at 0xD .p5 .act k a) : exec .scan s = .next (moveTo 0xD .p6 k a (busStopAsserted s)) :=
  atPosition_at .scan hseq _

/-- R104 P6. -/
theorem exec_scan_stopped (hseq : s.seq = .at 0xD .p6 sub k a) :
    exec .scan s =
      waitLineIf s.cfg.stopDoneWait .stopDone 100 0xD .p6 sub k a (moveTo 0xD .p7 k a) (moveTo 0xD .p7 k a) s :=
  atPosition_at .scan hseq _

/-- R104 P7. -/
theorem exec_scan_pace (hseq : s.seq = .at 0xD .p7 .act k a) :
    exec .scan s = .next (nextProbe a (delayMs Config.tPace { s with phase := .idle })) := atPosition_at .scan hseq _

/-- R104 S3. -/
theorem exec_scan_finish (hseq : s.seq = .at 0xD .s3 .act k a) :
    exec .scan s = .next (busFinish true .none { s with count := countOfFound s.found }) := atPosition_at .scan hseq _

end Steps

/-! ### One probe -/

/-- A wait that a parameter selects, from a state with any wait latches. -/
theorem ideal_waitIf_entered {i : Instr} {enabled : Bool} {c : Cond} {budget : Nat} {op : BitVec 4} {l l' : Line} {k a : Nat}
    {fail : State → State} {x : Byte} {s : State} (hi : decode s.cmd = .ok i) (henv : s.env = ⟨true, x⟩)
    (hseq : s.seq = .at op l .act k a)
    (hexec : ∀ sub w, w.cfg = s.cfg → w.seq = .at op l sub k a →
      exec i w = waitLineIf enabled c budget op l sub k a (moveTo op l' k a) fail w) :
    ∃ wstart wok, Ideal (lineSteps enabled) x s
      { s with wstart := wstart, wok := wok, trace := s.trace ++ gateEvents enabled c, seq := .at op l' .act k a } := by
  cases enabled with
  | true =>
    exact ⟨s.tick, true, ideal_wait_entered (s := s) hi henv rfl rfl rfl hseq
      (fun sub w hcfg hw => (hexec sub w hcfg hw).trans (waitLineIf_on ..)) fun rest => rfl⟩
  | false =>
    rw [show s.trace ++ gateEvents false c = s.trace from List.append_nil _]
    exact ⟨s.wstart, s.wok, Ideal.one hi (by rw [hseq]; nofun) henv fun rest => hexec .act { s with agenda := rest } rfl hseq⟩

/-- R104 P4a: PRESENT and the number found after the wait for an acknowledgment. -/
def markedIf (acked : Bool) (a : Nat) (s : State) : State := if acked then markFound a s else s

section Probe
variable {s : State} {x : Byte} {a : Nat} (hi : decode s.cmd = .ok .scan)
include hi

/-- R104 P1 to P4 and the entry of P4a's wait. -/
theorem ideal_probe_start (henv : s.env = ⟨true, x⟩) (hseq : s.seq = .at 0xD .p1 .act 0 a) :
    Ideal (lineSteps s.cfg.busFreeWait + 6) x s
      { s with
        trace := s.trace ++ gateEvents s.cfg.busFreeWait .busFree ++
          [.start, .waitOk .startDone, .tx (addrByte (BitVec.ofNat Config.saBits a) false)],
        phase := .addressSentForWrite, wstart := s.tick, wok := true, seq := .at 0xD .p4a .poll 0 a } := by
  have hstart := ideal_start hi henv hseq (l₂ := .p2) (l₃ := .p3) (l₄ := .p4)
    (fun sub w hcfg hw => (exec_scan_free hw).trans (by rw [hcfg])) (fun w hw => exec_scan_start hw)
    (fun sub w _ hw => exec_scan_started hw)
  have hsend (tr : List Event) : Ideal 1 x (busAt s tr .startAsserted s.ackEn 0xD .p4 0 a)
      (busAt s (tr ++ [.tx (addrByte (BitVec.ofNat Config.saBits a) false)]) .addressSentForWrite s.ackEn 0xD .p4a 0 a) :=
    ideal_act hi henv fun _ => exec_scan_send rfl
  have hentry (tr : List Event) : Ideal 1 x (busAt s tr .addressSentForWrite s.ackEn 0xD .p4a 0 a)
      { busAt s tr .addressSentForWrite s.ackEn 0xD .p4a 0 a with seq := .at 0xD .p4a .poll 0 a } :=
    ideal_act hi henv fun _ => (exec_scan_ack_wait rfl).trans (waitLine_act ..)
  exact ((hstart.trans (hsend _)).trans (hentry _)).of_eq (congrArg (ideal · x) (by omega)) (by simp [busAt])

/-- R104 P4a: the wait ends by the acknowledgment, or after 101 ticks. -/
theorem runs_probe_wait (acked : Bool) (hseq : s.seq = .at 0xD .p4a .poll 0 a) (hentered : s.wstart = s.tick) :
    ∃ e tick, Runs (if acked then ideal 1 x else List.replicate 101 .tick ++ [.seq ⟨false, x⟩]) s
      { s with
        env := e, tick := tick, trace := s.trace ++ [if acked then .waitOk .addrWAck else .waitTimeout .addrWAck],
        wok := acked, seq := .at 0xD .p4a .test 0 a } := by
  have hnone : (s.tick - s.wstart).toNat = 0 := by rw [hentered, BitVec.sub_self]; rfl
  cases acked with
  | true => exact ⟨⟨true, x⟩, s.tick, runs_poll (i := .scan) (l := .p4a) rfl hi hseq⟩
  | false =>
    refine ⟨_, _, runs_timeout (i := .scan) (l := .p4a) rfl 101 x hi hseq ?_ ?_⟩
    · rw [hnone]; decide
    · rw [hnone]; decide

/-- R104 P7. -/
theorem ideal_pace (henv : s.env = ⟨true, x⟩) (hseq : s.seq = .at 0xD .p7 .act 0 a) :
    Ideal 1 x s (nextProbe a (delayMs Config.tPace { s with phase := .idle })) :=
  Ideal.one hi (by rw [hseq]; nofun) henv fun rest => exec_scan_pace (s := { s with agenda := rest }) hseq

/-- R104 S3. -/
theorem ideal_scan_finish {k : Nat} (henv : s.env = ⟨true, x⟩) (hseq : s.seq = .at 0xD .s3 .act k a) :
    Ideal 1 x s (busFinish true .none { s with count := countOfFound s.found }) :=
  Ideal.one hi (by rw [hseq]; nofun) henv fun rest => exec_scan_finish (s := { s with agenda := rest }) hseq

/-- R104 P4a's last step to P7. -/
theorem ideal_probe_end (henv : s.env = ⟨true, x⟩) (hseq : s.seq = .at 0xD .p4a .test 0 a) :
    ∃ wstart wok, Ideal (2 + lineSteps s.cfg.stopDoneWait + 1) x s
      (nextProbe a { markedIf s.wok a s with
        trace := s.trace ++ [.stop] ++ gateEvents s.cfg.stopDoneWait .stopDone ++ [.delayMs Config.tPace],
        phase := .idle, wstart := wstart, wok := wok }) := by
  have hmark : Ideal 1 x s (moveTo 0xD .p5 0 a (markedIf s.wok a s)) := by
    refine Ideal.one hi (by rw [hseq]; nofun) henv fun rest =>
      (exec_scan_ack_wait (s := { s with agenda := rest }) hseq).trans ?_
    rw [waitLine_test]
    unfold markedIf
    split
    · rfl
    · rfl
  have hframe : (markedIf s.wok a s).cmd = s.cmd ∧ (markedIf s.wok a s).env = s.env ∧ (markedIf s.wok a s).cfg = s.cfg ∧
      (markedIf s.wok a s).trace = s.trace := by
    unfold markedIf
    split
    · exact ⟨rfl, rfl, rfl, rfl⟩
    · exact ⟨rfl, rfl, rfl, rfl⟩
  generalize markedIf s.wok a s = u at hmark hframe ⊢
  obtain ⟨hcmd, henv', hcfg, htrace⟩ := hframe
  have hiu : decode u.cmd = .ok .scan := hcmd ▸ hi
  have henvu : u.env = ⟨true, x⟩ := henv'.trans henv
  have hstop : Ideal 1 x (moveTo 0xD .p5 0 a u) (moveTo 0xD .p6 0 a (busStopAsserted u)) :=
    Ideal.one hiu nofun henvu fun _ => exec_scan_stop rfl
  obtain ⟨wstart, wok, hwait⟩ := ideal_waitIf_entered (s := moveTo 0xD .p6 0 a (busStopAsserted u)) hiu henvu rfl
    fun sub w hcfg' hw => (exec_scan_stopped hw).trans (by rw [show w.cfg = u.cfg from hcfg'])
  have hpace := ideal_pace (x := x) (a := a)
    (s := { moveTo 0xD .p6 0 a (busStopAsserted u) with
      wstart := wstart, wok := wok, trace := (busStopAsserted u).trace ++ gateEvents u.cfg.stopDoneWait .stopDone,
      seq := .at 0xD .p7 .act 0 a }) hiu henvu rfl
  refine ⟨wstart, wok, (((hmark.trans hstop).trans hwait).trans hpace).of_eq (congrArg (ideal · x) ?_) ?_⟩
  · rw [hcfg]
  · simp [nextProbe, moveTo, busStopAsserted, busStop, emit, delayMs, hcfg, htrace]

/-- R104: the probe of an address that acknowledges or does not. -/
theorem runs_probe (acked : Bool) (hseq : s.seq = .at 0xD .p1 .act 0 a) : ∃ tick wstart wok,
    Runs (probeActions s.cfg x acked) s
      { s with
        env := ⟨true, x⟩, tick := tick, wstart := wstart, wok := wok, phase := .idle,
        trace := s.trace ++ probeEvents s.cfg a acked, present := if acked then markPresent s.present a else s.present,
        found := s.found + BitVec.ofNat 8 (if acked then 1 else 0),
        seq := .at 0xD (if a + 1 < 127 then .p1 else .s3) .act 0 (if a + 1 < 127 then a + 1 else a) } := by
  have hstart : Ideal (lineSteps s.cfg.busFreeWait + 6) x s _ :=
    Ideal.of_env (by omega) (by rw [hseq]; nofun) hi (ideal_probe_start (s := { s with env := ⟨true, x⟩ }) hi rfl hseq)
  obtain ⟨e, tick, hwait⟩ := runs_probe_wait (x := x) (a := a)
    (s := { s with
      env := ⟨true, x⟩, wstart := s.tick, wok := true, phase := .addressSentForWrite, seq := .at 0xD .p4a .poll 0 a,
      trace := s.trace ++ gateEvents s.cfg.busFreeWait .busFree ++
        [.start, .waitOk .startDone, .tx (addrByte (BitVec.ofNat Config.saBits a) false)] }) hi acked rfl rfl
  obtain ⟨wstart, wok, hend⟩ := ideal_probe_end (x := x) (a := a)
    (s := { s with
      env := ⟨true, x⟩, tick := tick, wstart := s.tick, wok := acked, phase := .addressSentForWrite,
      seq := .at 0xD .p4a .test 0 a,
      trace := s.trace ++ gateEvents s.cfg.busFreeWait .busFree ++
        [.start, .waitOk .startDone, .tx (addrByte (BitVec.ofNat Config.saBits a) false)] ++
        [if acked then .waitOk .addrWAck else .waitTimeout .addrWAck] }) hi rfl rfl
  refine ⟨tick, wstart, wok, (Runs.trans (Runs.trans hstart hwait) (Ideal.of_env (by omega) nofun hi hend)).of_eq rfl ?_⟩
  cases acked <;> simp [nextProbe, moveTo, markedIf, markFound, probeEvents, Config.scanHi]

end Probe

/-! ### The whole scan -/

/-- R105: PRESENT's bits of the addresses from `a` on, when that of `a` is set first. -/
theorem present_from (r : Nat → Bool) {a y : Nat} (ha : a < 127) :
    (r a && decide (y = a) || decide (a + 1 ≤ y) && decide (y < 127) && r y) =
      (decide (a ≤ y) && decide (y < 127) && r y) := by
  rcases Nat.lt_trichotomy y a with hlt | rfl | hgt
  · simp [Nat.ne_of_lt hlt, Nat.not_le.mpr hlt, Nat.not_le.mpr (Nat.lt_succ_of_lt hlt)]
  · simp [ha]
  · simp [Nat.ne_of_gt hgt, Nat.le_of_lt hgt, Nat.succ_le_of_lt hgt]

/-- R104, R105: the probes of the last addresses, from `a` on. -/
theorem runs_probes (r : Nat → Bool) {x : Byte} (n : Nat) : ∀ (a : Nat) (s : State), decode s.cmd = .ok .scan →
    s.seq = .at 0xD .p1 .act 0 a → a + n = 126 → ∃ tick wstart wok present,
      (∀ y, present.getLsbD y = (s.present.getLsbD y || (decide (a ≤ y) && decide (y < 127) && r y))) ∧
      Runs ((List.range' a (n + 1)).flatMap fun b => probeActions s.cfg x (r b)) s
        { s with
          env := ⟨true, x⟩, tick := tick, wstart := wstart, wok := wok, phase := .idle, present := present,
          found := s.found + BitVec.ofNat 8 ((List.range' a (n + 1)).countP r), seq := .at 0xD .s3 .act 0 126,
          trace := s.trace ++ (List.range' a (n + 1)).flatMap fun b => probeEvents s.cfg b (r b) } := by
  induction n with
  | zero =>
    intro a s hi hseq ha
    have hlast : a = 126 := ha
    subst hlast
    obtain ⟨tick, wstart, wok, hrun⟩ := runs_probe (x := x) hi (r 126) hseq
    refine ⟨tick, wstart, wok, if r 126 then markPresent s.present 126 else s.present, fun y => ?_,
      hrun.of_eq (by simp) (by simp [List.countP_singleton])⟩
    rw [present_after_ack s.present (r 126) (by decide) y, ← present_from r (a := 126) (by decide)]
    have hnone : (decide (126 + 1 ≤ y) && decide (y < 127)) = false := by
      simp
    rw [hnone, Bool.false_and, Bool.or_false]
  | succ n ih =>
    intro a s hi hseq ha
    obtain ⟨tick, wstart, wok, hrun⟩ := runs_probe (x := x) hi (r a) hseq
    have hmore : a + 1 < 127 := by omega
    have hrange : List.range' a (n + 1 + 1) = a :: List.range' (a + 1) (n + 1) := List.range'_succ
    rw [if_pos hmore, if_pos hmore] at hrun
    obtain ⟨tick', wstart', wok', present, hbits, hrest⟩ := ih (a + 1)
      { s with
        env := ⟨true, x⟩, tick := tick, wstart := wstart, wok := wok, phase := .idle,
        trace := s.trace ++ probeEvents s.cfg a (r a), present := if r a then markPresent s.present a else s.present,
        found := s.found + BitVec.ofNat 8 (if r a then 1 else 0), seq := .at 0xD .p1 .act 0 (a + 1) } hi rfl (by omega)
    refine ⟨tick', wstart', wok', present, fun y => ?_, (Runs.trans hrun hrest).of_eq ?_ ?_⟩
    · rw [hbits, present_after_ack s.present (r a) (by omega) y, Bool.or_assoc, present_from r (by omega)]
    · rw [hrange, List.flatMap_cons]
    · rw [hrange, List.flatMap_cons, List.countP_cons, Nat.add_comm (List.countP _ _), BitVec.ofNat_add]
      simp [BitVec.add_assoc]

/-- R32, R104: COUNT holds the number found, which is at most 126. -/
theorem countOfFound_ofNat {n : Nat} (hn : n ≤ 126) : countOfFound (0 + BitVec.ofNat 8 n) = BitVec.ofNat 32 n := by
  apply BitVec.eq_of_toNat_eq
  simp [countOfFound]
  omega

/-- Settles O38. -/
theorem scanFindsTheResponsiveSlaves : Obligations.ScanFindsTheResponsiveSlaves := by
  intro r s x run rest hissued hrun hagenda
  have ⟨hseq, hi, _⟩ := hissued
  have hfirst : Ideal 1 x s (firstProbe { s with env := ⟨true, x⟩, present := 0, found := 0 }) :=
    Ideal.of_env (by decide) (by rw [hseq]; nofun) hi
      (Ideal.one hi (by rw [hseq]; nofun) rfl fun rest' => exec_scan_first (s := { s with env := ⟨true, x⟩, agenda := rest' }) hseq)
  obtain ⟨tick, wstart, wok, present, hbits, hprobes⟩ := runs_probes r (x := x) 125 1
    (firstProbe { s with env := ⟨true, x⟩, present := 0, found := 0 }) hi rfl rfl
  have hlast := ideal_scan_finish (x := x) (k := 0) (a := 126)
    (s := { s with
      env := ⟨true, x⟩, tick := tick, wstart := wstart, wok := wok, phase := .idle, present := present,
      found := 0 + BitVec.ofNat 8 ((List.range' 1 126).countP r), seq := .at 0xD .s3 .act 0 126,
      trace := s.trace ++ (List.range' 1 126).flatMap fun b => probeEvents s.cfg b (r b) }) hi rfl rfl
  have hall := (Runs.trans (Runs.trans hfirst hprobes) hlast).of_eq hrun.symm rfl
  refine ⟨_, hall.runSteps hagenda, ?_, fun a => ?_⟩
  · have hcount : (List.range' 1 126).countP r ≤ 126 := List.countP_le_length.trans_eq List.length_range'
    rw [← countOfFound_ofNat hcount]
    rfl
  · exact (hbits a).trans (by simp [firstProbe, moveTo])

end Sys2Proof.Machine
end
